-- ==== Sys2Proof/Word.lean ====
section
/-! DEFINITION. Word.lean: the byte, the unit of everything the link, the labels and the line sensor carry. -/

namespace Sys2Proof

/-- A byte of the link, of a label or of a pixel line (R103, R188, R192). -/
abbrev Byte := BitVec 8

/-- A roll label: its bytes in order (R45, R140). An omitted label is the empty list (R192). -/
abbrev Label := List Byte

end Sys2Proof
end

