-- ==== Sys2Proof/Config.lean ====
section
/-! DEFINITION. Config.lean: what an implementation fixes and the spec does not give (log 6), and the free values (log 4).
None of these has a body that a proof could look into. -/

namespace Sys2Proof

/-- The build identifier, "a fixed 4-byte number of the part's production build" (R199). Its value is open (log 6). -/
opaque Config.buildId : BitVec 32

/-- The revision, "a 1-byte number of the part's revision" (R200). Its value is open (log 6). -/
opaque Config.revision : BitVec 8

/-- The torque demand from the present difference and the running sum (R30), before it is bounded. Open (log 7). -/
opaque Config.torqueDemand : Int → Int → Int

/-- The supply drive's full output, which bounds the torque demand in each direction (R30). Open (log 7). -/
opaque Config.fullOutput : Nat

/-- A free direction: whether a 10 ms window with ticks in both directions reads FORWARD (R1, log 4). -/
opaque Config.freeForward : Nat → Bool

/-- A free frame at the gate: the current frame of a tracker that reckons on an empty Segment Table (R65, log 4). -/
opaque Config.freeFrame : Nat → Nat

/-- A free segment number, of the same tracker (R65, log 4). -/
opaque Config.freeSegment : Nat → Nat

/-- A free pitch: the nominal pitch of a segment 0 opened on a roll that has no description (R68, R84, log 4). -/
opaque Config.freePitch : Nat → Nat

end Sys2Proof
end

