-- ==== Sys2Proof/Syntax.lean ====
section
/-! DEFINITION. Syntax.lean: the commands of the part, one constructor per row of spec/opcode_table.json, with the
named values their operands choose among. A choice that a host command carries as a byte is an Option: none stands
for a byte that names none of the values (R192). -/

namespace Sys2Proof

/-- The device mode (R159). -/
inductive DeviceMode where
  | manual | auto
deriving DecidableEq, Repr

/-- Film width (R45). -/
inductive Gauge where
  | mm16 | mm35
deriving DecidableEq, Repr

/-- Film base (R45). -/
inductive FilmBase where
  | acetate | polyester
deriving DecidableEq, Repr

/-- What TU does at an over-tension detection (R28). -/
inductive TripAction where
  | halt | report
deriving DecidableEq, Repr

/-- Access class of a catalogue window (R140). -/
inductive AccessClass where
  | openToAll | restricted | withdrawn
deriving DecidableEq, Repr

/-- Priority of a request (R155). -/
inductive Priority where
  | normal | urgent
deriving DecidableEq, Repr

/-- Fault Log mode (R209). -/
inductive LogMode where
  | keepNewest | keepFirst | off
deriving DecidableEq, Repr

/-- Level of a notice source (R193). -/
inductive NoticeLevel where
  | off | low | mid | high
deriving DecidableEq, Repr

/-- Class of a fault (R203). -/
inductive FaultClass where
  | major | minor
deriving DecidableEq, Repr

/-- Scope of CLEAR_FAULTS (R206). -/
inductive ClearScope where
  | minor | all
deriving DecidableEq, Repr

/-- A delivery channel (R176). -/
inductive ChannelId where
  | a | b
deriving DecidableEq, Repr

/-- Mode of a delivery channel (R176). -/
inductive ChannelMode where
  | image | telemetry
deriving DecidableEq, Repr

/-- Speed choice of JOG (R19). -/
inductive JogSpeed where
  | creep | index
deriving DecidableEq, Repr

/-- Choice of INDEX_ROLL (R74). -/
inductive IndexChoice where
  | toEnd | target | fresh
deriving DecidableEq, Repr

/-- Direction of one encoder tick (R1). -/
inductive TickDirection where
  | forward | reverse
deriving DecidableEq, Repr

/-- Which of a mark's two edges the sensor reports (R59). -/
inductive MarkEdge where
  | first | second
deriving DecidableEq, Repr

/-- An optional field of a host command (R192): absent, present with its value, or a presence byte above 1. -/
inductive OptArg where
  | absent
  | present (value : Nat)
  | badPresence
deriving DecidableEq, Repr

/-- What the sensors read when the part starts up (R56, R199). -/
structure Sensors where
  /-- The twelve slot presence sensors, slot 0 first. -/
  presence : List Bool
  /-- The slot nearest the threading station. -/
  station : Nat
  /-- The at-position indication. -/
  atPosition : Bool
  /-- Film present at the gate. -/
  gateFilm : Bool
deriving DecidableEq, Repr

/-- The five motion settings (R2). -/
structure MotionSettings where
  seekSpeed : Nat
  indexSpeed : Nat
  scanSpeed : Nat
  acceleration : Nat
  settleDwell : Nat
deriving DecidableEq, Repr

/-- The parameters of SET_TENSION (R28). -/
structure TensionArgs where
  gain : Nat
  scale : Nat
  target : Nat
  limit : Nat
  slackLevel : Nat
  filterCount : Nat
  action : Option TripAction
deriving DecidableEq, Repr

/-- The parameters of ASSIGN_ROLL (R45). -/
structure AssignArgs where
  slot : Nat
  label : Label
  gauge : Option Gauge
  base : Option FilmBase
  q0 : Nat
  lampLevel : Nat
deriving DecidableEq, Repr

/-- The six focus settings, soft limits as two numbers (R102). -/
structure FocusSettings where
  lensMin : Nat
  lensMax : Nat
  nominal : Nat
  mergeDistance : Nat
  staleRatio : Nat
  halfSpan : Nat
  step : Nat
deriving DecidableEq, Repr

/-- CP's settings (R122). -/
structure CaptureSettings where
  linePitch : Nat
  margin : Nat
  lineRate : Nat
  first16 : Nat
  count16 : Nat
  first35 : Nat
  count35 : Nat
deriving DecidableEq, Repr

/-- The parameters of LOAD_WINDOW (R141). -/
structure WindowArgs where
  id : Nat
  base : Nat
  limit : Nat
  label : Label
  firstFrame : Nat
  stride : Nat
  access : Option AccessClass
  originMask : Nat
deriving DecidableEq, Repr

/-- The commands: one constructor per row of spec/opcode_table.json, in the table's order. A host command carries
the tag of its frame (R188) and its parameters. -/
inductive Instr where
  | powerOn (sensors : Sensors)
  | resetnRelease (sensors : Sensors)
  | uptimeTick
  | linkFrameReceived (bytes : List Byte)
  | frameByteTimeout
  | messageBegin
  | messageSent
  | holdAssert
  | holdRelease
  | setMotion (tag : Byte) (args : MotionSettings)
  | seekPosition (tag : Byte) (target : Nat)
  | jog (tag : Byte) (distance : Int) (speed : Option JogSpeed)
  | stopTransport (tag : Byte)
  | readTransport (tag : Byte)
  | encoderTick (direction : TickDirection) (pixels : List Byte)
  | speedWindow
  | settleDwellExpiry
  | encoderTimeout
  | trailerEvent
  | gateLoss
  | gateFilmSeen
  | zeroTension (tag : Byte)
  | setTension (tag : Byte) (args : TensionArgs)
  | readTension (tag : Byte)
  | tensionSample (code : Nat)
  | calibrationComplete
  | setpointRampStep
  | onTargetSet
  | overTensionDetection
  | speedCapLift
  | slackEpisodeBegin
  | slackEpisodeEnd
  | filmBreakDetection
  | assignRoll (tag : Byte) (args : AssignArgs)
  | forgetIndex (tag : Byte) (slot : Nat)
  | readDirectory (tag : Byte)
  | mountRoll (tag : Byte) (slot : Nat)
  | unmountRoll (tag : Byte)
  | carouselPositionChange (station : Nat) (atPosition : Bool)
  | threadingComplete
  | rotationTimeout
  | threadingTimeout
  | retractionTimeout
  | leaderRetracted
  | slotPresenceChange (slot : Nat) (present : Bool)
  | presenceStable (slot : Nat)
  | setMarkClasses (tag : Byte) (shortMax mediumMax longMax : Nat)
  | indexRoll (tag : Byte) (choice : Option IndexChoice) (target : OptArg)
  | readIndex (tag : Byte)
  | edgeMark (edge : MarkEdge) (position : Nat)
  | spliceEvent (position : Nat)
  | setPitchLearning (tag : Byte) (shift : Nat)
  | locateFrame (tag : Byte) (frame : Nat)
  | frameAt (tag : Byte) (position : Nat)
  | focusProbe (tag : Byte) (centre halfSpan step : OptArg)
  | setFocus (tag : Byte) (args : FocusSettings)
  | clearFocusMap (tag : Byte)
  | readFocusMap (tag : Byte)
  | lensStep
  | probeBandRead (lines : List (List Byte))
  | setCapture (tag : Byte) (args : CaptureSettings)
  | readFrameStore (tag : Byte)
  | lampWarmupExpiry
  | loadWindow (tag : Byte) (args : WindowArgs)
  | dropWindow (tag : Byte) (id : Nat)
  | listWindows (tag : Byte) (clear : Option Bool)
  | submitRequest (tag : Byte) (image origin : Nat) (priority : Option Priority)
  | cancelRequest (tag : Byte) (id : Nat)
  | queryQueue (tag : Byte)
  | setMode (tag : Byte) (mode : Option DeviceMode)
  | setPlanning (tag : Byte) (joinDistance : Nat) (onDemand : Option Bool)
  | planningRound
  | captureRunOrder (pixels : List Byte)
  | configureChannel (tag : Byte) (channel : Option ChannelId) (mode : Option ChannelMode) (interval : Nat)
  | readChannels (tag : Byte)
  | channelTakeSlot
  | telemetryIntervalExpiry
  | setNoticeLevels (tag : Byte) (levels : List (Option NoticeLevel))
  | readLink (tag : Byte) (clear : Option Bool)
  | identify (tag : Byte)
  | reset (tag : Byte)
  | clearFaults (tag : Byte) (scope : Option ClearScope)
  | raiseFault (tag : Byte) (cls : Option FaultClass) (code : Nat)
  | readFaults (tag : Byte)
  | setLogMode (tag : Byte) (mode : Option LogMode)
  | readFaultLog (tag : Byte)
  | clearLog (tag : Byte)
  | resetnAssert
deriving DecidableEq, Repr

/-- What LI finds in a good frame (R190): a kind outside the catalogue, a body of the wrong length, or a command. -/
inductive Decoded where
  | unknown
  | badLength
  | command (i : Instr)
deriving DecidableEq, Repr

end Sys2Proof
end

