-- ==== Sys2Proof/Decode.lean ====
section
/-! DEFINITION. Decode.lean: the words of the opcode table (no row gives bits), and the frames of the link: numbers most
significant byte first (R188, R192), the CRC (R188), the command catalogue's decoding and encoding (R190, R192). -/

namespace Sys2Proof

/-- The command that a word spells by the table's bits. No row of the table gives bits, so no word spells one. -/
def decodeTableWord (_nbits _w : Nat) : Option Instr := none

/-! ### Numbers on the link -/

/-- A 1-byte number (R192). -/
def u8 (n : Nat) : List Byte := [BitVec.ofNat 8 n]

/-- A 2-byte number, most significant byte first (R188, R192). -/
def u16 (n : Nat) : List Byte := [BitVec.ofNat 8 (n / 256), BitVec.ofNat 8 n]

/-- A 4-byte number, most significant byte first (R188, R192). -/
def u32 (n : Nat) : List Byte :=
  [BitVec.ofNat 8 (n / 16777216), BitVec.ofNat 8 (n / 65536), BitVec.ofNat 8 (n / 256), BitVec.ofNat 8 n]

/-- A 4-byte number in two's complement (R192). -/
def i32 (z : Int) : List Byte := u32 (BitVec.ofInt 32 z).toNat

/-- The number that bytes spell, most significant byte first (R188). -/
def beNat (bs : List Byte) : Nat := bs.foldl (fun acc b => acc * 256 + b.toNat) 0

/-- The number in the len bytes at an offset. -/
def field (b : List Byte) (off len : Nat) : Nat := beNat ((b.drop off).take len)

/-- A label: its length byte, then its bytes (R192). -/
def wireLabel (l : Label) : List Byte := u8 l.length ++ l

/-! ### The CRC (R188) -/

/-- One bit step of the generator x^16 + x^12 + x^5 + 1. -/
def crcBit (c : BitVec 16) : BitVec 16 :=
  if c.msb then (c <<< 1) ^^^ 0x1021 else c <<< 1

/-- One byte, most significant bit first. -/
def crcByte (c : BitVec 16) (b : Byte) : BitVec 16 :=
  Nat.repeat crcBit 8 (c ^^^ (b.setWidth 16 <<< 8))

/-- The CRC-16 of the link: from FFFFh, neither reflected nor inverted (R188). -/
def crc16 (bs : List Byte) : BitVec 16 := bs.foldl crcByte 0xFFFF

/-- The bytes of a frame: SYNC, kind, tag, length, body, CRC (R188). -/
def frameBytes (kind tag : Byte) (body : List Byte) : List Byte :=
  let covered := kind :: tag :: (u16 body.length ++ body)
  0xC3 :: (covered ++ u16 (crc16 covered).toNat)

/-! ### Named values, optional fields -/

def gaugeNumber : Gauge → Nat
  | .mm16 => 16
  | .mm35 => 35

/-- A gauge is the number 16 or 35 (R192). -/
def gaugeOf : Nat → Option Gauge
  | 16 => some .mm16
  | 35 => some .mm35
  | _ => none

def baseOf (n : Nat) : Option FilmBase := [FilmBase.acetate, .polyester][n]?
def tripActionOf (n : Nat) : Option TripAction := [TripAction.halt, .report][n]?
def jogSpeedOf (n : Nat) : Option JogSpeed := [JogSpeed.creep, .index][n]?
def indexChoiceOf (n : Nat) : Option IndexChoice := [IndexChoice.toEnd, .target, .fresh][n]?
def accessOf (n : Nat) : Option AccessClass := [AccessClass.openToAll, .restricted, .withdrawn][n]?
def priorityOf (n : Nat) : Option Priority := [Priority.normal, .urgent][n]?
def modeOf (n : Nat) : Option DeviceMode := [DeviceMode.manual, .auto][n]?
def channelOf (n : Nat) : Option ChannelId := [ChannelId.a, .b][n]?
def channelModeOf (n : Nat) : Option ChannelMode := [ChannelMode.image, .telemetry][n]?
def levelOf (n : Nat) : Option NoticeLevel := [NoticeLevel.off, .low, .mid, .high][n]?
def scopeOf (n : Nat) : Option ClearScope := [ClearScope.minor, .all][n]?
def logModeOf (n : Nat) : Option LogMode := [LogMode.keepNewest, .keepFirst, .off][n]?

/-- RAISE_FAULT's class, MINOR then MAJOR, as R208 lists it (log 10). -/
def raiseClassOf (n : Nat) : Option FaultClass := [FaultClass.minor, .major][n]?

/-- Index on demand, ON then OFF, as R160 lists it (log 10). -/
def onOffOf (n : Nat) : Option Bool := [true, false][n]?

/-- A set-or-clear indication (R192). -/
def flagOf (n : Nat) : Option Bool := [false, true][n]?

/-- An optional field: presence byte, then the field (R192). -/
def optField (b : List Byte) (off len : Nat) : OptArg :=
  match field b off 1 with
  | 0 => .absent
  | 1 => .present (field b (off + 1) len)
  | _ => .badPresence

/-! ### The command catalogue (R190, R192) -/

/-- A command whose body has a fixed length (R190). -/
def fixedBody (n : Nat) (b : List Byte) (i : Instr) : Decoded :=
  if b.length = n then .command i else .badLength

def decodeSetMotion (tag : Byte) (b : List Byte) : Instr :=
  .setMotion tag
    { seekSpeed := field b 0 2, indexSpeed := field b 2 2, scanSpeed := field b 4 2, acceleration := field b 6 2,
      settleDwell := field b 8 2 }

def decodeSetTension (tag : Byte) (b : List Byte) : Instr :=
  .setTension tag
    { gain := field b 0 1, scale := field b 1 2, target := field b 3 2, limit := field b 5 2,
      slackLevel := field b 7 1, filterCount := field b 8 1, action := tripActionOf (field b 9 1) }

/-- ASSIGN_ROLL: slot, label, gauge, base, Q0, lamp level (R45). -/
def decodeAssignRoll (tag : Byte) (b : List Byte) : Instr :=
  let n := field b 1 1
  .assignRoll tag
    { slot := field b 0 1, label := (b.drop 2).take n, gauge := gaugeOf (field b (2 + n) 1),
      base := baseOf (field b (3 + n) 1), q0 := field b (4 + n) 4, lampLevel := field b (8 + n) 2 }

def decodeSetFocus (tag : Byte) (b : List Byte) : Instr :=
  .setFocus tag
    { lensMin := field b 0 2, lensMax := field b 2 2, nominal := field b 4 2, mergeDistance := field b 6 4,
      staleRatio := field b 10 1, halfSpan := field b 11 2, step := field b 13 2 }

def decodeSetCapture (tag : Byte) (b : List Byte) : Instr :=
  .setCapture tag
    { linePitch := field b 0 1, margin := field b 1 2, lineRate := field b 3 2, first16 := field b 5 2,
      count16 := field b 7 2, first35 := field b 9 2, count35 := field b 11 2 }

/-- LOAD_WINDOW: id, base, limit, label, first frame, stride, access class, origin mask (R141). -/
def decodeLoadWindow (tag : Byte) (b : List Byte) : Instr :=
  let n := field b 9 1
  .loadWindow tag
    { id := field b 0 1, base := field b 1 4, limit := field b 5 4, label := (b.drop 10).take n,
      firstFrame := field b (10 + n) 2, stride := field b (12 + n) 1, access := accessOf (field b (13 + n) 1),
      originMask := field b (14 + n) 2 }

/-- What a good frame carries (R190): its kind is looked up in the catalogue, then its length is checked (R192). -/
def decodeFrame (kind tag : Byte) (b : List Byte) : Decoded :=
  match kind.toNat with
  | 0x01 => fixedBody 10 b (decodeSetMotion tag b)
  | 0x02 => fixedBody 4 b (.seekPosition tag (field b 0 4))
  | 0x03 => fixedBody 5 b (.jog tag (BitVec.ofNat 32 (field b 0 4)).toInt (jogSpeedOf (field b 4 1)))
  | 0x04 => fixedBody 0 b (.stopTransport tag)
  | 0x05 => fixedBody 0 b (.readTransport tag)
  | 0x08 => fixedBody 0 b (.zeroTension tag)
  | 0x09 => fixedBody 10 b (decodeSetTension tag b)
  | 0x0A => fixedBody 0 b (.readTension tag)
  | 0x10 => fixedBody (10 + field b 1 1) b (decodeAssignRoll tag b)
  | 0x11 => fixedBody 1 b (.forgetIndex tag (field b 0 1))
  | 0x12 => fixedBody 0 b (.readDirectory tag)
  | 0x13 => fixedBody 1 b (.mountRoll tag (field b 0 1))
  | 0x14 => fixedBody 0 b (.unmountRoll tag)
  | 0x18 => fixedBody 6 b (.setMarkClasses tag (field b 0 2) (field b 2 2) (field b 4 2))
  | 0x19 => fixedBody 4 b (.indexRoll tag (indexChoiceOf (field b 0 1)) (optField b 1 2))
  | 0x1A => fixedBody 0 b (.readIndex tag)
  | 0x1B => fixedBody 1 b (.setPitchLearning tag (field b 0 1))
  | 0x1C => fixedBody 2 b (.locateFrame tag (field b 0 2))
  | 0x1D => fixedBody 4 b (.frameAt tag (field b 0 4))
  | 0x20 => fixedBody 9 b (.focusProbe tag (optField b 0 2) (optField b 3 2) (optField b 6 2))
  | 0x21 => fixedBody 15 b (decodeSetFocus tag b)
  | 0x22 => fixedBody 0 b (.clearFocusMap tag)
  | 0x23 => fixedBody 0 b (.readFocusMap tag)
  | 0x28 => fixedBody 13 b (decodeSetCapture tag b)
  | 0x29 => fixedBody 0 b (.readFrameStore tag)
  | 0x30 => fixedBody (16 + field b 9 1) b (decodeLoadWindow tag b)
  | 0x31 => fixedBody 1 b (.dropWindow tag (field b 0 1))
  | 0x32 => fixedBody 1 b (.listWindows tag (flagOf (field b 0 1)))
  | 0x38 => fixedBody 6 b (.submitRequest tag (field b 0 4) (field b 4 1) (priorityOf (field b 5 1)))
  | 0x39 => fixedBody 1 b (.cancelRequest tag (field b 0 1))
  | 0x3A => fixedBody 0 b (.queryQueue tag)
  | 0x3B => fixedBody 1 b (.setMode tag (modeOf (field b 0 1)))
  | 0x3C => fixedBody 5 b (.setPlanning tag (field b 0 4) (onOffOf (field b 4 1)))
  | 0x40 =>
    fixedBody 4 b
      (.configureChannel tag (channelOf (field b 0 1)) (channelModeOf (field b 1 1)) (field b 2 2))
  | 0x41 => fixedBody 0 b (.readChannels tag)
  | 0x48 => fixedBody 16 b (.setNoticeLevels tag (b.map (fun x => levelOf x.toNat)))
  | 0x49 => fixedBody 1 b (.readLink tag (flagOf (field b 0 1)))
  | 0x4A => fixedBody 0 b (.identify tag)
  | 0x4B => fixedBody 0 b (.reset tag)
  | 0x50 => fixedBody 1 b (.clearFaults tag (scopeOf (field b 0 1)))
  | 0x51 => fixedBody 2 b (.raiseFault tag (raiseClassOf (field b 0 1)) (field b 1 1))
  | 0x52 => fixedBody 0 b (.readFaults tag)
  | 0x53 => fixedBody 1 b (.setLogMode tag (logModeOf (field b 0 1)))
  | 0x54 => fixedBody 0 b (.readFaultLog tag)
  | 0x55 => fixedBody 0 b (.clearLog tag)
  | _ => .unknown

/-! ### The other way: the frame that carries a command -/

/-- A choice's byte: its place in the list of its values, and 255 for none of them. -/
def choiceByte (n : Option Nat) : List Byte := u8 (n.getD 255)

def optFieldBytes : OptArg → List Byte
  | .absent => u8 0 ++ u16 0
  | .present n => u8 1 ++ u16 n
  | .badPresence => u8 2 ++ u16 0

/-- The kind, tag and body of the frame that carries a host command; none for a row that no frame carries. -/
def encodeCommand : Instr → Option (Byte × Byte × List Byte)
  | .setMotion t a =>
    some (0x01, t, u16 a.seekSpeed ++ u16 a.indexSpeed ++ u16 a.scanSpeed ++ u16 a.acceleration ++ u16 a.settleDwell)
  | .seekPosition t p => some (0x02, t, u32 p)
  | .jog t d sp => some (0x03, t, i32 d ++ choiceByte (sp.map JogSpeed.ctorIdx))
  | .stopTransport t => some (0x04, t, [])
  | .readTransport t => some (0x05, t, [])
  | .zeroTension t => some (0x08, t, [])
  | .setTension t a =>
    some (0x09, t, u8 a.gain ++ u16 a.scale ++ u16 a.target ++ u16 a.limit ++ u8 a.slackLevel ++ u8 a.filterCount
      ++ choiceByte (a.action.map TripAction.ctorIdx))
  | .readTension t => some (0x0A, t, [])
  | .assignRoll t a =>
    some (0x10, t, u8 a.slot ++ wireLabel a.label ++ choiceByte (a.gauge.map gaugeNumber)
      ++ choiceByte (a.base.map FilmBase.ctorIdx) ++ u32 a.q0 ++ u16 a.lampLevel)
  | .forgetIndex t n => some (0x11, t, u8 n)
  | .readDirectory t => some (0x12, t, [])
  | .mountRoll t n => some (0x13, t, u8 n)
  | .unmountRoll t => some (0x14, t, [])
  | .setMarkClasses t a b c => some (0x18, t, u16 a ++ u16 b ++ u16 c)
  | .indexRoll t c f => some (0x19, t, choiceByte (c.map IndexChoice.ctorIdx) ++ optFieldBytes f)
  | .readIndex t => some (0x1A, t, [])
  | .setPitchLearning t k => some (0x1B, t, u8 k)
  | .locateFrame t f => some (0x1C, t, u16 f)
  | .frameAt t p => some (0x1D, t, u32 p)
  | .focusProbe t c h st => some (0x20, t, optFieldBytes c ++ optFieldBytes h ++ optFieldBytes st)
  | .setFocus t a =>
    some (0x21, t, u16 a.lensMin ++ u16 a.lensMax ++ u16 a.nominal ++ u32 a.mergeDistance ++ u8 a.staleRatio
      ++ u16 a.halfSpan ++ u16 a.step)
  | .clearFocusMap t => some (0x22, t, [])
  | .readFocusMap t => some (0x23, t, [])
  | .setCapture t a =>
    some (0x28, t, u8 a.linePitch ++ u16 a.margin ++ u16 a.lineRate ++ u16 a.first16 ++ u16 a.count16 ++ u16 a.first35
      ++ u16 a.count35)
  | .readFrameStore t => some (0x29, t, [])
  | .loadWindow t a =>
    some (0x30, t, u8 a.id ++ u32 a.base ++ u32 a.limit ++ wireLabel a.label ++ u16 a.firstFrame ++ u8 a.stride
      ++ choiceByte (a.access.map AccessClass.ctorIdx) ++ u16 a.originMask)
  | .dropWindow t n => some (0x31, t, u8 n)
  | .listWindows t c => some (0x32, t, choiceByte (c.map Bool.toNat))
  | .submitRequest t i o p => some (0x38, t, u32 i ++ u8 o ++ choiceByte (p.map Priority.ctorIdx))
  | .cancelRequest t n => some (0x39, t, u8 n)
  | .queryQueue t => some (0x3A, t, [])
  | .setMode t m => some (0x3B, t, choiceByte (m.map DeviceMode.ctorIdx))
  | .setPlanning t d o => some (0x3C, t, u32 d ++ choiceByte (o.map (fun x => (!x).toNat)))
  | .configureChannel t c m n =>
    some (0x40, t, choiceByte (c.map ChannelId.ctorIdx) ++ choiceByte (m.map ChannelMode.ctorIdx) ++ u16 n)
  | .readChannels t => some (0x41, t, [])
  | .setNoticeLevels t ls => some (0x48, t, ls.flatMap (fun l => choiceByte (l.map NoticeLevel.ctorIdx)))
  | .readLink t c => some (0x49, t, choiceByte (c.map Bool.toNat))
  | .identify t => some (0x4A, t, [])
  | .reset t => some (0x4B, t, [])
  | .clearFaults t sc => some (0x50, t, choiceByte (sc.map ClearScope.ctorIdx))
  | .raiseFault t c n => some (0x51, t, choiceByte (c.map (fun x => 1 - x.ctorIdx)) ++ u8 n)
  | .readFaults t => some (0x52, t, [])
  | .setLogMode t m => some (0x53, t, choiceByte (m.map LogMode.ctorIdx))
  | .readFaultLog t => some (0x54, t, [])
  | .clearLog t => some (0x55, t, [])
  | _ => none

/-- The frame that carries a host command, byte by byte; empty for a row that no frame carries. -/
def commandFrame (i : Instr) : List Byte :=
  match encodeCommand i with
  | some (kind, tag, body) => frameBytes kind tag body
  | none => []

end Sys2Proof
end

