-- ==== Sys2Proof/Machine/State.lean ====
section
/-! DEFINITION. State.lean: the whole state of the part as plain data, block by block, and its value after reset. -/

namespace Sys2Proof.Machine

/-! ### TC, film transport (chapter 1) -/

/-- The seven transport states (R3), in the numbering of the TELEMETRY body (R183). -/
inductive TransportState where
  | unloaded | threading | stopped | seeking | scanning | rewinding | halted
deriving DecidableEq, Repr

/-- The direction of the film (R1). -/
inductive Direction where
  | none | forward | reverse
deriving DecidableEq, Repr

/-- Who ordered a motion, a probe, a pass or a mount (R4, R104, R75, R48). -/
inductive Requester where
  | host | rs | ix | cu
deriving DecidableEq, Repr

/-- Purpose of a run (R12). -/
inductive RunPurpose where
  | capture | index
deriving DecidableEq, Repr

/-- What the drives are doing in the motion in progress, or in a stop (R5 to R8, R11, R12, R20). -/
inductive Phase where
  | idle | travel | decelerate | creep | reversal | overshoot | controlledStop | emergencyStop | dwell
deriving DecidableEq, Repr

/-- How a seek ended (R9). -/
inductive SeekOutcome where
  | arrived | missed | stopped | endOfFilm | halted
deriving DecidableEq, Repr

/-- Why a run ended (R12). -/
inductive RunEnd where
  | endReached | finished | trailer | stopped | halted
deriving DecidableEq, Repr

/-- A seek in progress (R3, R5 to R8, R10). capSpeed is the scan speed setting at its start (R2, R5). -/
structure Seek where
  requester : Requester
  target : Nat
  clamped : Bool
  speedLimit : Nat
  accel : Nat
  capSpeed : Nat
  dwell : Nat
  corrections : Nat
  correcting : Bool
deriving DecidableEq, Repr

/-- A run in progress (R3, R12). -/
structure Run where
  requester : Requester
  purpose : RunPurpose
  speed : Nat
  accel : Nat
  endPosition : Option Nat
deriving DecidableEq, Repr

/-- A threading in progress (R3, R14): its speed limit and acceleration, taken at its start. -/
structure Threading where
  speedLimit : Nat
  accel : Nat
deriving DecidableEq, Repr

/-- A rewind in progress (R14): the unmount's, or a recovery's. -/
structure Rewind where
  recovery : Bool
  speedLimit : Nat
  accel : Nat
  capSpeed : Nat
deriving DecidableEq, Repr

/-- The motion in progress (R3). -/
inductive Motion where
  | seek (m : Seek)
  | run (m : Run)
  | threading (m : Threading)
  | rewind (m : Rewind)
deriving DecidableEq, Repr

/-- A run that has ended and whose end is reported once the film is at rest (R12). -/
structure EndedRun where
  requester : Requester
  purpose : RunPurpose
  reason : RunEnd
deriving DecidableEq, Repr

/-- The Transport Controller's state (chapter 1). -/
structure Tc where
  state : TransportState
  position : Nat
  underrun : Nat
  speed : Nat
  direction : Direction
  /-- The 10 ms being counted: its ticks, and whether any went each way (R1). -/
  windowTicks : Nat
  windowForward : Bool
  windowReverse : Bool
  /-- 10 ms windows without a tick, up to 20 (200 ms: R206). -/
  idleWindows : Nat
  threaded : Bool
  motion : Option Motion
  phase : Phase
  /-- The commanded direction of travel (R6). -/
  travel : Direction
  /-- The deceleration of the stop in progress, mm/s² (R11, R20, R23). -/
  stopRate : Nat
  endedRun : Option EndedRun
  settings : MotionSettings
deriving DecidableEq, Repr

/-! ### TU, tension (chapter 2) -/

/-- Calibration status (R26). -/
inductive CalStatus where
  | none | inProgress | done | outOfRange | abandoned
deriving DecidableEq, Repr

/-- The seven tension settings (R28). -/
structure TensionSettings where
  gain : Nat
  scale : Nat
  target : Nat
  limit : Nat
  slackLevel : Nat
  filterCount : Nat
  action : TripAction
deriving DecidableEq, Repr

/-- The Tension Unit's state (chapter 2). -/
structure Tu where
  code : Nat
  tRaw : Int
  settings : TensionSettings
  zeroCode : Nat
  limitCode : Nat
  loopOn : Bool
  setpoint : Nat
  runningSum : Int
  torque : Int
  onTarget : Bool
  onTargetCount : Nat
  overCount : Nat
  withinCount : Nat
  overLimit : Bool
  capInForce : Bool
  driveInhibit : Bool
  slackCount : Nat
  breakCount : Nat
  recoveryCount : Nat
  slackEpisode : Bool
  calStatus : CalStatus
  calSum : Nat
  calCount : Nat
  /-- A detection made at a sample whose own step has not been taken (log 5). -/
  detectionDue : Bool
deriving DecidableEq, Repr

/-! ### Index tables (chapters 4 and 5), held live by IX and saved by CU -/

/-- Class of a mark that is read (R60). -/
inductive MarkClass where
  | short | medium | long
deriving DecidableEq, Repr

/-- Why a segment starts where it does (R68). -/
inductive BreakReason where
  | start | splice | gap
deriving DecidableEq, Repr

/-- Learning state of a segment (R84). -/
inductive LearnState where
  | provisional | learned | drifted
deriving DecidableEq, Repr

/-- A segment record (R68, R84). It is closed exactly when its last frame is present. -/
structure Segment where
  number : Nat
  firstFrame : Nat
  lastFrame : Option Nat
  startPos : Nat
  endPos : Option Nat
  frontier : Option Nat
  anchorFrame : Nat
  anchorPos : Nat
  pitch : Nat
  observations : Nat
  rejects : Nat
  inferred : Nat
  reason : BreakReason
  learning : LearnState
deriving DecidableEq, Repr

/-- A Landmark List entry (R73). -/
structure Landmark where
  frame : Nat
  position : Nat
  cls : MarkClass
deriving DecidableEq, Repr

/-- A Focus Map entry (R111). -/
structure MapEntry where
  position : Nat
  lens : Nat
  score : Nat
  stale : Bool
deriving DecidableEq, Repr

/-- Index state of a roll (section 4.6). -/
inductive IndexState where
  | unindexed | partial_ | indexed
deriving DecidableEq, Repr

/-! ### CU, carousel and directory (chapter 3) -/

/-- Slot state of a directory entry (section 3.2). -/
inductive SlotState where
  | empty | stored | mounting | mounted | unmounting | rejected
deriving DecidableEq, Repr

/-- A roll description (section 3.2). -/
structure Description where
  gauge : Gauge
  base : FilmBase
  q0 : Nat
  lampLevel : Nat
deriving DecidableEq, Repr

/-- A Roll Directory entry (section 3.2). The empty label is the absent one. -/
structure Entry where
  state : SlotState
  label : Label
  description : Option Description
  rollLength : Option Nat
  indexState : IndexState
  lastIndexed : Option Nat
  landmarksDropped : Bool
  segments : List Segment
  landmarks : List Landmark
  focusMap : List MapEntry
deriving DecidableEq, Repr

/-- A rotation in progress (R40). -/
structure Rotation where
  target : Nat
  ascending : Bool
deriving DecidableEq, Repr

/-- The threader (R50 to R52). -/
inductive Threader where
  | retracted | engaged | retracting
deriving DecidableEq, Repr

/-- The Carousel Unit's state (chapter 3). -/
structure Cu where
  station : Nat
  atPosition : Bool
  rotation : Option Rotation
  rotationTimer : Bool
  threadingTimer : Bool
  retractionTimer : Bool
  threader : Threader
  /-- The slot the door lock is engaged on, or released (R41). -/
  lock : Option Nat
  /-- The gate sensor has reported film in this threading (R51). -/
  gateReported : Bool
  /-- Who ordered the mount or unmount in progress (R48, R54). -/
  opRequester : Option Requester
  /-- Per slot, the 250 ms stability time is running (R43). -/
  settling : List Bool
  entries : List Entry
deriving DecidableEq, Repr

/-! ### IX, index (chapters 4 and 5) -/

/-- Tracker state (section 4.2). -/
inductive TrackerState where
  | none | counting | reckoning | lost
deriving DecidableEq, Repr

/-- The position and class of the last mark counted or matched (R62). -/
structure LastMark where
  position : Nat
  cls : MarkClass
deriving DecidableEq, Repr

/-- The Frame Tracker record (R62). -/
structure Tracker where
  state : TrackerState
  frame : Option Nat
  segment : Option Nat
  lastMark : Option LastMark
  leaderArmed : Bool
  stray : Nat
deriving DecidableEq, Repr

/-- Kind of an index pass (section 4.6). -/
inductive IndexKind where
  | fresh | extension
deriving DecidableEq, Repr

/-- Phase of an index pass (R75). -/
inductive IndexPhase where
  | return_ | approach | run
deriving DecidableEq, Repr

/-- What the trailer event of a pass's run found (R80). -/
structure TrailerSeen where
  position : Nat
  counting : Bool
deriving DecidableEq, Repr

/-- The index pass record (R75), with what R77, R78 and R80 need of the pass so far. -/
structure IndexPass where
  kind : IndexKind
  target : Option Nat
  requester : Requester
  phase : IndexPhase
  frontier : Bool
  countedTo : Nat
  pending : Option BreakReason
  /-- The last indexed frame at the pass start (R76, R80). -/
  lastAtStart : Option Nat
  /-- The pass began with the tracker LOST (R77). -/
  startedLost : Bool
  /-- The run has yet to read its first mark, which decides whether the extension fails (R77, a pass begun in sync or
  NONE). -/
  firstMarkDue : Bool
  /-- The extension has failed (R77): its run finishes, or stops at the trailer, and the pass restarts (R78). -/
  failed : Bool
  /-- A limit of the index was met (R72). -/
  limitHit : Bool
  trailer : Option TrailerSeen
deriving DecidableEq, Repr

/-- The three class limits (R61). -/
structure MarkClasses where
  shortMax : Nat
  mediumMax : Nat
  longMax : Nat
deriving DecidableEq, Repr

/-- The first edge of a mark under the sensor (R59). -/
structure FirstEdge where
  position : Nat
  direction : Direction
deriving DecidableEq, Repr

/-- The Index Unit's state (chapters 4 and 5). -/
structure Ix where
  tracker : Tracker
  invalidMarks : Nat
  segments : List Segment
  landmarks : List Landmark
  pass : Option IndexPass
  classes : MarkClasses
  shift : Nat
  /-- The nominal pitch handed over at the mount (R84). -/
  q0 : Option Nat
  firstEdge : Option FirstEdge
deriving DecidableEq, Repr

/-! ### FU, focus (chapter 6) -/

/-- Phase of a probe (R104). -/
inductive ProbePhase where
  | lamp | sweep
deriving DecidableEq, Repr

/-- A point of the current sweep, with its score once visited (R104). -/
structure ProbePoint where
  lens : Nat
  score : Option Nat
deriving DecidableEq, Repr

/-- The probe record (R104). -/
structure Probe where
  requester : Requester
  position : Nat
  centre : Nat
  halfSpan : Nat
  step : Nat
  shifted : Bool
  sweep : Nat
  phase : ProbePhase
  points : List ProbePoint
deriving DecidableEq, Repr

/-- The Focus Unit's state (chapter 6). -/
structure Fu where
  lens : Nat
  target : Nat
  settings : FocusSettings
  map : List MapEntry
  probe : Option Probe
  tracking : Bool
  lagReported : Bool
deriving DecidableEq, Repr

/-! ### CP, capture and the frame store (chapter 7) -/

/-- The lamp (R124). The warm-up timer runs exactly while it is warming. -/
inductive Lamp where
  | off | warming | lit
deriving DecidableEq, Repr

/-- State of a frame-store slot that is not FREE (R126). -/
inductive StoreState where
  | reserved | filling | ready | sending
deriving DecidableEq, Repr

/-- The flags of a frame record (R134). -/
structure FrameFlags where
  clamped : Bool
  truncated : Bool
  markNotSeen : Bool
  focusLag : Bool
  predictedOnly : Bool
deriving DecidableEq, Repr

/-- A frame record (R134). Fields not known yet are 0, empty or absent. -/
structure FrameRecord where
  reqId : Nat
  origin : Nat
  image : Nat
  label : Label
  frame : Nat
  segment : Nat
  flags : FrameFlags
  predicted : Nat
  observed : Option Nat
  windowStart : Nat
  lines : Nat
  pixels : Nat
  lens : Nat
  score : Nat
deriving DecidableEq, Repr

/-- What a frame-store slot that is not FREE holds (R126). -/
structure StoreSlot where
  state : StoreState
  reqId : Nat
  record : FrameRecord
  lines : List (List Byte)
deriving DecidableEq, Repr

/-- What RS hands over for one job (R128). -/
structure JobOrder where
  reqId : Nat
  origin : Nat
  image : Nat
  label : Label
  slot : Nat
  frame : Nat
  segment : Nat
  predicted : Nat
  clamped : Bool
deriving DecidableEq, Repr

/-- State of a job (R129, R132, R133). No rule lists the four together; the order here, WAITING, FILLING, DONE, ABORTED, is
that of their numbers in a reply (DESIGN CHOICE, log 10). -/
inductive JobState where
  | waiting | filling | done | aborted
deriving DecidableEq, Repr

/-- A job of the list held (R129). pitch is the Q taken with the list. missed says that ws lay below P when the run was
taken, so that the window never starts (R130). -/
structure Job where
  order : JobOrder
  windowStart : Nat
  lines : Nat
  pitch : Nat
  truncated : Bool
  lineIndex : Nat
  missed : Bool
  state : JobState
  observed : Option Nat
  focusLag : Bool
  predictedOnly : Bool
  lens : Nat
deriving DecidableEq, Repr

/-- The job list held, and whether a run carries it (R129). -/
structure JobList where
  bound : Bool
  jobs : List Job
deriving DecidableEq, Repr

/-- The Capture Unit's state (chapter 7). -/
structure Cp where
  settings : CaptureSettings
  gauge : Option Gauge
  lampLevel : Option Nat
  lamp : Lamp
  probeHolds : Bool
  listHolds : Bool
  slots : List (Option StoreSlot)
  ready : List Nat
  jobs : Option JobList
deriving DecidableEq, Repr

/-! ### CT, catalogue (chapter 8) -/

/-- A catalogue window (R140). -/
structure Window where
  id : Nat
  base : Nat
  limit : Nat
  label : Label
  firstFrame : Nat
  stride : Nat
  access : AccessClass
  originMask : Nat
  denied : Nat
deriving DecidableEq, Repr

/-- The Catalogue's state (chapter 8). -/
structure Ct where
  windows : List Window
deriving DecidableEq, Repr

/-! ### RS, scheduler (chapter 9) -/

/-- State of a queue entry (R155). -/
inductive RequestState where
  | waitingRoll | waitingIndex | ready | planned | capturing | captured | delivering
deriving DecidableEq, Repr

/-- Where a frame was placed (R149, R155). -/
structure Placed where
  segment : Nat
  position : Nat
  clamped : Bool
deriving DecidableEq, Repr

/-- A Host Request Queue entry (R155). -/
structure Request where
  id : Nat
  age : Nat
  origin : Nat
  image : Nat
  windowId : Nat
  label : Label
  frame : Nat
  priority : Priority
  slot : Option Nat
  placed : Option Placed
  retries : Nat
  storeSlot : Option Nat
  passedOver : Nat
  state : RequestState
deriving DecidableEq, Repr

/-- An Internal Work List item (R157). -/
inductive WorkItem where
  | indexPass (slot : Nat) (target : Option Nat)
  | focusProbe (position : Nat)
deriving DecidableEq, Repr

/-- Kind of an RS pass (R160). -/
inductive PassKind where
  | mount | switch | index | probe | capture
deriving DecidableEq, Repr

/-- Phase of an RS pass (R163 to R167). -/
inductive PassPhase where
  | unmount | mount | index | seek | probe | run
deriving DecidableEq, Repr

/-- Outcome of an RS pass (R160). -/
inductive PassOutcome where
  | completed | failed | stopped | halted | abandoned
deriving DecidableEq, Repr

/-- One job of the run plan (R167). It holds the request, the slot, the frame and the window, and not the predicted position
and CLAMPED, which the orders to CP carry (R128): R167 names no fields, and R87 lets the flag travel into the plan
(DESIGN CHOICE, log 36). -/
structure PlanJob where
  reqId : Nat
  slot : Nat
  frame : Nat
  windowStart : Nat
  lines : Nat
deriving DecidableEq, Repr

/-- The run plan of a CAPTURE pass (R167). -/
structure RunPlan where
  jobs : List PlanJob
  start : Nat
  speed : Nat
  endPosition : Nat
  speedLowered : Bool
  verified : Bool
deriving DecidableEq, Repr

/-- The RS pass record (R160), with the reports awaited (R167) and the job counts (R160). -/
structure RsPass where
  kind : PassKind
  phase : PassPhase
  slot : Nat
  label : Label
  item : Option WorkItem
  probePosition : Nat
  dropped : Bool
  plan : Option RunPlan
  seekDone : Bool
  lampLit : Bool
  disturbed : Bool
  capturedJobs : Nat
  misframeJobs : Nat
  droppedJobs : Nat
deriving DecidableEq, Repr

/-- The Request Scheduler's state (chapter 9). -/
structure Rs where
  mode : DeviceMode
  joinDistance : Nat
  indexOnDemand : Bool
  lastId : Nat
  submissions : Nat
  captureCount : Nat
  countedSlot : Option Nat
  queue : List Request
  items : List WorkItem
  pass : Option RsPass
  /-- A planning opportunity at which the planning conditions held, its round not yet taken (R159, log 5). -/
  planningDue : Bool
deriving DecidableEq, Repr

/-! ### DC, delivery channels (chapter 10) -/

/-- The delivery in hand of a SENDING channel (R176). -/
structure Sending where
  slot : Nat
  reqId : Nat
  blockCount : Nat
  nextBlock : Nat
deriving DecidableEq, Repr

/-- A channel record (R176). Its state is SENDING while a delivery is in hand, else IDLE or STREAMING by its mode. -/
structure Channel where
  mode : ChannelMode
  sending : Option Sending
  /-- The block handed to the arbiter and not yet begun. -/
  waiting : Option (List Byte)
  /-- A block of the delivery in hand has begun and not yet ended. -/
  inTransmission : Bool
  imagesSent : Nat
deriving DecidableEq, Repr

/-- The Delivery Channels' state (chapter 10). The interval timer runs exactly while channel B is STREAMING. -/
structure Dc where
  a : Channel
  b : Channel
  interval : Nat
  sequence : Nat
  skipped : Nat
  /-- The snapshot handed to the arbiter and not yet begun. -/
  snapshot : Option (List Byte)
deriving DecidableEq, Repr

/-! ### FM, faults (chapter 12) -/

/-- The fault codes, in the numbering of R203. -/
inductive FaultCode where
  | overTension | filmBreak | encoderFault | carouselJam | filmStranded | operatorMajor | slack | endOfFilm
  | seekMissed | threadFailed | pitchDrift | misframe | focusEdge | focusLag | indexFailed | operatorMinor
deriving DecidableEq, Repr

/-- The detail that the raising rule gives (R203). -/
inductive FaultDetail where
  | overTension
  | breakGate (position : Nat)
  | breakSlack (tRaw : Int) (position : Nat)
  | encoder (state : TransportState) (position : Nat)
  | jamRotation (target station : Nat) (atPosition : Bool)
  | jamThreader (slot : Nat)
  | stranded (station : Nat) (atPosition : Bool)
  | operator (code : Nat)
  | slack (tRaw : Int) (position : Nat) (state : TransportState)
  | endOfFilm (position : Nat)
  | seekMissed (target position : Nat)
  | threadFailed (slot : Nat) (gateSeen : Bool)
  | pitchDrift (slot segment frame : Nat) (residual : Int) (pitch : Nat)
  | misframe (reqId slot frame counted position : Nat)
  | focusEdge (position lens : Nat) (softLimit : Bool)
  | focusLag (slot position lens target : Nat)
  | indexSegments (slot position : Nat)
  | indexFrames (slot position : Nat)
  | indexNoMarks (slot : Nat)
deriving DecidableEq, Repr

/-- An entry of the active fault set (R204). -/
structure FaultEntry where
  code : FaultCode
  cls : FaultClass
  firstSeen : Nat
  count : Nat
  detail : FaultDetail
  position : Nat
  slot : Option Nat
deriving DecidableEq, Repr

/-- A Fault Log record (R209). -/
structure LogRecord where
  cls : FaultClass
  code : FaultCode
  detail : FaultDetail
  position : Nat
  slot : Option Nat
  uptime : Nat
deriving DecidableEq, Repr

/-- The Fault Monitor's state (chapter 12). The halt latch is set exactly while a MAJOR entry is held (R205). -/
structure Fm where
  active : List FaultEntry
  log : List LogRecord
  logMode : LogMode
  overflow : Nat
  fullReported : Bool
deriving DecidableEq, Repr

/-! ### LI, link (chapter 11) -/

/-- Status of a reply, in the numbering of R191. -/
inductive Status where
  | ok | accepted | busy | mode | occupied | noRoll | range | overlap | duplicate | duplicateLabel | queueFull
  | notFound | tooLate | cancelled | notHeld | withdrawn | denied | notInRoll | halted | stillPresent | unknown
  | badLength
deriving DecidableEq, Repr

/-- A reply on the reply list (R191): tag, kind of the command answered, status and data. -/
structure Reply where
  tag : Byte
  kind : Byte
  status : Status
  data : List Byte
deriving DecidableEq, Repr

/-- The notice sources, in the numbering of R193. -/
inductive Source where
  | faultMajor | trip | start | faultMinor | mountDone | unmountDone | rollWanted | indexDone | requestFailed
  | operator | focusDone | seekDone | slotChange | logFull | linkError | passDone
deriving DecidableEq, Repr

/-- Reset cause (R199). -/
inductive ResetCause where
  | powerOn | pin | command
deriving DecidableEq, Repr

/-- Outcome of a mount (R50, R51, R53). -/
inductive MountOutcome where
  | mounted | failed | halted
deriving DecidableEq, Repr

/-- Outcome of an unmount (R53, R55), STORED numbered 0 and HALTED 1, as for a mount (log 10). -/
inductive UnmountOutcome where
  | stored | halted
deriving DecidableEq, Repr

/-- Outcome of an index pass (R80). -/
inductive IndexOutcome where
  | indexed | partial_ | failed | aborted
deriving DecidableEq, Repr

/-- Why a request failed (R172). -/
inductive FailReason where
  | notInRoll | indexFailed | misframe
deriving DecidableEq, Repr

/-- Result of a completed probe (R107, R108). -/
inductive ProbeOutcome where
  | peak | edgeLimited
deriving DecidableEq, Repr

/-- Why a probe was aborted (R110). -/
inductive AbortReason where
  | stopped | halted
deriving DecidableEq, Repr

/-- Kind of a link error (R189, R190). -/
inductive LinkErrorKind where
  | crc | framing | overrun
deriving DecidableEq, Repr

/-- The detail of a notice, field by field as the posting rule lists it. -/
inductive NoticeDetail where
  | fault (code : FaultCode) (cls : FaultClass) (count : Nat) (detail : FaultDetail) (position : Nat)
      (slot : Option Nat)
  | trip (action : TripAction) (code tension limitCode position : Nat) (state : TransportState)
  | start (cause : ResetCause) (threaded : Bool) (slots : Nat)
  | mountDone (slot : Nat) (label : Label) (description : Option Description) (outcome : MountOutcome)
  | unmountDone (slot : Nat) (label : Label) (outcome : UnmountOutcome)
  | rollWanted (label : Label) (count : Nat)
  | indexDone (slot : Nat) (label : Label) (outcome : IndexOutcome) (state : IndexState) (last : Option Nat)
      (segments landmarks : Nat)
  | requestFailed (reqId origin image : Nat) (label : Label) (frame : Nat) (reason : FailReason) (retries : Nat)
  | operator (cls : FaultClass) (code count position : Nat) (slot : Option Nat)
  | focusDone (requester : Requester) (outcome : ProbeOutcome) (position lens score sweeps : Nat) (shifted : Bool)
      (replaced : Option Nat)
  | focusAborted (requester : Requester) (reason : AbortReason)
  | seekDone (outcome : SeekOutcome) (target position corrections : Nat) (clamped : Bool)
  | slotChange (slot : Nat) (state : SlotState)
  | logFull (mode : LogMode) (overflow : Nat)
  | linkError (kind : LinkErrorKind) (crc framing overrun : Nat)
  | passDone (kind : PassKind) (outcome : PassOutcome) (slot captured misframe dropped : Nat)
deriving DecidableEq, Repr

/-- A pending notice (R193). -/
structure Notice where
  source : Source
  count : Nat
  detail : NoticeDetail
  uptime : Nat
deriving DecidableEq, Repr

/-- Who is told that the message in transmission has been sent (R196). An orphan block belongs to a delivery that a
soft reset has ended (R187). -/
inductive TxSource where
  | reply
  | notice
  | telemetry
  | block (channel : ChannelId)
  | orphan
deriving DecidableEq, Repr

/-- The message in transmission (R196): its source and the bytes of its frame, SYNC to CRC (R188). -/
structure TxMessage where
  source : TxSource
  frame : List Byte
deriving DecidableEq, Repr

/-- The Link Interface's state (chapter 11). -/
structure Li where
  /-- The bytes of the frame being collected, SYNC first; empty while hunting (R189). -/
  rx : List Byte
  places : Nat
  replies : List Reply
  levels : List NoticeLevel
  notices : List Notice
  crcErrors : Nat
  framingErrors : Nat
  overruns : Nat
  lastChannel : ChannelId
  uptime : Nat
  tx : Option TxMessage
deriving DecidableEq, Repr

/-! ### The whole part -/

/-- Why the model stops with a fault: never. The spec gives every command an effect, so no constructor stands here. -/
inductive Fault where
deriving DecidableEq, Repr

/-- Why the model refuses a command. -/
inductive Refusal where
  /-- The command has no meaning in this model yet. Raised by an arm of `exec`; safe, for nothing is claimed of it. -/
  | notModelled (mnemonic : String)
deriving DecidableEq, Repr

/-- The state of the part: its eleven blocks, its pins and sensor levels, the commands waiting, and the model's own
counter for free values (log 4). -/
structure State where
  tc : Tc
  tu : Tu
  cu : Cu
  ix : Ix
  fu : Fu
  cp : Cp
  ct : Ct
  rs : Rs
  dc : Dc
  li : Li
  fm : Fm
  /-- RESETn is low (R199). -/
  resetHeld : Bool
  /-- HOLD is asserted (R197). -/
  hold : Bool
  /-- The gate sensor reports film (R16). -/
  gateFilm : Bool
  /-- The twelve slot presence sensors (R43). -/
  presence : List Bool
  /-- The commands waiting, first in, first out. -/
  pending : List Instr
  /-- The model's own counter for free values (log 4). -/
  free : Nat
deriving DecidableEq, Repr

/-! ### After reset -/

/-- TC after power-on with no film in the gate (R1, R2, R22; log 3 for speed, direction and the window counts). -/
def Tc.reset : Tc where
  state := .unloaded
  position := 0
  underrun := 0
  speed := 0
  direction := .none
  windowTicks := 0
  windowForward := false
  windowReverse := false
  idleWindows := 20
  threaded := false
  motion := none
  phase := .idle
  travel := .none
  stopRate := 0
  endedRun := none
  settings := { seekSpeed := 2000, indexSpeed := 800, scanSpeed := 200, acceleration := 1500, settleDwell := 50 }

/-- TU after power-on (R28, R38; log 3 for the latest sample and the over-limit indication). -/
def Tu.reset : Tu where
  code := 0
  tRaw := 0
  settings :=
    { gain := 4, scale := 1280, target := 150, limit := 400, slackLevel := 20, filterCount := 8, action := .halt }
  zeroCode := 2048
  limitCode := 2368
  loopOn := false
  setpoint := 0
  runningSum := 0
  torque := 0
  onTarget := false
  onTargetCount := 0
  overCount := 0
  withinCount := 0
  overLimit := false
  capInForce := false
  driveInhibit := false
  slackCount := 0
  breakCount := 0
  recoveryCount := 0
  slackEpisode := false
  calStatus := .none
  calSum := 0
  calCount := 0
  detectionDue := false

/-- An EMPTY directory entry (section 3.2). -/
def Entry.empty : Entry where
  state := .empty
  label := []
  description := none
  rollLength := none
  indexState := .unindexed
  lastIndexed := none
  landmarksDropped := false
  segments := []
  landmarks := []
  focusMap := []

/-- CU after power-on with no cartridge in any slot (R56, log 2). -/
def Cu.reset : Cu where
  station := 0
  atPosition := false
  rotation := none
  rotationTimer := false
  threadingTimer := false
  retractionTimer := false
  threader := .retracted
  lock := none
  gateReported := false
  opRequester := none
  settling := List.replicate 12 false
  entries := List.replicate 12 Entry.empty

/-- The tracker after an installation or power-on (R62, R82). -/
def Tracker.reset : Tracker where
  state := .none
  frame := none
  segment := none
  lastMark := none
  leaderArmed := true
  stray := 0

/-- IX after power-on (R61, R82, R95, R99). -/
def Ix.reset : Ix where
  tracker := Tracker.reset
  invalidMarks := 0
  segments := []
  landmarks := []
  pass := none
  classes := { shortMax := 120, mediumMax := 300, longMax := 800 }
  shift := 3
  q0 := none
  firstEdge := none

/-- FU after power-on (R102, R119). -/
def Fu.reset : Fu where
  lens := 2048
  target := 2048
  settings :=
    { lensMin := 0, lensMax := 4095, nominal := 2048, mergeDistance := 50000, staleRatio := 12, halfSpan := 40,
      step := 10 }
  map := []
  probe := none
  tracking := false
  lagReported := false

/-- CP after power-on (R122, R138). -/
def Cp.reset : Cp where
  settings :=
    { linePitch := 1, margin := 300, lineRate := 40000, first16 := 1024, count16 := 6144, first35 := 0,
      count35 := 8192 }
  gauge := none
  lampLevel := none
  lamp := .off
  probeHolds := false
  listHolds := false
  slots := List.replicate 16 none
  ready := []
  jobs := none

/-- CT after power-on (R153). -/
def Ct.reset : Ct where
  windows := []

/-- RS after power-on (R175). -/
def Rs.reset : Rs where
  mode := .manual
  joinDistance := 20000
  indexOnDemand := true
  lastId := 0
  submissions := 0
  captureCount := 0
  countedSlot := none
  queue := []
  items := []
  pass := none
  planningDue := false

/-- A delivery channel after power-on (R186). -/
def Channel.reset : Channel where
  mode := .image
  sending := none
  waiting := none
  inTransmission := false
  imagesSent := 0

/-- DC after power-on (R186). -/
def Dc.reset : Dc where
  a := Channel.reset
  b := Channel.reset
  interval := 100
  sequence := 0
  skipped := 0
  snapshot := none

/-- LI after power-on, before START is posted (R193, R202). -/
def Li.reset : Li where
  rx := []
  places := 0
  replies := []
  levels := [.high, .high, .high, .mid, .mid, .mid, .mid, .mid, .mid, .mid, .low, .low, .low, .low, .low, .off]
  notices := []
  crcErrors := 0
  framingErrors := 0
  overruns := 0
  lastChannel := .b
  uptime := 0
  tx := none

/-- FM after power-on (R212). -/
def Fm.reset : Fm where
  active := []
  log := []
  logMode := .keepNewest
  overflow := 0
  fullReported := false

/-- The part right after power-on with no film in the gate and no cartridge in the carousel (R199, log 2): every block
at its power-on state, START pending, nothing waiting. -/
def State.reset : State where
  tc := Tc.reset
  tu := Tu.reset
  cu := Cu.reset
  ix := Ix.reset
  fu := Fu.reset
  cp := Cp.reset
  ct := Ct.reset
  rs := Rs.reset
  dc := Dc.reset
  li := { Li.reset with notices := [{ source := .start, count := 1, detail := .start .powerOn false 0, uptime := 0 }] }
  fm := Fm.reset
  resetHeld := false
  hold := false
  gateFilm := false
  presence := List.replicate 12 false
  pending := []
  free := 0

end Sys2Proof.Machine
end

