-- ==== Sys2Proof/Machine/Operands.lean ====
section
/-! DEFINITION. Operands.lean: the numbers the rules fix, exact arithmetic, and the encodings of fields, fault details and
notice details (R192, R194). -/

namespace Sys2Proof.Machine

/-! ### Fixed numbers -/

/-- The highest film position (R1). -/
def maxPosition : Nat := 16777215

/-- Creep speed, mm/s (R2). -/
def creepSpeed : Nat := 5

/-- Rewind speed, mm/s (R2). -/
def rewindSpeed : Nat := 4000

/-- Emergency stop deceleration, mm/s² (R2). -/
def emergencyRate : Nat := 4000

/-- Arrival window, ticks (R2). -/
def arrivalWindow : Nat := 4

/-- Mark-read speed limit, mm/s (R2). -/
def markReadLimit : Nat := 1500

/-- Saturation of the 16-bit counts. -/
def countMax : Nat := 65535

/-- Bytes of a frame-store slot (R126). -/
def slotBytes : Nat := 33554432

/-- Pixel bytes of a full block (R178). -/
def blockBytes : Nat := 4096

/-! ### Arithmetic (00_scope, Arithmetic) -/

/-- A count incremented, saturating. -/
def saturate (most n : Nat) : Nat := min (n + 1) most

def ceilDiv (a b : Nat) : Nat := (a + b - 1) / b

/-- A value clamped to [lo, hi]. -/
def clampNat (lo hi n : Nat) : Nat := if n < lo then lo else if hi < n then hi else n

def clampInt (lo hi z : Int) : Int := if z < lo then lo else if hi < z then hi else z

/-- The distance between two positions. -/
def distance (a b : Nat) : Nat := (a - b) + (b - a)

/-- The first item that a measure makes least: of equals the earlier one stands. -/
def leastBy {α : Type} (measure : α → Nat) : List α → Option α
  | [] => none
  | a :: rest =>
    match leastBy measure rest with
    | none => some a
    | some b => if measure a ≤ measure b then some a else some b

/-! ### Field encodings (R192) -/

def encFlag (b : Bool) : List Byte := u8 b.toNat

/-- An optional field: its presence byte, then the field, whose bytes are 0 when absent. -/
def encOpt {α : Type} (width : Nat) (f : α → List Byte) : Option α → List Byte
  | none => 0 :: List.replicate width 0
  | some x => 1 :: f x

/-- A list whose count lies within 0 to 255. -/
def encList {α : Type} (f : α → List Byte) (xs : List α) : List Byte := u8 xs.length ++ xs.flatMap f

/-- A list whose count lies within 0 to 65,535. -/
def encLongList {α : Type} (f : α → List Byte) (xs : List α) : List Byte := u16 xs.length ++ xs.flatMap f

def encGauge (g : Gauge) : List Byte := u8 (gaugeNumber g)

/-- Gauge and base of a roll description, 0 for each that is absent (log 10). -/
def encGaugeBase : Option Description → List Byte
  | none => u8 0 ++ u8 0
  | some d => encGauge d.gauge ++ u8 d.base.ctorIdx

def encClass (c : FaultClass) : List Byte := u8 c.ctorIdx

/-- A fault's own detail, in the order its raising rule lists it (R203). The kinds of FILM_BREAK, CAROUSEL_JAM and
INDEX_FAILED are numbered in the order of their rules (log 10). -/
def encFaultDetail : FaultDetail → List Byte
  | .overTension => []
  | .breakGate p => u8 0 ++ u32 p
  | .breakSlack t p => u8 1 ++ i32 t ++ u32 p
  | .encoder st p => u8 st.ctorIdx ++ u32 p
  | .jamRotation t n a => u8 0 ++ u8 t ++ u8 n ++ encFlag a
  | .jamThreader n => u8 1 ++ u8 n
  | .stranded n a => u8 n ++ encFlag a
  | .operator c => u8 c
  | .slack t p st => i32 t ++ u32 p ++ u8 st.ctorIdx
  | .endOfFilm p => u32 p
  | .seekMissed t p => u32 t ++ u32 p
  | .threadFailed n g => u8 n ++ encFlag g
  | .pitchDrift n g f r q => u8 n ++ u8 g ++ u16 f ++ i32 r ++ u32 q
  | .misframe r n f g m => u8 r ++ u8 n ++ u16 f ++ u16 g ++ u32 m
  | .focusEdge p l x => u32 p ++ u16 l ++ encFlag x
  | .focusLag n p l t => u8 n ++ u32 p ++ u16 l ++ u16 t
  | .indexSegments n m => u8 0 ++ u8 n ++ u32 m
  | .indexFrames n m => u8 1 ++ u8 n ++ u32 m
  | .indexNoMarks n => u8 2 ++ u8 n

/-- A notice's detail, in the order its posting rule lists it (R194). The three job counts of PASS_DONE, which only a CAPTURE
pass gives (R160), are optional as R192 states, in one group behind one presence byte (DESIGN CHOICE, log 10: the group). -/
def encNoticeDetail : NoticeDetail → List Byte
  | .fault c k n d p sl => u8 c.ctorIdx ++ encClass k ++ u16 n ++ encFaultDetail d ++ u32 p ++ encOpt 1 u8 sl
  | .trip a c t l p st => u8 a.ctorIdx ++ u16 c ++ u16 t ++ u16 l ++ u32 p ++ u8 st.ctorIdx
  | .start c t n => u8 c.ctorIdx ++ u32 Config.buildId.toNat ++ encFlag t ++ u8 n
  | .mountDone n l d o => u8 n ++ wireLabel l ++ encGaugeBase d ++ u8 o.ctorIdx
  | .unmountDone n l o => u8 n ++ wireLabel l ++ u8 o.ctorIdx
  | .rollWanted l n => wireLabel l ++ u8 n
  | .indexDone n l o st f a b =>
    u8 n ++ wireLabel l ++ u8 o.ctorIdx ++ u8 st.ctorIdx ++ encOpt 2 u16 f ++ u8 a ++ u16 b
  | .requestFailed r o i l f w k => u8 r ++ u8 o ++ u32 i ++ wireLabel l ++ u16 f ++ u8 w.ctorIdx ++ u8 k
  | .operator k c n p sl => encClass k ++ u8 c ++ u16 n ++ u32 p ++ encOpt 1 u8 sl
  | .focusDone r o p l b n sh x =>
    u8 r.ctorIdx ++ u8 o.ctorIdx ++ u32 p ++ u16 l ++ u32 b ++ u8 n ++ encFlag sh ++ encOpt 4 u32 x
  | .focusAborted r w => u8 r.ctorIdx ++ u8 2 ++ u8 w.ctorIdx
  | .seekDone o t p n c => u8 o.ctorIdx ++ u32 t ++ u32 p ++ u8 n ++ encFlag c
  | .slotChange n st => u8 n ++ u8 st.ctorIdx
  | .logFull m n => u8 m.ctorIdx ++ u16 n
  | .linkError k a b c => u8 k.ctorIdx ++ u16 a ++ u16 b ++ u16 c
  | .passDone k o n a b c =>
    u8 k.ctorIdx ++ u8 o.ctorIdx ++ u8 n
      ++ encOpt 3 (fun _ : Unit => u8 a ++ u8 b ++ u8 c) (if k = .capture then some () else none)

/-- The byte of a frame record's flags (R180's record layout, byte 25). -/
def encFrameFlags (f : FrameFlags) : List Byte :=
  u8 (f.clamped.toNat + 2 * f.truncated.toNat + 4 * f.markNotSeen.toNat + 8 * f.focusLag.toNat
    + 16 * f.predictedOnly.toNat)

/-- A frame record's 48 bytes (section 10.3). -/
def encFrameRecord (r : FrameRecord) : List Byte :=
  u8 r.reqId ++ u8 r.origin ++ u32 r.image ++ r.label.take 16 ++ List.replicate (16 - r.label.length) 0
    ++ u16 r.frame ++ u8 r.segment ++ encFrameFlags r.flags ++ u32 r.predicted ++ u32 (r.observed.getD 4294967295)
    ++ u32 r.windowStart ++ u16 r.lines ++ u16 r.pixels ++ u16 r.lens ++ u32 r.score

end Sys2Proof.Machine
end

