-- ==== Sys2Proof/Machine/Predict.lean ====
section
/-! DEFINITION. Predict.lean: the formulas of chapter 5 over one segment record, and the search for a segment. -/

namespace Sys2Proof.Machine

/-- The raw prediction of frame f (R86). -/
def predict (g : Segment) (f : Nat) : Int :=
  g.anchorPos + ((f - g.anchorFrame : Int) * g.pitch + 128) / 256

/-- The capture window W (R89). -/
def captureWindow (g : Segment) : Nat :=
  max 8 (g.pitch / (match g.learning with | .provisional => 1024 | .learned | .drifted => 2048))

/-- One pitch in whole ticks. -/
def pitchTicks (g : Segment) : Nat := g.pitch / 256

/-- A segment is closed when its last frame is known (R68). -/
def Segment.closed (g : Segment) : Bool := g.lastFrame.isSome

/-- The last frame a segment places (R85): F1, or the highest placed frame while open. -/
def lastPlaced (highest : Nat) (g : Segment) : Nat := g.lastFrame.getD highest

/-- The segment holds frame f (R85). -/
def holdsFrame (highest f : Nat) (g : Segment) : Bool :=
  g.firstFrame ≤ f && f ≤ lastPlaced highest g && f != 0

def findFrame (segs : List Segment) (highest f : Nat) : Option Segment := segs.find? (holdsFrame highest f)

/-- The upper position bound of a segment (R87). -/
def upperBound (g : Segment) : Nat :=
  g.endPos.getD (max (g.frontier.getD 0) (g.anchorPos + pitchTicks g))

/-- The guard end for a roll length (R10). -/
def guardEndOf (length : Nat) : Nat := length - 2000

/-- What IX answers for the placement of a frame (R85, R87). -/
inductive PlaceAnswer where
  | notPlaced
  | beyondGuard
  | placed (at_ : Placed)
deriving DecidableEq, Repr

/-- The placed position of frame f in a segment (R87): the segment bound, then the guard end. -/
def placeIn (g : Segment) (length : Option Nat) (f : Nat) : PlaceAnswer :=
  let raw := predict g f
  let bounded := (clampInt g.startPos (upperBound g) raw).toNat
  match length.map guardEndOf with
  | none => .placed { segment := g.number, position := bounded, clamped := decide ((bounded : Int) ≠ raw) }
  | some guard =>
    if guard < g.startPos then .beyondGuard
    else
      .placed
        { segment := g.number, position := min bounded guard,
          clamped := decide ((bounded : Int) ≠ raw) || decide (guard < bounded) }

/-- The placement of frame f in a table (R85, R87). -/
def placeFrame (segs : List Segment) (highest : Nat) (length : Option Nat) (f : Nat) : PlaceAnswer :=
  match findFrame segs highest f with
  | none => .notPlaced
  | some g => placeIn g length f

/-- The inverse of a position, unclamped (R88). -/
def inverseRaw (g : Segment) (p : Nat) : Int :=
  g.anchorFrame + ((p - g.anchorPos : Int) * 256 + (g.pitch / 2 : Nat)) / g.pitch

/-- The inverse of a position in a segment (R88). -/
def inverse (g : Segment) (highest p : Nat) : Nat :=
  (clampInt g.firstFrame (lastPlaced highest g) (inverseRaw g p)).toNat

/-- A segment's span holds a position: [S0, S1], or S0 upward while open (R65). -/
def spanHolds (p : Nat) (g : Segment) : Bool :=
  g.startPos ≤ p && (match g.endPos with | some e => p ≤ e | none => true)

/-- The segment for a position (R65): the one whose span holds it, else the last starting at or below it, else the
first. -/
def segmentAt (segs : List Segment) (p : Nat) : Option Segment :=
  match segs.find? (spanHolds p) with
  | some g => some g
  | none =>
    match (segs.filter (fun g => decide (g.startPos ≤ p))).getLast? with
    | some g => some g
    | none => segs.head?

/-- The residual of a position against a frame's raw prediction (R91). -/
def residual (g : Segment) (f m : Nat) : Int := m - predict g f

/-- The residual lies within the segment's W (R91). -/
def withinWindow (g : Segment) (f m : Nat) : Bool := (residual g f m).natAbs ≤ captureWindow g

/-- The step from the last mark (R63), going forward or in reverse. -/
def markStep (g : Segment) (forward : Bool) (last m : Nat) : Int :=
  let gone : Int := if forward then m - last else last - m
  (gone * 256 + (g.pitch / 2 : Nat)) / g.pitch

/-- The run-up of a run at v mm/s under a mm/s² (R13). -/
def runUp (accel v : Nat) : Nat := ceilDiv (100 * v ^ 2) (2 * accel) + 100

/-- The greatest speed from 5 mm/s up to v whose run-up fits (R13), or none. -/
def fittingSpeed (accel room : Nat) : Nat → Option Nat
  | 0 => none
  | v + 1 =>
    if v + 1 < creepSpeed then none
    else if runUp accel (v + 1) ≤ room then some (v + 1)
    else fittingSpeed accel room v

/-- The run speed and start position for a first window start (R13). -/
def runStart (accel v first : Nat) : Nat × Nat :=
  match fittingSpeed accel first v with
  | some u => (u, first - runUp accel u)
  | none => (creepSpeed, 0)

end Sys2Proof.Machine
end

