-- ==== Sys2Proof/Machine/Flags.lean ====
section
/-! DEFINITION. Flags.lean: the indications and values that the rules derive from the state, held nowhere twice. -/

namespace Sys2Proof.Machine

/-! ### Faults and planning -/

/-- A MAJOR fault is active: the halt latch (R205). -/
def State.latched (s : State) : Bool := s.fm.active.any (fun e => decide (e.cls = .major))

/-! ### Directory -/

def State.entry (s : State) (slot : Nat) : Entry := s.cu.entries.getD slot Entry.empty

/-- The entry is in MOUNTING, MOUNTED or UNMOUNTING (R42). -/
def Entry.inPath (e : Entry) : Bool :=
  match e.state with
  | .mounting | .mounted | .unmounting => true
  | _ => false

/-- The mounted roll's slot (R42). -/
def State.mountedSlot (s : State) : Option Nat := s.cu.entries.findIdx? Entry.inPath

/-- The mounted roll's entry, EMPTY when there is none. -/
def State.mountedEntry (s : State) : Entry := s.entry (s.mountedSlot.getD 12)

/-- The slot a fault report carries: absent when the transport is UNLOADED (R203). -/
def State.faultSlot (s : State) : Option Nat := if s.tc.state = .unloaded then none else s.mountedSlot

/-- The slot of the mounted roll where a detail needs a number. -/
def State.rollSlot (s : State) : Nat := s.mountedSlot.getD 0

/-- The slot whose entry holds a label (R147). -/
def State.slotOfLabel (s : State) (l : Label) : Option Nat :=
  s.cu.entries.findIdx? (fun e => decide (e.label = l) && !l.isEmpty)

/-! ### Transport -/

/-- The guard end, while the roll length is known (R10). -/
def State.guardEnd (s : State) : Option Nat := s.mountedEntry.rollLength.map guardEndOf

/-- The upper bound of seek targets (R10). -/
def State.seekBound (s : State) : Nat := s.guardEnd.getD maxPosition

/-- Both spindle drive outputs are zero: TC's state makes them so (R3), or TU's drive inhibit holds them (R33). -/
def State.drivesZero (s : State) : Bool :=
  s.tu.driveInhibit ||
    match s.tc.state with
    | .unloaded | .halted => true
    | .threading => decide (s.cu.threader ≠ .engaged)
    | _ => false

/-- The brakes are applied (R3, R33): exactly while both outputs are zero. -/
def State.brakesApplied (s : State) : Bool := s.drivesZero

/-- The film is at rest: its speed is 0 (R1), or arrival has brought it to rest with the direction NONE (R7), whatever the
last 10 ms before the arrival counted (log 15). -/
def State.atRest (s : State) : Bool := decide (s.tc.speed = 0) || decide (s.tc.direction = .none)

/-- The speed limit in force of a seek or a rewind: its own, or the cap (R5, R14, R34). -/
def cappedLimit (cap : Bool) (own capSpeed : Nat) : Nat := if cap then min own capSpeed else own

/-- The speed TC commands (R5, R7, R8, R12, R14): 0 at rest and in the dwell, and also while the film is braked to rest, in
a controlled or emergency stop and before a reversal or a correction (DESIGN CHOICE, log 36: R15 names only the dwell and
the rest itself). -/
def State.commandedSpeed (s : State) : Nat :=
  match s.tc.phase with
  | .creep | .decelerate => creepSpeed
  | .travel =>
    match s.tc.motion with
    | some (.seek m) => if m.correcting then creepSpeed else cappedLimit s.tu.capInForce m.speedLimit m.capSpeed
    | some (.run m) => m.speed
    | some (.rewind m) => cappedLimit s.tu.capInForce m.speedLimit m.capSpeed
    | some (.threading m) => m.speedLimit
    | none => 0
  | _ => 0

/-- The encoder timer runs: a speed is commanded in SEEKING, SCANNING or REWINDING (R15). -/
def State.encoderTimerOn (s : State) : Bool :=
  (match s.tc.state with
   | .seeking | .scanning | .rewinding => true
   | _ => false) && decide (0 < s.commandedSpeed)

/-- The encoder has counted a tick in the last 200 ms (R206): within twenty 10 ms windows. -/
def State.tickRecently (s : State) : Bool := decide (s.tc.idleWindows < 20) || decide (0 < s.tc.windowTicks)

/-! ### Tension -/

/-- The reported tension: T_raw clamped to [0, 4000] cN (R25). -/
def State.reportedTension (s : State) : Nat := (clampInt 0 4000 s.tu.tRaw).toNat

/-- The loop is to be on (R30). -/
def State.loopWanted (s : State) : Bool :=
  match s.tc.state with
  | .unloaded | .halted => false
  | .threading => decide (s.cu.threader = .engaged)
  | _ => true

/-- The film is moving, which arms slack detection (R35). -/
def State.filmMoving (s : State) : Bool :=
  (match s.tc.state with
   | .seeking | .scanning | .rewinding => true
   | _ => false) && decide (s.tc.direction ≠ .none)

/-! ### Index -/

/-- The roll's last indexed frame, 0 while absent (R85). -/
def State.lastIndexed (s : State) : Nat := s.mountedEntry.lastIndexed.getD 0

/-- The highest placed frame of the mounted roll's open segment (R85). -/
def State.highestPlaced (s : State) : Nat :=
  match s.ix.pass with
  | some p => max s.lastIndexed p.countedTo
  | none => s.lastIndexed

/-- An index pass's run is in progress (R75): the run of its phase RUN has not been reported ended. -/
def State.indexRun (s : State) : Bool :=
  match s.ix.pass with
  | some p => decide (p.phase = .run)
  | none => false

/-- The next mark is the first of an extension's run, to be matched as R77 says for a pass begun in sync or NONE. -/
def State.firstMarkDue (s : State) : Bool :=
  match s.ix.pass with
  | some p => p.firstMarkDue
  | none => false

/-- A run that is not an index run is in progress (R63, R90). The stop that a soft reset makes of an index run is one too: TC is
still SCANNING, and the pass record is gone (DESIGN CHOICE, log 36: R90 and R23 do not say which of the two it is). -/
def State.plainRun (s : State) : Bool := decide (s.tc.state = .scanning) && !s.indexRun

/-- An index run at its frontier (R76). -/
def State.atFrontier (s : State) : Bool :=
  match s.ix.pass with
  | some p => decide (p.phase = .run) && p.frontier
  | none => false

/-- The tracker is in sync (section 4.2). -/
def Tracker.inSync (t : Tracker) : Bool := decide (t.state = .counting) || decide (t.state = .reckoning)

/-- The live placement of a frame of the mounted roll (R85, R87). -/
def State.placeLive (s : State) (f : Nat) : PlaceAnswer :=
  placeFrame s.ix.segments s.highestPlaced s.mountedEntry.rollLength f

/-! ### Focus and capture -/

/-- The lens for a position (R112). -/
def lensBetween (p : Nat) (nominal : Nat) : List MapEntry → Nat
  | [] => nominal
  | [e] => e.lens
  | e :: e' :: rest =>
    if p ≤ e.position then e.lens
    else if p < e'.position then
      ((e.lens : Int) + ((e'.lens - e.lens : Int) * (p - e.position : Int) * 2 + (e'.position - e.position : Int))
        / (2 * (e'.position - e.position : Int))).toNat
    else lensBetween p nominal (e' :: rest)

def State.lensFor (s : State) (p : Nat) : Nat := lensBetween p s.fu.settings.nominal s.fu.map

/-- The crop in force: first pixel and pixel count (R121). -/
def State.crop (s : State) : Nat × Nat :=
  match s.cp.gauge with
  | some .mm16 => (s.cp.settings.first16, s.cp.settings.count16)
  | _ => (s.cp.settings.first35, s.cp.settings.count35)

/-- The active pixels of a line (R121). A pixel the line does not hold reads 0. -/
def State.activePixels (s : State) (line : List Byte) : List Byte :=
  let seen := (line.drop s.crop.1).take s.crop.2
  seen ++ List.replicate (s.crop.2 - seen.length) 0

/-- The squares of one line: the difference between each pixel and the next (R103). -/
def lineScore : List Byte → Nat
  | a :: b :: rest => distance a.toNat b.toNat ^ 2 + lineScore (b :: rest)
  | _ => 0

/-- The sharpness score of a band (R103). -/
def bandScore (band : List (List Byte)) : Nat := min ((band.map lineScore).sum) 4294967295

/-- The capture speed (R123). -/
def State.captureSpeed (s : State) : Nat :=
  min s.tc.settings.scanSpeed (s.cp.settings.lineRate * s.cp.settings.linePitch / 100)

/-- SPEED_LOWERED (R123). -/
def State.speedLowered (s : State) : Bool :=
  decide (s.cp.settings.lineRate * s.cp.settings.linePitch / 100 < s.tc.settings.scanSpeed)

/-- The lamp level (R124). -/
def State.lampLevelNow (s : State) : Nat := s.cp.lampLevel.getD 512

/-- The number of FREE slots (R126). -/
def State.freeSlots (s : State) : Nat := (s.cp.slots.filter Option.isNone).length

/-- The slot that carries a request id (R136). -/
def State.storeSlotOf (s : State) (reqId : Nat) : Option Nat :=
  s.cp.slots.findIdx? (fun c => match c with | some x => decide (x.reqId = reqId) | none => false)

/-! ### Scheduler and link -/

/-- The planning conditions (R159). -/
def State.mayPlan (s : State) : Bool :=
  decide (s.rs.mode = .auto) && s.rs.pass.isNone
    && (decide (s.tc.state = .stopped) || decide (s.tc.state = .unloaded))
    && s.fu.probe.isNone && s.ix.pass.isNone && !s.latched

/-- The FOCUS_PROBE positions on the Internal Work List, in list order (R157). -/
def State.probeItems (s : State) : List Nat :=
  s.rs.items.filterMap (fun i => match i with | .focusProbe p => some p | _ => none)

/-- The level of a notice source (R193). -/
def State.level (s : State) (src : Source) : NoticeLevel := s.li.levels.getD src.ctorIdx .off

/-- The number of slots holding a cartridge (R199): every slot whose entry is not EMPTY, a stranded roll's MOUNTED slot among
them even when its presence sensor reads empty (R56; DESIGN CHOICE, log 36). -/
def State.occupied (s : State) : Nat := (s.cu.entries.filter (fun e => decide (e.state ≠ .empty))).length

/-- The state of a channel, 0 IDLE, 1 SENDING, 2 STREAMING (R176). -/
def Channel.stateNumber (c : Channel) : Nat :=
  if c.sending.isSome then 1 else match c.mode with | .image => 0 | .telemetry => 2

/-- A channel is IDLE (R176). -/
def Channel.idle (c : Channel) : Bool := decide (c.mode = .image) && c.sending.isNone

end Sys2Proof.Machine
end

