-- ==== Sys2Proof/Machine/Ops.lean ====
section
/-! DEFINITION. Ops.lean: the named updates of each block's state, and the operations every block shares: posting a notice
(R193), replying (R190, R191), a fault occurrence (R204, R209), a planning opportunity (R159), a slot state change (R42),
TC entering a state with what follows it (R3, R30, R35, R121), and the free values (log 4). -/

namespace Sys2Proof.Machine

/-- What a command's meaning answers. -/
abbrev Result := Host.Outcome State Fault Refusal

/-! ### One update per block -/

def State.modTc (s : State) (f : Tc → Tc) : State := { s with tc := f s.tc }
def State.modTu (s : State) (f : Tu → Tu) : State := { s with tu := f s.tu }
def State.modCu (s : State) (f : Cu → Cu) : State := { s with cu := f s.cu }
def State.modIx (s : State) (f : Ix → Ix) : State := { s with ix := f s.ix }
def State.modFu (s : State) (f : Fu → Fu) : State := { s with fu := f s.fu }
def State.modCp (s : State) (f : Cp → Cp) : State := { s with cp := f s.cp }
def State.modCt (s : State) (f : Ct → Ct) : State := { s with ct := f s.ct }
def State.modRs (s : State) (f : Rs → Rs) : State := { s with rs := f s.rs }
def State.modDc (s : State) (f : Dc → Dc) : State := { s with dc := f s.dc }
def State.modLi (s : State) (f : Li → Li) : State := { s with li := f s.li }
def State.modFm (s : State) (f : Fm → Fm) : State := { s with fm := f s.fm }

/-- The operation when the condition holds, else no change. -/
def State.onlyIf (s : State) (c : Bool) (f : State → State) : State := if c then f s else s

/-- The operation on a value that is present. -/
def State.withSome {α : Type} (s : State) (x : Option α) (f : State → α → State) : State :=
  match x with
  | some a => f s a
  | none => s

/-- An operation on each item in turn. -/
def State.each {α : Type} (s : State) (xs : List α) (f : State → α → State) : State := xs.foldl f s

/-- While RESETn is low the part does nothing (R199). -/
def whenRunning (s : State) (f : State → State) : Result := .next (if s.resetHeld then s else f s)

/-! ### Notices (R193) -/

/-- An occurrence of a source in the pending set: added with count 1, in source order, or counted with its detail and
uptime replaced. -/
def noticeAdd (n : Notice) : List Notice → List Notice
  | [] => [n]
  | x :: rest =>
    if x.source = n.source then { n with count := saturate 255 x.count } :: rest
    else if n.source.ctorIdx < x.source.ctorIdx then n :: x :: rest
    else x :: noticeAdd n rest

/-- A block posts an occurrence of a source (R193). -/
def State.post (s : State) (src : Source) (d : NoticeDetail) : State :=
  if s.level src = .off then s
  else
    s.modLi fun l =>
      { l with notices := noticeAdd { source := src, count := 1, detail := d, uptime := l.uptime } l.notices }

/-! ### Replies (R190, R191) -/

/-- What the owner of a command answers: the state after, the status and the reply data. -/
structure Answer where
  state : State
  status : Status
  data : List Byte

def State.refuse (s : State) (st : Status) : Answer := ⟨s, st, []⟩
def State.done (s : State) : Answer := ⟨s, .ok, []⟩
def State.doneWith (s : State) (d : List Byte) : Answer := ⟨s, .ok, d⟩
def State.acceptedWith (s : State) (d : List Byte) : Answer := ⟨s, .accepted, d⟩

/-- The first check that fails gives the refusal (every refusal table); none fails: the owner's action. -/
def checked (s : State) (checks : List (Bool × Status)) (act : State → Answer) : Answer :=
  match checks.find? (fun c => c.1) with
  | some c => s.refuse c.2
  | none => act s

/-- The reply list takes a reply (R191). -/
def State.reply (s : State) (tag kind : Byte) (status : Status) (data : List Byte) : State :=
  s.modLi fun l => { l with replies := l.replies ++ [{ tag := tag, kind := kind, status := status, data := data }] }

/-- A link error of a kind (R189, R190): its count, then LINK_ERROR with the three counts. -/
def State.linkError (s : State) (k : LinkErrorKind) : State :=
  let s :=
    s.modLi fun l =>
      match k with
      | .crc => { l with crcErrors := saturate countMax l.crcErrors }
      | .framing => { l with framingErrors := saturate countMax l.framingErrors }
      | .overrun => { l with overruns := saturate countMax l.overruns }
  s.post .linkError (.linkError k s.li.crcErrors s.li.framingErrors s.li.overruns)

/-- A command takes a place of the command buffer, its owner takes it and its reply joins the list; with no place free it
is an overrun (R190, R191). -/
def State.takeCommand (s : State) (tag kind : Byte) (owner : State → Answer) : State :=
  if 4 ≤ s.li.places then s.linkError .overrun
  else
    let a := owner (s.modLi fun l => { l with places := l.places + 1 })
    a.state.reply tag kind a.status a.data

/-! ### Planning opportunities (R159) -/

/-- A planning opportunity: when the planning conditions hold at it, a round is due (log 5). -/
def State.offerPlanning (s : State) : State :=
  if s.mayPlan then s.modRs fun r => { r with planningDue := true } else s

/-! ### Faults (R204, R209) -/

/-- The active fault set after an occurrence, in ascending code order (R204). -/
def faultAdd (e : FaultEntry) : List FaultEntry → List FaultEntry
  | [] => [e]
  | x :: rest =>
    if x.code = e.code then
      { e with
          cls := if e.cls = .major then .major else x.cls, firstSeen := x.firstSeen,
          count := saturate countMax x.count } :: rest
    else if e.code.ctorIdx < x.code.ctorIdx then e :: x :: rest
    else x :: faultAdd e rest

/-- The count of a code's entry. -/
def State.faultCount (s : State) (c : FaultCode) : Nat :=
  match s.fm.active.find? (fun e => decide (e.code = c)) with
  | some e => e.count
  | none => 0

/-- An occurrence offered to the Fault Log (R209). -/
def State.offerLog (s : State) (r : LogRecord) : State :=
  match s.fm.logMode with
  | .off => s
  | .keepNewest =>
    s.modFm fun m => { m with log := (if m.log.length < 10 then m.log else m.log.drop 1) ++ [r] }
  | .keepFirst =>
    if s.fm.log.length < 10 then s.modFm fun m => { m with log := m.log ++ [r] }
    else
      let t := s.modFm fun m => { m with overflow := saturate countMax m.overflow, fullReported := true }
      if s.fm.fullReported then t else t.post .logFull (.logFull .keepFirst t.fm.overflow)

/-- The notice of an occurrence: OPERATOR for the operator codes, else by class (R204, R208). -/
def State.postFault (s : State) (code : FaultCode) (cls : FaultClass) (d : FaultDetail) : State :=
  let n := s.faultCount code
  match d with
  | .operator c => s.post .operator (.operator cls c n s.tc.position s.faultSlot)
  | _ =>
    s.post (match cls with | .major => .faultMajor | .minor => .faultMinor)
      (.fault code cls n d s.tc.position s.faultSlot)

/-- FM takes an occurrence: the active entry, the log, the notice (R204 steps 1 to 4). The halt of step 5 follows in
`raiseMajor`. -/
def State.faultOccur (s : State) (code : FaultCode) (cls : FaultClass) (d : FaultDetail) : State :=
  let at_ := s.tc.position
  let slot := s.faultSlot
  let up := s.li.uptime
  let entered :=
    s.modFm fun m =>
      { m with
        active :=
          faultAdd
            { code := code, cls := cls, firstSeen := up, count := 1, detail := d, position := at_, slot := slot }
            m.active }
  (entered.offerLog { cls := cls, code := code, detail := d, position := at_, slot := slot, uptime := up }).postFault
    code cls d

/-! ### Directory entries -/

def State.modEntry (s : State) (slot : Nat) (f : Entry → Entry) : State :=
  s.modCu fun c => { c with entries := c.entries.set slot (f (s.entry slot)) }

/-- The mounted roll's entry is written by the block that learns its fields (R42). -/
def State.modMounted (s : State) (f : Entry → Entry) : State := s.withSome s.mountedSlot fun t n => t.modEntry n f

/-- A change of slot state posts SLOT_CHANGE (R42). -/
def State.setSlotState (s : State) (slot : Nat) (st : SlotState) : State :=
  (s.modEntry slot fun e => { e with state := st }).post .slotChange (.slotChange slot st)

/-! ### TC entering a state (R3) -/

/-- The tension loop follows the transport (R30, R31, R34). The starting setpoint is the reported tension of the latest
sample held when the loop turns on, not of the next one (DESIGN CHOICE, log 36). -/
def State.loopFollow (s : State) : State :=
  if s.loopWanted = s.tu.loopOn then s
  else if s.loopWanted then s.modTu fun u => { u with loopOn := true, setpoint := s.reportedTension }
  else
    s.modTu fun u =>
      { u with
        loopOn := false, setpoint := 0, runningSum := 0, torque := 0, onTarget := false, onTargetCount := 0,
        capInForce := false }

/-- Slack detection disarmed sets the three counts to 0 and ends the episode (R35). -/
def State.slackFollow (s : State) : State :=
  if s.filmMoving then s
  else s.modTu fun u => { u with slackCount := 0, breakCount := 0, recoveryCount := 0, slackEpisode := false }

/-- A calibration in progress is abandoned when TC leaves UNLOADED before its 64th sample (R27). -/
def State.calibrationFollow (s : State) : State :=
  if s.tu.calStatus = .inProgress ∧ s.tu.calCount < 64 ∧ s.tc.state ≠ .unloaded then
    s.modTu fun u => { u with calStatus := .abandoned, calSum := 0, calCount := 0 }
  else s

/-- TU follows the transport. -/
def State.tensionFollow (s : State) : State := s.loopFollow.slackFollow.calibrationFollow

/-- TC enters a state: TU follows; entering UNLOADED clears CP's gauge and lamp level (R121); STOPPED and UNLOADED are
planning opportunities (R159). -/
def State.enter (s : State) (st : TransportState) : State :=
  let t := (s.modTc fun c => { c with state := st }).tensionFollow
  match st with
  | .unloaded => (t.modCp fun c => { c with gauge := none, lampLevel := none }).offerPlanning
  | .stopped => t.offerPlanning
  | _ => t

/-! ### Free values (log 4) -/

/-- The next free value is taken: the counter advances. -/
def State.spendFree (s : State) : State := { s with free := s.free + 1 }

end Sys2Proof.Machine
end

