-- ==== Sys2Proof/Machine/QueueOps.lean ====
section
/-! DEFINITION. QueueOps.lean: CT's placement stage (R147, R148), the Host Request Queue's entries and their failure
(R155, R172), the reports of CU and CP to RS (R168, R170, R173), the Internal Work List (R157, R116, R117) and the end of an
RS pass (R160). -/

namespace Sys2Proof.Machine

/-! ### Placement -/

/-- The result of the placement stage (R147, R148). -/
inductive Placement where
  | waitingRoll
  | waitingIndex (slot : Nat)
  | ready (slot : Nat) (at_ : Placed)
  | notInRoll (slot : Nat)
deriving DecidableEq, Repr

/-- The placement of frame f by the table that matches the entry's state (R147): live while MOUNTED, else saved. -/
def State.placeInEntry (s : State) (e : Entry) (f : Nat) : PlaceAnswer :=
  if e.state = .mounted then placeFrame s.ix.segments s.highestPlaced e.rollLength f
  else placeFrame e.segments (e.lastIndexed.getD 0) e.rollLength f

/-- The placement stage for a label and a frame (R147, R148). -/
def State.placement (s : State) (label : Label) (f : Nat) : Placement :=
  match s.slotOfLabel label with
  | none => .waitingRoll
  | some n =>
    let e := s.entry n
    match e.indexState with
    | .unindexed => .waitingIndex n
    | .partial_ =>
      if e.lastIndexed.getD 0 < f then .waitingIndex n
      else
        match s.placeInEntry e f with
        | .placed p => .ready n p
        | .beyondGuard => .notInRoll n
        | .notPlaced => .waitingIndex n
    | .indexed =>
      match s.placeInEntry e f with
      | .placed p => .ready n p
      | _ => .notInRoll n

/-! ### Queue entries -/

def State.findRequest (s : State) (id : Nat) : Option Request := s.rs.queue.find? (fun r => decide (r.id = id))

def State.modRequest (s : State) (id : Nat) (f : Request → Request) : State :=
  s.modRs fun q => { q with queue := q.queue.map (fun r => if r.id = id then f r else r) }

def State.removeRequest (s : State) (id : Nat) : State :=
  s.modRs fun q => { q with queue := q.queue.filter (fun r => decide (r.id ≠ id)) }

/-- A request fails: it leaves the queue and REQUEST_FAILED is posted (R172). -/
def State.failRequest (s : State) (r : Request) (why : FailReason) : State :=
  (s.removeRequest r.id).post .requestFailed
    (.requestFailed r.id r.origin r.image r.label r.frame why r.retries)

/-- The fields a placement gives an entry (R155, R161). -/
def Request.withPlacement (r : Request) : Placement → Request
  | .waitingRoll => { r with slot := none, placed := none, state := .waitingRoll }
  | .waitingIndex n => { r with slot := some n, placed := none, state := .waitingIndex }
  | .ready n p => { r with slot := some n, placed := some p, state := .ready }
  | .notInRoll _ => r

/-- A held entry is placed again (R152, R161). -/
def State.placeAgain (s : State) (r : Request) : State :=
  match s.placement r.label r.frame with
  | .notInRoll _ => s.failRequest r .notInRoll
  | p => s.modRequest r.id fun x => x.withPlacement p

/-- The entry waits for an index or is READY. -/
def Request.waitsOrReady (r : Request) : Bool := decide (r.state = .waitingIndex) || decide (r.state = .ready)

/-- The refresh that opens a round, in queue order (R161). -/
def State.refresh (s : State) : State := s.each (s.rs.queue.filter Request.waitsOrReady) State.placeAgain

/-- How many entries wait for a roll of this label (R158, R170). -/
def State.wantedCount (s : State) (label : Label) : Nat :=
  (s.rs.queue.filter (fun r => decide (r.state = .waitingRoll) && decide (r.label = label))).length

def State.postRollWanted (s : State) (label : Label) : State :=
  s.post .rollWanted (.rollWanted label (s.wantedCount label))

/-! ### CU's reports (R170) -/

/-- A label arrival (R170). -/
def State.labelArrival (s : State) (label : Label) : State :=
  (s.each (s.rs.queue.filter (fun r => decide (r.state = .waitingRoll) && decide (r.label = label)))
    State.placeAgain).offerPlanning

/-- A roll gone (R170). -/
def State.rollGone (s : State) (slot : Nat) (label : Label) : State :=
  let hit (r : Request) : Bool := decide (r.slot = some slot) && r.waitsOrReady
  let t :=
    s.modRs fun q =>
      { q with queue := q.queue.map (fun r => if hit r then r.withPlacement .waitingRoll else r) }
  (t.onlyIf (s.rs.queue.any hit) fun u => u.postRollWanted label).offerPlanning

/-- An index forgotten (R170). -/
def State.indexForgotten (s : State) (slot : Nat) : State :=
  (s.modRs fun q =>
    { q with
      queue :=
        q.queue.map (fun r =>
          if r.slot = some slot ∧ r.state = .ready then r.withPlacement (.waitingIndex slot) else r) }).offerPlanning

/-! ### The pass record -/

def State.modPass (s : State) (f : RsPass → RsPass) : State :=
  s.modRs fun r => { r with pass := r.pass.map f }

/-- The end of a pass (R160). STOP_TRANSPORT's outcome STOPPED is no planning opportunity (R169). -/
def State.passEnd (s : State) (o : PassOutcome) : State :=
  s.withSome s.rs.pass fun t p =>
    let u :=
      (t.modRs fun r => { r with pass := none }).post .passDone
        (.passDone p.kind o p.slot p.capturedJobs p.misframeJobs p.droppedJobs)
    if o = .stopped then u else u.offerPlanning

/-! ### CP's reports (R168, R173) -/

/-- CP's report of a job to RS (R168). -/
inductive JobReport where
  | capturing | captured | misframe | dropped
deriving DecidableEq, Repr

/-- The capture count after a CAPTURED report for an entry of a slot (R162). -/
def countCapture (r : Rs) (slot : Option Nat) : Rs :=
  if r.countedSlot = slot then { r with captureCount := saturate countMax r.captureCount }
  else { r with captureCount := 1, countedSlot := slot }

/-- A report counted in the pass record (R160). -/
def JobReport.count (p : RsPass) : JobReport → RsPass
  | .capturing => p
  | .captured => { p with capturedJobs := p.capturedJobs + 1 }
  | .misframe => { p with misframeJobs := p.misframeJobs + 1 }
  | .dropped => { p with droppedJobs := p.droppedJobs + 1 }

/-- A job report acts on its entry (R168). -/
def State.jobReport (s : State) (reqId : Nat) (rep : JobReport) : State :=
  let t := s.modPass fun p => rep.count p
  t.withSome (t.findRequest reqId) fun u r =>
    match rep with
    | .capturing => u.modRequest reqId fun x => { x with state := .capturing }
    | .captured => (u.modRequest reqId fun x => { x with state := .captured }).modRs fun q => countCapture q r.slot
    | .misframe =>
      if r.retries < 2 then
        u.modRequest reqId fun x => { x with retries := x.retries + 1, state := .ready, storeSlot := none }
      else u.failRequest r .misframe
    | .dropped => u.modRequest reqId fun x => { x with state := .ready, storeSlot := none }

/-- Frame-store slot n is in a state (R126). -/
def Cp.slotIs (c : Cp) (n : Nat) (st : StoreState) : Bool :=
  match c.slots.getD n none with
  | some x => decide (x.state = st)
  | none => false

/-- A slot becomes FREE, a READY one leaving the Ready List (R127, R136), and CP reports it to RS, which removes the
DELIVERING entry it names (R126, R173). -/
def State.freeSlot (s : State) (n : Nat) : State :=
  let t :=
    s.modCp fun c =>
      { c with
        slots := c.slots.set n none
        ready := if c.slotIs n .ready then c.ready.filter (fun x => decide (x ≠ n)) else c.ready }
  (t.modRs fun q =>
    { q with
      queue := q.queue.filter (fun r => !(decide (r.state = .delivering) && decide (r.storeSlot = some n))) }).offerPlanning

/-! ### The Internal Work List (R157) and FU's items (R116, R117) -/

/-- FU places an item for a map position, when the list has none for it and has room (R116, R157). -/
def State.placeItem (s : State) (p : Nat) : State :=
  if p ∈ s.probeItems ∨ 3 ≤ s.probeItems.length then s
  else (s.modRs fun r => { r with items := r.items ++ [.focusProbe p] }).offerPlanning

/-- The STALE entries of the map without an item, in ascending position (R117). -/
def State.staleWithout (s : State) : List Nat :=
  (s.fu.map.filter (fun e => e.stale && decide (e.position ∉ s.probeItems))).map (fun e => e.position)

/-- RS reports that an item has left the list: FU places one for the lowest STALE entry without (R117). -/
def State.itemLeft (s : State) : State := (s.withSome s.staleWithout.head? State.placeItem).offerPlanning

/-- A FOCUS_PROBE item leaves the list (R157). -/
def State.removeItem (s : State) (p : Nat) : State :=
  if p ∈ s.probeItems then
    (s.modRs fun r => { r with items := r.items.filter (fun i => decide (i ≠ .focusProbe p)) }).itemLeft
  else s

/-- RS's probe for this map position is in progress (R157, R165). -/
def State.probing (s : State) (p : Nat) : Bool :=
  match s.rs.pass with
  | some q => decide (q.kind = .probe) && decide (q.phase = .probe) && decide (q.probePosition = p)
  | none => false

/-- FU reports a map entry withdrawn (R111, R157, R165). -/
def State.withdraw (s : State) (p : Nat) : State :=
  if s.probing p then s
  else
    (s.modPass fun q =>
      if q.kind = .probe ∧ q.phase = .seek ∧ q.probePosition = p then { q with dropped := true } else q).removeItem p

/-- The INDEX_PASS item leaves the list (R157). -/
def State.removeIndexItem (s : State) : State :=
  s.modRs fun r =>
    { r with items := r.items.filter (fun i => match i with | .indexPass _ _ => false | .focusProbe _ => true) }

end Sys2Proof.Machine
end

