-- ==== Sys2Proof/Machine/FocusOps.lean ====
section
/-! DEFINITION. FocusOps.lean: the lens (R101), the Focus Map (R111), the lens state CP asks for (R115), stale entries
(R116) and tracking (R114). -/

namespace Sys2Proof.Machine

/-- FU commands a lens target, clamped to the soft limits (R101). -/
def State.commandLens (s : State) (l : Nat) : State :=
  s.modFu fun f => { f with target := clampNat f.settings.lensMin f.settings.lensMax l }

/-- The lens stops where it stands (R101). -/
def State.stopLens (s : State) : State := s.modFu fun f => { f with target := f.lens }

/-- The entry nearest a position, the lower of two equally near (R111, R116). -/
def nearestEntry (p : Nat) (m : List MapEntry) : Option MapEntry := leastBy (fun e => distance e.position p) m

/-- The entry that an insertion at p removes (R111). -/
def displacedEntry (merge p : Nat) (m : List MapEntry) : Option MapEntry :=
  match nearestEntry p m with
  | some e => if distance e.position p ≤ merge ∨ 32 ≤ m.length then some e else none
  | none => none

def insertEntry (e : MapEntry) : List MapEntry → List MapEntry
  | [] => [e]
  | x :: rest => if e.position < x.position then e :: x :: rest else x :: insertEntry e rest

/-- The map after an insertion (R111). -/
def mapAfter (merge : Nat) (e : MapEntry) (m : List MapEntry) : List MapEntry :=
  match displacedEntry merge e.position m with
  | some x => insertEntry e (m.filter (fun y => decide (y.position ≠ x.position)))
  | none => insertEntry e m

/-- A completed probe's entry goes into the map; the entry it displaces is withdrawn (R111). -/
def State.insertMap (s : State) (e : MapEntry) : State :=
  let out := displacedEntry s.fu.settings.mergeDistance e.position s.fu.map
  let t := s.modFu fun f => { f with map := mapAfter f.settings.mergeDistance e f.map }
  t.withSome out fun u x => u.withdraw x.position

/-- Every entry is removed and reported withdrawn (R111, R113, R117). -/
def State.emptyMap (s : State) : State :=
  (s.modFu fun f => { f with map := [] }).each s.fu.map fun t e => t.withdraw e.position

/-- Items for the STALE entries of an installed map, in ascending position, while the list has room (R117). -/
def State.installMap (s : State) (m : List MapEntry) : State :=
  let t := s.modFu fun f => { f with map := m }
  t.each t.staleWithout State.placeItem

/-- The lens lags its target by more than 4 steps (R115). -/
def State.lensLags (s : State) : Bool := decide (4 < distance s.fu.lens s.fu.target)

/-- The fault report of a lagging job at its window start: the first of the run (R115). -/
def State.reportLag (s : State) (windowStart : Nat) : State :=
  if s.lensLags && !s.fu.lagReported then
    (s.modFu fun f => { f with lagReported := true }).faultOccur .focusLag .minor
      (.focusLag s.rollSlot windowStart s.fu.lens s.fu.target)
  else s

/-- The frame is soft against a map entry (R116). -/
def softFrame (staleRatio score : Nat) (e : MapEntry) : Bool := score * 16 < e.score * staleRatio

/-- CP's report of a completed frame's score (R116). -/
def State.frameScored (s : State) (predicted score : Nat) (lagged : Bool) : State :=
  if lagged then s
  else
    s.withSome (nearestEntry predicted s.fu.map) fun t e =>
      if softFrame t.fu.settings.staleRatio score e then
        (t.modFu fun f =>
          { f with map := f.map.map (fun x => if x.position = e.position then { x with stale := true } else x) }).placeItem
          e.position
      else t

/-- While tracking is on, the lens target follows P (R114). -/
def State.trackLens (s : State) : State := if s.fu.tracking then s.commandLens (s.lensFor s.tc.position) else s

/-- Tracking starts with a CAPTURE run (R114). -/
def State.startTracking (s : State) : State :=
  (s.modFu fun f => { f with tracking := true, lagReported := false }).trackLens

/-- Tracking ends with the run (R114). -/
def State.endTracking (s : State) : State := s.modFu fun f => { f with tracking := false }

/-- The probe's current sweep: the first point without a score is commanded (R106). -/
def State.commandPoint (s : State) : State :=
  s.withSome s.fu.probe fun t p =>
    t.withSome (p.points.find? (fun x => x.score.isNone)) fun u x => u.commandLens x.lens

/-- CP reports the lamp lit to a probe: its sweep starts (R106). -/
def State.probeLit (s : State) : State :=
  match s.fu.probe with
  | some p =>
    if p.phase = .lamp then
      (s.modFu fun f => { f with probe := some { p with phase := .sweep } }).commandPoint
    else s
  | none => s

end Sys2Proof.Machine
end

