-- ==== Sys2Proof/Machine/CaptureOps.lean ====
section
/-! DEFINITION. CaptureOps.lean: the lamp (R124), the frame-store slots (R126, R136), the job list (R128, R129), and taking,
verifying and ending a job's lines (R130 to R135). -/

namespace Sys2Proof.Machine

/-! ### The lamp (R124) -/

/-- A holder who finds the lamp OFF starts its warming. -/
def Lamp.requested : Lamp → Lamp
  | .off => .warming
  | l => l

/-- The job list requests the lamp; a lamp already LIT is reported to RS at once. While a MAJOR fault is active the
request is refused. -/
def State.lampForList (s : State) : State :=
  if s.latched then s
  else
    let t := s.modCp fun c => { c with listHolds := true, lamp := c.lamp.requested }
    if s.cp.lamp = .lit then t.modPass fun p => { p with lampLit := true } else t

/-- A probe requests the lamp; a lamp already LIT is reported to FU at once. -/
def State.lampForProbe (s : State) : State :=
  if s.latched then s
  else
    let t := s.modCp fun c => { c with probeHolds := true, lamp := c.lamp.requested }
    if s.cp.lamp = .lit then t.probeLit else t

/-- With its last holder gone the lamp is OFF. -/
def lampSettled (c : Cp) : Cp := if c.probeHolds || c.listHolds then c else { c with lamp := .off }

def State.releaseListLamp (s : State) : State := s.modCp fun c => lampSettled { c with listHolds := false }
def State.releaseProbeLamp (s : State) : State := s.modCp fun c => lampSettled { c with probeHolds := false }

/-- The halt and the soft reset put the lamp out and clear its holders (R124, R139). -/
def Cp.lampOut (c : Cp) : Cp := { c with lamp := .off, probeHolds := false, listHolds := false }

/-! ### Slots -/

def State.modSlot (s : State) (n : Nat) (f : StoreSlot → StoreSlot) : State :=
  s.modCp fun c => { c with slots := c.slots.set n ((c.slots.getD n none).map f) }

/-- A frame record before its window starts: only the request id is known, the other fields stand at 0 and are sent so, as
are the fields that only the window's end gives until then (R134; DESIGN CHOICE, log 36). -/
def FrameRecord.initial (reqId : Nat) : FrameRecord where
  reqId := reqId
  origin := 0
  image := 0
  label := []
  frame := 0
  segment := 0
  flags := { clamped := false, truncated := false, markNotSeen := false, focusLag := false, predictedOnly := false }
  predicted := 0
  observed := none
  windowStart := 0
  lines := 0
  pixels := 0
  lens := 0
  score := 0

/-- The slot CP answers for a reservation: the lowest FREE one; none where no slot is FREE (NONE) or one carries the id
already (DUPLICATE) (R126). -/
def State.reservable (s : State) (reqId : Nat) : Option Nat :=
  if (s.storeSlotOf reqId).isSome then none else s.cp.slots.findIdx? Option.isNone

/-- A slot becomes RESERVED with a request id (R126). -/
def State.reserveSlot (s : State) (n reqId : Nat) : State :=
  s.modCp fun c =>
    { c with
      slots :=
        c.slots.set n
          (some { state := .reserved, reqId := reqId, record := FrameRecord.initial reqId, lines := [] }) }

/-! ### Windows (R128) -/

/-- Window start, line count and TRUNCATED of a window at pp in a segment of pitch q (R128). -/
def State.windowAt (s : State) (pp q : Nat) : Nat × Nat × Bool :=
  let ws := pp - s.cp.settings.margin
  let wanted := ceilDiv (pp + q / 256 + s.cp.settings.margin - ws) s.cp.settings.linePitch
  let most := min 8192 (slotBytes / s.crop.2)
  (ws, min wanted most, decide (most < wanted))

/-- The last line's position (R128). -/
def State.lastLine (s : State) (ws n : Nat) : Nat := ws + (n - 1) * s.cp.settings.linePitch

/-- The pitch of a live segment, by its number. -/
def State.pitchOf (s : State) (seg : Nat) : Nat :=
  match s.ix.segments.find? (fun g => decide (g.number = seg)) with
  | some g => g.pitch
  | none => 0

/-- The job that CP records for an order (R128, R129). -/
def State.jobFor (s : State) (o : JobOrder) : Job :=
  let w := s.windowAt o.predicted (s.pitchOf o.segment)
  { order := o, windowStart := w.1, lines := w.2.1, pitch := s.pitchOf o.segment, truncated := w.2.2, lineIndex := 0,
    missed := false, state := .waiting, observed := none, focusLag := false, predictedOnly := false, lens := 0 }

/-! ### The job list (R129) -/

/-- The slot of an order is RESERVED for its request id. -/
def State.reservedFor (s : State) (o : JobOrder) : Bool :=
  match s.cp.slots.getD o.slot none with
  | some c => decide (c.state = .reserved) && decide (c.reqId = o.reqId)
  | none => false

/-- Some position lies within the line spans of three or more jobs: then some job's start does. -/
def State.threeOverlap (s : State) (js : List Job) : Bool :=
  js.any fun j =>
    decide (3 ≤ (js.filter (fun k =>
      decide (k.windowStart ≤ j.windowStart)
        && decide (j.windowStart ≤ s.lastLine k.windowStart k.lines))).length)

def ascendingStarts : List Job → Bool
  | a :: b :: rest => decide (a.windowStart ≤ b.windowStart) && ascendingStarts (b :: rest)
  | _ => true

/-- The first check that refuses a job list (R129). -/
def State.listRefusal (s : State) (os : List JobOrder) : Option Status :=
  if s.cp.jobs.isSome then some .busy
  else if s.latched then some .halted
  else if os.length = 0 ∨ 16 < os.length then some .range
  else if !os.all s.reservedFor then some .notFound
  else if !ascendingStarts (os.map s.jobFor) || s.threeOverlap (os.map s.jobFor) then some .overlap
  else none

/-- A list that passes is held and the lamp requested (R129). -/
def State.holdList (s : State) (os : List JobOrder) : State :=
  (s.modCp fun c => { c with jobs := some { bound := false, jobs := os.map s.jobFor } }).lampForList

def State.modJob (s : State) (reqId : Nat) (f : Job → Job) : State :=
  s.modCp fun c =>
    { c with
      jobs := c.jobs.map fun l => { l with jobs := l.jobs.map (fun j => if j.order.reqId = reqId then f j else j) } }

def State.jobList (s : State) : List Job :=
  match s.cp.jobs with
  | some l => l.jobs
  | none => []

/-- A job that is WAITING or FILLING. -/
def Job.active (j : Job) : Bool := decide (j.state = .waiting) || decide (j.state = .filling)

/-- Every incomplete job's slot is freed and the job reported DROPPED (R129, R135). At a release before the run too, a job
that a MISFRAME has ABORTED is not reported a second time (DESIGN CHOICE, log 36: R129 reports each job). -/
def State.dropJobs (s : State) : State :=
  s.each (s.jobList.filter Job.active) fun t j => (t.freeSlot j.order.slot).jobReport j.order.reqId .dropped

/-- The list's end: incomplete jobs dropped, the lamp released, the list discarded (R129, R135). -/
def State.endList (s : State) : State :=
  if s.cp.jobs.isSome then (s.dropJobs.modCp fun c => { c with jobs := none }).releaseListLamp else s

/-- CP at the MAJOR halt (R124, R135). -/
def State.haltCapture (s : State) : State := s.dropJobs.modCp fun c => { c with jobs := none }.lampOut

/-- The list is bound to the CAPTURE run that TC takes (R129), and the jobs whose ws lies below P are missed (R130). -/
def State.bindList (s : State) : State :=
  s.modCp fun c =>
    { c with
      jobs :=
        c.jobs.map fun l =>
          { bound := true,
            jobs := l.jobs.map fun j => { j with missed := decide (j.windowStart < s.tc.position) } } }

/-- RS cancels a request's capture (R136). A SENDING slot is unchanged. -/
def State.cancelCapture (s : State) (reqId : Nat) : State :=
  s.withSome (s.storeSlotOf reqId) fun t n =>
    match (t.cp.slots.getD n none).map StoreSlot.state with
    | some .reserved =>
      (t.modCp fun c =>
        { c with
          jobs :=
            c.jobs.map fun l =>
              { l with jobs := l.jobs.filter (fun j => decide (j.order.reqId ≠ reqId)) } }).freeSlot n
    | some .filling => (t.modJob reqId fun j => { j with state := .aborted }).freeSlot n
    | some .ready => t.freeSlot n
    | _ => t

/-! ### Executing a run (R130 to R133) -/

/-- The record a job starts at its window start (R131, R134). -/
def Job.record (j : Job) (pixels : Nat) : FrameRecord where
  reqId := j.order.reqId
  origin := j.order.origin
  image := j.order.image
  label := j.order.label
  frame := j.order.frame
  segment := j.order.segment
  flags :=
    { clamped := j.order.clamped, truncated := j.truncated, markNotSeen := false, focusLag := j.focusLag,
      predictedOnly := j.predictedOnly }
  predicted := j.order.predicted
  observed := j.observed
  windowStart := j.windowStart
  lines := j.lines
  pixels := pixels
  lens := j.lens
  score := 0

/-- RESERVED becomes FILLING when the job's window starts (R126). -/
def StoreSlot.opened (c : StoreSlot) : StoreSlot := if c.state = .reserved then { c with state := .filling } else c

/-- A FILLING slot becomes READY with its completed record, and is appended to the Ready List (R126, R127). -/
def Cp.makeReady (c : Cp) (n : Nat) (record : FrameRecord) : Cp :=
  match c.slots.getD n none with
  | some x =>
    if x.state = .filling then
      { c with slots := c.slots.set n (some { x with state := .ready, record := record }), ready := c.ready ++ [n] }
    else c
  | none => c

/-- A job's window starts (R131). -/
def State.startWindow (s : State) (j : Job) : State :=
  let j' : Job :=
    { j with
      state := .filling, focusLag := s.lensLags, lens := s.fu.lens,
      predictedOnly := decide (s.ix.tracker.state ≠ .counting) }
  let t := (s.modSlot j.order.slot StoreSlot.opened).jobReport j.order.reqId .capturing
  ((t.reportLag j.windowStart).modJob j.order.reqId fun _ => j').modSlot j.order.slot fun c =>
    { c with record := j'.record s.crop.2 }

/-- The band of 8 lines that the frame score is taken over (R133). -/
def scoreBand (pitchTicks8 : Nat) (linePitch : Nat) (j : Job) (lines : List (List Byte)) : List (List Byte) :=
  let k := ceilDiv (j.order.predicted + pitchTicks8 - j.windowStart) linePitch
  (lines.drop (min k (j.lines - 8))).take 8

/-- A job's window ends (R133). -/
def State.endWindow (s : State) (j : Job) : State :=
  let n := j.order.slot
  let lines := match s.cp.slots.getD n none with | some c => c.lines | none => []
  let score := bandScore (scoreBand (j.pitch / 512) s.cp.settings.linePitch j lines)
  let record : FrameRecord :=
    let r := j.record s.crop.2
    { r with score := score, flags := { r.flags with markNotSeen := j.observed.isNone } }
  let u := (s.modCp fun c => c.makeReady n record).modJob j.order.reqId fun x => { x with state := .done }
  (u.jobReport j.order.reqId .captured).frameScored j.order.predicted score j.focusLag

/-- A FILLING job takes a line; its n-th line ends its window (R130, R133). -/
def State.takeLine (s : State) (j : Job) (line : List Byte) : State :=
  let j' : Job := { j with lineIndex := j.lineIndex + 1 }
  let t :=
    (s.modSlot j.order.slot fun c => { c with lines := c.lines ++ [line] }).modJob j.order.reqId fun _ => j'
  if j'.lineIndex = j.lines then t.endWindow j' else t

def State.findJob (s : State) (reqId : Nat) : Option Job := s.jobList.find? (fun j => decide (j.order.reqId = reqId))

/-- One job at a position: its window starts there, or its next line lies there (R130). A missed job never starts, even
where reverse ticks bring P below its ws and a forward tick back to it. -/
def State.jobAt (s : State) (line : List Byte) (reqId : Nat) : State :=
  s.withSome (s.findJob reqId) fun t j =>
    if j.state = .waiting ∧ j.missed = false ∧ j.windowStart = t.tc.position then
      let u := t.startWindow j
      u.withSome (u.findJob reqId) fun v k => v.takeLine k line
    else if j.state = .filling ∧ j.windowStart + j.lineIndex * t.cp.settings.linePitch = t.tc.position then
      t.takeLine j line
    else t

/-- A bound run is in progress: TC is SCANNING and the list is bound to its run (R130). -/
def State.capturing (s : State) : Bool :=
  decide (s.tc.state = .scanning) && (match s.cp.jobs with | some l => l.bound | none => false)

/-- The lines due at the present position, one line of the sensor written to each slot whose job takes it (R130). -/
def State.captureLine (s : State) (pixels : List Byte) : State :=
  if s.capturing then
    s.each (s.jobList.map (fun j => j.order.reqId)) fun t id => t.jobAt (s.activePixels pixels) id
  else s

/-- A job is ended in MISFRAME by a mark counted as frame g at m (R132). -/
def State.misframe (s : State) (j : Job) (g m : Nat) : State :=
  let t := (s.modJob j.order.reqId fun x => { x with state := .aborted }).freeSlot j.order.slot
  (t.faultOccur .misframe .minor (.misframe j.order.reqId j.order.slot j.order.frame g m)).jobReport j.order.reqId
    .misframe

/-- A job is verified by a mark at m (R132). -/
def State.verified (s : State) (j : Job) (m : Nat) : State :=
  let t := s.modJob j.order.reqId fun x => { x with observed := some m }
  if j.state = .filling then
    t.modSlot j.order.slot fun c => { c with record := { c.record with observed := some m } }
  else t

/-- W of a job's segment, as IX gives it now (R132). A segment that the table no longer holds gives none, and the job is
then not tested (DESIGN CHOICE, log 36). -/
def State.bandOf (s : State) (j : Job) : Option Nat :=
  (s.ix.segments.find? (fun g => decide (g.number = j.order.segment))).map captureWindow

/-- IX reports a counted or matched mark: frame g at m (R132). -/
def State.markReported (s : State) (g m : Nat) : State :=
  s.each (s.jobList.filter (fun j => j.active && j.observed.isNone)) fun t j =>
    match t.bandOf j with
    | some w =>
      if distance m j.order.predicted ≤ w then
        if g = j.order.frame then t.verified j m else t.misframe j g m
      else t
    | none => t

end Sys2Proof.Machine
end

