-- ==== Sys2Proof/Machine/TransportOps.lean ====
section
/-! DEFINITION. TransportOps.lean: TC's motions: taking a seek (R5, R6, R7), a run (R12), a rewind (R14), their stops (R11,
R20), and the tests of a moving film (R5, R7, R8, R12). -/

namespace Sys2Proof.Machine

/-- The film's place on the position scale, below 0 by the leader underrun (R1). -/
def State.filmPlace (s : State) : Int := (s.tc.position : Int) - s.tc.underrun

/-- A motion taken while RS waits between its seek's outcome and its run (R167). -/
def State.noteMotion (s : State) : State :=
  s.modPass fun p => if p.kind = .capture ∧ p.phase = .seek ∧ p.seekDone then { p with disturbed := true } else p

/-! ### Seeks -/

/-- The direction from the film's place to a target (R6). -/
def State.toward (s : State) (target : Nat) : Direction :=
  if (target : Int) < s.filmPlace then .reverse else .forward

/-- The arrival conditions (R7). -/
def State.arrived (s : State) (target : Nat) : Bool :=
  decide (distance s.tc.position target ≤ arrivalWindow) && decide (s.tc.underrun = 0)
    && decide (s.tc.speed ≤ creepSpeed)

/-- Arrival: the film is held at rest and the settle dwell starts (R7). -/
def State.arrive (s : State) : State :=
  (s.modTc fun c => { c with phase := .dwell, travel := .none, direction := .none }).slackFollow

/-- A seek's movement starts from rest: at once an arrival, or a movement toward the target (R6, R7). A correction moves
at creep speed (R8). -/
def State.depart (s : State) (m : Seek) : State :=
  let t := s.modTc fun c => { c with motion := some (.seek m) }
  if distance s.tc.position m.target ≤ arrivalWindow ∧ s.tc.underrun = 0 then t.arrive
  else
    t.modTc fun c =>
      { c with phase := if m.correcting then .creep else .travel, travel := s.toward m.target }

/-- The target lies in the direction of travel, at or beyond the stopping point (R6). -/
def State.beyondStop (s : State) (target accel : Nat) : Bool :=
  let gap : Int :=
    match s.tc.direction with
    | .forward => target - s.filmPlace
    | .reverse => s.filmPlace - target
    | .none => -1
  decide (0 ≤ gap) && decide ((100 * s.tc.speed ^ 2 : Int) ≤ gap * (2 * accel))

/-! ### Runs -/

/-- TC takes a run in STOPPED (R12); an end position above the guard end is clamped to it (R10). Film that still coasts in
reverse after a cleared halt is commanded forward at once (DESIGN CHOICE, log 36: R6 states the rest before a turn of
seeks). -/
def State.startRun (s : State) (req : Requester) (purpose : RunPurpose) (speed : Nat) (endPos : Option Nat) :
    State :=
  let bound := match s.guardEnd with | some g => endPos.map (min g) | none => endPos
  let r : Run :=
    { requester := req, purpose := purpose, speed := speed, accel := s.tc.settings.acceleration,
      endPosition := bound }
  (s.noteMotion.enter .scanning).modTc fun c =>
    { c with motion := some (.run r), phase := .travel, travel := .forward }

/-- A run ends for a reason; the film is stopped at a rate, and the end is reported at rest (R12). -/
def State.endRun (s : State) (r : Run) (why : RunEnd) (ph : Phase) (rate : Nat) : State :=
  s.modTc fun c =>
    { c with
      motion := none, phase := ph, stopRate := rate,
      endedRun := some { requester := r.requester, purpose := r.purpose, reason := why } }

/-- The requester's finish order (R12): discarded after the run has ended. -/
def State.finishRun (s : State) : State :=
  match s.tc.motion with
  | some (.run r) => s.endRun r .finished .controlledStop r.accel
  | _ => s

/-! ### Threading (R14) -/

/-- TC enters THREADING from UNLOADED as a mount begins, before the carousel turns. -/
def State.startThreading (s : State) : State :=
  let m : Threading := { speedLimit := creepSpeed, accel := s.tc.settings.acceleration }
  (s.noteMotion.enter .threading).modTc fun c =>
    { c with motion := some (.threading m), phase := .idle, travel := .none }

/-- P and the leader underrun become 0 (R1). -/
def Tc.atZero (c : Tc) : Tc := { c with position := 0, underrun := 0 }

/-- No motion is in progress. -/
def Tc.noMotion (c : Tc) : Tc := { c with motion := none, phase := .idle, travel := .none }

/-! ### Tests of a moving film -/

/-- The deceleration trigger: remaining ticks × 2a is no more than 100 × v² (R5). -/
def State.decelerates (s : State) (target accel : Nat) : Bool :=
  decide ((s.filmPlace - target).natAbs * (2 * accel) ≤ 100 * s.tc.speed ^ 2)

/-- The deceleration trigger of a rewind, whose remaining ticks are P: from P = 0 on none remain, however far the film runs
into the leader, so creep speed is held there (R5, R14). -/
def State.rewindSlows (s : State) (accel : Nat) : Bool :=
  decide (s.tc.position * (2 * accel) ≤ 100 * s.tc.speed ^ 2)

/-- The film has passed more than 4 ticks beyond the target in its direction of travel (R8). -/
def State.overshot (s : State) (target : Nat) : Bool :=
  match s.tc.travel with
  | .forward => decide ((target : Int) + arrivalWindow < s.filmPlace)
  | .reverse => decide (s.filmPlace < (target : Int) - arrivalWindow)
  | .none => false

/-- An overshoot: the film is brought to rest; of a correction it is a failed one (R8). -/
def State.overshoot (s : State) (m : Seek) : State :=
  let m' := if m.correcting then { m with corrections := m.corrections + 1 } else m
  s.modTc fun c => { c with motion := some (.seek m'), phase := .overshoot, stopRate := m.accel }

/-- The phase after the deceleration trigger and the end of deceleration (R5). -/
def nextPhase (ph : Phase) (trigger : Bool) (speed : Nat) : Phase :=
  match ph with
  | .travel => if trigger then (if speed ≤ creepSpeed then .creep else .decelerate) else .travel
  | .decelerate => if speed ≤ creepSpeed then .creep else .decelerate
  | p => p

/-- The phases in which a seek or a rewind travels under its profile. -/
def Phase.underway : Phase → Bool
  | .travel | .decelerate | .creep => true
  | _ => false

/-- The tests of R5, R7, R8, R12 and R14 on the motion in progress, at a tick and at a new speed. -/
def State.motionTests (s : State) : State :=
  match s.tc.motion with
  | some (.seek m) =>
    if s.tc.phase.underway then
      if s.arrived m.target then s.arrive
      else if s.overshot m.target then s.overshoot m
      else s.modTc fun c => { c with phase := nextPhase c.phase (s.decelerates m.target m.accel) c.speed }
    else s
  | some (.run r) =>
    match r.endPosition with
    | some e => if e ≤ s.tc.position then s.endRun r .endReached .controlledStop r.accel else s
    | none => s
  | some (.rewind m) => s.modTc fun c => { c with phase := nextPhase c.phase (s.rewindSlows m.accel) c.speed }
  | _ => s

/-! ### Taking a rewind (R14) -/

/-- TC starts a rewind: the unmount's at the rewind speed, tested for its deceleration trigger as it is taken; the recovery's
at creep speed. Film that still coasts forward after a cleared halt is commanded in reverse at once (DESIGN CHOICE, log 36:
R6 states the rest before a turn of seeks). -/
def State.startRewind (s : State) (recovery : Bool) : State :=
  let g := s.tc.settings
  let m : Rewind :=
    { recovery := recovery, speedLimit := if recovery then creepSpeed else rewindSpeed, accel := g.acceleration,
      capSpeed := g.scanSpeed }
  ((s.noteMotion.enter .rewinding).modTc fun c =>
    { c with
      motion := some (.rewind m), phase := if recovery then .creep else .travel, travel := .reverse }).motionTests

/-! ### Taking a seek -/

/-- TC takes a seek (R5, R6, R7): from rest, onward, or after coming to rest. The target is already clamped (R10). A seek
that goes onward is tested for arrival and for its deceleration trigger as it is taken (R5, R7). Film that must first come
to rest decelerates at the acceleration setting, as R6 states, also when the seek is taken during an emergency stop, whose
4000 mm/s² (R11) then gives way (DESIGN CHOICE, log 36). -/
def State.startSeek (s : State) (req : Requester) (target : Nat) (clamped : Bool) (limit : Nat) : State :=
  let g := s.tc.settings
  let m : Seek :=
    { requester := req, target := target, clamped := clamped, speedLimit := limit, accel := g.acceleration,
      capSpeed := g.scanSpeed, dwell := g.settleDwell, corrections := 0, correcting := false }
  let rest := s.atRest
  let t := s.noteMotion.enter .seeking
  if rest then t.depart m
  else if s.beyondStop target g.acceleration then
    (t.modTc fun c => { c with motion := some (.seek m), phase := .travel, travel := c.direction }).motionTests
  else
    t.modTc fun c =>
      { c with motion := some (.seek m), phase := .reversal, travel := c.direction, stopRate := g.acceleration }

/-- A seek target after clamping, with the CLAMPED flag (R10). -/
def State.clampTarget (s : State) (target : Int) : Nat × Bool :=
  if target < 0 then (0, true)
  else if (s.seekBound : Int) < target then (s.seekBound, true)
  else (target.toNat, false)

/-- A seek of RS or IX, clamped as R10 states, at the seek speed. -/
def State.orderSeek (s : State) (req : Requester) (target : Nat) : State :=
  let c := s.clampTarget target
  s.startSeek req c.1 c.2 s.tc.settings.seekSpeed

end Sys2Proof.Machine
end

