-- ==== Sys2Proof/Machine/IndexOps.lean ====
section
/-! DEFINITION. IndexOps.lean: the Frame Tracker (R62 to R67), opening and closing segments (R68 to R72), landmarks (R73),
pitch learning (R90 to R93) and the tests IX makes as the film moves (R62, R65, R70, R77). -/

namespace Sys2Proof.Machine

/-! ### Tables and records -/

def State.modTracker (s : State) (f : Tracker → Tracker) : State := s.modIx fun x => { x with tracker := f x.tracker }

def State.modIndexPass (s : State) (f : IndexPass → IndexPass) : State := s.modIx fun x => { x with pass := x.pass.map f }

def State.segment (s : State) (n : Nat) : Option Segment := s.ix.segments.find? (fun g => decide (g.number = n))

def State.modSegment (s : State) (n : Nat) (f : Segment → Segment) : State :=
  s.modIx fun x => { x with segments := x.segments.map (fun g => if g.number = n then f g else g) }

/-- The tracker's current segment record. -/
def State.currentSegment (s : State) : Option Segment := s.ix.tracker.segment.bind s.segment

/-- LOST: the frame at the gate is unknown; the last mark stays (R64). -/
def Tracker.toLost (t : Tracker) : Tracker := { t with state := .lost, frame := none, segment := none }

/-- NONE, with the frame fields absent (R62, R83). -/
def Tracker.toNone (t : Tracker) : Tracker := { t with state := .none, frame := none, segment := none }

/-- COUNTING at a frame by a mark (R63 to R68). -/
def Tracker.toCounting (t : Tracker) (f seg m : Nat) (c : MarkClass) : Tracker :=
  { t with
    state := .counting, frame := some f, segment := some seg, lastMark := some { position := m, cls := c } }

def State.strayMark (s : State) : State := s.modTracker fun t => { t with stray := saturate countMax t.stray }

def State.loseTrack (s : State) : State := s.modTracker Tracker.toLost

/-- RECKONING at a frame of a segment (R65). -/
def Tracker.toReckoning (t : Tracker) (f seg : Nat) : Tracker :=
  { t with state := .reckoning, frame := some f, segment := some seg }

/-- RECKONING: the current frame and segment derived from the position (R65). With an empty Segment Table the rule gives
neither, and both are free values (log 4, log 35). -/
def State.reckon (s : State) : State :=
  match segmentAt s.ix.segments s.tc.position with
  | some g => s.modTracker fun x => x.toReckoning (inverse g s.highestPlaced s.tc.position) g.number
  | none =>
    (s.modTracker fun x =>
      x.toReckoning (clampNat 1 65535 (Config.freeFrame s.free)) (min (Config.freeSegment s.free) 31)).spendFree

/-! ### Landmarks (R73) -/

def insertLandmark (l : Landmark) : List Landmark → List Landmark
  | [] => [l]
  | x :: rest => if l.frame < x.frame then l :: x :: rest else x :: insertLandmark l rest

/-- A mark is a landmark candidate: MEDIUM or LONG (R60). -/
def MarkClass.landmark : MarkClass → Bool
  | .short => false
  | _ => true

/-- W of the segment that holds a frame. -/
def State.windowOfFrame (s : State) (f : Nat) : Option Nat :=
  (findFrame s.ix.segments s.highestPlaced f).map captureWindow

/-- A counted or matched mark is offered to the Landmark List (R73). -/
def State.offerLandmark (s : State) (f m : Nat) (c : MarkClass) : State :=
  if !c.landmark then s
  else
    match s.ix.landmarks.find? (fun l => decide (l.frame = f)) with
    | some l =>
      match s.windowOfFrame f with
      | some w =>
        if l.cls = c ∧ distance m l.position ≤ w then
          s.modIx fun x =>
            { x with landmarks := x.landmarks.map (fun y => if y.frame = f then { y with position := m } else y) }
        else s
      | none => s
    | none =>
      if s.atFrontier then
        if s.ix.landmarks.length < 256 then
          s.modIx fun x => { x with landmarks := insertLandmark { frame := f, position := m, cls := c } x.landmarks }
        else s.modMounted fun e => { e with landmarksDropped := true }
      else s

/-! ### Pitch learning (R91 to R93) -/

/-- The pitch after an accepted observation of span d at m (R92). -/
def learnedPitch (shift : Nat) (g : Segment) (d : Int) (m : Nat) : Nat :=
  let observed : Int := ((m - g.anchorPos : Int) * 256).tdiv d
  let q : Int :=
    match g.learning with
    | .provisional => observed
    | .learned | .drifted => g.pitch + (observed - g.pitch).tdiv (2 ^ shift : Nat)
  (clampInt 51200 1536000 q).toNat

/-- A segment after an observation of frame f at m (R91, R92, R93). -/
def observed (shift : Nat) (g : Segment) (f m : Nat) : Segment :=
  let d : Int := f - g.anchorFrame
  if withinWindow g f m then
    if d.natAbs < 16 then { g with rejects := 0 }
    else
      { g with
        rejects := 0, pitch := learnedPitch shift g d m, learning := .learned, anchorFrame := f, anchorPos := m,
        observations := saturate countMax g.observations }
  else if g.rejects + 1 < 3 then { g with rejects := g.rejects + 1 }
  else { g with rejects := 0, learning := .drifted }

/-- The observation is the third consecutive reject (R93). -/
def thirdReject (g : Segment) (f m : Nat) : Bool := !withinWindow g f m && decide (2 ≤ g.rejects)

/-- An observation of frame f at m in a segment (R90 to R93). -/
def State.observe (s : State) (g : Segment) (f m : Nat) : State :=
  let t := s.modSegment g.number fun x => observed s.ix.shift x f m
  if thirdReject g f m then
    t.faultOccur .pitchDrift .minor (.pitchDrift s.rollSlot g.number f (residual g f m) g.pitch)
  else t

/-! ### The frontier of an index run -/

/-- The pass's target is reached: IX sends TC the finish order (R76). -/
def State.targetTest (s : State) : State :=
  match s.ix.pass with
  | some p =>
    match p.target with
    | some f => if p.phase = .run ∧ f ≤ p.countedTo then s.finishRun else s
    | none => s
  | none => s

/-- A frame counted at the frontier advances the counted-to frame (R71). -/
def State.advance (s : State) (f : Nat) : State :=
  s.modIndexPass fun p => { p with countedTo := max p.countedTo f }

/-- The mark that brings an EXTENSION's run to its frontier (R76). -/
def State.reachFrontier (s : State) (f : Nat) : State :=
  s.modIndexPass fun p =>
    if p.phase = .run ∧ p.kind = .extension ∧ p.lastAtStart.getD 0 ≤ f then { p with frontier := true } else p

/-- The counted-to frame of the pass in progress (R71). -/
def State.countedTo (s : State) : Nat :=
  match s.ix.pass with
  | some p => p.countedTo
  | none => 0

/-- A mark at m counted as frame f in the open segment, its step being n (R68, R70). The frontier position follows the
highest counted frame, so a lower frame counted with a step of 1 leaves it. A step of 2 or more sets it to m whatever
the direction, as R70 says of every such mark, also where f is lower (DESIGN CHOICE, log 36: R68's field is the mark of the
highest counted frame). All n − 1 frames passed over are inferred, also more than 4, where the mark was reported before P
reached the gap (DESIGN CHOICE, log 36: R70 takes the gap to come first). -/
def Segment.extend (g : Segment) (highest f m n : Nat) : Segment :=
  { g with
    inferred := g.inferred + (n - 1)
    frontier := if highest ≤ f ∨ 2 ≤ n then some m else g.frontier }

/-- The frontier rules for a counted mark whose step is n (R68, R70, R71, R76). -/
def State.frontierCount (s : State) (g : Segment) (f m n : Nat) : State :=
  let t := s.reachFrontier f
  if t.atFrontier then
    let u :=
      if g.closed then t
      else t.modSegment g.number fun x => x.extend t.countedTo f m n
    (u.advance f).targetTest
  else t

/-- A segment closed at a last frame and an end position (R69, R70, R72). -/
def Segment.close (g : Segment) (f e : Nat) : Segment :=
  { g with lastFrame := some f, endPos := some e, frontier := none }

/-- A limit of the index is met at a mark: INDEX_FAILED, and the finish order for the run (R72). -/
def State.limitReached (s : State) (d : FaultDetail) : State :=
  ((s.modIndexPass fun p => { p with limitHit := true }).faultOccur .indexFailed .minor d).finishRun

/-- The record a mark opens (R68, R84). -/
def newSegment (number first m q : Nat) (why : BreakReason) : Segment where
  number := number
  firstFrame := first
  lastFrame := none
  startPos := m
  endPos := none
  frontier := some m
  anchorFrame := first
  anchorPos := m
  pitch := q
  observations := 0
  rejects := 0
  inferred := 0
  reason := why
  learning := .provisional

/-- The nominal pitch of a segment 0: the roll's Q0, or a free value for a roll without a description (R68, log 4). -/
def State.nominalPitch (s : State) : Nat := s.ix.q0.getD (clampNat 51200 1536000 (Config.freePitch s.free))

/-- A segment is opened by a mark (R68): the tracker counts its first frame. -/
def State.openWith (s : State) (g : Segment) (m : Nat) (c : MarkClass) : State :=
  let t :=
    (s.modIx fun x => { x with segments := x.segments ++ [g] }).modTracker fun k =>
      k.toCounting g.firstFrame g.number m c
  ((t.advance g.firstFrame).targetTest.markReported g.firstFrame m).offerLandmark g.firstFrame m c

/-- The leader start is disarmed, by the leader-start mark or a match of R67 and by nothing else (R66). -/
def State.disarmLeader (s : State) : State := s.modTracker fun k => { k with leaderArmed := false }

/-- Segment 0 is opened at the leader start (R66, R68). -/
def State.openFirst (s : State) (m : Nat) (c : MarkClass) : State :=
  (s.onlyIf s.ix.q0.isNone State.spendFree).disarmLeader.openWith (newSegment 0 1 m s.nominalPitch .start) m c

/-- A later segment is opened (R64, R68), unless the index is at a limit (R72). -/
def State.openNext (s : State) (g : Segment) (m : Nat) (c : MarkClass) : State :=
  match s.ix.pass with
  | some p =>
    if p.limitHit then s.strayMark
    else if 32 ≤ s.ix.segments.length then s.limitReached (.indexSegments s.rollSlot m)
    else
      s.openWith (newSegment (g.number + 1) (g.lastFrame.getD 0 + 1) m g.pitch (p.pending.getD .gap)) m c
  | none => s.strayMark

/-! ### Counting a mark (R63, R64) -/

/-- A mark is counted as frame f of a segment, its step being n (R63). -/
def State.countMark (s : State) (g : Segment) (f m n : Nat) (c : MarkClass) : State :=
  let t := (s.modTracker fun k => k.toCounting f g.number m c).frontierCount g f m n
  let u := if t.plainRun && decide (t.lastIndexed < f) then t else t.observe g f m
  (u.markReported f m).offerLandmark f m c

/-- A mark leaves the current segment (R64). One counted into the adjacent segment is taken with a step of 1, so no frame
is inferred by it (DESIGN CHOICE, log 36: R64 gives the frame and no step). -/
def State.leaveSegment (s : State) (g : Segment) (forward : Bool) (m : Nat) (c : MarkClass) : State :=
  let next := if forward then s.segment (g.number + 1) else if g.number = 0 then none else s.segment (g.number - 1)
  match next with
  | some h =>
    let reached :=
      if forward then decide (h.startPos ≤ m + captureWindow h)
      else decide (m ≤ h.endPos.getD (upperBound h) + captureWindow h)
    if reached then
      let f := inverse h s.highestPlaced m
      if withinWindow h f m then s.countMark h f m 1 c else s.loseTrack
    else s.strayMark
  | none =>
    if forward && s.atFrontier && (match g.endPos with | some e => decide (e < m) | none => false) then
      s.openNext g m c
    else s.strayMark

/-- A candidate frame above 65,535 (R63, R72). With the last segment already closed nothing is left to close, and the
pending break reason is GAP, as by a gap (DESIGN CHOICE, log 36). -/
def State.frameLimit (s : State) (g : Segment) (f last m : Nat) : State :=
  if s.atFrontier then
    match s.ix.pass with
    | some p =>
      if p.limitHit then s.strayMark
      else
        ((s.onlyIf (!g.closed) fun t => t.modSegment g.number fun x => x.close f (last + pitchTicks g)).modIndexPass
          fun q => { q with pending := some .gap }).limitReached (.indexFrames s.rollSlot m)
    | none => s
  else s.loseTrack

/-- A mark read in COUNTING (R63). Without a segment to count in (a table emptied under the tracker) it has no effect
(log 35). -/
def State.stepMark (s : State) (forward : Bool) (m : Nat) (c : MarkClass) : State :=
  match s.currentSegment, s.ix.tracker.frame, s.ix.tracker.lastMark with
  | some g, some f, some l =>
    let n := markStep g forward l.position m
    if n ≤ 0 then s.strayMark
    else
      let candidate : Int := if forward then f + n else f - n
      if 65535 < candidate then s.frameLimit g f l.position m
      else if decide ((g.firstFrame : Int) ≤ candidate)
          && (match g.lastFrame with | some e => decide (candidate ≤ e) | none => true) then
        s.countMark g candidate.toNat m n.toNat c
      else s.leaveSegment g forward m c
  | _, _, _ => s

/-! ### The other tracker states (R65 to R67) -/

/-- The extension has failed: IX sends the finish order, and the pass restarts when the run has ended (R77, R78). -/
def State.failExtension (s : State) : State :=
  match s.ix.pass with
  | some p =>
    if p.kind = .extension ∧ p.phase = .run ∧ p.frontier = false ∧ p.failed = false then
      (s.modIndexPass fun q => { q with failed := true }).finishRun
    else s
  | none => s

/-- The mark makes the tracker COUNTING at a frame without being observed (R65, R66, R67). -/
def State.matchMark (s : State) (f seg m : Nat) (c : MarkClass) : State :=
  ((s.modTracker fun k => k.toCounting f seg m c).markReported f m).offerLandmark f m c

/-- The first mark read after RECKONING (R65). A residual above W makes the tracker LOST; where the mark is the first of an
extension's run and the pass began in sync or NONE, the extension has failed with it (R77). On an empty Segment Table the
mark has no effect (log 35). -/
def State.matchReckoning (s : State) (first : Bool) (m : Nat) (c : MarkClass) : State :=
  s.withSome (segmentAt s.ix.segments m) fun t g =>
    let f := inverse g t.highestPlaced m
    if withinWindow g f m then t.matchMark f g.number m c else t.loseTrack.onlyIf first State.failExtension

/-- The leader-start mark (R66). It is compared with S0, as in `resyncCandidates` (log 36). -/
def State.leaderMark (s : State) (m : Nat) (c : MarkClass) : State :=
  match s.ix.segments.head? with
  | none => if s.indexRun then s.openFirst m c else s.disarmLeader
  | some g =>
    if distance m g.startPos ≤ captureWindow g then s.disarmLeader.matchMark g.firstFrame g.number m c
    else s.disarmLeader.loseTrack

/-- A frame, its segment and its stored position that a mark may match (R67). -/
structure Candidate where
  frame : Nat
  segment : Nat
  position : Nat

/-- The candidates of a resynchronisation within W of a mark: landmarks before segment starts, lower frames first
(R67). The mark is compared with the stored landmark position and with S0, as R67 and R66 say, and not with the raw
prediction, from which R86 takes the residuals of these matches too (DESIGN CHOICE, log 36). -/
def State.resyncCandidates (s : State) (m : Nat) (c : MarkClass) : List Candidate :=
  (s.ix.landmarks.filterMap fun l =>
    match findFrame s.ix.segments s.highestPlaced l.frame with
    | some g =>
      if l.cls = c ∧ distance m l.position ≤ captureWindow g then some ⟨l.frame, g.number, l.position⟩ else none
    | none => none)
  ++ (s.ix.segments.filterMap fun g =>
    if distance m g.startPos ≤ captureWindow g then some ⟨g.firstFrame, g.number, g.startPos⟩ else none)

/-- A mark read in NONE or LOST (R67). -/
def State.resync (s : State) (m : Nat) (c : MarkClass) : State :=
  s.withSome (leastBy (fun k => distance m k.position) (s.resyncCandidates m c)) fun t k =>
    t.disarmLeader.matchMark k.frame k.segment m c

/-- A SHORT, MEDIUM or LONG mark is handed to the tracker (R63, R65, R66, R67), and no later mark is the run's first
(R77). -/
def State.trackMark (s : State) (forward : Bool) (m : Nat) (c : MarkClass) : State :=
  let t := s.modIndexPass fun p => { p with firstMarkDue := false }
  match s.ix.tracker.state with
  | .counting => t.stepMark forward m c
  | .reckoning => t.matchReckoning s.firstMarkDue m c
  | .none => if forward && s.ix.tracker.leaderArmed then t.leaderMark m c else t.resync m c
  | .lost => t.resync m c

/-! ### As the film moves -/

/-- Reverse motion reaches P = 0, or the underrun becomes above 0: NONE, leader start armed (R62). -/
def State.returnToZero (s : State) : State := s.modTracker fun k => { k.toNone with leaderArmed := true }

/-- The gap test (R70, R76). It is made on P, at ticks: a mark reported at a position beyond the gap before P has reached it is
stepped from the last mark and counted, and more than 4 frames can be inferred at it (DESIGN CHOICE, log 36: R70 takes the
test to act before a step can exceed 5). -/
def State.gapTest (s : State) : State :=
  match s.currentSegment, s.ix.tracker.frame, s.ix.tracker.lastMark with
  | some g, some f, some l =>
    if s.atFrontier ∧ s.ix.tracker.state = .counting ∧ g.closed = false
        ∧ l.position + 5 * g.pitch / 256 + captureWindow g + 1 ≤ s.tc.position then
      (s.modSegment g.number fun x => x.close f (l.position + pitchTicks g)).modIndexPass fun p =>
        { p with pending := some .gap }
    else s
  | _, _, _ => s

/-- P passes the extension limit while the tracker is not COUNTING (R77). The prediction in it is the raw one (DESIGN CHOICE,
log 36: R86 and R87 do not say whether the raw prediction or the placed position is meant). The test is made at every tick
beyond the limit and not only as P crosses it, so a run that crossed it COUNTING, its frontier not reached, fails when it is
no longer COUNTING (DESIGN CHOICE, log 36: R77's words admit both). -/
def State.extensionTest (s : State) : State :=
  match s.ix.pass with
  | some p =>
    if p.kind = .extension ∧ p.phase = .run ∧ p.frontier = false ∧ p.failed = false
        ∧ s.ix.tracker.state ≠ .counting then
      s.withSome (findFrame s.ix.segments s.highestPlaced (p.lastAtStart.getD 0)) fun t g =>
        if predict g (p.lastAtStart.getD 0) + (2 * g.pitch / 256 : Nat) < t.tc.position then
          t.loseTrack.failExtension
        else t
    else s
  | none => s

/-- IX at a tick (R62, R65, R70, R77): whether it changed P, and whether it is a reverse one at P = 0. -/
def State.indexTick (s : State) (moved zero : Bool) : State :=
  let t := s.onlyIf zero State.returnToZero
  (t.onlyIf (moved && decide (t.ix.tracker.state = .reckoning)) State.reckon).gapTest.extensionTest

/-- TC's speed rises above the mark-read speed limit (R65). -/
def State.speedForTracker (s : State) : State :=
  if s.ix.tracker.state = .counting ∧ markReadLimit < s.tc.speed then s.reckon else s

/-- A splice event (R69, R76). -/
def State.splice (s : State) (p : Nat) : State :=
  if s.atFrontier ∧ s.ix.tracker.state = .counting ∧ s.tc.direction = .forward then
    match s.ix.segments.getLast? with
    | none => s
    | some g =>
      let t :=
        match g.lastFrame, s.ix.tracker.frame with
        | none, some f => s.modSegment g.number fun x => x.close f p
        | _, _ => s
      t.modIndexPass fun q => { q with pending := some .splice }
  else s

end Sys2Proof.Machine
end

