-- ==== Sys2Proof/Machine/CarouselOps.lean ====
section
/-! DEFINITION. CarouselOps.lean: removals (R44), the rotation (R40, R49), threading and retraction (R50, R51), the tables
handed over and taken back (R50, R54, R55), and probes begun and ended (R104 to R110). -/

namespace Sys2Proof.Machine

/-! ### Cartridges -/

/-- A removal of a slot's cartridge (R44). -/
def State.removeCartridge (s : State) (n : Nat) : State :=
  let gone := (s.entry n).label
  let t := (s.modEntry n fun _ => Entry.empty).post .slotChange (.slotChange n .empty)
  t.onlyIf (!gone.isEmpty) fun u => u.rollGone n gone

/-- The presence sensor is compared with an entry that has become STORED or REJECTED (R44). -/
def State.presenceCheck (s : State) (n : Nat) : State :=
  match (s.entry n).state with
  | .stored | .rejected => if s.presence.getD n false then s else s.removeCartridge n
  | _ => s

/-- An entry just created by an insertion (section 3.2). -/
def Entry.inserted : Entry := { Entry.empty with state := .stored }

/-! ### Mounting -/

/-- Ascending is the way to turn: it takes no more slots than descending (R40). A target that is the station slot already,
with the at-position indication clear, turns ascending (DESIGN CHOICE, log 36). -/
def turnsAscending (station target : Nat) : Bool := (target + 12 - station) % 12 ≤ 6

/-- Threading begins: the threader engages, TC runs the take-up at creep speed, the timer starts (R50, R14). -/
def State.startThreader (s : State) : State :=
  ((s.modCu fun c =>
      { c with
        rotation := none, rotationTimer := false, threader := .engaged, threadingTimer := true,
        gateReported := s.gateFilm }).modTc fun c => { c with phase := .creep, travel := .forward }).tensionFollow

/-- A mount begins (R49). -/
def State.beginMount (s : State) (req : Requester) (n : Nat) : State :=
  let t :=
    ((s.setSlotState n .mounting).modCu fun c =>
      { c with lock := some n, opRequester := some req, gateReported := false }).startThreading
  if s.cu.station = n ∧ s.cu.atPosition = true then t.startThreader
  else
    t.modCu fun c =>
      { c with rotation := some { target := n, ascending := turnsAscending c.station n }, rotationTimer := true }

/-- The threader starts retracting the leader (R51). -/
def State.startRetraction (s : State) : State :=
  s.modCu fun c => { c with threader := .retracting, retractionTimer := true }

/-- IX installs a roll's tables, or empties them (R60, R62). -/
def State.installIndex (s : State) (segs : List Segment) (marks : List Landmark) (q0 : Option Nat) : State :=
  s.modIx fun x =>
    { x with segments := segs, landmarks := marks, tracker := Tracker.reset, invalidMarks := 0, q0 := q0 }

def State.postMountDone (s : State) (n : Nat) (o : MountOutcome) : State :=
  s.post .mountDone (.mountDone n (s.entry n).label (s.entry n).description o)

def State.postUnmountDone (s : State) (n : Nat) (o : UnmountOutcome) : State :=
  s.post .unmountDone (.unmountDone n (s.entry n).label o)

/-- The live tables are copied into the mounted roll's entry (R54, R57). -/
def State.saveTables (s : State) (n : Nat) : State :=
  s.modEntry n fun e =>
    { e with segments := s.ix.segments, landmarks := s.ix.landmarks, focusMap := s.fu.map }

/-- An unmount begins (R54); CU reports its start to RS (R157). -/
def State.beginUnmount (s : State) (req : Requester) (n : Nat) : State :=
  ((((s.saveTables n).setSlotState n .unmounting).modCu fun c =>
    { c with opRequester := some req }).startRewind false).removeIndexItem

/-- The recovery rewind begins (R57). -/
def State.beginRecovery (s : State) : State :=
  let t := s.withSome s.mountedSlot fun t n => (t.saveTables n).setSlotState n .unmounting
  ((t.modCu fun c => { c with opRequester := none }).startRewind true).removeIndexItem

/-! ### Probes (R104 to R106, R110) -/

/-- The centre as taken, and whether the sweep was shifted into the soft limits (R105). -/
def shiftCentre (f : FocusSettings) (centre h : Nat) : Nat × Bool :=
  if centre < f.lensMin + h then (f.lensMin + h, true)
  else if f.lensMax < centre + h then (f.lensMax - h, true)
  else (centre, false)

/-- The sweep checks of a half-span and a step (R102). -/
def sweepBad (f : FocusSettings) (h st : Nat) : Bool :=
  decide (2 * h % st ≠ 0) || decide (2 * h / st + 1 < 5) || decide (33 < 2 * h / st + 1)
    || decide (f.lensMax - f.lensMin < 2 * h)

/-- The points of a sweep, lowest first, without those outside the soft limits (R105, R107). -/
def sweepPoints (f : FocusSettings) (centre h st : Nat) : List ProbePoint :=
  (List.range (2 * h / st + 1)).filterMap fun (i : Nat) =>
    let at_ : Int := (centre : Int) - h + i * st
    if (f.lensMin : Int) ≤ at_ ∧ at_ ≤ f.lensMax then some { lens := at_.toNat, score := none } else none

/-- A probe begins (R106). -/
def State.beginProbe (s : State) (req : Requester) (centre h st : Nat) : State :=
  let c := shiftCentre s.fu.settings centre h
  (s.modFu fun f =>
    { f with
      probe :=
        some
          { requester := req, position := s.tc.position, centre := c.1, halfSpan := h, step := st, shifted := c.2,
            sweep := 1, phase := .lamp, points := sweepPoints f.settings c.1 h st } }).lampForProbe

/-- The check that refuses an order of RS for a probe (R104, R105). -/
def State.probeRefused (s : State) : Bool :=
  s.latched || decide (s.tc.state ≠ .stopped) || s.fu.probe.isSome || s.ix.pass.isSome

/-- RS orders a probe at a named position: its centre is the map entry's lens there, else the lens for P (R104). -/
def State.orderProbe (s : State) (p : Nat) : State :=
  let centre :=
    match s.fu.map.find? (fun e => decide (e.position = p)) with
    | some e => e.lens
    | none => s.lensFor s.tc.position
  s.beginProbe .rs centre s.fu.settings.halfSpan s.fu.settings.step

end Sys2Proof.Machine
end

