-- ==== Sys2Proof/Machine/PassOps.lean ====
section
/-! DEFINITION. PassOps.lean: the reports that end motions and operations, and what their requesters do with them: RS's
passes (R163 to R169), index passes (R75 to R80), probes (R109, R110), mounts and rewinds (R50 to R55), and the MAJOR halt
with its reactions (R17, R205). -/

namespace Sys2Proof.Machine

/-! ### RS and its passes -/

/-- The pass in progress is of a kind and in a phase. -/
def State.passIs (s : State) (k : PassKind) (ph : PassPhase) : Bool :=
  match s.rs.pass with
  | some p => decide (p.kind = k) && decide (p.phase = ph)
  | none => false

/-- FU's report of a probe's end to RS (R165). -/
def State.rsProbeEnd (s : State) (o : PassOutcome) : State :=
  s.withSome s.rs.pass fun t p =>
    if p.kind = .probe ∧ p.phase = .probe then
      (t.onlyIf (decide (o = .completed) && p.item.isSome) fun u => u.removeItem p.probePosition).passEnd o
    else t

/-- The outcome of RS's seek (R165, R167, R169). Where the item has been dropped and the outcome is STOPPED, END_OF_FILM or
HALTED, the outcome decides, and COMPLETED is left to ARRIVED and MISSED (DESIGN CHOICE, log 36: both bullets of R165
apply). A list is released, its jobs DROPPED, before the pass ends (DESIGN CHOICE, log 36). -/
def State.rsSeekOutcome (s : State) (o : SeekOutcome) : State :=
  s.withSome s.rs.pass fun t p =>
    if p.kind = .probe ∧ p.phase = .seek then
      match o with
      | .stopped => t.passEnd .stopped
      | .endOfFilm => t.passEnd .failed
      | .halted => t.passEnd .halted
      | _ =>
        if p.dropped then t.passEnd .completed
        else if t.probeRefused then t.passEnd .failed
        else (t.modPass fun q => { q with phase := .probe }).orderProbe p.probePosition
    else if p.kind = .capture ∧ p.phase = .seek then
      match o with
      | .stopped => t.endList.passEnd .stopped
      | .endOfFilm => t.endList.passEnd .failed
      | .halted => t.endList.passEnd .halted
      | _ => t.modPass fun q => { q with seekDone := true }
    else t

/-- The end of RS's capture run (R168). -/
def State.rsRunEnd (s : State) (why : RunEnd) : State :=
  if s.passIs .capture .run then
    s.passEnd
      (match why with
       | .endReached | .finished => .completed
       | .stopped => .stopped
       | .trailer => .failed
       | .halted => .halted)
  else s

/-- RS's motion has been taken from it by a host seek (R169). A list is released before the pass ends (log 36). -/
def State.rsReplaced (s : State) : State :=
  if s.passIs .probe .seek || s.passIs .capture .seek then s.endList.passEnd .abandoned else s

/-- CU's report of a mount's outcome to RS (R163); MOUNTED sets the capture count of the slot to 0 (R162). -/
def State.rsMountOutcome (s : State) (n : Nat) (o : MountOutcome) : State :=
  if s.cu.opRequester = some .rs ∧ (s.passIs .mount .mount || s.passIs .switch .mount) then
    match o with
    | .mounted => (s.modRs fun r => { r with captureCount := 0, countedSlot := some n }).passEnd .completed
    | .failed => s.passEnd .failed
    | .halted => s.passEnd .halted
  else s

/-- A mount order of RS is refused (R48, R168). -/
def State.mountRefused (s : State) (n : Nat) : Bool :=
  s.latched || decide (s.tc.state ≠ .unloaded) || decide (s.cu.threader = .retracting)
    || decide ((s.entry n).state ≠ .stored) || (s.entry n).description.isNone

/-- RS orders a mount of its pass's slot (R163). -/
def State.rsOrderMount (s : State) (n : Nat) : State :=
  if s.mountRefused n then s.passEnd .failed else (s.modPass fun p => { p with phase := .mount }).beginMount .rs n

/-- CU's report of an unmount's outcome to RS (R163). -/
def State.rsUnmountOutcome (s : State) (o : UnmountOutcome) : State :=
  if s.cu.opRequester = some .rs ∧ s.passIs .switch .unmount then
    s.withSome s.rs.pass fun t p =>
      match o with
      | .halted => t.passEnd .halted
      | .stored =>
        if (t.entry p.slot).state = .stored ∧ (t.entry p.slot).label = p.label ∧ t.tc.state = .unloaded then
          t.rsOrderMount p.slot
        else t.passEnd .completed
  else s

/-- How IX answers or ends a pass that RS ordered (R164). -/
inductive IndexReport where
  | noPass
  | ended (o : IndexOutcome) (pass : PassOutcome)

/-- Every entry of a slot that waits for an index or is READY is placed again (R152, R164). -/
def State.placeSlotAgain (s : State) (n : Nat) : State :=
  s.each (s.rs.queue.filter (fun r => decide (r.slot = some n) && r.waitsOrReady)) State.placeAgain

/-- RS at the end of an index pass it ordered (R164). -/
def State.rsIndexEnd (s : State) (rep : IndexReport) : State :=
  s.withSome s.rs.pass fun t p =>
    if p.kind = .index then
      let v := t.removeIndexItem.placeSlotAgain p.slot
      let failing := match rep with | .noPass => true | .ended o _ => decide (o = .failed)
      let w :=
        v.onlyIf failing fun x =>
          x.each (x.rs.queue.filter (fun r => decide (r.slot = some p.slot) && decide (r.state = .waitingIndex)))
            fun y r => y.failRequest r .indexFailed
      w.passEnd (match rep with | .noPass => .completed | .ended _ q => q)
    else t

/-! ### Index passes -/

/-- How an index pass ends (R79, R80). The pass outcome is RS's for an ABORTED one (R164). -/
inductive IndexEnd where
  | trailer
  | finished
  | aborted (pass : PassOutcome)

/-- IX writes the index fields of the mounted roll's entry (R42). -/
def State.writeIndex (s : State) (st : IndexState) (last : Option Nat) : State :=
  s.modMounted fun e => { e with indexState := st, lastIndexed := last }

/-- The higher of the counted-to frame and the last indexed frame held before (R80). -/
def IndexPass.reached (p : IndexPass) : Nat := max p.countedTo (p.lastAtStart.getD 0)

/-- F1 of the last closed segment (R80). -/
def lastClosedFrame (segs : List Segment) : Option Nat := (segs.filterMap (fun g => g.lastFrame)).getLast?

/-- The open segment is closed at the trailer, with the current frame as its F1 (R80). Where the tracker was COUNTING at the
trailer event and has no current frame when the run has ended (LOST or NONE), the segment stays open, and the roll is
INDEXED with the F1 of the last closed segment (DESIGN CHOICE, log 36). -/
def State.closeAtTrailer (s : State) (p : Nat) : State :=
  match s.ix.segments.find? (fun g => !g.closed), s.ix.tracker.frame with
  | some g, some f =>
    s.modSegment g.number fun x => x.close f (min (x.frontier.getD 0 + pitchTicks x) p)
  | _, _ => s

/-- What the pass's end leaves in the table and the directory, and its outcome (R80). A run that the trailer ended, ends the
pass by the TRAILER rows also when a limit of R72 was met in the stop after it. A run that its target finished, and that met
a limit of R72 in its stop, ends the pass by the row after R72: FAILED, with F1 of the last closed segment (DESIGN CHOICE,
log 36, both). -/
def State.settleIndex (s : State) (p : IndexPass) (how : IndexEnd) : State × IndexOutcome :=
  let empty := s.ix.segments.isEmpty
  match how with
  | .aborted _ =>
    if p.kind = .extension ∧ p.frontier = false then (s, .aborted)
    else if empty then (s.writeIndex .unindexed none, .aborted)
    else (s.writeIndex .partial_ (some p.reached), .aborted)
  | .trailer =>
    if empty then
      ((s.writeIndex .unindexed none).faultOccur .indexFailed .minor (.indexNoMarks s.rollSlot), .failed)
    else
      match p.trailer with
      | some e =>
        if e.counting then
          let t := s.closeAtTrailer e.position
          (t.writeIndex .indexed (lastClosedFrame t.ix.segments), .indexed)
        else (s.writeIndex .partial_ (some p.reached), .partial_)
      | none => (s.writeIndex .partial_ (some p.reached), .partial_)
  | .finished =>
    if p.limitHit then (s.writeIndex .partial_ (lastClosedFrame s.ix.segments), .failed)
    else (s.writeIndex .partial_ (some p.countedTo), .partial_)

/-- RS's pass outcome for an index pass's end (R164). -/
def passOutcomeOf (o : IndexOutcome) : IndexEnd → PassOutcome
  | .aborted q => q
  | _ => match o with | .failed => .failed | _ => .completed

def State.postIndexDone (s : State) (o : IndexOutcome) : State :=
  let e := s.mountedEntry
  s.post .indexDone
    (.indexDone s.rollSlot e.label o e.indexState e.lastIndexed s.ix.segments.length s.ix.landmarks.length)

/-- An index pass ends: the table and the directory are settled, INDEX_DONE is posted, the record discarded and the
requester told (R80). At the end of a host's pass too RS places the roll's waiting and READY entries again (R150, R152,
log 12). -/
def State.endIndexPass (s : State) (how : IndexEnd) : State :=
  s.withSome s.ix.pass fun t p =>
    let r := t.settleIndex p how
    let u := (r.1.postIndexDone r.2).modIx fun x => { x with pass := none }
    match p.requester with
    | .rs => u.rsIndexEnd (.ended r.2 (passOutcomeOf r.2 how))
    | _ => (u.withSome u.mountedSlot State.placeSlotAgain).offerPlanning

/-- The last segment is closed: a run then starts with the pending break reason GAP (R75). -/
def State.pendingAtStart (s : State) : Option BreakReason :=
  match s.ix.segments.getLast? with
  | some g => if g.closed then some .gap else none
  | none => none

/-- The pass's run is ordered (R75, R77, R79). An extension begun in sync or NONE starts it RECKONING, and its first mark is
matched; one begun LOST counts on with the tracker that its approach left (R77). -/
def State.orderIndexRun (s : State) : State :=
  s.withSome s.ix.pass fun t p =>
    if t.tc.state ≠ .stopped then t.endIndexPass (.aborted .abandoned)
    else
      let u :=
        t.modIndexPass fun q =>
          { q with
            phase := .run, pending := t.pendingAtStart, frontier := decide (q.kind = .fresh),
            firstMarkDue := decide (q.kind = .extension) && !q.startedLost }
      let v :=
        match p.kind with
        | .fresh => u.returnToZero
        | .extension => if p.startedLost then u else u.reckon
      v.startRun .ix .index v.tc.settings.indexSpeed none

/-- A FRESH pass begins, or takes the place of a failed extension: the index is emptied, then the run or the return to
P = 0 is ordered (R75, R78). -/
def State.beginFresh (s : State) (req : Requester) (target : Option Nat) : State :=
  let p : IndexPass :=
    { kind := .fresh, target := target, requester := req, phase := .return_, frontier := false, countedTo := 0,
      pending := none, lastAtStart := none, startedLost := false, firstMarkDue := false, failed := false,
      limitHit := false, trailer := none }
  let t :=
    (s.modIx fun x => { x with segments := [], landmarks := [], pass := some p }).modMounted fun e =>
      { e with indexState := .unindexed, lastIndexed := none, landmarksDropped := false }
  if t.tc.position = 0 then t.orderIndexRun else t.orderSeek .ix 0

/-- The landmark with the highest frame at or below f (R77, R98). -/
def State.landmarkBefore (s : State) (f : Nat) : Option Landmark :=
  (s.ix.landmarks.filter (fun l => decide (l.frame ≤ f))).getLast?

/-- Where an extension starts (R77): two pitches before the last indexed frame, or one pitch before the later known
point when the tracker is LOST. Where the frame has no placed position, being BEYOND_GUARD (R87), its raw prediction is
taken in its place (DESIGN CHOICE, log 36). -/
def State.extensionStart (s : State) (last : Nat) : Nat :=
  match findFrame s.ix.segments s.highestPlaced last with
  | none => 0
  | some g =>
    if s.ix.tracker.state = .lost then
      let known := match s.landmarkBefore last with | some l => max g.startPos l.position | none => g.startPos
      known - pitchTicks g
    else
      let p :=
        match placeIn g s.mountedEntry.rollLength last with
        | .placed p => p.position
        | _ => (predict g last).toNat
      p - 2 * g.pitch / 256

/-- An EXTENSION pass begins with its approach seek (R75, R77). Its counted-to frame begins at 0, which R75 gives to a FRESH
pass only (DESIGN CHOICE, log 36). -/
def State.beginExtension (s : State) (req : Requester) (target : Option Nat) : State :=
  let last := s.mountedEntry.lastIndexed
  let p : IndexPass :=
    { kind := .extension, target := target, requester := req, phase := .approach, frontier := false, countedTo := 0,
      pending := none, lastAtStart := last, startedLost := decide (s.ix.tracker.state = .lost),
      firstMarkDue := false, failed := false, limitHit := false, trailer := none }
  (s.modIx fun x => { x with pass := some p }).orderSeek .ix (s.extensionStart (last.getD 0))

/-- How the roll's index state answers an order for a pass (R74): no pass, FRESH or EXTENSION. -/
def State.indexAnswer (s : State) (target : Option Nat) : Option IndexKind :=
  let e := s.mountedEntry
  match e.indexState with
  | .unindexed => some .fresh
  | .indexed => none
  | .partial_ =>
    match target with
    | some f => if f ≤ e.lastIndexed.getD 0 then none else some .extension
    | none => some .extension

def State.beginIndexPass (s : State) (req : Requester) (k : IndexKind) (target : Option Nat) : State :=
  match k with
  | .fresh => s.beginFresh req target
  | .extension => s.beginExtension req target

/-- The outcome of IX's seek (R75, R77, R79). -/
def State.ixSeekOutcome (s : State) (o : SeekOutcome) : State :=
  s.withSome s.ix.pass fun t p =>
    if p.phase = .run then t
    else
      match o with
      | .arrived | .missed => t.orderIndexRun
      | .stopped => t.endIndexPass (.aborted .stopped)
      | .endOfFilm => t.endIndexPass (.aborted .failed)
      | .halted => t.endIndexPass (.aborted .halted)

/-- The end of IX's run (R78, R79, R80). A failed extension whose run's end is reported by the halt cannot restart, and
ends ABORTED (log 11). A run that STOP_TRANSPORT ended ends the pass ABORTED (R79) also when a limit of R72 was met in the stop
after it, INDEX_FAILED having been raised (DESIGN CHOICE, log 36: R72 ends the pass FAILED). -/
def State.ixRunEnd (s : State) (why : RunEnd) : State :=
  s.withSome s.ix.pass fun t p =>
    if p.phase ≠ .run then t
    else
      match why with
      | .stopped => t.endIndexPass (.aborted .stopped)
      | .halted => t.endIndexPass (.aborted .halted)
      | _ =>
        if p.failed = true then
          if t.tc.state = .stopped then t.beginFresh p.requester p.target else t.endIndexPass (.aborted .halted)
        else t.endIndexPass (match why with | .trailer => .trailer | _ => .finished)

/-- IX's seek has been replaced by a host seek (R79). -/
def State.ixReplaced (s : State) : State :=
  s.withSome s.ix.pass fun t p => if p.phase = .run then t else t.endIndexPass (.aborted .abandoned)

/-- A trailer event during the pass's run (R80); before the frontier of an EXTENSION it fails the extension (R77). -/
def State.ixTrailer (s : State) : State :=
  s.modIndexPass fun p =>
    if p.phase = .run ∧ p.trailer.isNone then
      { p with
        failed := p.failed || (decide (p.kind = .extension) && !p.frontier)
        trailer := some { position := s.tc.position, counting := decide (s.ix.tracker.state = .counting) } }
    else p

/-! ### Reports of TC (R9, R12) -/

/-- A seek's outcome is reported to its requester (R9). -/
def State.reportSeek (s : State) (m : Seek) (o : SeekOutcome) : State :=
  match m.requester with
  | .rs => s.rsSeekOutcome o
  | .ix => s.ixSeekOutcome o
  | _ => s.post .seekDone (.seekDone o m.target s.tc.position m.corrections m.clamped)

/-- A run's end is reported: a capture run's to CP, then to the requester (R12, R114, R135). -/
def State.reportRun (s : State) (e : EndedRun) : State :=
  let t := if e.purpose = .capture then s.endTracking.endList else s
  match e.requester with
  | .ix => t.ixRunEnd e.reason
  | _ => t.rsRunEnd e.reason

/-! ### Probes (R107 to R110) -/

/-- A probe completes with a result (R109): the map entry, the lamp, FOCUS_DONE, the record, the requester. -/
def State.completeProbe (s : State) (p : Probe) (o : ProbeOutcome) (lens score : Nat) : State :=
  let replaced :=
    (displacedEntry s.fu.settings.mergeDistance p.position s.fu.map).map (fun e => e.position)
  let t := ((s.commandLens lens).insertMap ⟨p.position, lens, score, false⟩).releaseProbeLamp
  let u :=
    (t.post .focusDone (.focusDone p.requester o p.position lens score p.sweep p.shifted replaced)).modFu fun f =>
      { f with probe := none }
  match p.requester with
  | .rs => u.rsProbeEnd .completed
  | _ => u.offerPlanning

/-- A probe is aborted (R110): the lens stops, the lamp request is released, FOCUS_DONE is posted, RS is told. -/
def State.abortProbe (s : State) (why : AbortReason) : State :=
  s.withSome s.fu.probe fun t p =>
    let u :=
      ((t.modFu fun f => { f with probe := none }).stopLens.releaseProbeLamp).post .focusDone
        (.focusAborted p.requester why)
    match p.requester with
    | .rs => u.rsProbeEnd (match why with | .stopped => .stopped | .halted => .halted)
    | _ => u.offerPlanning

/-! ### Mounts and rewinds ended (R50, R51, R55) -/

/-- Threading is complete (R50). -/
def State.completeThreading (s : State) : State :=
  s.withSome s.mountedSlot fun t n =>
    let e := t.entry n
    let a := t.modCu fun c => { c with threadingTimer := false, threader := .retracted }
    let b := (a.modTc fun c => { c.noMotion.atZero with threaded := true }).enter .stopped
    let c := ((b.setSlotState n .mounted).installIndex e.segments e.landmarks (e.description.map (fun d => d.q0)))
    let d :=
      (c.installMap e.focusMap).modCp fun x =>
        { x with
          gauge := e.description.map (fun d => d.gauge), lampLevel := e.description.map (fun d => d.lampLevel) }
    ((d.postMountDone n .mounted).rsMountOutcome n .mounted).modCu fun x => { x with opRequester := none }

/-- Threading fails at the expiry of its timer (R51). -/
def State.failThreading (s : State) : State :=
  s.withSome s.mountedSlot fun t n =>
    let a :=
      ((t.modCu fun c => { c with threadingTimer := false }).modTc Tc.noMotion).enter .unloaded
    let b := (a.setSlotState n .rejected).faultOccur .threadFailed .minor (.threadFailed n s.cu.gateReported)
    let c := ((b.postMountDone n .failed).rsMountOutcome n .failed).startRetraction
    (c.modCu fun x => { x with opRequester := none }).presenceCheck n

/-- A rewind ends: TC, then CU (R14, R55). -/
def State.endRewind (s : State) : State :=
  let a := (s.modTc fun c => { c.noMotion.atZero with threaded := false })
  let slot := s.mountedSlot
  let b := a.enter .unloaded
  b.withSome slot fun t n =>
    let c := (t.setSlotState n .stored).modCu fun x => { x with lock := none }
    let d := ((c.installIndex [] [] none).emptyMap.postUnmountDone n .stored).rsUnmountOutcome .stored
    let e :=
      if d.tc.state = .unloaded then d.modCu fun x => { x with opRequester := none } else d
    e.presenceCheck n

/-- A rewind ends at P = 0 once the gate holds no film (R14). -/
def State.rewindAtZero (s : State) : State :=
  match s.tc.motion with
  | some (.rewind _) => if s.tc.position = 0 ∧ s.gateFilm = false then s.endRewind else s
  | _ => s

/-! ### The trailer (R11) -/

/-- TC's outcome at a trailer event: an emergency stop, and the motion's end (R11). -/
def State.trailerStop (s : State) : State :=
  match s.tc.state with
  | .seeking =>
    match s.tc.motion with
    | some (.seek m) =>
      (s.modTc fun c => { c with motion := none, phase := .emergencyStop, stopRate := emergencyRate }).reportSeek m
        .endOfFilm
    | _ => s.modTc fun c => { c with phase := .emergencyStop, stopRate := emergencyRate }
  | .scanning =>
    match s.tc.motion with
    | some (.run r) => s.endRun r .trailer .emergencyStop emergencyRate
    | _ => s.modTc fun c => { c with phase := .emergencyStop, stopRate := emergencyRate }
  | _ => s

/-- The run in progress or stopping is an index run (R11). An index run in the stop of a soft reset is none (R23 reports no
end of it), so a trailer event there raises END_OF_FILM, and in the other stops of an ended index run it does not
(DESIGN CHOICE, log 36). -/
def State.indexRunMoving (s : State) : Bool :=
  decide (s.tc.state = .scanning) &&
    ((match s.tc.motion with
      | some (.run r) => decide (r.purpose = .index)
      | _ => false)
     || (match s.tc.endedRun with
         | some e => decide (e.purpose = .index)
         | none => false))

/-- What a trailer event does where it is acted on (R11): the roll length, the fault, IX's note of it, the stop and the
outcome. -/
def State.trailerEffect (s : State) : State :=
  let p := s.tc.position
  let a :=
    s.modMounted fun e =>
      { e with
        rollLength := some (match e.rollLength with | some l => min l p | none => p) }
  let b := if s.indexRunMoving then a else a.faultOccur .endOfFilm .minor (.endOfFilm p)
  b.ixTrailer.trailerStop

/-- A trailer event (R11), from the sensor or by forward saturation (R1): not acted on during a rewind (R14), nor while no
film is mounted (log 18). -/
def State.trailer (s : State) : State :=
  match s.tc.state with
  | .unloaded | .rewinding => s
  | _ => s.trailerEffect

/-! ### At rest (R6, R8, R12) -/

/-- The second failed correction has come to rest: the seek ends MISSED (R8). -/
def State.missSeek (s : State) (m : Seek) : State :=
  (((s.modTc Tc.noMotion).enter .stopped).faultOccur .seekMissed .minor
    (.seekMissed m.target s.tc.position)).reportSeek m .missed

/-- The film has come to rest in a stop: STOPPED, and the run end owed is reported (R12). -/
def State.restFromStop (s : State) : State :=
  let owed := s.tc.endedRun
  let t := (s.modTc fun c => { c.noMotion with endedRun := none }).enter .stopped
  t.withSome owed State.reportRun

/-- The film is at rest (R6, R8, R12). -/
def State.filmAtRest (s : State) : State :=
  match s.tc.phase with
  | .controlledStop | .emergencyStop => s.restFromStop
  | .reversal =>
    match s.tc.motion with
    | some (.seek m) => s.depart m
    | _ => s
  | .overshoot =>
    match s.tc.motion with
    | some (.seek m) => if 2 ≤ m.corrections then s.missSeek m else s.depart { m with correcting := true }
    | _ => s
  | _ => s

/-- A seek that stands still ends in STOPPED at once, with its outcome (R7, R20). -/
def State.endSeek (s : State) (m : Seek) (o : SeekOutcome) : State :=
  ((s.modTc Tc.noMotion).enter .stopped).reportSeek m o

/-- A dwell of 0 ms has ended (R7). -/
def State.endZeroDwell (s : State) : State :=
  match s.tc.motion with
  | some (.seek m) => if s.tc.phase = .dwell ∧ m.dwell = 0 then s.endSeek m .arrived else s
  | _ => s

/-- What follows at the very event that brings it about: a stop or a turn of film that is at rest already (R1, R6, R8,
R12), and the end of a dwell of 0 ms (R7). -/
def State.settleMotion (s : State) : State := (s.onlyIf s.atRest State.filmAtRest).endZeroDwell

/-- The same at the end of an event that began in s: only where the event has brought TC into another phase, since nothing
else in it could have. -/
def State.settleSince (t s : State) : State := t.onlyIf (decide (t.tc.phase ≠ s.tc.phase)) State.settleMotion

/-! ### The MAJOR halt (R17, R205) -/

/-- FU at the halt (R110, R114). -/
def State.haltFocus (s : State) : State := (s.abortProbe .halted).stopLens.endTracking

/-- TC at the halt (R17): HALTED from any state but UNLOADED; the motion's outcome HALTED is reported. A run that had
ended already keeps the reason of its first event (R12), and its end is reported now (log 11). -/
def State.haltTransport (s : State) : State :=
  match s.tc.state with
  | .unloaded | .halted => s
  | _ =>
    let m := s.tc.motion
    let owed := s.tc.endedRun
    let t := (s.modTc fun c => { c.noMotion with endedRun := none }).enter .halted
    let u :=
      match m with
      | some (.seek k) => t.reportSeek k .halted
      | some (.run r) => t.reportRun { requester := r.requester, purpose := r.purpose, reason := .halted }
      | _ => t
    u.withSome owed State.reportRun

/-- CU at the halt (R40, R53). The threader stays where it is; a retraction goes on. -/
def State.haltCarousel (s : State) : State :=
  s.modCu fun c => { c with rotation := none, rotationTimer := false, threadingTimer := false }

/-- RS at the latch: a CAPTURE pass waiting at rest ends HALTED (R169). -/
def State.haltScheduler (s : State) : State :=
  match s.rs.pass with
  | some p => if p.kind = .capture ∧ p.phase = .seek ∧ p.seekDone = true then s.passEnd .halted else s
  | none => s

/-- The reactions to the MAJOR halt (R205), in one order (log 11). -/
def State.majorHalt (s : State) : State :=
  s.haltCapture.haltFocus.haltTransport.haltCarousel.haltScheduler

/-- A fault report: the occurrence, and the halt when it makes the set's first MAJOR entry (R204, R205). -/
def State.raise (s : State) (code : FaultCode) (cls : FaultClass) (d : FaultDetail) : State :=
  let t := s.faultOccur code cls d
  if t.latched && !s.latched then t.majorHalt else t

end Sys2Proof.Machine
end

