-- ==== Sys2Proof/Machine/Capture.lean ====
section
/-! DEFINITION. Capture.lean: the meanings of chapter 7's commands and events. -/

namespace Sys2Proof.Machine

/-! ### SET_CAPTURE (R122) -/

def cropBad (first count : Nat) : Bool :=
  decide (8191 < first) || decide (count < 16) || decide (8192 < count) || decide (8192 < first + count)

def captureOutOfRange (a : CaptureSettings) : Bool :=
  !(decide (1 ≤ a.linePitch ∧ a.linePitch ≤ 8) && decide (a.margin ≤ 2000)
    && decide (1000 ≤ a.lineRate ∧ a.lineRate ≤ 40000)) || cropBad a.first16 a.count16 || cropBad a.first35 a.count35

/-- A slot is RESERVED or FILLING. -/
def State.slotInUse (s : State) : Bool :=
  s.cp.slots.any fun c =>
    match c with
    | some x => decide (x.state = .reserved) || decide (x.state = .filling)
    | none => false

def ownSetCapture (a : CaptureSettings) (s : State) : Answer :=
  checked s
    [(captureOutOfRange a, .range), (s.slotInUse || s.cp.jobs.isSome || s.fu.probe.isSome, .busy)]
    fun s => (s.modCp fun c => { c with settings := a }).done

def execSetCapture (tag : Byte) (a : CaptureSettings) (s : State) : Result :=
  whenRunning s fun s => s.takeCommand tag 0x28 (ownSetCapture a)

/-! ### READ_FRAME_STORE (R137) -/

def encCaptureSettings (a : CaptureSettings) : List Byte :=
  u8 a.linePitch ++ u16 a.margin ++ u16 a.lineRate ++ u16 a.first16 ++ u16 a.count16 ++ u16 a.first35 ++ u16 a.count35

/-- A frame record in a reply: R134's fields in R134's order, encoded as R192 states. -/
def encRecord (r : FrameRecord) : List Byte :=
  u8 r.reqId ++ u8 r.origin ++ u32 r.image ++ wireLabel r.label ++ u16 r.frame ++ u8 r.segment ++ u32 r.predicted
    ++ encOpt 4 u32 r.observed ++ u32 r.windowStart ++ u16 r.lines ++ u16 r.pixels ++ u16 r.lens ++ u32 r.score
    ++ encFrameFlags r.flags

/-- A slot's state, 0 FREE to 4 SENDING, and what it holds (R126): its request id and its frame record, an absent group
for a FREE slot (log 10). -/
def encSlot : Option StoreSlot → List Byte
  | none => u8 0 ++ encOpt 35 (fun _ : Unit => []) none
  | some c => u8 (c.state.ctorIdx + 1) ++ encOpt 35 (fun x : StoreSlot => u8 x.reqId ++ encRecord x.record) (some c)

/-- A job's flags (R137), in the frame record's layout. A DONE job that no mark verified shows MARK_NOT_SEEN, which R133
gives to its record (DESIGN CHOICE, log 36). -/
def encJobFlags (j : Job) : List Byte :=
  encFrameFlags
    { clamped := j.order.clamped, truncated := j.truncated, markNotSeen := decide (j.state = .done) && j.observed.isNone,
      focusLag := j.focusLag, predictedOnly := j.predictedOnly }

/-- A job of the list (R137), its state by the numbers of `JobState` (DESIGN CHOICE, log 10). -/
def encJob (j : Job) : List Byte :=
  u8 j.order.reqId ++ u8 j.order.slot ++ u16 j.order.frame ++ u32 j.order.predicted ++ u32 j.windowStart ++ u16 j.lines
    ++ u16 j.lineIndex ++ u8 j.state.ctorIdx ++ encJobFlags j

def encJobList (l : JobList) : List Byte := encList encJob l.jobs ++ encFlag l.bound

/-- READ_FRAME_STORE's data (R137). The held gauge and the held lamp level are two optional fields, each with its own presence
byte (DESIGN CHOICE, log 10: R137's words would also be one group with one presence byte). -/
def frameStoreData (s : State) : List Byte :=
  encCaptureSettings s.cp.settings ++ u16 s.captureSpeed ++ encFlag s.speedLowered ++ encOpt 1 encGauge s.cp.gauge
    ++ encOpt 2 u16 s.cp.lampLevel ++ u16 s.crop.1 ++ u16 s.crop.2 ++ u8 s.cp.lamp.ctorIdx ++ u16 s.lampLevelNow
    ++ encFlag s.cp.probeHolds ++ encFlag s.cp.listHolds ++ s.cp.slots.flatMap encSlot ++ encList u8 s.cp.ready
    ++ u8 s.freeSlots ++ encOpt 2 encJobList s.cp.jobs

def ownReadFrameStore (s : State) : Answer := s.doneWith (frameStoreData s)

def execReadFrameStore (tag : Byte) (s : State) : Result :=
  whenRunning s fun s => s.takeCommand tag 0x29 ownReadFrameStore

/-! ### LAMP_WARMUP_EXPIRY (R124) -/

/-- The lamp is LIT, and this is reported to every holder. -/
def State.lampLights (s : State) : State :=
  let t := s.modCp fun c => { c with lamp := .lit }
  (t.onlyIf t.cp.listHolds fun u => u.modPass fun p => { p with lampLit := true }).onlyIf t.cp.probeHolds State.probeLit

def execLampWarmupExpiry (s : State) : Result :=
  whenRunning s fun s => if s.cp.lamp = .warming then s.lampLights else s

end Sys2Proof.Machine
end

