-- ==== Sys2Proof/Machine/Carousel.lean ====
section
/-! DEFINITION. Carousel.lean: the meanings of chapter 3's commands and events. -/

namespace Sys2Proof.Machine

/-! ### ASSIGN_ROLL (R45) -/

/-- A printable byte: 20h to 7Eh. -/
def printable (b : Byte) : Bool := decide (0x20 ≤ b.toNat ∧ b.toNat ≤ 0x7E)

/-- A label that the link carries is out of range: longer than 16 bytes or with a byte that is not printable. -/
def labelBad (l : Label) : Bool := decide (16 < l.length) || l.any (fun b => !printable b)

def assignOutOfRange (a : AssignArgs) : Bool :=
  decide (11 < a.slot) || a.gauge.isNone || a.base.isNone || decide (a.q0 < 51200 ∨ 1536000 < a.q0)
    || decide (1023 < a.lampLevel) || labelBad a.label

/-- Another entry holds the label. -/
def labelTaken (s : State) (n : Nat) (l : Label) : Bool :=
  !l.isEmpty && (List.range 12).any (fun m => decide (m ≠ n) && decide ((s.entry m).label = l))

/-- The description sent, a REJECTED entry turned STORED (R45 steps 1 and 2). -/
def State.describe (s : State) (n : Nat) (d : Description) : State :=
  let t := s.modEntry n fun e => { e with description := some d }
  if (s.entry n).state = .rejected then t.setSlotState n .stored else t

/-- The label step (R45 step 3). A different label clears the landmarks-dropped indication with the index fields, which
R45 does not name and R42 lists beside them (DESIGN CHOICE, log 36). -/
def State.relabel (s : State) (n : Nat) (sent : Label) : State :=
  let held := (s.entry n).label
  if held = sent then s
  else if held.isEmpty then (s.modEntry n fun e => { e with label := sent }).labelArrival sent
  else if sent.isEmpty then (s.modEntry n fun e => { e with label := [] }).rollGone n held
  else
    ((s.modEntry n fun e =>
      { Entry.inserted with state := e.state, label := sent, description := e.description }).rollGone n
        held).labelArrival sent

def ownAssignRoll (a : AssignArgs) (s : State) : Answer :=
  checked s
    [(assignOutOfRange a, .range), (decide ((s.entry a.slot).state = .empty), .noRoll), ((s.entry a.slot).inPath, .busy),
      (labelTaken s a.slot a.label, .duplicateLabel)]
    fun s =>
      match a.gauge, a.base with
      | some g, some b => ((s.describe a.slot ⟨g, b, a.q0, a.lampLevel⟩).relabel a.slot a.label).done
      | _, _ => s.refuse .range

def execAssignRoll (tag : Byte) (a : AssignArgs) (s : State) : Result :=
  whenRunning s fun s => s.takeCommand tag 0x10 (ownAssignRoll a)

/-! ### FORGET_INDEX (R46) -/

def ownForgetIndex (n : Nat) (s : State) : Answer :=
  checked s
    [(decide (11 < n), .range),
      (decide ((s.entry n).state = .empty) || decide ((s.entry n).state = .rejected), .noRoll),
      ((s.entry n).inPath, .busy)]
    fun s =>
      let t :=
        s.modEntry n fun e =>
          { e with
            indexState := .unindexed, lastIndexed := none, segments := [], landmarks := [], landmarksDropped := false }
      (t.onlyIf (!(s.entry n).label.isEmpty) fun u => u.indexForgotten n).done

def execForgetIndex (tag : Byte) (n : Nat) (s : State) : Result :=
  whenRunning s fun s => s.takeCommand tag 0x11 (ownForgetIndex n)

/-! ### READ_DIRECTORY (R47) -/

def encDescription (d : Description) : List Byte := encGauge d.gauge ++ u8 d.base.ctorIdx ++ u32 d.q0 ++ u16 d.lampLevel

/-- A directory entry of R47. The roll description is one group with one presence byte (DESIGN CHOICE, log 10). -/
def encEntry (e : Entry) : List Byte :=
  u8 e.state.ctorIdx ++ wireLabel e.label ++ encOpt 8 encDescription e.description ++ encOpt 4 u32 e.rollLength
    ++ u8 e.indexState.ctorIdx ++ encOpt 2 u16 e.lastIndexed ++ encFlag e.landmarksDropped ++ u8 e.segments.length
    ++ u16 e.landmarks.length ++ u8 e.focusMap.length

/-- READ_DIRECTORY's data (R47): the twelve entries are sent without a count byte, their number being fixed (log 10). -/
def directoryData (s : State) : List Byte :=
  u8 s.cu.station ++ encFlag s.cu.atPosition ++ encOpt 1 (fun r => u8 r.target) s.cu.rotation ++ encOpt 1 u8 s.cu.lock
    ++ s.cu.entries.flatMap encEntry

def ownReadDirectory (s : State) : Answer := s.doneWith (directoryData s)

def execReadDirectory (tag : Byte) (s : State) : Result :=
  whenRunning s fun s => s.takeCommand tag 0x12 ownReadDirectory

/-! ### MOUNT_ROLL (R48), UNMOUNT_ROLL (R54) -/

def ownMountRoll (n : Nat) (s : State) : Answer :=
  checked s
    [(decide (s.rs.mode = .auto), .mode), (decide (11 < n), .range), (s.latched, .halted),
      (decide (s.tc.state ≠ .unloaded) || decide (s.cu.threader = .retracting), .occupied),
      (decide ((s.entry n).state ≠ .stored) || (s.entry n).description.isNone, .noRoll)]
    fun s => (s.beginMount .host n).acceptedWith []

def execMountRoll (tag : Byte) (n : Nat) (s : State) : Result :=
  whenRunning s fun s => s.takeCommand tag 0x13 (ownMountRoll n)

def ownUnmountRoll (s : State) : Answer :=
  checked s
    [(decide (s.rs.mode = .auto), .mode), (s.latched, .halted), (decide (s.tc.state = .unloaded), .noRoll),
      (decide (s.tc.state ≠ .stopped) || s.fu.probe.isSome, .busy)]
    fun s => (s.withSome s.mountedSlot fun t n => t.beginUnmount .host n).acceptedWith []

def execUnmountRoll (tag : Byte) (s : State) : Result :=
  whenRunning s fun s => s.takeCommand tag 0x14 ownUnmountRoll

/-! ### Events -/

/-- The rotation's target is at the station and the carousel at position (R40). -/
def State.rotationEnded (s : State) : Bool :=
  match s.cu.rotation with
  | some r => decide (r.target = s.cu.station) && s.cu.atPosition
  | none => false

/-- CAROUSEL_POSITION_CHANGE (R40, R50). -/
def execCarouselPositionChange (station : Nat) (atPosition : Bool) (s : State) : Result :=
  whenRunning s fun s =>
    let t := s.modCu fun c => { c with station := station, atPosition := atPosition }
    t.onlyIf t.rotationEnded State.startThreader

/-- THREADING_COMPLETE (R50): gate film and the on-target indication hold together. -/
def execThreadingComplete (s : State) : Result :=
  whenRunning s fun s =>
    if s.tc.state = .threading ∧ s.cu.threader = .engaged ∧ s.gateFilm = true ∧ s.tu.onTarget = true then
      s.completeThreading
    else s

/-- ROTATION_TIMEOUT (R52). -/
def execRotationTimeout (s : State) : Result :=
  whenRunning s fun s =>
    match s.cu.rotation with
    | some r =>
      if s.cu.rotationTimer then
        (s.modCu fun c => { c with rotationTimer := false }).raise .carouselJam .major
          (.jamRotation r.target s.cu.station s.cu.atPosition)
      else s
    | none => s

/-- THREADING_TIMEOUT (R51). -/
def execThreadingTimeout (s : State) : Result :=
  whenRunning s fun s => if s.cu.threadingTimer then s.failThreading else s

/-- RETRACTION_TIMEOUT (R52): the threader keeps its order. -/
def execRetractionTimeout (s : State) : Result :=
  whenRunning s fun s =>
    if s.cu.retractionTimer then
      (s.modCu fun c => { c with retractionTimer := false }).raise .carouselJam .major
        (.jamThreader (s.cu.lock.getD 0))
    else s

/-- LEADER_RETRACTED (R51, R159). -/
def execLeaderRetracted (s : State) : Result :=
  whenRunning s fun s =>
    if s.cu.threader = .retracting then
      let t := s.modCu fun c => { c with threader := .retracted, retractionTimer := false, lock := none }
      (t.withSome s.cu.lock State.presenceCheck).offerPlanning
    else s

/-- SLOT_PRESENCE_CHANGE (R43): the sensor's new value starts its 250 ms. -/
def execSlotPresenceChange (n : Nat) (present : Bool) (s : State) : Result :=
  whenRunning s fun s =>
    if s.presence.getD n present = present then s
    else
      { s with presence := s.presence.set n present }.modCu fun c => { c with settling := c.settling.set n true }

/-- A taken presence value (R43, R44). -/
def State.takePresence (s : State) (n : Nat) : State :=
  match s.presence.getD n false, (s.entry n).state with
  | true, .empty => (s.modEntry n fun _ => Entry.inserted).post .slotChange (.slotChange n .stored)
  | false, .stored => s.removeCartridge n
  | false, .rejected => s.removeCartridge n
  | _, _ => s

/-- PRESENCE_STABLE (R43, R44). -/
def execPresenceStable (n : Nat) (s : State) : Result :=
  whenRunning s fun s =>
    if s.cu.settling.getD n false then
      (s.modCu fun c => { c with settling := c.settling.set n false }).takePresence n
    else s

end Sys2Proof.Machine
end

