-- ==== Sys2Proof/Machine/Catalogue.lean ====
section
/-! DEFINITION. Catalogue.lean: the meanings of chapter 8's commands. -/

namespace Sys2Proof.Machine

/-! ### LOAD_WINDOW (R141) -/

/-- The highest frame of a window (R140, R141). -/
def highestFrame (first base limit stride : Nat) : Nat := first + (limit - base) * stride

def windowOutOfRange (a : WindowArgs) : Bool :=
  decide (63 < a.id) || decide (a.base = 0) || decide (a.stride < 1) || decide (4 < a.stride) || decide (a.firstFrame = 0)
    || a.label.isEmpty || labelBad a.label || a.access.isNone

/-- The image ranges share a number (R140). -/
def rangesOverlap (b l b' l' : Nat) : Bool := decide (b ≤ l') && decide (b' ≤ l)

/-- The table with a window at its place in base order (R141). -/
def insertWindow (w : Window) : List Window → List Window
  | [] => [w]
  | x :: rest => if w.base < x.base then w :: x :: rest else x :: insertWindow w rest

def windowOf (a : WindowArgs) (access : AccessClass) : Window where
  id := a.id
  base := a.base
  limit := a.limit
  label := a.label
  firstFrame := a.firstFrame
  stride := a.stride
  access := access
  originMask := a.originMask
  denied := 0

def ownLoadWindow (a : WindowArgs) (s : State) : Answer :=
  checked s
    [(windowOutOfRange a, .range), (decide (a.limit < a.base), .range),
      (decide (65535 < highestFrame a.firstFrame a.base a.limit a.stride), .range),
      (s.ct.windows.any (fun w => decide (w.id = a.id)), .duplicate),
      (s.ct.windows.any (fun w => rangesOverlap a.base a.limit w.base w.limit), .overlap)]
    fun s =>
      match a.access with
      | some k => (s.modCt fun c => { c with windows := insertWindow (windowOf a k) c.windows }).done
      | none => s.refuse .range

def execLoadWindow (tag : Byte) (a : WindowArgs) (s : State) : Result :=
  whenRunning s fun s => s.takeCommand tag 0x30 (ownLoadWindow a)

/-! ### DROP_WINDOW (R142), LIST_WINDOWS (R143) -/

def encWindow (w : Window) : List Byte :=
  u8 w.id ++ u32 w.base ++ u32 w.limit ++ wireLabel w.label ++ u16 w.firstFrame ++ u8 w.stride ++ u8 w.access.ctorIdx
    ++ u16 w.originMask ++ u16 w.denied

def ownDropWindow (n : Nat) (s : State) : Answer :=
  checked s [(decide (63 < n), .range)] fun s =>
    match s.ct.windows.find? (fun w => decide (w.id = n)) with
    | none => s.refuse .notFound
    | some w =>
      (s.modCt fun c => { c with windows := c.windows.filter (fun x => decide (x.id ≠ n)) }).doneWith (encWindow w)

def execDropWindow (tag : Byte) (n : Nat) (s : State) : Result :=
  whenRunning s fun s => s.takeCommand tag 0x31 (ownDropWindow n)

def clearDenied (c : Ct) : Ct := { c with windows := c.windows.map fun w => { w with denied := 0 } }

def ownListWindows (clear : Option Bool) (s : State) : Answer :=
  checked s [(clear.isNone, .range)] fun s =>
    (s.onlyIf (clear.getD false) fun t => t.modCt clearDenied).doneWith (encList encWindow s.ct.windows)

def execListWindows (tag : Byte) (clear : Option Bool) (s : State) : Result :=
  whenRunning s fun s => s.takeCommand tag 0x32 (ownListWindows clear)

end Sys2Proof.Machine
end

