-- ==== Sys2Proof/Machine/Delivery.lean ====
section
/-! DEFINITION. Delivery.lean: image blocks and deliveries (R177 to R180), telemetry (R183), and the meanings of chapter
10's commands and events. -/

namespace Sys2Proof.Machine

/-! ### Channels -/

def Dc.channel (d : Dc) : ChannelId → Channel
  | .a => d.a
  | .b => d.b

def State.modChannel (s : State) (id : ChannelId) (f : Channel → Channel) : State :=
  s.modDc fun d =>
    match id with
    | .a => { d with a := f d.a }
    | .b => { d with b := f d.b }

/-! ### Image blocks (R178, section 10.3) -/

def State.slotContent (s : State) (n : Nat) : StoreSlot :=
  (s.cp.slots.getD n none).getD { state := .sending, reqId := 0, record := FrameRecord.initial 0, lines := [] }

/-- The number of blocks of an image: its record's lines times pixels, in blocks of 4096 (R178). -/
def blockCountOf (r : FrameRecord) : Nat := ceilDiv (r.lines * r.pixels) blockBytes

/-- Flags of a block: bit 0 FIRST, bit 1 LAST. -/
def blockFlags (k count : Nat) : Nat := (decide (k = 0)).toNat + 2 * (decide (k + 1 = count)).toNat

/-- The pixel bytes of block k. -/
def blockPixels (c : StoreSlot) (k : Nat) : List Byte := (c.lines.flatten.drop (k * blockBytes)).take blockBytes

/-- The body of the block that a delivery forms next. -/
def blockBody (id : ChannelId) (c : StoreSlot) (d : Sending) : List Byte :=
  let pixels := blockPixels c d.nextBlock
  u8 id.ctorIdx ++ u8 (blockFlags d.nextBlock d.blockCount) ++ u8 d.slot ++ u8 d.reqId ++ u16 d.nextBlock
    ++ u16 d.blockCount ++ u16 pixels.length ++ (if d.nextBlock = 0 then encFrameRecord c.record else []) ++ pixels

/-- A channel forms its next block and offers it to the arbiter (R179). -/
def State.offerBlock (s : State) (id : ChannelId) (d : Sending) : State :=
  s.modChannel id fun c => { c with sending := some d, waiting := some (blockBody id (s.slotContent d.slot) d) }

/-! ### Taking a slot (R177) -/

/-- RS makes the entry that a taken slot names DELIVERING (R173). -/
def State.slotTaken (s : State) (reqId : Nat) : State := s.modRequest reqId fun r => { r with state := .delivering }

/-- A channel takes slot n from the head of the Ready List. -/
def State.takeSlot (s : State) (id : ChannelId) (n : Nat) : State :=
  let t :=
    (s.modCp fun c => { c with ready := c.ready.tail }).modSlot n fun x => { x with state := .sending }
  let x := t.slotContent n
  (t.slotTaken x.reqId).offerBlock id
    { slot := n, reqId := x.reqId, blockCount := blockCountOf x.record, nextBlock := 0 }

/-- An IDLE channel takes the head of the Ready List, when there is one. -/
def State.takeHead (s : State) (id : ChannelId) : State :=
  if (s.dc.channel id).idle then s.withSome s.cp.ready.head? fun t n => t.takeSlot id n else s

/-- CHANNEL_TAKE_SLOT (R177): channel A first, then channel B at the same event. -/
def execChannelTakeSlot (s : State) : Result := whenRunning s fun s => (s.takeHead .a).takeHead .b

/-! ### A block sent (R179, R180) -/

/-- A delivery ends (R180). -/
def State.deliveryEnd (s : State) (id : ChannelId) (d : Sending) : State :=
  ((s.freeSlot d.slot).modChannel id fun c =>
    { c with sending := none, waiting := none, imagesSent := saturate countMax c.imagesSent }).takeHead id

/-- The arbiter reports a channel's block sent. -/
def State.blockSent (s : State) (id : ChannelId) : State :=
  let t := s.modChannel id fun c => { c with inTransmission := false }
  t.withSome (s.dc.channel id).sending fun u d =>
    if d.nextBlock + 1 < d.blockCount then u.offerBlock id { d with nextBlock := d.nextBlock + 1 }
    else u.deliveryEnd id d

/-! ### CONFIGURE_CHANNEL (R182) -/

/-- What an accepted command does to channel B. -/
def State.configureB (s : State) (m : ChannelMode) (interval : Nat) : State :=
  match s.dc.b.mode, m with
  | .image, .image => s
  | .image, .telemetry =>
    s.modDc fun d => { d with b := { d.b with mode := .telemetry }, interval := interval, skipped := 0 }
  | .telemetry, .telemetry => s.modDc fun d => { d with interval := interval }
  | .telemetry, .image => (s.modDc fun d => { d with b := { d.b with mode := .image }, snapshot := none }).takeHead .b

def ownConfigureChannel (c : Option ChannelId) (m : Option ChannelMode) (interval : Nat) (s : State) : Answer :=
  checked s
    [(c.isNone || m.isNone || decide (interval < 10) || decide (1000 < interval), .range),
      (decide (c = some .a) && decide (m = some .telemetry), .range),
      ((s.dc.channel (c.getD .a)).sending.isSome, .busy)]
    fun s =>
      match c, m with
      | some .b, some m => (s.configureB m interval).done
      | _, _ => s.done

def execConfigureChannel (tag : Byte) (c : Option ChannelId) (m : Option ChannelMode) (interval : Nat) (s : State) :
    Result :=
  whenRunning s fun s => s.takeCommand tag 0x40 (ownConfigureChannel c m interval)

/-! ### READ_CHANNELS (R184) -/

/-- The Offered field: 0 NONE, 1 WAITING, 2 IN_TRANSMISSION (R176). -/
def Channel.offered (c : Channel) : Nat := if c.waiting.isSome then 1 else if c.inTransmission then 2 else 0

/-- A channel of R184: its mode, state and image count, then the fields of a SENDING one in one group behind a presence byte,
before the other channel's three (DESIGN CHOICE, log 10). -/
def encChannel (c : Channel) : List Byte :=
  u8 c.mode.ctorIdx ++ u8 c.stateNumber ++ u16 c.imagesSent
    ++ encOpt 7 (fun d => u8 d.slot ++ u8 d.reqId ++ u16 d.blockCount ++ u16 d.nextBlock ++ u8 c.offered) c.sending

def channelsData (s : State) : List Byte :=
  encChannel s.dc.a ++ encChannel s.dc.b ++ u16 s.dc.interval ++ u16 s.dc.sequence ++ u8 s.dc.skipped
    ++ encFlag s.dc.snapshot.isSome ++ u8 s.cp.ready.length ++ encFlag s.hold

def ownReadChannels (s : State) : Answer := s.doneWith (channelsData s)

def execReadChannels (tag : Byte) (s : State) : Result :=
  whenRunning s fun s => s.takeCommand tag 0x41 ownReadChannels

/-! ### TELEMETRY_INTERVAL_EXPIRY (R183) -/

/-- The 27 bytes of a snapshot (section 10.3). -/
def telemetryBody (s : State) : List Byte :=
  u16 s.dc.sequence ++ u32 s.li.uptime ++ u32 s.tc.position ++ u16 s.tc.speed ++ u8 s.tc.direction.ctorIdx
    ++ u16 s.reportedTension ++ u16 s.fu.lens ++ u8 s.tc.state.ctorIdx ++ u8 s.ix.tracker.state.ctorIdx
    ++ u16 (s.ix.tracker.frame.getD 0) ++ u8 s.rs.queue.length ++ u8 s.freeSlots ++ u8 s.cp.ready.length
    ++ u8 s.rs.mode.ctorIdx ++ u8 (s.latched.toNat + 2 * s.tu.capInForce.toNat) ++ u8 s.dc.skipped

/-- The sequence number advances, and a snapshot already waiting is counted skipped. -/
def nextSnapshot (d : Dc) : Dc :=
  { d with
    sequence := (d.sequence + 1) % 65536, skipped := if d.snapshot.isSome then saturate 255 d.skipped else d.skipped }

def execTelemetryIntervalExpiry (s : State) : Result :=
  whenRunning s fun s =>
    match s.dc.b.mode with
    | .image => s
    | .telemetry =>
      let t := s.modDc nextSnapshot
      t.modDc fun d => { d with snapshot := some (telemetryBody t) }

end Sys2Proof.Machine
end

