-- ==== Sys2Proof/Machine/Faults.lean ====
section
/-! DEFINITION. Faults.lean: the conditions behind MAJOR faults (R206, R52), the lifting of the halt (R207, R53, R57), and
the meanings of chapter 12's commands. -/

namespace Sys2Proof.Machine

/-! ### Conditions (R206) -/

/-- CU's answer for a CAROUSEL_JAM (R52). -/
def State.carouselClear (s : State) : Bool :=
  s.cu.atPosition && s.cu.rotation.isNone
    && (decide (s.cu.threader = .retracted)
      || (decide (s.cu.threader = .engaged) && decide (s.mountedEntry.state = .mounting)))

/-- The condition behind a MAJOR fault is present. -/
def State.stillPresent (s : State) : FaultCode → Bool
  | .overTension => s.tu.overLimit
  | .filmBreak => !s.drivesZero
  | .encoderFault => !(s.drivesZero || s.tickRecently)
  | .carouselJam => !s.carouselClear
  | _ => false

/-- Some MAJOR entry's condition is present: CLEAR_FAULTS ALL would fail. -/
def State.anyPresent (s : State) : Bool :=
  s.fm.active.any fun e => decide (e.cls = .major) && s.stillPresent e.code

/-! ### Settlement (R53) -/

def State.clearRequester (s : State) : State := s.modCu fun c => { c with opRequester := none }

/-- A mount interrupted before the threader engaged: STORED. -/
def State.settleStored (s : State) (n : Nat) : State :=
  let t := (s.setSlotState n .stored).modCu fun c => { c with lock := none }
  (((t.postMountDone n .halted).rsMountOutcome n .halted).clearRequester).presenceCheck n

/-- A mount interrupted with the threader engaged: REJECTED, and the leader is retracted. -/
def State.settleRejected (s : State) (n : Nat) : State :=
  let t := (s.setSlotState n .rejected).startRetraction
  (((t.postMountDone n .halted).rsMountOutcome n .halted).clearRequester).presenceCheck n

/-- An interrupted unmount or recovery: MOUNTED. -/
def State.settleMounted (s : State) (n : Nat) : State :=
  (((s.setSlotState n .mounted).postUnmountDone n .halted).rsUnmountOutcome .halted).clearRequester

/-- CU settles the entry of an interrupted operation as TC leaves HALTED. -/
def State.settle (s : State) : State :=
  s.withSome s.mountedSlot fun t n =>
    match (t.entry n).state with
    | .mounting => if t.cu.threader = .engaged then t.settleRejected n else t.settleStored n
    | .unmounting => t.settleMounted n
    | _ => t

/-! ### The halt lifted (R207) -/

/-- TC leaves HALTED (R17), CU settles or begins the recovery. -/
def State.leaveHalted (s : State) (stranded : Bool) : State :=
  if s.tc.state ≠ .halted then s
  else if stranded then s.beginRecovery
  else (s.enter (if s.tc.threaded then .stopped else .unloaded)).settle

/-- The last MAJOR entry has been removed. -/
def State.liftHalt (s : State) (stranded : Bool) : State :=
  ((s.modTu fun u => { u with driveInhibit := false }).leaveHalted stranded).offerPlanning

/-! ### CLEAR_FAULTS (R206) -/

def isMajor (e : FaultEntry) : Bool := decide (e.cls = .major)

def clearCounts (minors majors : Nat) : List Byte := u8 minors ++ u8 majors

/-- Scope MINOR. -/
def State.clearMinor (s : State) : Answer :=
  (s.modFm fun m => { m with active := m.active.filter isMajor }).doneWith
    (clearCounts (s.fm.active.filter fun e => !isMajor e).length 0)

/-- Scope ALL with every condition gone. -/
def State.clearAll (s : State) : Answer :=
  let majors := s.fm.active.filter isMajor
  let stranded := majors.any fun e => decide (e.code = .filmStranded)
  let t := s.modFm fun m => { m with active := [] }
  (t.onlyIf (!majors.isEmpty) fun u => u.liftHalt stranded).doneWith
    (clearCounts (s.fm.active.length - majors.length) majors.length)

def ownClearFaults (sc : Option ClearScope) (s : State) : Answer :=
  match sc with
  | none => s.refuse .range
  | some .minor => s.clearMinor
  | some .all => if s.anyPresent then s.refuse .stillPresent else s.clearAll

def execClearFaults (tag : Byte) (sc : Option ClearScope) (s : State) : Result :=
  whenRunning s fun s => s.takeCommand tag 0x50 (ownClearFaults sc)

/-! ### RAISE_FAULT (R208) -/

def operatorCode : FaultClass → FaultCode
  | .major => .operatorMajor
  | .minor => .operatorMinor

def ownRaiseFault (cls : Option FaultClass) (n : Nat) (s : State) : Answer :=
  match cls with
  | none => s.refuse .range
  | some k => if n < 1 ∨ 99 < n then s.refuse .range else (s.raise (operatorCode k) k (.operator n)).done

def execRaiseFault (tag : Byte) (cls : Option FaultClass) (n : Nat) (s : State) : Result :=
  whenRunning s fun s => s.takeCommand tag 0x51 (ownRaiseFault cls n)

/-! ### READ_FAULTS, READ_FAULT_LOG (R211) -/

/-- An active entry; a MAJOR one adds whether its condition is present. -/
def encFaultEntry (s : State) (e : FaultEntry) : List Byte :=
  u8 e.code.ctorIdx ++ encClass e.cls ++ u32 e.firstSeen ++ u16 e.count ++ encFaultDetail e.detail ++ u32 e.position
    ++ encOpt 1 u8 e.slot ++ (if isMajor e then encFlag (s.stillPresent e.code) else [])

def faultsData (s : State) : List Byte := encFlag s.latched ++ encList (encFaultEntry s) s.fm.active

def ownReadFaults (s : State) : Answer := s.doneWith (faultsData s)

def execReadFaults (tag : Byte) (s : State) : Result :=
  whenRunning s fun s => s.takeCommand tag 0x52 ownReadFaults

def encLogRecord (r : LogRecord) : List Byte :=
  encClass r.cls ++ u8 r.code.ctorIdx ++ encFaultDetail r.detail ++ u32 r.position ++ encOpt 1 u8 r.slot ++ u32 r.uptime

def logData (s : State) : List Byte :=
  u8 s.fm.logMode.ctorIdx ++ u16 s.fm.overflow ++ encFlag s.fm.fullReported ++ encList encLogRecord s.fm.log

def ownReadFaultLog (s : State) : Answer := s.doneWith (logData s)

def execReadFaultLog (tag : Byte) (s : State) : Result :=
  whenRunning s fun s => s.takeCommand tag 0x54 ownReadFaultLog

/-! ### SET_LOG_MODE, CLEAR_LOG (R210) -/

def ownSetLogMode (m : Option LogMode) (s : State) : Answer :=
  match m with
  | none => s.refuse .range
  | some m => (s.modFm fun f => { f with logMode := m }).done

def execSetLogMode (tag : Byte) (m : Option LogMode) (s : State) : Result :=
  whenRunning s fun s => s.takeCommand tag 0x53 (ownSetLogMode m)

def ownClearLog (s : State) : Answer :=
  (s.modFm fun f => { f with log := [], overflow := 0, fullReported := false }).done

def execClearLog (tag : Byte) (s : State) : Result :=
  whenRunning s fun s => s.takeCommand tag 0x55 ownClearLog

end Sys2Proof.Machine
end

