-- ==== Sys2Proof/Machine/Focus.lean ====
section
/-! DEFINITION. Focus.lean: the meanings of chapter 6's commands and events. -/

namespace Sys2Proof.Machine

/-! ### FOCUS_PROBE (R105) -/

/-- The value of an optional field, or the default of an omitted one. -/
def optValue (a : OptArg) (default : Nat) : Nat :=
  match a with
  | .present n => n
  | _ => default

/-- An optional value sent lies outside [lo, hi], or its presence byte is above 1 (R192). -/
def optOutside (a : OptArg) (lo hi : Nat) : Bool :=
  match a with
  | .absent => false
  | .present n => decide (n < lo) || decide (hi < n)
  | .badPresence => true

/-- The half-span and the step of a probe, the defaults of R102 where omitted. -/
def probeSpan (f : FocusSettings) (h st : OptArg) : Nat × Nat := (optValue h f.halfSpan, optValue st f.step)

def probeOutOfRange (f : FocusSettings) (c h st : OptArg) : Bool :=
  optOutside c 0 4095 || optOutside h 2 2048 || optOutside st 1 1024
    || sweepBad f (probeSpan f h st).1 (probeSpan f h st).2

def ownFocusProbe (c h st : OptArg) (s : State) : Answer :=
  checked s
    [(decide (s.rs.mode = .auto), .mode), (probeOutOfRange s.fu.settings c h st, .range), (s.latched, .halted),
      (decide (s.tc.state = .unloaded), .noRoll),
      (decide (s.tc.state ≠ .stopped) || s.fu.probe.isSome || s.ix.pass.isSome, .busy)]
    fun s =>
      let span := probeSpan s.fu.settings h st
      let centre := optValue c (s.lensFor s.tc.position)
      let taken := shiftCentre s.fu.settings centre span.1
      (s.beginProbe .host centre span.1 span.2).acceptedWith (u16 taken.1 ++ encFlag taken.2)

def execFocusProbe (tag : Byte) (c h st : OptArg) (s : State) : Result :=
  whenRunning s fun s => s.takeCommand tag 0x20 (ownFocusProbe c h st)

/-! ### SET_FOCUS (R101, R102) -/

def focusOutOfRange (a : FocusSettings) : Bool :=
  !(decide (a.lensMin < a.lensMax ∧ a.lensMax ≤ 4095) && decide (a.nominal ≤ 4095)
    && decide (100 ≤ a.mergeDistance ∧ a.mergeDistance ≤ 1000000) && decide (8 ≤ a.staleRatio ∧ a.staleRatio ≤ 15)
    && decide (2 ≤ a.halfSpan ∧ a.halfSpan ≤ 2048) && decide (1 ≤ a.step ∧ a.step ≤ 1024))

/-- The soft limits change. -/
def limitsChange (a b : FocusSettings) : Bool := decide (a.lensMin ≠ b.lensMin) || decide (a.lensMax ≠ b.lensMax)

/-- SET_FOCUS's settings taken; with changed soft limits the lens target is commanded again (R101), which changes nothing
where it lies inside them. -/
def State.applyFocus (s : State) (a : FocusSettings) : State :=
  (s.modFu fun f => { f with settings := a }).onlyIf (limitsChange a s.fu.settings) fun t => t.commandLens t.fu.target

def ownSetFocus (a : FocusSettings) (s : State) : Answer :=
  checked s
    [(focusOutOfRange a, .range), (sweepBad a a.halfSpan a.step, .range), (s.fu.probe.isSome, .busy),
      (decide (a.mergeDistance ≠ s.fu.settings.mergeDistance) && decide (s.tc.state ≠ .unloaded), .busy)]
    fun s => (s.applyFocus a).done

def execSetFocus (tag : Byte) (a : FocusSettings) (s : State) : Result :=
  whenRunning s fun s => s.takeCommand tag 0x21 (ownSetFocus a)

/-! ### CLEAR_FOCUS_MAP (R113), READ_FOCUS_MAP (R118) -/

def ownClearFocusMap (s : State) : Answer :=
  checked s [(s.fu.probe.isSome, .busy)] fun s => s.emptyMap.done

def execClearFocusMap (tag : Byte) (s : State) : Result :=
  whenRunning s fun s => s.takeCommand tag 0x22 ownClearFocusMap

def encFocusSettings (f : FocusSettings) : List Byte :=
  u16 f.lensMin ++ u16 f.lensMax ++ u16 f.nominal ++ u32 f.mergeDistance ++ u8 f.staleRatio ++ u16 f.halfSpan
    ++ u16 f.step

def encPoint (x : ProbePoint) : List Byte := u16 x.lens ++ encOpt 4 u32 x.score

/-- The probe record (R104, R118): one group with one presence byte (DESIGN CHOICE, log 10). -/
def encProbe (p : Probe) : List Byte :=
  u8 p.requester.ctorIdx ++ u32 p.position ++ u16 p.centre ++ u16 p.halfSpan ++ u16 p.step ++ encFlag p.shifted
    ++ u8 p.sweep ++ u8 p.phase.ctorIdx ++ encList encPoint p.points

def encMapEntry (e : MapEntry) : List Byte := u32 e.position ++ u16 e.lens ++ u32 e.score ++ encFlag e.stale

/-- The map as READ_FOCUS_MAP reports it: empty in UNLOADED (R118). -/
def State.reportedMap (s : State) : List MapEntry := if s.tc.state = .unloaded then [] else s.fu.map

def focusData (s : State) : List Byte :=
  encFocusSettings s.fu.settings ++ u16 s.fu.lens ++ u16 s.fu.target ++ encFlag (decide (s.fu.lens ≠ s.fu.target))
    ++ encFlag s.fu.tracking ++ encFlag s.fu.lagReported ++ encOpt 15 encProbe s.fu.probe
    ++ encList encMapEntry s.reportedMap

def ownReadFocusMap (s : State) : Answer := s.doneWith (focusData s)

def execReadFocusMap (tag : Byte) (s : State) : Result :=
  whenRunning s fun s => s.takeCommand tag 0x23 ownReadFocusMap

/-! ### LENS_STEP (R101) -/

/-- One step of the lens toward its target. -/
def stepLens (f : Fu) : Fu :=
  if f.lens < f.target then { f with lens := f.lens + 1 }
  else if f.target < f.lens then { f with lens := f.lens - 1 }
  else f

def execLensStep (s : State) : Result := whenRunning s fun s => s.modFu stepLens

/-! ### PROBE_BAND_READ (R106, R107, R108, R125) -/

/-- The first point without a score takes one (R106). -/
def scorePoint (n : Nat) : List ProbePoint → List ProbePoint
  | [] => []
  | x :: rest => if x.score.isNone then { x with score := some n } :: rest else x :: scorePoint n rest

def ProbePoint.mark (x : ProbePoint) : Nat := x.score.getD 0

/-- The place of the peak: the highest score, the lowest point of several (R107). -/
def peakPlace (ps : List ProbePoint) : Nat :=
  let best := (ps.map ProbePoint.mark).foldl max 0
  (ps.findIdx? fun x => decide (x.mark = best)).getD 0

/-- The offset of the parabola through scores a, b, c at a step (R108). -/
def parabolaOffset (st a b c : Nat) : Int :=
  let denom : Int := (a : Int) - 2 * b + c
  if denom = 0 then 0
  else clampInt (-(st / 2 : Nat)) (st / 2 : Nat) ((st * ((a : Int) - c)).tdiv (2 * denom))

/-- The end of a sweep whose peak is an end point: re-centre once, else EDGE_LIMITED (R107). -/
def State.edgePeak (s : State) (p : Probe) (x : ProbePoint) : State :=
  if p.sweep = 1 then
    (s.modFu fun f =>
      { f with
        probe :=
          some
            { p with centre := x.lens, sweep := 2, points := sweepPoints f.settings x.lens p.halfSpan p.step } }).commandPoint
  else
    let limit := decide (x.lens = s.fu.settings.lensMin) || decide (x.lens = s.fu.settings.lensMax)
    (s.faultOccur .focusEdge .minor (.focusEdge p.position x.lens limit)).completeProbe p .edgeLimited x.lens x.mark

/-- A complete sweep (R107, R108). -/
def State.sweepDone (s : State) (p : Probe) : State :=
  let j := peakPlace p.points
  match p.points[j]? with
  | none => s
  | some x =>
    match (if j = 0 then none else p.points[j - 1]?), p.points[j + 1]? with
    | some lower, some higher =>
      let lens := ((x.lens : Int) + parabolaOffset p.step lower.mark x.mark higher.mark).toNat
      s.completeProbe p .peak lens x.mark
    | _, _ => s.edgePeak p x

/-- A band's score is recorded against the point; the next point, or the end of the sweep (R106). -/
def State.bandScored (s : State) (p : Probe) (score : Nat) : State :=
  let q := { p with points := scorePoint score p.points }
  let t := s.modFu fun f => { f with probe := some q }
  if q.points.any fun x => x.score.isNone then t.commandPoint else t.sweepDone q

/-- CP reads a band for FU, when FU asks for one: the lens has reached its point in a sweep. With the lamp not LIT the
probe ends as by a halt (R125). -/
def execProbeBandRead (ls : List (List Byte)) (s : State) : Result :=
  whenRunning s fun s =>
    s.withSome s.fu.probe fun t p =>
      if p.phase = .sweep ∧ t.fu.lens = t.fu.target then
        if t.cp.lamp = .lit then t.bandScored p (bandScore (ls.map t.activePixels)) else t.abortProbe .halted
      else t

end Sys2Proof.Machine
end

