-- ==== Sys2Proof/Machine/Planning.lean ====
section
/-! DEFINITION. Planning.lean: a planning round's decisions (R161 to R167): the roll, the change of rolls, the index pass, the
probe and the capture run. -/

namespace Sys2Proof.Machine

/-! ### Choosing the roll (R162) -/

/-- A roll is mountable: its entry is STORED and holds a label. -/
def State.mountable (s : State) (n : Nat) : Bool :=
  decide ((s.entry n).state = .stored) && !(s.entry n).label.isEmpty

/-- The roll in a slot has waiting work. -/
def State.hasWork (s : State) (n : Nat) : Bool :=
  s.rs.queue.any fun r => r.waitsOrReady && decide (r.slot = some n)

def State.mountedHasWork (s : State) : Bool := match s.mountedSlot with | some n => s.hasWork n | none => false

/-- The capture count of the mounted roll: 0 when it is not the counted slot. -/
def State.mountedCount (s : State) : Nat := if s.rs.countedSlot = s.mountedSlot then s.rs.captureCount else 0

def Request.urgentWaiting (r : Request) : Bool := decide (r.priority = .urgent) && r.waitsOrReady

/-- Case 1: the roll of the oldest URGENT entry, when the mounted roll holds none and that roll is mountable. -/
def State.urgentRoll (s : State) : Option Nat :=
  match s.rs.queue.find? Request.urgentWaiting with
  | none => none
  | some r =>
    if s.rs.queue.any (fun x => x.urgentWaiting && s.mountedSlot.isSome && decide (x.slot = s.mountedSlot)) then none
    else r.slot.filter s.mountable

/-- The roll of the oldest waiting entry on a mountable roll (cases 3 and 4). -/
def State.oldestRoll (s : State) : Option Nat :=
  (s.rs.queue.find? fun r => r.waitsOrReady && r.slot.any s.mountable).bind (fun r => r.slot)

/-- The roll for the round (R162). -/
def State.chooseRoll (s : State) : Option Nat :=
  match s.urgentRoll with
  | some n => some n
  | none =>
    if s.mountedHasWork && (decide (s.mountedCount < 24) || s.oldestRoll.isNone) then s.mountedSlot
    else s.oldestRoll

/-! ### Beginning a pass -/

def RsPass.begin (k : PassKind) (ph : PassPhase) (n : Nat) (l : Label) : RsPass where
  kind := k
  phase := ph
  slot := n
  label := l
  item := none
  probePosition := 0
  dropped := false
  plan := none
  seekDone := false
  lampLit := false
  disturbed := false
  capturedJobs := 0
  misframeJobs := 0
  droppedJobs := 0

def State.setPass (s : State) (p : RsPass) : State := s.modRs fun r => { r with pass := some p }

/-- A pass to change rolls (R163). The slot that a SWITCH pass concerns is the chosen roll's from its phase UNMOUNT on, in the
record and in PASS_DONE (R160; DESIGN CHOICE, log 36). -/
def State.changeRoll (s : State) (n : Nat) : State :=
  let l := (s.entry n).label
  if s.tc.state = .unloaded then
    if s.cu.threader = .retracting then s else (s.setPass (RsPass.begin .mount .mount n l)).rsOrderMount n
  else
    let t := (s.setPass (RsPass.begin .switch .unmount n l)).removeIndexItem
    match s.mountedSlot with
    | some m => t.beginUnmount .rs m
    | none => t.passEnd .failed

/-! ### Index passes (R164) -/

/-- The target of the INDEX_PASS item after this round: an absent one stays, else the higher of the two; an absent new
one makes it absent (log 12). -/
def mergeTarget (held : Option WorkItem) (wanted : Option Nat) : Option Nat :=
  match held with
  | some (.indexPass _ none) => none
  | some (.indexPass _ (some a)) => wanted.map (max a)
  | _ => wanted

def isIndexItem : WorkItem → Bool
  | .indexPass _ _ => true
  | .focusProbe _ => false

/-- The INDEX_PASS item is placed or extended, and the pass ordered from IX (R164). Placed or extended, it goes to the end of the
list, whose order QUERY_QUEUE shows (DESIGN CHOICE, log 36: the spec gives the list no order). -/
def State.indexPassRound (s : State) (n : Nat) : State :=
  let waiting := s.rs.queue.filter (fun r => decide (r.slot = some n) && decide (r.state = .waitingIndex))
  let wanted := if s.rs.indexOnDemand then some ((waiting.map (fun r => r.frame)).foldl max 0) else none
  let target := mergeTarget (s.rs.items.find? isIndexItem) wanted
  let item := WorkItem.indexPass n target
  let t := s.removeIndexItem.modRs fun r => { r with items := r.items ++ [item] }
  let u := t.setPass { RsPass.begin .index .index n (s.entry n).label with item := some item }
  match u.indexAnswer target with
  | some k => u.beginIndexPass .rs k target
  | none => u.rsIndexEnd .noPass

/-! ### Probes (R165) -/

/-- READY entries of the roll in a slot. -/
def State.readyOf (s : State) (n : Nat) : List Request :=
  s.rs.queue.filter fun r => decide (r.slot = some n) && decide (r.state = .ready)

def Request.position (r : Request) : Nat := match r.placed with | some p => p.position | none => 0

/-- The position to probe: of an item or of a STALE entry without one, near a READY entry; the nearest to P, the lower
of two equally near. -/
def State.probeWanted (s : State) (n : Nat) : Option Nat :=
  let near (p : Nat) : Bool :=
    (s.readyOf n).any fun r => decide (distance r.position p ≤ s.fu.settings.mergeDistance)
  leastBy (fun p => distance p s.tc.position * (maxPosition + 1) + p)
    ((s.probeItems ++ s.staleWithout).filter near)

/-- A PROBE pass begins with its seek. -/
def State.probeRound (s : State) (n p : Nat) : State :=
  let item := if p ∈ s.probeItems then some (WorkItem.focusProbe p) else none
  (s.setPass { RsPass.begin .probe .seek n (s.entry n).label with item := item, probePosition := p }).orderSeek .rs p

/-! ### Capture runs (R166, R167) -/

/-- A candidate's predicted position lies within the merge distance of a STALE entry. -/
def State.nearStale (s : State) (r : Request) : Bool :=
  s.fu.map.any fun e => e.stale && decide (distance e.position r.position ≤ s.fu.settings.mergeDistance)

def State.candidates (s : State) (n : Nat) : List Request := (s.readyOf n).filter fun r => !s.nearStale r

/-- The seed (R166). -/
def State.seedOf (s : State) (cs : List Request) : Option Request :=
  let urgent := cs.filter fun r => decide (r.priority = .urgent)
  let passed := cs.filter fun r => decide (8 ≤ r.passedOver)
  let pool := if !urgent.isEmpty then urgent else if !passed.isEmpty then passed else cs
  match leastBy Request.position (pool.filter fun r => decide (s.tc.position ≤ r.position)) with
  | some r => some r
  | none => leastBy Request.position pool

def insertByPosition (r : Request) : List Request → List Request
  | [] => [r]
  | x :: rest => if r.position < x.position then r :: x :: rest else x :: insertByPosition r rest

/-- Ascending positions, the older first at equal ones. -/
def sortByPosition (rs : List Request) : List Request := rs.foldl (fun acc r => insertByPosition r acc) []

/-- A request with the window CP will give it (R166): window start and last line. -/
structure Windowed where
  request : Request
  start : Nat
  last : Nat

def State.windowed (s : State) (r : Request) : Windowed :=
  let w := s.windowAt r.position (match r.placed with | some p => s.pitchOf p.segment | none => 0)
  ⟨r, w.1, s.lastLine w.1 w.2.1⟩

/-- Joining (R166): the run so far, last job first; the remaining candidates in ascending position. -/
def joinRun (join most : Nat) : List Windowed → List Windowed → List Windowed
  | run, [] => run
  | run, c :: rest =>
    if most ≤ run.length then run
    else
      match run with
      | prev :: before :: _ =>
        if c.start ≤ before.last then joinRun join most run rest
        else if c.start ≤ prev.last + join then joinRun join most (c :: run) rest
        else run
      | [prev] => if c.start ≤ prev.last + join then joinRun join most (c :: run) rest else run
      | [] => run

/-- The composed run, in run order (R166). -/
def State.composeRun (s : State) (n : Nat) : List Windowed :=
  let cs := s.candidates n
  match s.seedOf cs with
  | none => []
  | some seed =>
    let rest :=
      sortByPosition (cs.filter fun r => decide (r.id ≠ seed.id) && decide (seed.position ≤ r.position))
    (joinRun s.rs.joinDistance (min 16 s.freeSlots) [s.windowed seed] (rest.map s.windowed)).reverse

/-- READY entries of the roll left out of the run are passed over (R166). -/
def State.passOver (s : State) (n : Nat) (ids : List Nat) : State :=
  s.modRs fun q =>
    { q with
      queue :=
        q.queue.map fun r =>
          if r.slot = some n ∧ r.state = .ready ∧ r.id ∉ ids then
            { r with passedOver := saturate countMax r.passedOver }
          else r }

/-- A slot is reserved for a job's request, which becomes PLANNED (R167). -/
def State.planRequest (s : State) (r : Request) : State :=
  s.withSome (s.reservable r.id) fun t k =>
    (t.reserveSlot k r.id).modRequest r.id fun x => { x with state := .planned, storeSlot := some k }

/-- What RS hands CP for a request (R128). -/
def State.orderFor (s : State) (r : Request) : JobOrder :=
  let p := r.placed.getD { segment := 0, position := 0, clamped := false }
  { reqId := r.id, origin := r.origin, image := r.image, label := r.label, slot := (s.storeSlotOf r.id).getD 16,
    frame := r.frame, segment := p.segment, predicted := p.position, clamped := p.clamped }

/-- RS cancels its reservations after a refused list; the entries return to READY (R167). -/
def State.cancelPlan (s : State) (ids : List Nat) : State :=
  s.each ids fun t id =>
    (t.cancelCapture id).modRequest id fun r => { r with state := .ready, storeSlot := none }

/-- IX's answer to an approach query for a frame: VERIFIED with its reason and start, or NONE (R98). The reason is
DRIFTED when it holds. -/
structure Approach where
  drifted : Bool
  lost : Bool
  start : Nat

def Approach.verified (a : Approach) : Bool := a.drifted || a.lost

def State.approach (s : State) (f : Nat) : Approach :=
  match findFrame s.ix.segments s.highestPlaced f with
  | none => ⟨false, decide (s.ix.tracker.state = .lost), 0⟩
  | some g =>
    let known :=
      match s.landmarkBefore f with
      | some l => if g.firstFrame ≤ l.frame then max g.startPos l.position else g.startPos
      | none => g.startPos
    ⟨decide (g.learning = .drifted), decide (s.ix.tracker.state = .lost), known - pitchTicks g⟩

/-- The run plan for held jobs (R167 steps 3 and 4). -/
def State.runPlan (s : State) (js : List Job) : RunPlan :=
  let answers := (js.map fun j => s.approach j.order.frame).filter Approach.verified
  let verified := !answers.isEmpty
  let v := if verified then min s.captureSpeed s.tc.settings.indexSpeed else s.captureSpeed
  let first := match js with | j :: _ => j.windowStart | [] => 0
  let up := runStart s.tc.settings.acceleration v first
  { jobs :=
      js.map fun j =>
        { reqId := j.order.reqId, slot := j.order.slot, frame := j.order.frame, windowStart := j.windowStart,
          lines := j.lines },
    start := answers.foldl (fun acc a => min acc a.start) up.2,
    speed := up.1,
    endPosition := (js.map fun j => s.lastLine j.windowStart j.lines).foldl max 0 + 1,
    speedLowered := s.speedLowered, verified := verified }

/-- A composed run becomes a CAPTURE pass (R167). -/
def State.capturePass (s : State) (n : Nat) (run : List Request) : State :=
  let ids := run.map fun r => r.id
  let t := ((s.passOver n ids).setPass (RsPass.begin .capture .seek n (s.entry n).label)).each run State.planRequest
  let orders := run.map t.orderFor
  match t.listRefusal orders with
  | some _ => (t.cancelPlan ids).passEnd .failed
  | none =>
    let u := t.holdList orders
    let plan := u.runPlan u.jobList
    (u.modPass fun p => { p with plan := some plan }).orderSeek .rs plan.start

/-! ### The round -/

/-- The decisions of a round on the refreshed queue (R162 to R166). -/
def State.decide_ (s : State) : State :=
  match s.chooseRoll with
  | none => s
  | some n =>
    if s.mountedSlot ≠ some n then s.changeRoll n
    else if s.tc.state ≠ .stopped then s
    else if s.rs.queue.any fun r => decide (r.slot = some n) && decide (r.state = .waitingIndex) then
      s.indexPassRound n
    else
      match s.probeWanted n with
      | some p => s.probeRound n p
      | none =>
        if s.freeSlots = 0 then s
        else
          match s.composeRun n with
          | [] => s
          | run => s.capturePass n (run.map fun w => w.request)

/-- A planning round (R161). -/
def State.planRound (s : State) : State := s.refresh.decide_

end Sys2Proof.Machine
end

