-- ==== Sys2Proof/Machine/Index.lean ====
section
/-! DEFINITION. Index.lean: the meanings of the commands and events of chapters 4 and 5. -/

namespace Sys2Proof.Machine

/-! ### SET_MARK_CLASSES (R61) -/

def ownSetMarkClasses (a b c : Nat) (s : State) : Answer :=
  checked s
    [(!decide (20 < a ∧ a < b ∧ b < c ∧ c ≤ 4000), .range),
      (decide (s.tc.state = .seeking) || decide (s.tc.state = .scanning) || decide (s.tc.state = .rewinding)
        || decide (s.tc.state = .threading) || s.ix.pass.isSome, .busy)]
    fun s => (s.modIx fun x => { x with classes := ⟨a, b, c⟩ }).done

def execSetMarkClasses (tag : Byte) (a b c : Nat) (s : State) : Result :=
  whenRunning s fun s => s.takeCommand tag 0x18 (ownSetMarkClasses a b c)

/-! ### INDEX_ROLL (R74) -/

/-- The target frame a command names: of TARGET, or of FRESH with an optional one. -/
def indexTarget (c : Option IndexChoice) (t : OptArg) : Option Nat :=
  match c, t with
  | some .target, .present f => some f
  | some .fresh, .present f => some f
  | _, _ => none

/-- A choice that names none, a presence byte above 1, TARGET without a frame, or a target frame of 0 (log 13). -/
def indexOutOfRange (c : Option IndexChoice) (t : OptArg) : Bool :=
  c.isNone || decide (t = .badPresence) || (decide (c = some .target) && decide (t = .absent))
    || decide (t = .present 0)

def ownIndexRoll (c : Option IndexChoice) (t : OptArg) (s : State) : Answer :=
  checked s
    [(decide (s.rs.mode = .auto), .mode), (indexOutOfRange c t, .range), (s.latched, .halted),
      (decide (s.tc.state = .unloaded), .noRoll),
      (decide (s.tc.state ≠ .stopped) || s.fu.probe.isSome || s.ix.pass.isSome, .busy)]
    fun s =>
      let f := indexTarget c t
      match (if c = some .fresh then some IndexKind.fresh else s.indexAnswer f) with
      | some k => ((s.beginIndexPass .host k f).settleSince s).acceptedWith []
      | none => s.done

def execIndexRoll (tag : Byte) (c : Option IndexChoice) (t : OptArg) (s : State) : Result :=
  whenRunning s fun s => s.takeCommand tag 0x19 (ownIndexRoll c t)

/-! ### READ_INDEX (R81) -/

/-- The Frame Tracker record (R62, R81). The last mark's position and class are one group with one presence byte, and the
leader start is an indication, 1 for armed (DESIGN CHOICE, log 10). -/
def encTracker (t : Tracker) : List Byte :=
  u8 t.state.ctorIdx ++ encOpt 2 u16 t.frame ++ encOpt 1 u8 t.segment
    ++ encOpt 5 (fun l => u32 l.position ++ u8 l.cls.ctorIdx) t.lastMark ++ encFlag t.leaderArmed ++ u16 t.stray

def encSegment (g : Segment) : List Byte :=
  u8 g.number ++ u16 g.firstFrame ++ encOpt 2 u16 g.lastFrame ++ u32 g.startPos ++ encOpt 4 u32 g.endPos
    ++ encOpt 4 u32 g.frontier ++ u16 g.anchorFrame ++ u32 g.anchorPos ++ u32 g.pitch ++ u16 g.observations
    ++ u8 g.rejects ++ u16 g.inferred ++ u8 g.reason.ctorIdx ++ u8 g.learning.ctorIdx ++ encFlag g.closed

/-- A Landmark List entry (R73, R81). Its class has its number in R62's list: MEDIUM 1, LONG 2 (DESIGN CHOICE, log 10). -/
def encLandmark (l : Landmark) : List Byte := u16 l.frame ++ u32 l.position ++ u8 l.cls.ctorIdx

/-- The index pass record (R75, R81): one group with one presence byte, as the fields of the mounted roll are (DESIGN CHOICE,
log 10). -/
def encIndexPass (p : IndexPass) : List Byte :=
  u8 p.kind.ctorIdx ++ encOpt 2 u16 p.target ++ u8 p.requester.ctorIdx ++ u8 p.phase.ctorIdx ++ encFlag p.frontier
    ++ u16 p.countedTo ++ encOpt 1 (fun r => u8 r.ctorIdx) p.pending

/-- The mounted roll's slot and index fields, or none in UNLOADED. -/
def State.rollIndex (s : State) : Option (Nat × Entry) :=
  if s.tc.state = .unloaded then none else s.mountedSlot.map fun n => (n, s.entry n)

def encRollIndex (x : Nat × Entry) : List Byte :=
  u8 x.1 ++ u8 x.2.indexState.ctorIdx ++ encOpt 2 u16 x.2.lastIndexed ++ encFlag x.2.landmarksDropped

def indexData (s : State) : List Byte :=
  let none_ := decide (s.tc.state = .unloaded)
  let t := if none_ then s.ix.tracker.toNone else s.ix.tracker
  let segs := if none_ then [] else s.ix.segments
  let marks := if none_ then [] else s.ix.landmarks
  encTracker t ++ u16 s.ix.invalidMarks ++ encOpt 6 encRollIndex s.rollIndex ++ encOpt 11 encIndexPass s.ix.pass
    ++ encList encSegment segs ++ encLongList encLandmark marks ++ u16 s.ix.classes.shortMax ++ u16 s.ix.classes.mediumMax
    ++ u16 s.ix.classes.longMax ++ u8 s.ix.shift

def ownReadIndex (s : State) : Answer := s.doneWith (indexData s)

def execReadIndex (tag : Byte) (s : State) : Result :=
  whenRunning s fun s => s.takeCommand tag 0x1A ownReadIndex

/-! ### EDGE_MARK (R59, R60) -/

/-- The classes of R60. -/
inductive MarkReading where
  | noise
  | invalid
  | mark (cls : MarkClass)
deriving DecidableEq, Repr

/-- A mark's class by its length (R60). -/
def classify (k : MarkClasses) (length : Nat) : MarkReading :=
  if length < 20 then .noise
  else if length ≤ k.shortMax then .mark .short
  else if length ≤ k.mediumMax then .mark .medium
  else if length ≤ k.longMax then .mark .long
  else .invalid

/-- An edge at which a mark can be read (R59). -/
def State.edgeReadable (s : State) : Bool := decide (s.tc.speed ≤ markReadLimit) && decide (s.tc.underrun = 0)

/-- The position of a mark: its lower-position edge (R59). -/
def markPosition (d : Direction) (first second : Nat) : Nat :=
  match d with
  | .forward => first
  | .reverse => first - distance first second
  | .none => min first second

/-- A mark read from its two edges (R59, R60). -/
def State.readMark (s : State) (e : FirstEdge) (second : Nat) : State :=
  let forward := match e.direction with | .forward => true | .reverse => false | .none => decide (e.position ≤ second)
  match classify s.ix.classes (distance e.position second) with
  | .noise => s
  | .invalid => s.modIx fun x => { x with invalidMarks := saturate countMax x.invalidMarks }
  | .mark c => s.trackMark forward (markPosition e.direction e.position second) c

/-- EDGE_MARK (R59). Of the direction only the two edges are compared: one that changed and changed back between them is
not seen, and the mark is read (DESIGN CHOICE, log 36). -/
def execEdgeMark (edge : MarkEdge) (p : Nat) (s : State) : Result :=
  whenRunning s fun s =>
    match edge with
    | .first =>
      s.modIx fun x =>
        { x with
          firstEdge := if s.edgeReadable then some { position := p, direction := s.tc.direction } else none }
    | .second =>
      let t := s.modIx fun x => { x with firstEdge := none }
      t.withSome s.ix.firstEdge fun u e =>
        if s.edgeReadable ∧ s.tc.direction = e.direction then (u.readMark e p).settleSince u else u

/-- SPLICE_EVENT (R69). -/
def execSpliceEvent (p : Nat) (s : State) : Result := whenRunning s fun s => s.splice p

/-! ### SET_PITCH_LEARNING (R95) -/

def ownSetPitchLearning (k : Nat) (s : State) : Answer :=
  checked s [(!decide (1 ≤ k ∧ k ≤ 6), .range)] fun s => (s.modIx fun x => { x with shift := k }).done

def execSetPitchLearning (tag : Byte) (k : Nat) (s : State) : Result :=
  whenRunning s fun s => s.takeCommand tag 0x1B (ownSetPitchLearning k)

/-! ### LOCATE_FRAME (R96), FRAME_AT (R97) -/

/-- The approach requirement, VERIFIED 0 or NONE 1 in R98's order (R192), its reason, the verified start and the speed limit
(R98; the group is log 10). -/
def encApproach (s : State) (a : Approach) : List Byte :=
  u8 (!a.verified).toNat
    ++ encOpt 7 (fun x : Approach =>
        u8 (if x.drifted then 0 else 1) ++ u32 x.start ++ u16 s.tc.settings.indexSpeed)
      (if a.verified then some a else none)

def locateData (s : State) (f : Nat) (g : Segment) (p : Placed) : List Byte :=
  u8 g.number ++ u32 p.position ++ encFlag p.clamped ++ i32 (predict g f) ++ u16 (captureWindow g)
    ++ u8 g.learning.ctorIdx ++ u32 g.pitch ++ u16 g.anchorFrame ++ u32 g.anchorPos ++ u16 g.observations
    ++ encApproach s (s.approach f)

def ownLocateFrame (f : Nat) (s : State) : Answer :=
  checked s [(decide (f = 0), .range), (decide (s.tc.state = .unloaded), .noRoll)] fun s =>
    match s.placeLive f, findFrame s.ix.segments s.highestPlaced f with
    | .placed p, some g => s.doneWith (locateData s f g p)
    | _, _ => s.refuse .notInRoll

def execLocateFrame (tag : Byte) (f : Nat) (s : State) : Result :=
  whenRunning s fun s => s.takeCommand tag 0x1C (ownLocateFrame f)

def ownFrameAt (p : Nat) (s : State) : Answer :=
  checked s
    [(decide (maxPosition < p), .range), (decide (s.tc.state = .unloaded), .noRoll)]
    fun s =>
      match segmentAt s.ix.segments p with
      | none => s.refuse .notInRoll
      | some g =>
        let f := inverse g s.highestPlaced p
        s.doneWith (u8 g.number ++ u16 f ++ i32 (predict g f))

def execFrameAt (tag : Byte) (p : Nat) (s : State) : Result :=
  whenRunning s fun s => s.takeCommand tag 0x1D (ownFrameAt p)

end Sys2Proof.Machine
end

