-- ==== Sys2Proof/Machine/Scheduler.lean ====
section
/-! DEFINITION. Scheduler.lean: the disposition (R144 to R149) and the meanings of chapter 9's commands and events. -/

namespace Sys2Proof.Machine

/-! ### The disposition (chapter 8) -/

/-- The window that holds an image number (R145). -/
def State.windowFor (s : State) (i : Nat) : Option Window :=
  s.ct.windows.find? fun w => decide (w.base ≤ i) && decide (i ≤ w.limit)

/-- The origin is included in a mask (R140, R192). -/
def originIncluded (mask origin : Nat) : Bool := mask / 2 ^ origin % 2 == 1

/-- The frame of an image in a window (R146). -/
def frameOf (w : Window) (i : Nat) : Nat := w.firstFrame + (i - w.base) * w.stride

/-- CT's answer to RS (R149): a refusal, or the window and where the frame was placed. -/
inductive Disposition where
  | refused (status : Status)
  | accepted (window : Window) (frame : Nat) (placed : Placement)

/-- The access check of a window (R145). -/
def accessRefusal (w : Window) (origin : Nat) : Option Status :=
  match w.access with
  | .openToAll => none
  | .withdrawn => some .withdrawn
  | .restricted => if originIncluded w.originMask origin then none else some .denied

/-- Both stages of a disposition (R145 to R148). -/
def State.disposition (s : State) (i origin : Nat) : Disposition :=
  match s.windowFor i with
  | none => .refused .notHeld
  | some w =>
    match accessRefusal w origin with
    | some st => .refused st
    | none =>
      match s.placement w.label (frameOf w i) with
      | .notInRoll _ => .refused .notInRoll
      | p => .accepted w (frameOf w i) p

/-- A refusal with DENIED counts at the window (R145). -/
def State.countDenied (s : State) (i : Nat) (st : Status) : State :=
  if st = .denied then
    s.modCt fun c =>
      { c with
        windows :=
          c.windows.map fun w =>
            if w.base ≤ i ∧ i ≤ w.limit then { w with denied := saturate countMax w.denied } else w }
  else s

/-! ### SUBMIT_REQUEST (R156, R158) -/

/-- The next id above the last one, 1 to 255, that no entry holds (R156). -/
def nextId (held : Nat → Bool) : Nat → Nat → Nat
  | 0, last => last % 255 + 1
  | k + 1, last => if held (last % 255 + 1) then nextId held k (last % 255 + 1) else last % 255 + 1

def State.freshId (s : State) : Nat :=
  nextId (fun n => s.rs.queue.any fun r => decide (r.id = n)) 255 s.rs.lastId

/-- The entry an accepted submission makes (R158). -/
def State.entryFor (s : State) (i origin : Nat) (pri : Priority) (w : Window) (f : Nat) (p : Placement) : Request :=
  Request.withPlacement
    { id := s.freshId, age := s.rs.submissions, origin := origin, image := i, windowId := w.id, label := w.label,
      frame := f, priority := pri, slot := none, placed := none, retries := 0, storeSlot := none, passedOver := 0,
      state := .waitingRoll }
    p

/-- The entry joins the queue; its id and age are the last assigned (R156, R158). -/
def State.enqueue (s : State) (r : Request) : State :=
  s.modRs fun q =>
    { q with queue := q.queue ++ [r], lastId := r.id, submissions := (q.submissions + 1) % 4294967296 }

/-- The segment, predicted position and CLAMPED flag of a placement: present or absent together (R155), they are one group, with
one presence byte in front of it (DESIGN CHOICE, log 10: R192 gives a presence byte to each optional field). -/
def encPlaced (p : Placed) : List Byte := u8 p.segment ++ u32 p.position ++ encFlag p.clamped

/-- The reply to an accepted submission (R158). The placement, for READY only, is a group with one presence byte (log 10). -/
def submitData (r : Request) : List Byte :=
  u8 r.id ++ u8 r.windowId ++ wireLabel r.label ++ u16 r.frame ++ u8 r.state.ctorIdx ++ encOpt 1 u8 r.slot
    ++ encOpt 6 encPlaced r.placed

/-- An accepted submission (R158). -/
def State.acceptRequest (s : State) (r : Request) : State :=
  ((s.enqueue r).onlyIf (decide (r.state = .waitingRoll)) fun t => t.postRollWanted r.label).offerPlanning

def ownSubmitRequest (i origin : Nat) (pri : Option Priority) (s : State) : Answer :=
  checked s
    [(decide (15 < origin) || pri.isNone, .range), (decide (32 ≤ s.rs.queue.length), .queueFull)]
    fun s =>
      match s.disposition i origin with
      | .refused st => (s.countDenied i st).refuse st
      | .accepted w f p =>
        let r := s.entryFor i origin (pri.getD .normal) w f p
        (s.acceptRequest r).acceptedWith (submitData r)

def execSubmitRequest (tag : Byte) (i origin : Nat) (pri : Option Priority) (s : State) : Result :=
  whenRunning s fun s => s.takeCommand tag 0x38 (ownSubmitRequest i origin pri)

/-! ### CANCEL_REQUEST (R171) -/

/-- The entry is removed, its capture cancelled first where it has one (R171). Its job leaves the list or run at CP, and
stays among the jobs of the run plan that QUERY_QUEUE reports (R167; DESIGN CHOICE, log 36). -/
def State.cancelEntry (s : State) (r : Request) : State :=
  ((match r.state with
    | .planned | .capturing | .captured => s.cancelCapture r.id
    | _ => s).removeRequest r.id).offerPlanning

def ownCancelRequest (id : Nat) (s : State) : Answer :=
  match s.findRequest id with
  | none => s.refuse .notFound
  | some r => if r.state = .delivering then s.refuse .tooLate else ⟨s.cancelEntry r, .cancelled, []⟩

def execCancelRequest (tag : Byte) (id : Nat) (s : State) : Result :=
  whenRunning s fun s => s.takeCommand tag 0x39 (ownCancelRequest id)

/-! ### QUERY_QUEUE (R174) -/

/-- An Internal Work List item; the reference of a FOCUS_PROBE is its entry's position (log 10). -/
def encWorkItem : WorkItem → List Byte
  | .indexPass n t => u8 0 ++ u8 n ++ encOpt 2 u16 t
  | .focusProbe p => u8 1 ++ u32 p

def encPlanJob (j : PlanJob) : List Byte :=
  u8 j.reqId ++ u8 j.slot ++ u16 j.frame ++ u32 j.windowStart ++ u16 j.lines

def encRunPlan (p : RunPlan) : List Byte :=
  encList encPlanJob p.jobs ++ u32 p.start ++ u16 p.speed ++ u32 p.endPosition ++ encFlag p.speedLowered
    ++ encFlag p.verified

/-- The pass record (R160). Of the optional groups, the work item and the run plan have one presence byte each (log 10). -/
def encPass (p : RsPass) : List Byte :=
  u8 p.kind.ctorIdx ++ u8 p.phase.ctorIdx ++ u8 p.slot ++ encOpt 5 encWorkItem p.item ++ encOpt 13 encRunPlan p.plan

/-- A queue entry, in R155's order. Its placement is a group with one presence byte (log 10). -/
def encRequest (r : Request) : List Byte :=
  u8 r.id ++ u32 r.age ++ u8 r.origin ++ u32 r.image ++ u8 r.windowId ++ wireLabel r.label ++ u16 r.frame
    ++ u8 r.priority.ctorIdx ++ encOpt 1 u8 r.slot ++ encOpt 6 encPlaced r.placed ++ u8 r.retries
    ++ encOpt 1 u8 r.storeSlot ++ u16 r.passedOver ++ u8 r.state.ctorIdx

/-- ON is 0 and OFF is 1, as R160 lists them (log 10). -/
def encOnOff (b : Bool) : List Byte := u8 (!b).toNat

/-- QUERY_QUEUE's data (R174). The items of the Internal Work List follow in the order in which the list holds them: as appended,
an extended INDEX_PASS last (DESIGN CHOICE, log 36: R174 gives their order nowhere). -/
def queueData (s : State) : List Byte :=
  u8 s.rs.mode.ctorIdx ++ u32 s.rs.joinDistance ++ encOnOff s.rs.indexOnDemand ++ u8 s.rs.lastId ++ u32 s.rs.submissions
    ++ u16 s.rs.captureCount ++ encOpt 1 u8 s.rs.countedSlot ++ encOpt 23 encPass s.rs.pass
    ++ encList encRequest s.rs.queue ++ encList encWorkItem s.rs.items

def ownQueryQueue (s : State) : Answer := s.doneWith (queueData s)

def execQueryQueue (tag : Byte) (s : State) : Result :=
  whenRunning s fun s => s.takeCommand tag 0x3A ownQueryQueue

/-! ### SET_MODE (R159), SET_PLANNING (R160) -/

def ownSetMode (m : Option DeviceMode) (s : State) : Answer :=
  match m with
  | none => s.refuse .range
  | some m => ((s.modRs fun r => { r with mode := m }).offerPlanning).done

def execSetMode (tag : Byte) (m : Option DeviceMode) (s : State) : Result :=
  whenRunning s fun s => s.takeCommand tag 0x3B (ownSetMode m)

def ownSetPlanning (d : Nat) (demand : Option Bool) (s : State) : Answer :=
  checked s [(decide (1000000 < d) || demand.isNone, .range)] fun s =>
    (s.modRs fun r => { r with joinDistance := d, indexOnDemand := demand.getD true }).done

def execSetPlanning (tag : Byte) (d : Nat) (demand : Option Bool) (s : State) : Result :=
  whenRunning s fun s => s.takeCommand tag 0x3C (ownSetPlanning d demand)

/-! ### PLANNING_ROUND (R159, R161) -/

/-- The round of an opportunity at which the planning conditions held, while they still hold (log 5). -/
def execPlanningRound (s : State) : Result :=
  whenRunning s fun s =>
    if s.rs.planningDue then
      let t := s.modRs fun r => { r with planningDue := false }
      t.onlyIf t.mayPlan fun u => u.planRound.settleSince u
    else s

/-! ### CAPTURE_RUN_ORDER (R167, R114, R129, R130) -/

/-- Both reports awaited have been taken: the seek's outcome and the lamp lit. -/
def RsPass.runDue (p : RsPass) : Bool :=
  decide (p.kind = .capture) && decide (p.phase = .seek) && p.seekDone && p.lampLit

/-- RS releases the job list, then the pass ends ABANDONED (R167; the order is log 36). -/
def State.abandonRun (s : State) : State := s.endList.passEnd .abandoned

/-- TC takes the capture run: tracking starts, the list is bound, and a first window that starts here takes its line. -/
def State.takeCaptureRun (s : State) (plan : RunPlan) (pixels : List Byte) : State :=
  ((((s.modPass fun p => { p with phase := .run }).startRun .rs .capture plan.speed
    (some plan.endPosition)).startTracking).bindList).captureLine pixels

def execCaptureRunOrder (pixels : List Byte) (s : State) : Result :=
  whenRunning s fun s =>
    s.withSome s.rs.pass fun t p =>
      if p.runDue then
        if t.fu.probe.isSome || p.disturbed || decide (t.tc.state ≠ .stopped) || t.latched then t.abandonRun
        else
          match p.plan with
          | some plan => t.takeCaptureRun plan pixels
          | none => t.abandonRun
      else t

end Sys2Proof.Machine
end

