-- ==== Sys2Proof/Machine/Tension.lean ====
section
/-! DEFINITION. Tension.lean: the meanings of chapter 2's commands and events. -/

namespace Sys2Proof.Machine

/-- The limit code (R32). -/
def limitCodeOf (base limit gain scale : Nat) : Nat := base + ceilDiv (limit * gain * 256) scale

/-! ### ZERO_TENSION (R26) -/

def ownZeroTension (s : State) : Answer :=
  checked s [(decide (s.tc.state ≠ .unloaded), .busy), (decide (s.tu.calStatus = .inProgress), .busy)] fun s =>
    (s.modTu fun u => { u with calStatus := .inProgress, calSum := 0, calCount := 0 }).acceptedWith []

def execZeroTension (tag : Byte) (s : State) : Result :=
  whenRunning s fun s => s.takeCommand tag 0x08 ownZeroTension

/-! ### SET_TENSION (R28, R29) -/

def tensionOutOfRange (a : TensionArgs) : Bool :=
  !(decide (a.gain ∈ [1, 2, 4, 8]) && decide (1 ≤ a.scale ∧ a.scale ≤ 65535)
    && decide (50 ≤ a.target ∧ a.target ≤ 800) && decide (100 ≤ a.limit ∧ a.limit ≤ 1500)
    && decide (a.slackLevel ≤ 200) && decide (a.filterCount ∈ [1, 4, 8, 16]) && a.action.isSome)

/-- The settings a command sends (R28). -/
def settingsOf (a : TensionArgs) : TensionSettings where
  gain := a.gain
  scale := a.scale
  target := a.target
  limit := a.limit
  slackLevel := a.slackLevel
  filterCount := a.filterCount
  action := a.action.getD .halt

/-- A restricted setting differs (R28). -/
def restrictedDiffers (a b : TensionSettings) : Bool :=
  decide (a.gain ≠ b.gain) || decide (a.scale ≠ b.scale) || decide (a.limit ≠ b.limit)
    || decide (a.filterCount ≠ b.filterCount) || decide (a.action ≠ b.action)

/-- The over, within, slack and break counts set to 0 (R26, R29). -/
def Tu.clearCounts (u : Tu) : Tu := { u with overCount := 0, withinCount := 0, slackCount := 0, breakCount := 0 }

/-- What an accepted SET_TENSION changes (R29). -/
def acceptTension (g : TensionSettings) (u : Tu) : Tu :=
  let v := { u with settings := g }
  if restrictedDiffers g u.settings then
    { v.clearCounts with limitCode := limitCodeOf u.zeroCode g.limit g.gain g.scale, capInForce := false }
  else v

def ownSetTension (a : TensionArgs) (s : State) : Answer :=
  checked s
    [(tensionOutOfRange a, .range), (decide (a.limit ≤ a.target), .range), (decide (a.target ≤ a.slackLevel), .range),
      (decide (4095 < limitCodeOf s.tu.zeroCode a.limit a.gain a.scale), .range),
      (decide (s.tu.calStatus = .inProgress), .busy),
      (restrictedDiffers (settingsOf a) s.tu.settings && decide (s.tc.state ≠ .unloaded) && decide (s.tc.state ≠ .stopped),
        .busy)]
    fun s =>
      let t := s.modTu (acceptTension (settingsOf a))
      t.doneWith (u16 t.tu.limitCode)

def execSetTension (tag : Byte) (a : TensionArgs) (s : State) : Result :=
  whenRunning s fun s => s.takeCommand tag 0x09 (ownSetTension a)

/-! ### READ_TENSION (R37) -/

def encTensionSettings (g : TensionSettings) : List Byte :=
  u8 g.gain ++ u16 g.scale ++ u16 g.target ++ u16 g.limit ++ u8 g.slackLevel ++ u8 g.filterCount ++ u8 g.action.ctorIdx

/-- READ_TENSION's data (R37): the loop state is an indication, 1 for on (log 10). -/
def tensionData (s : State) : List Byte :=
  u16 s.tu.code ++ i32 s.tu.tRaw ++ u16 s.reportedTension ++ encTensionSettings s.tu.settings ++ u16 s.tu.zeroCode
    ++ u16 s.tu.limitCode ++ encFlag s.tu.loopOn ++ u16 s.tu.setpoint ++ encFlag s.tu.onTarget ++ encFlag s.tu.overLimit
    ++ encFlag s.tu.capInForce ++ encFlag s.tu.driveInhibit ++ encFlag s.tu.slackEpisode ++ u8 s.tu.calStatus.ctorIdx

def ownReadTension (s : State) : Answer := s.doneWith (tensionData s)

def execReadTension (tag : Byte) (s : State) : Result :=
  whenRunning s fun s => s.takeCommand tag 0x0A ownReadTension

/-! ### TENSION_SAMPLE (R24, R25, R26, R30, R31, R32, R35) -/

/-- T_raw of a code (R25). -/
def rawTension (u : Tu) (code : Nat) : Int :=
  ((code - u.zeroCode : Int) * u.settings.scale) / (u.settings.gain * 256 : Nat)

/-- A sample over the limit, or clipped (R32, R24). -/
def overSample (u : Tu) (code : Nat) : Bool := decide (u.limitCode < code) || decide (code = 4095)

/-- A calibration sums its 64 samples (R26). -/
def calibrationSample (code : Nat) (u : Tu) : Tu :=
  if u.calStatus = .inProgress ∧ u.calCount < 64 then
    { u with calSum := u.calSum + code, calCount := u.calCount + 1 }
  else u

/-- The comparator's counts, its indication, and a detection while armed (R32). -/
def comparatorSample (code : Nat) (u : Tu) : Tu :=
  if overSample u code then
    { u with
      overCount := saturate 16 u.overCount, withinCount := 0, overLimit := true,
      detectionDue :=
        u.detectionDue
          || (u.loopOn && decide (u.overCount < u.settings.filterCount)
            && decide (u.settings.filterCount ≤ saturate 16 u.overCount)) }
  else { u with overCount := 0, withinCount := saturate 16 u.withinCount, overLimit := false }

/-- The loop's torque demand and running sum (R30, log 7). -/
def loopSample (reported : Nat) (u : Tu) : Tu :=
  if u.loopOn then
    let diff : Int := u.setpoint - reported
    { u with
      torque := clampInt (-Config.fullOutput) Config.fullOutput (Config.torqueDemand diff u.runningSum),
      runningSum := u.runningSum + diff }
  else u

/-- The on-target condition of a sample (R31). -/
def onTargetNow (reported : Nat) (u : Tu) : Bool :=
  u.loopOn && decide (u.setpoint = u.settings.target) && decide (distance reported u.settings.target ≤ 10)

/-- Its count of consecutive samples; the first sample that breaks it clears the indication (R31). -/
def onTargetSample (reported : Nat) (u : Tu) : Tu :=
  if onTargetNow reported u then { u with onTargetCount := saturate 100 u.onTargetCount }
  else { u with onTargetCount := 0, onTarget := false }

/-- The slack counts of a sample taken while armed (R35, R36). -/
def slackSample (moving : Bool) (u : Tu) : Tu :=
  if !moving then u
  else if u.tRaw < u.settings.slackLevel then
    { u with
      slackCount := saturate 16 u.slackCount, breakCount := saturate 500 u.breakCount, recoveryCount := 0 }
  else { u with slackCount := 0, breakCount := 0, recoveryCount := saturate 16 u.recoveryCount }

/-- A sample converted (R24, R25). -/
def convertSample (code : Nat) (u : Tu) : Tu := { u with code := code, tRaw := rawTension u code }

def State.sample (s : State) (code : Nat) : State :=
  let a := s.modTu fun u => convertSample code (calibrationSample code u)
  let r := a.reportedTension
  a.modTu fun u => slackSample a.filmMoving (onTargetSample r (loopSample r (comparatorSample code u)))

def execTensionSample (code : Nat) (s : State) : Result := whenRunning s fun s => s.sample code

/-! ### The steps that follow from samples (log 5) -/

/-- The average of a calibration, rounded half-up (R26). -/
def calibrationAverage (sum : Nat) : Nat := (sum + 32) / 64

/-- The end of a calibration (R26). -/
def finishCalibration (u : Tu) : Tu :=
  let average := calibrationAverage u.calSum
  let limit := limitCodeOf average u.settings.limit u.settings.gain u.settings.scale
  if limit ≤ 4095 then
    { u.clearCounts with zeroCode := average, limitCode := limit, calStatus := .done, calSum := 0, calCount := 0 }
  else { u with calStatus := .outOfRange, calSum := 0, calCount := 0 }

/-- CALIBRATION_COMPLETE (R26). -/
def execCalibrationComplete (s : State) : Result :=
  whenRunning s fun s =>
    if s.tu.calStatus = .inProgress ∧ s.tu.calCount = 64 then s.modTu finishCalibration else s

/-- One ramp step of 1 cN toward the target (R31). -/
def rampStep (u : Tu) : Tu :=
  if u.setpoint < u.settings.target then { u with setpoint := u.setpoint + 1 }
  else if u.settings.target < u.setpoint then { u with setpoint := u.setpoint - 1 }
  else u

/-- SETPOINT_RAMP_STEP (R31). -/
def execSetpointRampStep (s : State) : Result :=
  whenRunning s fun s => if s.tu.loopOn then s.modTu rampStep else s

/-- ON_TARGET_SET (R31). -/
def execOnTargetSet (s : State) : Result :=
  whenRunning s fun s =>
    if s.tu.loopOn ∧ 100 ≤ s.tu.onTargetCount then s.modTu fun u => { u with onTarget := true } else s

def State.postTrip (s : State) : State :=
  s.post .trip
    (.trip s.tu.settings.action s.tu.code s.reportedTension s.tu.limitCode s.tc.position s.tc.state)

/-- OVER_TENSION_DETECTION (R32, R33, R34): the trip action, the TRIP notice, the fault report. -/
def execOverTensionDetection (s : State) : Result :=
  whenRunning s fun s =>
    if s.tu.detectionDue then
      let t := s.modTu fun u => { u with detectionDue := false }
      match t.tu.settings.action with
      | .halt =>
        ((t.modTu fun u => { u with driveInhibit := true }).postTrip).raise .overTension .major .overTension
      | .report =>
        ((t.modTu fun u => { u with capInForce := u.loopOn }).postTrip).raise .overTension .minor .overTension
    else s

/-- SPEED_CAP_LIFT (R34). -/
def execSpeedCapLift (s : State) : Result :=
  whenRunning s fun s =>
    if s.tu.capInForce ∧ s.tu.settings.filterCount ≤ s.tu.withinCount then
      s.modTu fun u => { u with capInForce := false }
    else s

/-- SLACK_EPISODE_BEGIN (R35). -/
def execSlackEpisodeBegin (s : State) : Result :=
  whenRunning s fun s =>
    if s.filmMoving ∧ s.tu.settings.filterCount ≤ s.tu.slackCount ∧ s.tu.slackEpisode = false then
      (s.modTu fun u => { u with slackEpisode := true }).raise .slack .minor
        (.slack s.tu.tRaw s.tc.position s.tc.state)
    else s

/-- SLACK_EPISODE_END (R35). -/
def execSlackEpisodeEnd (s : State) : Result :=
  whenRunning s fun s =>
    if s.tu.slackEpisode ∧ s.tu.settings.filterCount ≤ s.tu.recoveryCount then
      s.modTu fun u => { u with slackEpisode := false }
    else s

/-- FILM_BREAK_DETECTION (R36). -/
def execFilmBreakDetection (s : State) : Result :=
  whenRunning s fun s =>
    if s.filmMoving ∧ 500 ≤ s.tu.breakCount then s.raise .filmBreak .major (.breakSlack s.tu.tRaw s.tc.position) else s

end Sys2Proof.Machine
end

