-- ==== Sys2Proof/Machine/Transport.lean ====
section
/-! DEFINITION. Transport.lean: the meanings of chapter 1's commands and events. Each host command has an owner's action
`own…` (shared with LINK_FRAME_RECEIVED) and the meaning `exec…` of its row. -/

namespace Sys2Proof.Machine

/-! ### SET_MOTION (R2) -/

def ownSetMotion (a : MotionSettings) (s : State) : Answer :=
  checked s
    [(!(decide (100 ≤ a.seekSpeed ∧ a.seekSpeed ≤ 3000) && decide (50 ≤ a.indexSpeed ∧ a.indexSpeed ≤ 1500)
        && decide (5 ≤ a.scanSpeed ∧ a.scanSpeed ≤ 400) && decide (100 ≤ a.acceleration ∧ a.acceleration ≤ 4000)
        && decide (a.settleDwell ≤ 500)), .range)]
    fun s => (s.modTc fun c => { c with settings := a }).done

def execSetMotion (tag : Byte) (a : MotionSettings) (s : State) : Result :=
  whenRunning s fun s => s.takeCommand tag 0x01 (ownSetMotion a)

/-! ### SEEK_POSITION (R18), JOG (R19) -/

/-- The checks SEEK_POSITION and JOG share, in their order (R18, R19). -/
def seekChecks (s : State) (badRange : Bool) : List (Bool × Status) :=
  [(decide (s.rs.mode = .auto), .mode), (badRange, .range), (s.latched, .halted),
    (decide (s.tc.state = .unloaded), .noRoll),
    (decide (s.tc.state = .threading) || decide (s.tc.state = .scanning) || decide (s.tc.state = .rewinding)
      || s.fu.probe.isSome, .busy)]

/-- A seek in progress is about to be replaced by a host seek: IX and RS lose theirs (R79, R169). -/
def State.seekReplaced (s : State) : State :=
  match s.tc.motion with
  | some (.seek m) =>
    match m.requester with
    | .ix => s.ixReplaced
    | .rs => s.rsReplaced
    | _ => s
  | _ => s

/-- A host seek to a target, clamped (R6, R10): ACCEPTED with the clamped target and the CLAMPED flag. -/
def State.hostSeek (s : State) (target : Int) (limit : Nat) : Answer :=
  let c := s.clampTarget target
  (s.seekReplaced.startSeek .host c.1 c.2 limit).settleMotion.acceptedWith (u32 c.1 ++ encFlag c.2)

def ownSeekPosition (target : Nat) (s : State) : Answer :=
  checked s (seekChecks s (decide (maxPosition < target))) fun s => s.hostSeek target s.tc.settings.seekSpeed

def execSeekPosition (tag : Byte) (target : Nat) (s : State) : Result :=
  whenRunning s fun s => s.takeCommand tag 0x02 (ownSeekPosition target)

def jogLimit (s : State) : JogSpeed → Nat
  | .creep => creepSpeed
  | .index => s.tc.settings.indexSpeed

def ownJog (d : Int) (sp : Option JogSpeed) (s : State) : Answer :=
  checked s (seekChecks s (decide (maxPosition < d.natAbs) || decide (d = 0) || sp.isNone)) fun s =>
    s.hostSeek (s.tc.position + d) (jogLimit s (sp.getD .creep))

def execJog (tag : Byte) (d : Int) (sp : Option JogSpeed) (s : State) : Result :=
  whenRunning s fun s => s.takeCommand tag 0x03 (ownJog d sp)

/-! ### STOP_TRANSPORT (R20) -/

/-- A seek in progress is stopped without a word to its requester (R20, R23): in the dwell, or with the film at rest
otherwise (no row of R20 or R23: DESIGN CHOICE, log 36), STOPPED at once; moving, by a controlled stop at its
acceleration. The seek is over at the command, so no motion is in progress during the stop (R20 "no seek or run in
progress", where R3 holds one in SEEKING: DESIGN CHOICE, log 36). -/
def State.stopSeek (s : State) (m : Seek) : State :=
  if s.tc.phase = .dwell ∨ s.atRest = true then (s.modTc Tc.noMotion).enter .stopped
  else s.modTc fun c => { c with motion := none, phase := .controlledStop, stopRate := m.accel }

/-- TC's reaction by its state. A stopped run, too, is no motion in progress during its stop (`State.endRun`, log 36). -/
def State.stopMotion (s : State) : State :=
  match s.tc.state, s.tc.motion with
  | .stopped, _ => s.abortProbe .stopped
  | .seeking, some (.seek m) => (s.stopSeek m).reportSeek m .stopped
  | .scanning, some (.run r) => (s.endRun r .stopped .controlledStop r.accel).settleMotion
  | _, _ => s

/-- In AUTO, TC reports the command to RS: a CAPTURE pass at rest ends STOPPED (R169). The list is released before the pass
ends, so PASS_DONE counts the drops (DESIGN CHOICE, log 36: R169 names no order). -/
def State.rsStopReport (s : State) : State :=
  match s.rs.pass with
  | some p =>
    if s.rs.mode = .auto ∧ p.kind = .capture ∧ p.phase = .seek ∧ p.seekDone = true then s.endList.passEnd .stopped else s
  | none => s

def ownStopTransport (s : State) : Answer :=
  checked s [(decide (s.tc.state = .threading) || decide (s.tc.state = .rewinding), .busy)] fun s =>
    s.stopMotion.rsStopReport.done

def execStopTransport (tag : Byte) (s : State) : Result :=
  whenRunning s fun s => s.takeCommand tag 0x04 ownStopTransport

/-! ### READ_TRANSPORT (R21) -/

def encMotion : Motion → List Byte
  | .seek m => u8 0 ++ u8 m.requester.ctorIdx
  | .run r => u8 1 ++ u8 r.requester.ctorIdx
  | .threading _ => u8 2 ++ u8 Requester.cu.ctorIdx
  | .rewind _ => u8 3 ++ u8 Requester.cu.ctorIdx

def seekOf : Option Motion → Option Seek
  | some (.seek m) => some m
  | _ => none

def runOf : Option Motion → Option Run
  | some (.run r) => some r
  | _ => none

def encMotionSettings (g : MotionSettings) : List Byte :=
  u16 g.seekSpeed ++ u16 g.indexSpeed ++ u16 g.scanSpeed ++ u16 g.acceleration ++ u16 g.settleDwell

/-- The direction, numbered as R1 lists its values (R192): FORWARD 0, REVERSE 1, NONE 2. -/
def encDirection : Direction → List Byte
  | .forward => u8 0
  | .reverse => u8 1
  | .none => u8 2

/-- READ_TRANSPORT's data (R21). The motion's kind and requester, a seek's fields and a run's fields are one group each, with one
presence byte (DESIGN CHOICE, log 10). -/
def transportData (s : State) : List Byte :=
  u8 s.tc.state.ctorIdx ++ u32 s.tc.position ++ u32 s.tc.underrun ++ u16 s.tc.speed ++ encDirection s.tc.direction
    ++ encFlag s.tc.threaded ++ encOpt 2 encMotion s.tc.motion
    ++ encOpt 6 (fun m => u32 m.target ++ u8 m.corrections ++ encFlag (decide (s.tc.phase = .dwell))) (seekOf s.tc.motion)
    ++ encOpt 8 (fun r => u8 r.purpose.ctorIdx ++ u16 r.speed ++ encOpt 4 u32 r.endPosition) (runOf s.tc.motion)
    ++ encOpt 4 u32 s.mountedEntry.rollLength ++ encOpt 4 u32 s.guardEnd ++ encFlag s.tu.capInForce
    ++ encMotionSettings s.tc.settings

def ownReadTransport (s : State) : Answer := s.doneWith (transportData s)

def execReadTransport (tag : Byte) (s : State) : Result :=
  whenRunning s fun s => s.takeCommand tag 0x05 ownReadTransport

/-! ### ENCODER_TICK (R1) -/

/-- A tick counted in the present 10 ms (R1). -/
def countTick (d : TickDirection) (c : Tc) : Tc :=
  match d with
  | .forward => { c with windowTicks := c.windowTicks + 1, windowForward := true }
  | .reverse => { c with windowTicks := c.windowTicks + 1, windowReverse := true }

/-- A tick counted into P or the leader underrun (R1). -/
def movePosition (d : TickDirection) (c : Tc) : Tc :=
  match d with
  | .forward =>
    if 0 < c.underrun then { c with underrun := c.underrun - 1 }
    else if c.position < maxPosition then { c with position := c.position + 1 }
    else c
  | .reverse =>
    if 0 < c.position then { c with position := c.position - 1 }
    else { c with underrun := saturate maxPosition c.underrun }

/-- Forward saturation (R1): a forward tick at the highest position. -/
def saturates (d : TickDirection) (c : Tc) : Bool :=
  decide (d = .forward) && decide (c.underrun = 0) && decide (maxPosition ≤ c.position)

/-- A tick: the counts, IX, FU, CP, then TC's own tests (R1, R5, R7, R8, R12, R14). FU and the reckoning of IX act at a
change of P (R114, R65). -/
def State.tick (s : State) (d : TickDirection) (pixels : List Byte) : State :=
  let a := s.modTc fun c => movePosition d (countTick d c)
  let moved := decide (a.tc.position ≠ s.tc.position)
  let b := a.onlyIf (saturates d s.tc) State.trailer
  let e := (b.indexTick moved (decide (d = .reverse) && decide (b.tc.position = 0))).onlyIf moved State.trackLens
  match d with
  | .forward => (e.captureLine pixels).motionTests.settleSince s
  | .reverse => e.motionTests.rewindAtZero.settleSince s

def execEncoderTick (d : TickDirection) (pixels : List Byte) (s : State) : Result :=
  whenRunning s fun s => s.tick d pixels

/-! ### SPEED_WINDOW (R1) -/

/-- The direction of a 10 ms from its ticks; with ticks both ways it is a free value (log 4). -/
def State.windowDirection (s : State) : Direction :=
  if s.tc.windowTicks = 0 then .none
  else if s.tc.windowForward && s.tc.windowReverse then
    (if Config.freeForward s.free then .forward else .reverse)
  else if s.tc.windowForward then .forward
  else .reverse

/-- The speed and direction of the 10 ms that ends (R1); NONE in the settle dwell (R7). -/
def State.newSpeed (s : State) : State :=
  let d := if s.tc.phase = .dwell then .none else s.windowDirection
  let t :=
    s.modTc fun c =>
      { c with
        speed := c.windowTicks, direction := d, windowTicks := 0, windowForward := false, windowReverse := false,
        idleWindows := if c.windowTicks = 0 then saturate 20 c.idleWindows else 0 }
  t.onlyIf (s.tc.windowForward && s.tc.windowReverse) State.spendFree

def execSpeedWindow (s : State) : Result :=
  whenRunning s fun s => s.newSpeed.slackFollow.speedForTracker.motionTests.settleMotion

/-! ### The other events of the film -/

/-- SETTLE_DWELL_EXPIRY (R7). -/
def execSettleDwellExpiry (s : State) : Result :=
  whenRunning s fun s =>
    match s.tc.motion with
    | some (.seek m) => if s.tc.phase = .dwell then s.endSeek m .arrived else s
    | _ => s

/-- ENCODER_TIMEOUT (R15). -/
def execEncoderTimeout (s : State) : Result :=
  whenRunning s fun s =>
    if s.encoderTimerOn then s.raise .encoderFault .major (.encoder s.tc.state s.tc.position) else s

/-- TRAILER_EVENT (R11): acted on while the film moves forward. -/
def execTrailerEvent (s : State) : Result :=
  whenRunning s fun s => if s.tc.direction = .forward then s.trailer.settleSince s else s

/-- GATE_LOSS (R14, R16). -/
def execGateLoss (s : State) : Result :=
  whenRunning s fun s =>
    let t := { s with gateFilm := false }
    if !t.tc.threaded then t
    else
      match t.tc.state with
      | .rewinding => t.endRewind
      | .stopped | .seeking | .scanning | .halted => t.raise .filmBreak .major (.breakGate t.tc.position)
      | .unloaded | .threading => t

/-- GATE_FILM_SEEN (R50): during threading CU notes it; completion is THREADING_COMPLETE's step. -/
def execGateFilmSeen (s : State) : Result :=
  whenRunning s fun s =>
    let t := { s with gateFilm := true }
    if t.tc.state = .threading ∧ t.cu.threader = .engaged then t.modCu fun c => { c with gateReported := true } else t

end Sys2Proof.Machine
end

