-- ==== Sys2Proof/Machine/Link.lean ====
section
/-! DEFINITION. Link.lean: start-up and the soft reset (R199, R201), the receiver and the hand-over of commands (R189 to
R191), the transmit arbiter (R196, R197), and the meanings of chapter 11's commands and events. -/

namespace Sys2Proof.Machine

/-! ### Start-up (R199, R56, R22, R212) -/

def State.postStart (s : State) (cause : ResetCause) : State :=
  s.post .start (.start cause s.tc.threaded s.occupied)

/-- The directory and the carousel as the sensors show them (R56). -/
def rebuiltCu (x : Sensors) : Cu :=
  { Cu.reset with
    station := x.station, atPosition := x.atPosition,
    entries :=
      (List.range 12).map fun n => if x.presence.getD n false then Entry.inserted else Entry.empty }

/-- Every block at its power-on state, with the sensors read and no notice posted. The HOLD pin, the commands waiting and
the counter for free values go on. -/
def State.powerUp (s : State) (x : Sensors) : State :=
  { State.reset with
    cu := rebuiltCu x, li := Li.reset, hold := s.hold, gateFilm := x.gateFilm, presence := x.presence,
    pending := s.pending, free := s.free }

/-- Film found in the gate (R56, R22, R212). -/
def State.strand (s : State) : State :=
  let n := s.cu.station
  let t :=
    (s.modEntry n fun _ => { Entry.inserted with state := .mounted }).modCu fun c => { c with lock := some n }
  (t.modTc fun c => { c with state := .halted, threaded := true }).raise .filmStranded .major
    (.stranded n s.cu.atPosition)

/-- The part starts up (R199). -/
def State.startUp (s : State) (cause : ResetCause) (x : Sensors) : State :=
  ((s.powerUp x).onlyIf x.gateFilm State.strand).postStart cause

/-- POWER_ON (R199). -/
def execPowerOn (x : Sensors) (s : State) : Result := .next (s.startUp .powerOn x)

/-- RESETN_RELEASE (R199): the release of a low RESETn. -/
def execResetnRelease (x : Sensors) (s : State) : Result :=
  .next (if s.resetHeld then s.startUp .pin x else s)

/-- RESETN_ASSERT (R199): power-on values, held there with nothing received until the release. The pins and the sensor
levels go on. -/
def execResetnAssert (s : State) : Result :=
  .next
    { State.reset with
      li := Li.reset, resetHeld := true, hold := s.hold, gateFilm := s.gateFilm, presence := s.presence,
      pending := s.pending, free := s.free }

/-- UPTIME_TICK (R199). -/
def execUptimeTick (s : State) : Result :=
  whenRunning s fun s => s.modLi fun l => { l with uptime := (l.uptime + 1) % 4294967296 }

/-! ### The soft reset (R201) -/

/-- TC at a soft reset (R23). The reset stop, "a motion with no requester", is held as a stop without a motion in
progress, as R20 has it, so READ_TRANSPORT reports none (DESIGN CHOICE, log 36). -/
def State.resetTransport (s : State) : State :=
  match s.tc.state, s.tc.motion with
  | .seeking, some (.seek m) => s.stopSeek m
  | .scanning, some (.run r) =>
    (s.modTc fun c =>
      { c with motion := none, endedRun := none, phase := .controlledStop, stopRate := r.accel }).settleMotion
  | .scanning, _ => s.modTc fun c => { c with endedRun := none }
  | _, _ => s

/-- IX at a soft reset (R83): a pass ends ABORTED with its directory entry written, the tracker is NONE. -/
def State.resetIndex (s : State) : State :=
  let t :=
    (s.withSome s.ix.pass fun u p => (u.settleIndex p (.aborted .stopped)).1).modIx fun x => { x with pass := none }
  t.modTracker fun k => { k.toNone with leaderArmed := k.leaderArmed || decide (s.tc.position = 0) }

/-- FU at a soft reset (R120). -/
def State.resetFocus (s : State) : State :=
  s.modFu fun f => { f with target := f.lens, probe := none, tracking := false, lagReported := false }

/-- CP at a soft reset (R139). -/
def State.resetCapture (s : State) : State :=
  s.modCp fun c => { c.lampOut with slots := List.replicate 16 none, ready := [], jobs := none }

/-- RS at a soft reset (R175). -/
def State.resetScheduler (s : State) : State :=
  s.modRs fun r =>
    { r with
      mode := .manual, queue := [], items := [], pass := none, captureCount := 0, countedSlot := none,
      planningDue := false }

/-- A channel at a soft reset (R187). Its Offered field is NONE at once, also while a block begun before is still being sent
(DESIGN CHOICE, log 36: that block is no longer a delivery's). -/
def Channel.softReset (c : Channel) : Channel := { c with sending := none, waiting := none, inTransmission := false }

/-- DC at a soft reset (R187): a message in transmission goes on, no longer a delivery's. -/
def State.resetDelivery (s : State) : State :=
  s.modDc fun d => { d with a := d.a.softReset, b := d.b.softReset, snapshot := none }

/-- The source of a block in transmission after a soft reset. -/
def TxSource.orphaned : TxSource → TxSource
  | .block _ => .orphan
  | x => x

/-- LI at a soft reset, before START (R201). -/
def State.resetLink (s : State) : State :=
  s.modLi fun l =>
    { l with rx := [], notices := [], tx := l.tx.map fun m => { m with source := m.source.orphaned } }

/-- FM at a soft reset (R212). -/
def State.resetFaults (s : State) : State := s.modFm fun m => { m with active := m.active.filter isMajor }

/-- The soft reset reaches every block (R201). TU, CU and CT keep their state (R39, R58, R154). -/
def State.softReset (s : State) : State :=
  (s.resetScheduler.resetIndex.resetFocus.resetCapture.resetDelivery.resetTransport.resetFaults.resetLink).postStart
    .command

def ownReset (s : State) : Answer := s.softReset.done

def execReset (tag : Byte) (s : State) : Result := whenRunning s fun s => s.takeCommand tag 0x4B ownReset

/-! ### SET_NOTICE_LEVELS (R195) -/

/-- The levels replaced; a source set to OFF loses its pending notice. -/
def setLevels (ls : List NoticeLevel) (l : Li) : Li :=
  { l with
    levels := ls, notices := l.notices.filter fun n => decide (ls.getD n.source.ctorIdx .off ≠ .off) }

def ownSetNoticeLevels (ls : List (Option NoticeLevel)) (s : State) : Answer :=
  checked s [(ls.any Option.isNone || decide (ls.length ≠ 16), .range)] fun s =>
    (s.modLi (setLevels (ls.map fun x => x.getD .off))).done

def execSetNoticeLevels (tag : Byte) (ls : List (Option NoticeLevel)) (s : State) : Result :=
  whenRunning s fun s => s.takeCommand tag 0x48 (ownSetNoticeLevels ls)

/-! ### READ_LINK (R198), IDENTIFY (R200) -/

def encPending (n : Notice) : List Byte := u8 n.source.ctorIdx ++ u8 n.count ++ u32 n.uptime

/-- The fields of R198. READ_LINK's own place is among the places in use, while its own reply, not yet built, is not among
the replies waiting, and the pending notices stand in ascending source number (DESIGN CHOICE, log 36, both). -/
def linkData (s : State) : List Byte :=
  u16 s.li.crcErrors ++ u16 s.li.framingErrors ++ u16 s.li.overruns ++ u8 s.li.places ++ u8 s.li.replies.length
    ++ s.li.levels.flatMap (fun x => u8 x.ctorIdx) ++ encList encPending s.li.notices ++ encFlag s.hold
    ++ u8 s.li.lastChannel.ctorIdx

def clearLinkCounts (l : Li) : Li := { l with crcErrors := 0, framingErrors := 0, overruns := 0 }

def ownReadLink (clear : Option Bool) (s : State) : Answer :=
  checked s [(clear.isNone, .range)] fun s =>
    (s.onlyIf (clear.getD false) fun t => t.modLi clearLinkCounts).doneWith (linkData s)

def execReadLink (tag : Byte) (clear : Option Bool) (s : State) : Result :=
  whenRunning s fun s => s.takeCommand tag 0x49 (ownReadLink clear)

/-- NEKFORA RT-612, in ASCII (R200). -/
def partName : Label := [0x4E, 0x45, 0x4B, 0x46, 0x4F, 0x52, 0x41, 0x20, 0x52, 0x54, 0x2D, 0x36, 0x31, 0x32]

def identity : List Byte :=
  wireLabel partName ++ u8 Config.revision.toNat ++ u32 Config.buildId.toNat ++ u8 12 ++ u8 32 ++ u8 4 ++ u8 16
    ++ u32 slotBytes ++ u8 64 ++ u8 32 ++ u16 256 ++ u8 32 ++ u8 10 ++ u8 4 ++ u16 4200

def ownIdentify (s : State) : Answer := s.doneWith identity

def execIdentify (tag : Byte) (s : State) : Result := whenRunning s fun s => s.takeCommand tag 0x4A ownIdentify

/-! ### The hand-over of commands (R190, R191) -/

/-- The owner's action for a host command; a row that no frame carries has none. -/
def ownerOf : Instr → State → Answer
  | .setMotion _ a => ownSetMotion a
  | .seekPosition _ p => ownSeekPosition p
  | .jog _ d sp => ownJog d sp
  | .stopTransport _ => ownStopTransport
  | .readTransport _ => ownReadTransport
  | .zeroTension _ => ownZeroTension
  | .setTension _ a => ownSetTension a
  | .readTension _ => ownReadTension
  | .assignRoll _ a => ownAssignRoll a
  | .forgetIndex _ n => ownForgetIndex n
  | .readDirectory _ => ownReadDirectory
  | .mountRoll _ n => ownMountRoll n
  | .unmountRoll _ => ownUnmountRoll
  | .setMarkClasses _ a b c => ownSetMarkClasses a b c
  | .indexRoll _ c t => ownIndexRoll c t
  | .readIndex _ => ownReadIndex
  | .setPitchLearning _ k => ownSetPitchLearning k
  | .locateFrame _ f => ownLocateFrame f
  | .frameAt _ p => ownFrameAt p
  | .focusProbe _ c h st => ownFocusProbe c h st
  | .setFocus _ a => ownSetFocus a
  | .clearFocusMap _ => ownClearFocusMap
  | .readFocusMap _ => ownReadFocusMap
  | .setCapture _ a => ownSetCapture a
  | .readFrameStore _ => ownReadFrameStore
  | .loadWindow _ a => ownLoadWindow a
  | .dropWindow _ n => ownDropWindow n
  | .listWindows _ c => ownListWindows c
  | .submitRequest _ i o p => ownSubmitRequest i o p
  | .cancelRequest _ n => ownCancelRequest n
  | .queryQueue _ => ownQueryQueue
  | .setMode _ m => ownSetMode m
  | .setPlanning _ d o => ownSetPlanning d o
  | .configureChannel _ c m n => ownConfigureChannel c m n
  | .readChannels _ => ownReadChannels
  | .setNoticeLevels _ ls => ownSetNoticeLevels ls
  | .readLink _ c => ownReadLink c
  | .identify _ => ownIdentify
  | .reset _ => ownReset
  | .clearFaults _ sc => ownClearFaults sc
  | .raiseFault _ c n => ownRaiseFault c n
  | .readFaults _ => ownReadFaults
  | .setLogMode _ m => ownSetLogMode m
  | .readFaultLog _ => ownReadFaultLog
  | .clearLog _ => ownClearLog
  | _ => fun s => s.refuse .unknown

/-- Who answers a good frame: the owner of its command, or LI itself (R190). -/
def frameOwner (kind tag : Byte) (body : List Byte) : State → Answer :=
  match decodeFrame kind tag body with
  | .unknown => fun s => s.refuse .unknown
  | .badLength => fun s => s.refuse .badLength
  | .command i => ownerOf i

/-- A good frame (R190). -/
def State.goodFrame (s : State) (kind tag : Byte) (body : List Byte) : State :=
  s.takeCommand tag kind (frameOwner kind tag body)

/-! ### The receiver (R189) -/

/-- The longest body (R188). -/
def bodyLimit : Nat := 4200

def State.hunt (s : State) : State := s.modLi fun l => { l with rx := [] }

/-- A collected frame, SYNC to CRC: good when its CRC matches (R188, R189). -/
def State.wholeFrame (s : State) (f : List Byte) : State :=
  let n := field f 3 2
  let body := (f.drop 5).take n
  if f = frameBytes (f.getD 1 0) (f.getD 2 0) body then s.hunt.goodFrame (f.getD 1 0) (f.getD 2 0) body
  else s.hunt.linkError .crc

/-- A byte of the frame being collected. -/
def State.collect (s : State) (f : List Byte) : State :=
  if f.length < 5 then s.modLi fun l => { l with rx := f }
  else if bodyLimit < field f 3 2 then s.hunt.linkError .framing
  else if f.length < field f 3 2 + 7 then s.modLi fun l => { l with rx := f }
  else s.wholeFrame f

/-- A byte on the receive pair. -/
def State.rxByte (s : State) (b : Byte) : State :=
  if s.li.rx.isEmpty then (if b = 0xC3 then s.modLi fun l => { l with rx := [b] } else s)
  else s.collect (s.li.rx ++ [b])

/-- LINK_FRAME_RECEIVED (R189). -/
def execLinkFrameReceived (bytes : List Byte) (s : State) : Result := whenRunning s fun s => s.each bytes State.rxByte

/-- FRAME_BYTE_TIMEOUT (R189): 1 ms between two bytes of a frame. -/
def execFrameByteTimeout (s : State) : Result :=
  whenRunning s fun s => if s.li.rx.isEmpty then s else s.hunt.linkError .framing

/-! ### The transmit arbiter (R194, R196, R197) -/

/-- The body of a REPLY (R191). -/
def replyBody (r : Reply) : List Byte := r.kind :: (u8 r.status.ctorIdx ++ r.data)

/-- The body of a NOTICE (R194). -/
def noticeBody (level : NoticeLevel) (n : Notice) : List Byte :=
  u8 n.source.ctorIdx ++ u8 level.ctorIdx ++ u8 n.count ++ u32 n.uptime ++ encNoticeDetail n.detail

/-- The first pending notice of a level, in source order. -/
def State.noticeAt (s : State) (level : NoticeLevel) : Option Notice :=
  s.li.notices.find? fun n => decide (s.level n.source = level)

/-- The notice the arbiter begins: HIGH before MID before LOW. -/
def State.nextNotice (s : State) : Option Notice :=
  (s.noticeAt .high).orElse fun _ => (s.noticeAt .mid).orElse fun _ => s.noticeAt .low

/-- The channel whose block the arbiter begins: of two waiting, the one not begun last. -/
def State.nextBlock (s : State) : Option (ChannelId × List Byte) :=
  match s.dc.a.waiting, s.dc.b.waiting with
  | some x, some y =>
    match s.li.lastChannel with
    | .a => some (.b, y)
    | .b => some (.a, x)
  | some x, none => some (.a, x)
  | none, some y => some (.b, y)
  | none, none => none

/-- A message's frame is formed and its transmission begins (R188, R196). -/
def State.transmit (s : State) (source : TxSource) (kind tag : Byte) (body : List Byte) : State :=
  s.modLi fun l => { l with tx := some { source := source, frame := frameBytes kind tag body } }

def State.beginReply (s : State) (r : Reply) : State :=
  (s.modLi fun l => { l with replies := l.replies.tail }).transmit .reply 0x80 r.tag (replyBody r)

/-- A notice leaves the set as it is begun (R194). -/
def State.beginNotice (s : State) (n : Notice) : State :=
  (s.modLi fun l => { l with notices := l.notices.filter fun x => decide (x.source ≠ n.source) }).transmit
    .notice 0x81 0 (noticeBody (s.level n.source) n)

def State.beginSnapshot (s : State) (body : List Byte) : State :=
  (s.modDc fun d => { d with snapshot := none }).transmit .telemetry 0x83 0 body

def State.beginBlock (s : State) (id : ChannelId) (body : List Byte) : State :=
  ((s.modChannel id fun c => { c with waiting := none, inTransmission := true }).modLi fun l =>
    { l with lastChannel := id }).transmit (.block id) 0x82 0 body

/-- Between messages, with HOLD released, the first waiting message is begun (R196). -/
def State.arbitrate (s : State) : State :=
  if s.hold || s.li.tx.isSome then s
  else
    match s.li.replies with
    | r :: _ => s.beginReply r
    | [] =>
      match s.nextNotice with
      | some n => s.beginNotice n
      | none =>
        match s.dc.snapshot with
        | some b => s.beginSnapshot b
        | none =>
          match s.nextBlock with
          | some (id, b) => s.beginBlock id b
          | none => s

/-- MESSAGE_BEGIN (R196). -/
def execMessageBegin (s : State) : Result := whenRunning s State.arbitrate

/-- The source is told that its message has been sent (R196). -/
def State.sentReport (s : State) : TxSource → State
  | .reply => s.modLi fun l => { l with places := l.places - 1 }
  | .block id => s.blockSent id
  | .notice | .telemetry | .orphan => s

/-- MESSAGE_SENT (R196). -/
def execMessageSent (s : State) : Result :=
  whenRunning s fun s => s.withSome s.li.tx fun t m => (t.modLi fun l => { l with tx := none }).sentReport m.source

/-- HOLD_ASSERT (R197). The pin is the host's, whatever the part does. -/
def execHoldAssert (s : State) : Result := .next { s with hold := true }

/-- HOLD_RELEASE (R197): the first waiting message is begun at once. -/
def execHoldRelease (s : State) : Result := whenRunning { s with hold := false } State.arbitrate

end Sys2Proof.Machine
end

