-- ==== Sys2Proof/Machine/Dispatch.lean ====
section
/-! DEFINITION. Dispatch.lean: one arm per row of the table, each a direct call of its meaning. -/

namespace Sys2Proof.Machine

/-- The effect of a command on everything but the queue. -/
def exec (i : Instr) (s : State) : Host.Outcome State Fault Refusal :=
  match i with
  | .powerOn sensors => Sys2Proof.Machine.execPowerOn sensors s
  | .resetnRelease sensors => Sys2Proof.Machine.execResetnRelease sensors s
  | .uptimeTick => Sys2Proof.Machine.execUptimeTick s
  | .linkFrameReceived bytes => Sys2Proof.Machine.execLinkFrameReceived bytes s
  | .frameByteTimeout => Sys2Proof.Machine.execFrameByteTimeout s
  | .messageBegin => Sys2Proof.Machine.execMessageBegin s
  | .messageSent => Sys2Proof.Machine.execMessageSent s
  | .holdAssert => Sys2Proof.Machine.execHoldAssert s
  | .holdRelease => Sys2Proof.Machine.execHoldRelease s
  | .setMotion tag args => Sys2Proof.Machine.execSetMotion tag args s
  | .seekPosition tag target => Sys2Proof.Machine.execSeekPosition tag target s
  | .jog tag distance speed => Sys2Proof.Machine.execJog tag distance speed s
  | .stopTransport tag => Sys2Proof.Machine.execStopTransport tag s
  | .readTransport tag => Sys2Proof.Machine.execReadTransport tag s
  | .encoderTick direction pixels => Sys2Proof.Machine.execEncoderTick direction pixels s
  | .speedWindow => Sys2Proof.Machine.execSpeedWindow s
  | .settleDwellExpiry => Sys2Proof.Machine.execSettleDwellExpiry s
  | .encoderTimeout => Sys2Proof.Machine.execEncoderTimeout s
  | .trailerEvent => Sys2Proof.Machine.execTrailerEvent s
  | .gateLoss => Sys2Proof.Machine.execGateLoss s
  | .gateFilmSeen => Sys2Proof.Machine.execGateFilmSeen s
  | .zeroTension tag => Sys2Proof.Machine.execZeroTension tag s
  | .setTension tag args => Sys2Proof.Machine.execSetTension tag args s
  | .readTension tag => Sys2Proof.Machine.execReadTension tag s
  | .tensionSample code => Sys2Proof.Machine.execTensionSample code s
  | .calibrationComplete => Sys2Proof.Machine.execCalibrationComplete s
  | .setpointRampStep => Sys2Proof.Machine.execSetpointRampStep s
  | .onTargetSet => Sys2Proof.Machine.execOnTargetSet s
  | .overTensionDetection => Sys2Proof.Machine.execOverTensionDetection s
  | .speedCapLift => Sys2Proof.Machine.execSpeedCapLift s
  | .slackEpisodeBegin => Sys2Proof.Machine.execSlackEpisodeBegin s
  | .slackEpisodeEnd => Sys2Proof.Machine.execSlackEpisodeEnd s
  | .filmBreakDetection => Sys2Proof.Machine.execFilmBreakDetection s
  | .assignRoll tag args => Sys2Proof.Machine.execAssignRoll tag args s
  | .forgetIndex tag slot => Sys2Proof.Machine.execForgetIndex tag slot s
  | .readDirectory tag => Sys2Proof.Machine.execReadDirectory tag s
  | .mountRoll tag slot => Sys2Proof.Machine.execMountRoll tag slot s
  | .unmountRoll tag => Sys2Proof.Machine.execUnmountRoll tag s
  | .carouselPositionChange station atPosition => Sys2Proof.Machine.execCarouselPositionChange station atPosition s
  | .threadingComplete => Sys2Proof.Machine.execThreadingComplete s
  | .rotationTimeout => Sys2Proof.Machine.execRotationTimeout s
  | .threadingTimeout => Sys2Proof.Machine.execThreadingTimeout s
  | .retractionTimeout => Sys2Proof.Machine.execRetractionTimeout s
  | .leaderRetracted => Sys2Proof.Machine.execLeaderRetracted s
  | .slotPresenceChange slot present => Sys2Proof.Machine.execSlotPresenceChange slot present s
  | .presenceStable slot => Sys2Proof.Machine.execPresenceStable slot s
  | .setMarkClasses tag shortMax mediumMax longMax => Sys2Proof.Machine.execSetMarkClasses tag shortMax mediumMax longMax s
  | .indexRoll tag choice target => Sys2Proof.Machine.execIndexRoll tag choice target s
  | .readIndex tag => Sys2Proof.Machine.execReadIndex tag s
  | .edgeMark edge position => Sys2Proof.Machine.execEdgeMark edge position s
  | .spliceEvent position => Sys2Proof.Machine.execSpliceEvent position s
  | .setPitchLearning tag shift => Sys2Proof.Machine.execSetPitchLearning tag shift s
  | .locateFrame tag frame => Sys2Proof.Machine.execLocateFrame tag frame s
  | .frameAt tag position => Sys2Proof.Machine.execFrameAt tag position s
  | .focusProbe tag centre halfSpan step => Sys2Proof.Machine.execFocusProbe tag centre halfSpan step s
  | .setFocus tag args => Sys2Proof.Machine.execSetFocus tag args s
  | .clearFocusMap tag => Sys2Proof.Machine.execClearFocusMap tag s
  | .readFocusMap tag => Sys2Proof.Machine.execReadFocusMap tag s
  | .lensStep => Sys2Proof.Machine.execLensStep s
  | .probeBandRead lines => Sys2Proof.Machine.execProbeBandRead lines s
  | .setCapture tag args => Sys2Proof.Machine.execSetCapture tag args s
  | .readFrameStore tag => Sys2Proof.Machine.execReadFrameStore tag s
  | .lampWarmupExpiry => Sys2Proof.Machine.execLampWarmupExpiry s
  | .loadWindow tag args => Sys2Proof.Machine.execLoadWindow tag args s
  | .dropWindow tag id => Sys2Proof.Machine.execDropWindow tag id s
  | .listWindows tag clear => Sys2Proof.Machine.execListWindows tag clear s
  | .submitRequest tag image origin priority => Sys2Proof.Machine.execSubmitRequest tag image origin priority s
  | .cancelRequest tag id => Sys2Proof.Machine.execCancelRequest tag id s
  | .queryQueue tag => Sys2Proof.Machine.execQueryQueue tag s
  | .setMode tag mode => Sys2Proof.Machine.execSetMode tag mode s
  | .setPlanning tag joinDistance onDemand => Sys2Proof.Machine.execSetPlanning tag joinDistance onDemand s
  | .planningRound => Sys2Proof.Machine.execPlanningRound s
  | .captureRunOrder pixels => Sys2Proof.Machine.execCaptureRunOrder pixels s
  | .configureChannel tag channel mode interval => Sys2Proof.Machine.execConfigureChannel tag channel mode interval s
  | .readChannels tag => Sys2Proof.Machine.execReadChannels tag s
  | .channelTakeSlot => Sys2Proof.Machine.execChannelTakeSlot s
  | .telemetryIntervalExpiry => Sys2Proof.Machine.execTelemetryIntervalExpiry s
  | .setNoticeLevels tag levels => Sys2Proof.Machine.execSetNoticeLevels tag levels s
  | .readLink tag clear => Sys2Proof.Machine.execReadLink tag clear s
  | .identify tag => Sys2Proof.Machine.execIdentify tag s
  | .reset tag => Sys2Proof.Machine.execReset tag s
  | .clearFaults tag scope => Sys2Proof.Machine.execClearFaults tag scope s
  | .raiseFault tag cls code => Sys2Proof.Machine.execRaiseFault tag cls code s
  | .readFaults tag => Sys2Proof.Machine.execReadFaults tag s
  | .setLogMode tag mode => Sys2Proof.Machine.execSetLogMode tag mode s
  | .readFaultLog tag => Sys2Proof.Machine.execReadFaultLog tag s
  | .clearLog tag => Sys2Proof.Machine.execClearLog tag s
  | .resetnAssert => Sys2Proof.Machine.execResetnAssert s

end Sys2Proof.Machine
end

