-- ==== Sys2Proof/Safety.lean ====
section
/-! DEFINITION. Safety.lean: the laws that the spec lays down for the part's tables, as invariants of the blocks that hold
them. -/

namespace Sys2Proof.Machine

/-- A list strictly ascending by a measure. -/
def Ascending {α : Type} (measure : α → Nat) (l : List α) : Prop := l.Pairwise fun a b => measure a < measure b

/-- TC: the ranges of P and the leader underrun, which is above 0 only at P = 0 (R1). -/
structure Tc.wf (c : Tc) : Prop where
  position : c.position ≤ maxPosition
  underrun : c.underrun ≤ maxPosition
  atZero : c.underrun = 0 ∨ c.position = 0

/-- CU: twelve entries, and no two of them hold one label (section 3.2). -/
structure Cu.wf (c : Cu) : Prop where
  twelve : c.entries.length = 12
  labels :
    ∀ i j, i < 12 → j < 12 → i ≠ j →
      (c.entries.getD i Entry.empty).label = (c.entries.getD j Entry.empty).label →
        (c.entries.getD i Entry.empty).label = []

/-- The law of the map: at most 32 entries with strictly ascending positions (R111). -/
structure MapLaw (m : List MapEntry) : Prop where
  room : m.length ≤ 32
  ascending : Ascending MapEntry.position m

/-- At most 32 segments (R72), at most 256 landmarks, strictly ascending by frame (R73). -/
structure IndexLaw (segs : List Segment) (marks : List Landmark) : Prop where
  segments : segs.length ≤ 32
  landmarks : marks.length ≤ 256
  ascending : Ascending Landmark.frame marks

/-- The live tables and the saved ones keep their laws. -/
structure State.tablesWf (s : State) : Prop where
  liveIndex : IndexLaw s.ix.segments s.ix.landmarks
  liveMap : MapLaw s.fu.map
  savedIndex : ∀ e ∈ s.cu.entries, IndexLaw e.segments e.landmarks
  savedMap : ∀ e ∈ s.cu.entries, MapLaw e.focusMap

/-- The law of the slots, no request in two of them (R126), and the law of the Ready List: each READY slot stands in it
exactly once, and no other slot does (R127). -/
structure StoreLaw (slots : List (Option StoreSlot)) (ready : List Nat) : Prop where
  ids :
    ∀ (i j : Nat) (a b : StoreSlot), slots[i]? = some (some a) → slots[j]? = some (some b) → a.reqId = b.reqId → i = j
  once : ready.Nodup
  listed : ∀ n : Nat, n ∈ ready ↔ ∃ a : StoreSlot, slots[n]? = some (some a) ∧ a.state = .ready

/-- CP: sixteen slots under their laws, and the lamp is OFF exactly while it has no holder (R124, R126, R127). -/
structure Cp.wf (c : Cp) : Prop where
  sixteen : c.slots.length = 16
  lamp : c.lamp = .off ↔ (c.probeHolds = false ∧ c.listHolds = false)
  store : StoreLaw c.slots c.ready

/-- CT, the law of the window table: at most 64 windows, ascending by base, no two overlapping (R140). -/
structure Ct.wf (c : Ct) : Prop where
  room : c.windows.length ≤ 64
  ids : (c.windows.map Window.id).Nodup
  small : ∀ w ∈ c.windows, w.id ≤ 63
  ranges : ∀ w ∈ c.windows, w.base ≤ w.limit
  apart : c.windows.Pairwise fun a b => a.limit < b.base

/-- RS, the law of the queue and the list (R157), and the range of ids (R155). -/
structure Rs.wf (r : Rs) : Prop where
  room : r.queue.length ≤ 32
  ids : (r.queue.map Request.id).Nodup
  range : ∀ q ∈ r.queue, 1 ≤ q.id ∧ q.id ≤ 255
  indexItems : (r.items.filter isIndexItem).length ≤ 1
  probeItems : (r.items.filter fun i => !isIndexItem i).length ≤ 3

/-- The entry's capture is planned, under way, done or being delivered: it has a frame-store slot (R155). -/
def Request.inStore (q : Request) : Prop :=
  q.state = .planned ∨ q.state = .capturing ∨ q.state = .captured ∨ q.state = .delivering

/-- An entry of the queue holds the request id that slot i carries, with i as its frame-store slot; it is DELIVERING exactly
while the slot is SENDING (R126, R155, R173). -/
def namedBy (queue : List Request) (i : Nat) (c : StoreSlot) : Prop :=
  ∃ q ∈ queue, q.id = c.reqId ∧ q.storeSlot = some i ∧ q.inStore ∧ (c.state = .sending ↔ q.state = .delivering)

/-- The slot of an order carries its request id, RESERVED or FILLING. -/
def reservedIn (slots : List (Option StoreSlot)) (o : JobOrder) : Prop :=
  ∃ c : StoreSlot, slots[o.slot]? = some (some c) ∧ c.reqId = o.reqId ∧ (c.state = .reserved ∨ c.state = .filling)

/-- The slot of a delivery is SENDING under its request id. -/
def sentFrom (slots : List (Option StoreSlot)) (d : Sending) : Prop :=
  ∃ c : StoreSlot, slots[d.slot]? = some (some c) ∧ c.reqId = d.reqId ∧ c.state = .sending

/-- The law of slots, its half that joins CP to RS: every slot that is not FREE names a request id held by an entry of the
Host Request Queue (R126). With it what keeps it: each incomplete job has its slot (R129), each delivery its own
(R177). -/
structure SlotLaw (slots : List (Option StoreSlot)) (queue : List Request) (jobs : List Job) (sent : List Sending) :
    Prop where
  named : ∀ (i : Nat) (c : StoreSlot), slots[i]? = some (some c) → namedBy queue i c
  active : ∀ j ∈ jobs, j.active = true → reservedIn slots j.order
  sending : ∀ d ∈ sent, sentFrom slots d
  apart : (sent.map Sending.slot).Nodup

/-- The deliveries in progress, channel A's first. -/
def Dc.sent (d : Dc) : List Sending := d.a.sending.toList ++ d.b.sending.toList

/-- CP, RS and DC agree on the frame-store slots (R126). -/
def State.slotsWf (s : State) : Prop := SlotLaw s.cp.slots s.rs.queue s.jobList s.dc.sent

/-- A channel: in TELEMETRY mode it sends no image; a block is offered only while an image is in hand, and one at a time
(R176). -/
structure Channel.wf (c : Channel) : Prop where
  telemetry : c.mode = .telemetry → c.sending = none
  offered : c.sending = none → c.waiting = none ∧ c.inTransmission = false
  single : c.waiting.isSome → c.inTransmission = false

/-- DC: both channels, channel A always IMAGE, a snapshot waiting only while B is STREAMING, the interval in its range
(R176, R182). -/
structure Dc.wf (d : Dc) : Prop where
  a : d.a.wf
  b : d.b.wf
  image : d.a.mode = .image
  snapshot : d.snapshot.isSome → d.b.mode = .telemetry
  interval : 10 ≤ d.interval ∧ d.interval ≤ 1000

/-- The message in transmission is a reply. -/
def Li.sendingReply (l : Li) : Nat :=
  match l.tx with
  | some m => (decide (m.source = .reply)).toNat
  | none => 0

/-- LI, the command buffer: each place is held by a reply not yet sent, at most four (R190, R191). -/
structure Li.bufferWf (l : Li) : Prop where
  places : l.places = l.replies.length + l.sendingReply
  four : l.places ≤ 4

/-- LI, the pending set: at most one notice per source, in source order, each counted from 1 to 255 and of a source that
is not OFF (R193, R195). -/
structure Li.noticesWf (l : Li) : Prop where
  sources : Ascending (fun n : Notice => n.source.ctorIdx) l.notices
  counts : ∀ n ∈ l.notices, 1 ≤ n.count ∧ n.count ≤ 255
  levels : l.levels.length = 16
  notOff : ∀ n ∈ l.notices, l.levels.getD n.source.ctorIdx .off ≠ .off

/-- The classes a code may carry (R203). -/
def classLegal (code : FaultCode) (cls : FaultClass) : Prop :=
  match code with
  | .overTension => True
  | .filmBreak | .encoderFault | .carouselJam | .filmStranded | .operatorMajor => cls = .major
  | _ => cls = .minor

/-- FM: one entry per code, in code order, each with a class its code may carry and its count in range (R203, R204), and
the law of the log (R209). -/
structure Fm.wf (m : Fm) : Prop where
  codes : Ascending (fun e : FaultEntry => e.code.ctorIdx) m.active
  classes : ∀ e ∈ m.active, classLegal e.code e.cls
  counts : ∀ e ∈ m.active, 1 ≤ e.count ∧ e.count ≤ countMax
  log : m.log.length ≤ 10

end Sys2Proof.Machine
end

