-- ==== Sys2Proof/WellFormed.lean ====
section
/-! DEFINITION. WellFormed.lean: the operands a command can carry: a host command's fields within their wire widths
(R192), a sensor's report within the sensor's range. A command outside these bounds cannot reach the part; a value inside
them and outside a rule's range is the owner's to refuse. -/

namespace Sys2Proof

/-- A number of w bytes (R192). -/
def fits (w n : Nat) : Bool := n < 256 ^ w

/-- Film position: 0 to 16,777,215 ticks (R1). -/
def isPosition (n : Nat) : Bool := n ≤ 16777215

/-- A label as the link carries it: its length byte bounds it (R192). -/
def isWireLabel (l : Label) : Bool := l.length < 256

/-- One line of the line sensor: up to 8192 pixels (00_scope, Connections). -/
def isLine (px : List Byte) : Bool := px.length ≤ 8192

def Sensors.wf (x : Sensors) : Bool := x.presence.length == 12 && x.station < 12

def OptArg.wf (w : Nat) : OptArg → Bool
  | .present n => fits w n
  | _ => true

/-- The operands lie within what the link and the sensors can deliver. -/
def Instr.wf : Instr → Bool
  | .powerOn x => x.wf
  | .resetnRelease x => x.wf
  | .setMotion _ a =>
    fits 2 a.seekSpeed && fits 2 a.indexSpeed && fits 2 a.scanSpeed && fits 2 a.acceleration && fits 2 a.settleDwell
  | .seekPosition _ p => fits 4 p
  | .jog _ d _ => -2147483648 ≤ d && d ≤ 2147483647
  | .encoderTick _ px => isLine px
  | .setTension _ a =>
    fits 1 a.gain && fits 2 a.scale && fits 2 a.target && fits 2 a.limit && fits 1 a.slackLevel && fits 1 a.filterCount
  | .tensionSample c => c ≤ 4095
  | .assignRoll _ a => fits 1 a.slot && isWireLabel a.label && fits 4 a.q0 && fits 2 a.lampLevel
  | .forgetIndex _ n => fits 1 n
  | .mountRoll _ n => fits 1 n
  | .carouselPositionChange n _ => n < 12
  | .slotPresenceChange n _ => n < 12
  | .presenceStable n => n < 12
  | .setMarkClasses _ a b c => fits 2 a && fits 2 b && fits 2 c
  | .indexRoll _ _ t => t.wf 2
  | .edgeMark _ p => isPosition p
  | .spliceEvent p => isPosition p
  | .setPitchLearning _ k => fits 1 k
  | .locateFrame _ f => fits 2 f
  | .frameAt _ p => fits 4 p
  | .focusProbe _ c h st => c.wf 2 && h.wf 2 && st.wf 2
  | .setFocus _ a =>
    fits 2 a.lensMin && fits 2 a.lensMax && fits 2 a.nominal && fits 4 a.mergeDistance && fits 1 a.staleRatio
      && fits 2 a.halfSpan && fits 2 a.step
  | .probeBandRead ls => ls.length == 8 && ls.all isLine
  | .setCapture _ a =>
    fits 1 a.linePitch && fits 2 a.margin && fits 2 a.lineRate && fits 2 a.first16 && fits 2 a.count16
      && fits 2 a.first35 && fits 2 a.count35
  | .loadWindow _ a =>
    fits 1 a.id && fits 4 a.base && fits 4 a.limit && isWireLabel a.label && fits 2 a.firstFrame && fits 1 a.stride
      && fits 2 a.originMask
  | .dropWindow _ n => fits 1 n
  | .submitRequest _ i o _ => fits 4 i && fits 1 o
  | .cancelRequest _ n => fits 1 n
  | .setPlanning _ d _ => fits 4 d
  | .captureRunOrder px => isLine px
  | .configureChannel _ _ _ n => fits 2 n
  | .setNoticeLevels _ ls => ls.length == 16
  | .raiseFault _ _ n => fits 1 n
  | .uptimeTick | .linkFrameReceived _ | .frameByteTimeout | .messageBegin | .messageSent | .holdAssert | .holdRelease
  | .stopTransport _ | .readTransport _ | .speedWindow | .settleDwellExpiry | .encoderTimeout | .trailerEvent
  | .gateLoss | .gateFilmSeen | .zeroTension _ | .readTension _ | .calibrationComplete | .setpointRampStep
  | .onTargetSet | .overTensionDetection | .speedCapLift | .slackEpisodeBegin | .slackEpisodeEnd
  | .filmBreakDetection | .readDirectory _ | .unmountRoll _ | .threadingComplete | .rotationTimeout
  | .threadingTimeout | .retractionTimeout | .leaderRetracted | .readIndex _ | .clearFocusMap _ | .readFocusMap _
  | .lensStep | .readFrameStore _ | .lampWarmupExpiry | .listWindows _ _ | .queryQueue _ | .setMode _ _
  | .planningRound | .readChannels _ | .channelTakeSlot | .telemetryIntervalExpiry | .readLink _ _ | .identify _
  | .reset _ | .clearFaults _ _ | .readFaults _ | .setLogMode _ _ | .readFaultLog _ | .clearLog _
  | .resetnAssert => true

end Sys2Proof
end

