-- ==== Sys2Proof/Certificates/Slice0/Obligations.lean ====
section
/-! DEFINITION. Obligations.lean: the statements for the provers, and the few words they share. -/

open Sys2Proof Sys2Proof.Machine

namespace Sys2Proof.Expect

/-! ### Shared words -/

/-- RESETn is high and a place of the command buffer is free, so a host command is taken (R190, R199). -/
abbrev Listening (s : State) : Prop := s.resetHeld = false ∧ s.li.places < 4

/-- The command has taken its place (R190). -/
def placed (s : State) : State := { s with li := { s.li with places := s.li.places + 1 } }

/-- A reply joins the reply list (R191). -/
def replied (t : State) (tag kind : Byte) (st : Status) (data : List Byte) : State :=
  { t with li := { t.li with replies := t.li.replies ++ [{ tag := tag, kind := kind, status := st, data := data }] } }

/-- A host command's end: refused with nothing changed but its place and its reply, or the state after its action with
the action's reply. -/
def answered (s : State) (tag kind : Byte) (refusal : Option Status) (t : State) (st : Status) (data : List Byte) : State :=
  match refusal with
  | some r => replied (placed s) tag kind r []
  | none => replied t tag kind st data

/-- A planning opportunity leaves a round due exactly when the planning conditions of R159 hold at it. -/
def offered (s : State) : State :=
  { s with
    rs :=
      { s.rs with
        planningDue :=
          s.rs.planningDue
            || decide (s.rs.mode = .auto ∧ s.rs.pass = none ∧ (s.tc.state = .stopped ∨ s.tc.state = .unloaded)
              ∧ s.fu.probe = none ∧ s.ix.pass = none ∧ s.latched = false) } }

/-- A label of 1 to 16 printable bytes. -/
abbrev printableLabel (l : Label) : Prop := l.length ≤ 16 ∧ ∀ b ∈ l, 0x20 ≤ b.toNat ∧ b.toNat ≤ 0x7E

end Sys2Proof.Expect

open Sys2Proof.Expect

/-! ### The queue of commands and the reset -/

/-- One step takes the command at the front and runs it on the queue's rest; with nothing waiting it leaves the part
as it is (the model's choice, log 9). -/
def Obligations.StepTakesTheFrontCommand : Prop :=
  (∀ (c : Instr) (rest : List Instr) (s : State), step { s with pending := c :: rest } = exec c { s with pending := rest })
  ∧ ∀ s : State, s.pending = [] → step s = .next s

/-- What the spec says the part holds after reset with no film in the gate: TC (R2, R22), TU (R28, R38), CU (R56), IX
(R82, R99), FU (R102, R119), CP (R122, R138), CT (R153), RS (R175), DC (R186), LI (R193, R199, R202), FM (R212). -/
def Obligations.ResetHoldsTheSpecValues : Prop :=
  let s := State.reset
  (s.tc.state = .unloaded ∧ s.tc.threaded = false ∧ s.tc.position = 0 ∧ s.tc.underrun = 0 ∧ s.tc.motion = none
    ∧ s.tc.settings = { seekSpeed := 2000, indexSpeed := 800, scanSpeed := 200, acceleration := 1500, settleDwell := 50 })
  ∧ (s.tu.zeroCode = 2048 ∧ s.tu.limitCode = 2368 ∧ s.tu.loopOn = false ∧ s.tu.setpoint = 0 ∧ s.tu.runningSum = 0
    ∧ s.tu.onTarget = false ∧ s.tu.overCount = 0 ∧ s.tu.withinCount = 0 ∧ s.tu.slackCount = 0 ∧ s.tu.breakCount = 0
    ∧ s.tu.capInForce = false ∧ s.tu.driveInhibit = false ∧ s.tu.slackEpisode = false ∧ s.tu.calStatus = .none
    ∧ s.tu.settings =
      { gain := 4, scale := 1280, target := 150, limit := 400, slackLevel := 20, filterCount := 8, action := .halt })
  ∧ (s.cu.entries.length = 12 ∧ s.cu.rotation = none ∧ s.cu.rotationTimer = false ∧ s.cu.threadingTimer = false
    ∧ s.cu.retractionTimer = false ∧ s.cu.lock = none)
  ∧ (s.ix.tracker.state = .none ∧ s.ix.segments = [] ∧ s.ix.landmarks = [] ∧ s.ix.pass = none ∧ s.ix.shift = 3
    ∧ s.ix.classes = { shortMax := 120, mediumMax := 300, longMax := 800 })
  ∧ (s.fu.lens = 2048 ∧ s.fu.target = 2048 ∧ s.fu.map = [] ∧ s.fu.probe = none ∧ s.fu.tracking = false
    ∧ s.fu.lagReported = false
    ∧ s.fu.settings =
      { lensMin := 0, lensMax := 4095, nominal := 2048, mergeDistance := 50000, staleRatio := 12, halfSpan := 40,
        step := 10 })
  ∧ (s.cp.settings =
      { linePitch := 1, margin := 300, lineRate := 40000, first16 := 1024, count16 := 6144, first35 := 0, count35 := 8192 }
    ∧ s.cp.lamp = .off ∧ s.cp.gauge = none ∧ s.cp.lampLevel = none ∧ s.cp.jobs = none ∧ s.cp.ready = []
    ∧ s.cp.slots = List.replicate 16 none)
  ∧ s.ct.windows = []
  ∧ (s.rs.mode = .manual ∧ s.rs.joinDistance = 20000 ∧ s.rs.indexOnDemand = true ∧ s.rs.lastId = 0 ∧ s.rs.submissions = 0
    ∧ s.rs.queue = [] ∧ s.rs.items = [] ∧ s.rs.pass = none)
  ∧ (s.dc.a.mode = .image ∧ s.dc.b.mode = .image ∧ s.dc.a.sending = none ∧ s.dc.b.sending = none ∧ s.dc.interval = 100
    ∧ s.dc.sequence = 0 ∧ s.dc.skipped = 0)
  ∧ (s.li.places = 0 ∧ s.li.replies = [] ∧ s.li.crcErrors = 0 ∧ s.li.framingErrors = 0 ∧ s.li.overruns = 0
    ∧ s.li.lastChannel = .b ∧ s.li.uptime = 0
    ∧ s.li.levels =
      [.high, .high, .high, .mid, .mid, .mid, .mid, .mid, .mid, .mid, .low, .low, .low, .low, .low, .off]
    ∧ s.li.notices.map (fun n => (n.source, n.count, n.detail)) = [(.start, 1, .start .powerOn false 0)])
  ∧ (s.fm.active = [] ∧ s.fm.log = [] ∧ s.fm.logMode = .keepNewest ∧ s.fm.overflow = 0 ∧ s.fm.fullReported = false
    ∧ s.latched = false)

/-- The state after reset satisfies the laws of Safety.lean. -/
def Obligations.ResetSatisfiesTheLaws : Prop :=
  let s := State.reset
  s.tc.wf ∧ s.cu.wf ∧ s.tablesWf ∧ s.cp.wf ∧ s.ct.wf ∧ s.rs.wf ∧ s.dc.wf ∧ s.li.bufferWf ∧ s.li.noticesWf ∧ s.fm.wf
    ∧ s.slotsWf

/-- While RESETn is low nothing but the pins acts on the part: the host's bytes are not received (R199), and that
every event row too leaves it as it is is the model's choice (log 2). -/
def Sys2Proof.Expect.HeldInResetNothingHappens : Prop :=
  ∀ (i : Instr) (s : State), s.resetHeld = true →
    (match i with
      | .powerOn _ | .resetnRelease _ | .resetnAssert | .holdAssert | .holdRelease => True
      | _ => exec i s = .next s)

/-- A host command that finds all four places held is an overrun: counted, LINK_ERROR posted, nothing else (R190). -/
def Sys2Proof.Expect.FullCommandBufferOverruns : Prop :=
  ∀ (i : Instr) (s : State), (encodeCommand i).isSome → s.resetHeld = false → 4 ≤ s.li.places →
    exec i s =
      .next
        (State.post { s with li := { s.li with overruns := min (s.li.overruns + 1) 65535 } } .linkError
          (.linkError .overrun s.li.crcErrors s.li.framingErrors (min (s.li.overruns + 1) 65535)))

/-- What is not taken: anything while RESETn is low (of the event rows the model's choice, log 2), and a host command
with no place free. -/
def Obligations.CommandsThatAreNotTaken : Prop := HeldInResetNothingHappens ∧ FullCommandBufferOverruns

/-! ### The link -/

/-- Decoding what encoding gives is the command itself, for every host command (R190, R192; the numbers of the values that
the spec only lists are the model's choice, log 10). -/
def Obligations.FrameBodiesRoundTrip : Prop :=
  ∀ (i : Instr) (kind tag : Byte) (body : List Byte), i.wf = true → encodeCommand i = some (kind, tag, body) →
    decodeFrame kind tag body = .command i

/-- The bytes of a host command's frame, received while the receiver hunts, do what the command's own row does (R188 to
R191). -/
def Obligations.CommandFrameActsAsItsRow : Prop :=
  ∀ (i : Instr) (s : State), i.wf = true → (encodeCommand i).isSome → s.li.rx = [] →
    exec (.linkFrameReceived (commandFrame i)) s = exec i s

/-- The receiver (R189): noise is discarded, a length above 4,200 and 1 ms of silence are framing errors, a CRC that
does not match is a CRC error. Silence with no frame begun changes nothing (log 8). Each error is counted, saturating,
and posts LINK_ERROR with the three counts. -/
def Obligations.ReceiverDiscardsBadFrames : Prop :=
  (crc16 [0x31, 0x32, 0x33, 0x34, 0x35, 0x36, 0x37, 0x38, 0x39] = 0x29B1)
  ∧ (∀ (bytes : List Byte) (s : State), s.li.rx = [] → (∀ b ∈ bytes, b ≠ 0xC3) →
      exec (.linkFrameReceived bytes) s = .next s)
  ∧ (∀ (kind tag hi lo : Byte) (s : State), s.resetHeld = false → s.li.rx = [] → 4200 < hi.toNat * 256 + lo.toNat →
      exec (.linkFrameReceived [0xC3, kind, tag, hi, lo]) s =
        .next
          (State.post { s with li := { s.li with framingErrors := min (s.li.framingErrors + 1) 65535 } } .linkError
            (.linkError .framing s.li.crcErrors (min (s.li.framingErrors + 1) 65535) s.li.overruns)))
  ∧ (∀ (kind tag : Byte) (body : List Byte) (crc : BitVec 16) (s : State), s.resetHeld = false → s.li.rx = [] →
      body.length ≤ 4200 → crc ≠ crc16 (kind :: tag :: (u16 body.length ++ body)) →
      exec (.linkFrameReceived (0xC3 :: kind :: tag :: (u16 body.length ++ body ++ u16 crc.toNat))) s =
        .next
          (State.post { s with li := { s.li with crcErrors := min (s.li.crcErrors + 1) 65535 } } .linkError
            (.linkError .crc (min (s.li.crcErrors + 1) 65535) s.li.framingErrors s.li.overruns)))
  ∧ (∀ s : State, s.resetHeld = false →
      exec .frameByteTimeout s =
        .next
          (if s.li.rx = [] then s
           else
            State.post { s with li := { s.li with rx := [], framingErrors := min (s.li.framingErrors + 1) 65535 } } .linkError
              (.linkError .framing s.li.crcErrors (min (s.li.framingErrors + 1) 65535) s.li.overruns)))

/-- The notice the arbiter begins first: HIGH before MID before LOW, in ascending source number within a level (R196). -/
def Sys2Proof.Expect.firstNotice (s : State) : Option Notice :=
  (s.li.notices.filter (fun n => decide (s.level n.source = .high))
    ++ s.li.notices.filter (fun n => decide (s.level n.source = .mid))
    ++ s.li.notices.filter (fun n => decide (s.level n.source = .low))).head?

/-- A message is in transmission: its frame is SYNC, kind, tag, the body's length, the body and the CRC over all but SYNC
(R188). -/
def Sys2Proof.Expect.begun (t : State) (source : TxSource) (kind tag : Byte) (body : List Byte) : State :=
  let covered := kind :: tag :: (u16 body.length ++ body)
  { t with li := { t.li with tx := some { source := source, frame := 0xC3 :: (covered ++ u16 (crc16 covered).toNat) } } }

/-- The arbiter's choice between messages (R196): the oldest reply, then the first notice, then the snapshot, then a
block, of two the one of the channel not begun last. -/
def Sys2Proof.Expect.arbitrated (s : State) : State :=
  match s.li.replies, firstNotice s, s.dc.snapshot, s.dc.a.waiting, s.dc.b.waiting with
  | r :: rest, _, _, _, _ =>
    begun { s with li := { s.li with replies := rest } } .reply 0x80 r.tag
      (r.kind :: BitVec.ofNat 8 r.status.ctorIdx :: r.data)
  | [], some n, _, _, _ =>
    begun { s with li := { s.li with notices := s.li.notices.filter fun x => decide (x.source ≠ n.source) } } .notice 0x81 0
      (BitVec.ofNat 8 n.source.ctorIdx :: BitVec.ofNat 8 (s.level n.source).ctorIdx :: BitVec.ofNat 8 n.count
        :: (u32 n.uptime ++ encNoticeDetail n.detail))
  | [], none, some b, _, _ =>
    begun { s with dc := { s.dc with snapshot := none } } .telemetry 0x83 0 b
  | [], none, none, some x, none => blockA x
  | [], none, none, none, some y => blockB y
  | [], none, none, some x, some y => if s.li.lastChannel = .a then blockB y else blockA x
  | [], none, none, none, none => s
where
  blockA (x : List Byte) : State :=
    begun
      { s with
        dc := { s.dc with a := { s.dc.a with waiting := none, inTransmission := true } },
        li := { s.li with lastChannel := .a } }
      (.block .a) 0x82 0 x
  blockB (y : List Byte) : State :=
    begun
      { s with
        dc := { s.dc with b := { s.dc.b with waiting := none, inTransmission := true } },
        li := { s.li with lastChannel := .b } }
      (.block .b) 0x82 0 y

/-- MESSAGE_BEGIN, HOLD_ASSERT and HOLD_RELEASE: nothing is begun under HOLD or during a transmission; else the arbiter's
choice is begun as a frame, and at the release at once (R188, R191, R194, R196, R197; the details' layout is log 10). -/
def Obligations.ArbiterBeginsTheFirstMessage : Prop :=
  ∀ s : State, s.resetHeld = false →
    exec .messageBegin s = .next (if s.hold = true ∨ s.li.tx ≠ none then s else arbitrated s)
    ∧ exec .holdAssert s = .next { s with hold := true }
    ∧ exec .holdRelease s =
        .next (if s.li.tx ≠ none then { s with hold := false } else arbitrated { s with hold := false })

/-- The record of the delivery channel that a state holds under an id. -/
def Sys2Proof.Expect.withChannel (s : State) (id : ChannelId) (c : Channel) : State :=
  match id with
  | .a => { s with dc := { s.dc with a := c } }
  | .b => { s with dc := { s.dc with b := c } }

/-- MESSAGE_SENT (R179, R180, R196): a reply's place is freed; after a block that is not the last the channel offers
the next one; after the last the slot is freed, the image counted, and the channel takes the head of the Ready List. -/
def Obligations.SentMessageIsReported : Prop :=
  (∀ (s : State) (m : TxMessage), s.resetHeld = false → s.li.tx = some m →
    (m.source = .reply →
      exec .messageSent s = .next { s with li := { s.li with tx := none, places := s.li.places - 1 } })
    ∧ ((m.source = .notice ∨ m.source = .telemetry ∨ m.source = .orphan) →
      exec .messageSent s = .next { s with li := { s.li with tx := none } }))
  ∧ (∀ (s : State) (m : TxMessage) (id : ChannelId) (d : Sending), s.resetHeld = false → s.li.tx = some m →
      m.source = .block id → (s.dc.channel id).sending = some d →
      let gone : State := { s with li := { s.li with tx := none } }
      (d.nextBlock + 1 < d.blockCount →
        let d' : Sending := { d with nextBlock := d.nextBlock + 1 }
        exec .messageSent s =
          .next
            (withChannel gone id
              { s.dc.channel id with
                sending := some d', waiting := some (blockBody id (s.slotContent d.slot) d'), inTransmission := false }))
      ∧ (d.blockCount ≤ d.nextBlock + 1 →
        exec .messageSent s =
          .next
            ((withChannel (gone.freeSlot d.slot) id
              { s.dc.channel id with
                sending := none, waiting := none, inTransmission := false,
                imagesSent := min ((s.dc.channel id).imagesSent + 1) 65535 }).takeHead id)))

/-! ### Start-up, the reset pin and the soft reset -/

/-- What start-up leaves with no film in the gate: every block at its power-on state, the directory as the sensors
show it, START pending with its cause and the number of occupied slots (R56, R199). The HOLD pin, the queue of
commands and the free values' counter are no part of it (the model's choice, log 2). -/
def Sys2Proof.Expect.started (s : State) (cause : ResetCause) (x : Sensors) : State :=
  { State.reset with
    cu :=
      { Cu.reset with
        station := x.station, atPosition := x.atPosition,
        entries :=
          x.presence.map fun p => if p then { Entry.empty with state := .stored } else Entry.empty },
    li :=
      { Li.reset with
        notices :=
          [{ source := .start, count := 1, uptime := 0,
             detail := .start cause false (x.presence.filter fun p => p).length }] },
    gateFilm := false, presence := x.presence, hold := s.hold, pending := s.pending, free := s.free }

/-- POWER_ON and RESETN_RELEASE with no film in the gate, RESETN_ASSERT, and UPTIME_TICK (R56, R199). The model's choices:
POWER_ON also lifts a held reset, a release acts on a RESETn that was low, and what stands between RESETN_ASSERT and the
release (log 2); the values that the spec does not state after reset, within State.reset (log 3). -/
def Sys2Proof.Expect.StartUpAndResetPin : Prop :=
  (∀ (x : Sensors) (s : State), x.wf = true → x.gateFilm = false →
    exec (.powerOn x) s = .next (started s .powerOn x)
    ∧ exec (.resetnRelease x) s = .next (if s.resetHeld then started s .pin x else s))
  ∧ (∀ s : State,
      exec .resetnAssert s =
        .next
          { State.reset with
            li := Li.reset, resetHeld := true, hold := s.hold, gateFilm := s.gateFilm, presence := s.presence,
            pending := s.pending, free := s.free })
  ∧ (∀ s : State, s.resetHeld = false →
      exec .uptimeTick s = .next { s with li := { s.li with uptime := (s.li.uptime + 1) % 4294967296 } })

/-- Start-up with film in the gate, by POWER_ON or by the release of a low RESETn (log 2): the station slot's entry is
MOUNTED with the fields of a new insertion, the lock is engaged on it, FILM_STRANDED is active, logged and noticed, TC
is HALTED and threaded (R22, R56, R212). -/
def Sys2Proof.Expect.FilmFoundInTheGateStrands : Prop :=
  ∀ (i : Instr) (x : Sensors) (s : State), (i = .powerOn x ∨ (i = .resetnRelease x ∧ s.resetHeld = true)) →
    x.wf = true → x.gateFilm = true →
    let strandedEntry : FaultEntry :=
      { code := .filmStranded, cls := .major, firstSeen := 0, count := 1, detail := .stranded x.station x.atPosition,
        position := 0, slot := some x.station }
    ∃ t : State, exec i s = .next t
      ∧ t.tc.state = .halted ∧ t.tc.threaded = true ∧ t.tc.position = 0 ∧ t.tc.underrun = 0 ∧ t.tc.motion = none
      ∧ t.cu.lock = some x.station ∧ t.cu.station = x.station ∧ t.cu.atPosition = x.atPosition
      ∧ t.entry x.station = { Entry.empty with state := .mounted }
      ∧ (∀ n, n < 12 → n ≠ x.station →
          t.entry n = if x.presence.getD n false then { Entry.empty with state := .stored } else Entry.empty)
      ∧ t.ix = Ix.reset ∧ t.fu.map = [] ∧ t.fm.active = [strandedEntry]
      ∧ t.fm.log.map (fun r => (r.code, r.position, r.slot)) = [(.filmStranded, 0, some x.station)]
      ∧ t.li.notices.map (fun n => n.source) = [.faultMajor, .start]

/-- Start-up with and without film in the gate, the reset pin, and the uptime. -/
def Obligations.StartUpAndTheResetPin : Prop := StartUpAndResetPin ∧ FilmFoundInTheGateStrands

/-! ### Notices and LI's commands -/

/-- An occurrence posted to a source (R193): not recorded while the source is OFF; else its notice is added with count
1, or its count grows up to 255 and its detail and uptime are replaced. The other notices and the rest of the part
stay. -/
def Obligations.NoticesCoalesce : Prop :=
  ∀ (s : State) (src : Source) (d : NoticeDetail), s.li.noticesWf →
    let t := s.post src d
    let held (u : State) := u.li.notices.find? fun n => decide (n.source = src)
    (s.level src = .off → t = s)
    ∧ (s.level src ≠ .off →
        held t =
          some
            { source := src, count := (match held s with | some n => min (n.count + 1) 255 | none => 1), detail := d,
              uptime := s.li.uptime })
    ∧ t.li.notices.filter (fun n => decide (n.source ≠ src)) = s.li.notices.filter (fun n => decide (n.source ≠ src))
    ∧ { t with li := { t.li with notices := s.li.notices } } = s

/-- SET_NOTICE_LEVELS (R195): a value above 3 refuses it with RANGE; else the levels are replaced and a source set to OFF
loses its pending notice. -/
def Obligations.NoticeLevelsAreReplaced : Prop :=
  ∀ (tag : Byte) (ls : List (Option NoticeLevel)) (s : State), Listening s → ls.length = 16 →
    exec (.setNoticeLevels tag ls) s =
      .next
        (answered s tag 0x48 (if none ∈ ls then some .range else none)
          { placed s with
            li :=
              { (placed s).li with
                levels := ls.map fun x => x.getD .off,
                notices := s.li.notices.filter fun n => decide (ls.getD n.source.ctorIdx none ≠ some .off) } }
          .ok [])

/-- The reading commands are replied OK with their data (laid out by R192, log 10 and log 36) in every state and
change nothing (R21, R37, R47, R81, R118, R137, R174, R184, R200, R211). -/
def Sys2Proof.Expect.ReadsChangeNothing : Prop :=
  ∀ (tag : Byte) (s : State), Listening s →
    exec (.readTransport tag) s = .next (replied (placed s) tag 0x05 .ok (transportData s))
    ∧ exec (.readTension tag) s = .next (replied (placed s) tag 0x0A .ok (tensionData s))
    ∧ exec (.readDirectory tag) s = .next (replied (placed s) tag 0x12 .ok (directoryData s))
    ∧ exec (.readIndex tag) s = .next (replied (placed s) tag 0x1A .ok (indexData s))
    ∧ exec (.readFocusMap tag) s = .next (replied (placed s) tag 0x23 .ok (focusData s))
    ∧ exec (.readFrameStore tag) s = .next (replied (placed s) tag 0x29 .ok (frameStoreData s))
    ∧ exec (.queryQueue tag) s = .next (replied (placed s) tag 0x3A .ok (queueData s))
    ∧ exec (.readChannels tag) s = .next (replied (placed s) tag 0x41 .ok (channelsData s))
    ∧ exec (.identify tag) s = .next (replied (placed s) tag 0x4A .ok identity)
    ∧ exec (.readFaults tag) s = .next (replied (placed s) tag 0x52 .ok (faultsData s))
    ∧ exec (.readFaultLog tag) s = .next (replied (placed s) tag 0x54 .ok (logData s))

/-- READ_LINK and LIST_WINDOWS (R143, R198): their data are what stands before the clear; the clear option then sets the
three link counts, or every denied count, to 0; another clear value is RANGE. -/
def Sys2Proof.Expect.ReadsWithClear : Prop :=
  ∀ (tag : Byte) (clear : Option Bool) (s : State), Listening s →
    exec (.readLink tag clear) s =
      .next
        (answered s tag 0x49 (if clear = none then some .range else none)
          (if clear = some true then
            { placed s with li := { (placed s).li with crcErrors := 0, framingErrors := 0, overruns := 0 } }
           else placed s)
          .ok (linkData (placed s)))
    ∧ exec (.listWindows tag clear) s =
      .next
        (answered s tag 0x32 (if clear = none then some .range else none)
          (if clear = some true then
            { placed s with ct := { s.ct with windows := s.ct.windows.map fun w => { w with denied := 0 } } }
           else placed s)
          .ok (BitVec.ofNat 8 s.ct.windows.length :: s.ct.windows.flatMap encWindow))

/-- The commands that read. -/
def Obligations.ReadingCommands : Prop := ReadsChangeNothing ∧ ReadsWithClear

/-- The tension loop is on, and a calibration in progress short of its 64th sample is abandoned (R27, R30, R31; the
starting setpoint is log 36). -/
def Sys2Proof.Expect.inLoop (reported : Nat) (u : Tu) : Tu :=
  let v := if u.loopOn then u else { u with loopOn := true, setpoint := reported }
  if v.calStatus = .inProgress ∧ v.calCount < 64 then { v with calStatus := .abandoned, calSum := 0, calCount := 0 } else v

/-- Slack detection is disarmed (R35). -/
def Sys2Proof.Expect.slackOff (u : Tu) : Tu :=
  { u with slackCount := 0, breakCount := 0, recoveryCount := 0, slackEpisode := false }

/-- The film is at rest (R1, R7; log 15). -/
def Sys2Proof.Expect.resting (c : Tc) : Bool := decide (c.speed = 0 ∨ c.direction = .none)

/-- TC in STOPPED, with no motion. -/
def Sys2Proof.Expect.stopped (c : Tc) : Tc := { c with state := .stopped, motion := none, phase := .idle, travel := .none }

/-- What a soft reset makes of TC (R23): a controlled stop at the motion's acceleration from SEEKING and SCANNING,
reported to nobody; STOPPED at once in the dwell and where the film is at rest (log 36); a stop under way goes on
without its report; every other state, THREADING and REWINDING among them, goes on. -/
def Sys2Proof.Expect.resetTc (c : Tc) : Tc :=
  match c.state, c.motion with
  | .seeking, some (.seek m) =>
    if c.phase = .dwell ∨ resting c = true then stopped c
    else { c with motion := none, phase := .controlledStop, stopRate := m.accel }
  | .scanning, some (.run r) =>
    if resting c = true then { stopped c with endedRun := none, stopRate := r.accel }
    else { c with motion := none, endedRun := none, phase := .controlledStop, stopRate := r.accel }
  | .scanning, _ => { c with endedRun := none }
  | _, _ => c

/-- The index pass that a soft reset ends writes the mounted roll's entry as an ABORTED pass (R80, R83). -/
def Sys2Proof.Expect.resetEntries (s : State) : List Entry :=
  match s.ix.pass, s.mountedSlot with
  | some p, some n =>
    if p.kind = .extension ∧ p.frontier = false then s.cu.entries
    else
      s.cu.entries.set n
        { s.entry n with
          indexState := if s.ix.segments = [] then .unindexed else .partial_,
          lastIndexed :=
            if s.ix.segments = [] then none
            else some (max p.countedTo (match p.lastAtStart with | some f => f | none => 0)) }
  | _, _ => s.cu.entries

/-- RESET (R23, R39, R58, R83, R100, R120, R139, R154, R175, R187, R201, R212): replied OK; TC, IX, FU, CP, RS, DC, LI
and FM drop their work and keep their settings, tables and counts, TU follows TC, the reset stop is no motion in
progress (log 36), CU keeps all but what an index pass in progress writes, CT keeps all. A planning round that was due
goes too (log 32), a block in transmission is nobody's from then on (log 29), its channel's Offered
field NONE at once, and START counts every slot that is not EMPTY (log 36, both). -/
def Obligations.SoftResetDropsWorkAndKeepsTables : Prop :=
  ∀ (tag : Byte) (s : State), Listening s →
    exec (.reset tag) s =
      .next
        { s with
          tc := resetTc s.tc,
          tu :=
            if (resetTc s.tc).state = .stopped ∧ s.tc.state ≠ .stopped then slackOff (inLoop s.reportedTension s.tu) else s.tu,
          cu := { s.cu with entries := resetEntries s },
          ix :=
            { s.ix with
              pass := none,
              tracker :=
                { s.ix.tracker with
                  state := .none, frame := none, segment := none,
                  leaderArmed := s.ix.tracker.leaderArmed || decide (s.tc.position = 0) } },
          fu := { s.fu with target := s.fu.lens, probe := none, tracking := false, lagReported := false },
          cp :=
            { s.cp with
              lamp := .off, probeHolds := false, listHolds := false, slots := List.replicate 16 none, ready := [],
              jobs := none },
          rs :=
            { s.rs with
              mode := .manual, queue := [], items := [], pass := none, captureCount := 0, countedSlot := none,
              planningDue := false },
          dc :=
            { s.dc with
              a := { s.dc.a with sending := none, waiting := none, inTransmission := false },
              b := { s.dc.b with sending := none, waiting := none, inTransmission := false }, snapshot := none },
          li :=
            { s.li with
              rx := [], places := s.li.places + 1,
              replies := s.li.replies ++ [{ tag := tag, kind := 0x4B, status := .ok, data := [] }],
              notices :=
                if s.level .start = .off then []
                else
                  [{ source := .start, count := 1, detail := .start .command s.tc.threaded s.occupied,
                     uptime := s.li.uptime }],
              tx :=
                s.li.tx.map fun m =>
                  { m with source := match m.source with | .block _ => .orphan | x => x } },
          fm := { s.fm with active := s.fm.active.filter fun e => decide (e.cls = .major) } }

/-! ### The film transport -/

/-- SET_MOTION (R2): any value out of its range refuses it with RANGE; else all five settings are replaced. -/
def Sys2Proof.Expect.MotionSettingsAreSet : Prop :=
  ∀ (tag : Byte) (a : MotionSettings) (s : State), Listening s →
    exec (.setMotion tag a) s =
      .next
        (answered s tag 0x01
          (if (100 ≤ a.seekSpeed ∧ a.seekSpeed ≤ 3000) ∧ (50 ≤ a.indexSpeed ∧ a.indexSpeed ≤ 1500)
              ∧ (5 ≤ a.scanSpeed ∧ a.scanSpeed ≤ 400) ∧ (100 ≤ a.acceleration ∧ a.acceleration ≤ 4000)
              ∧ a.settleDwell ≤ 500 then none
           else some .range)
          { placed s with tc := { s.tc with settings := a } } .ok [])

/-- The checks of SEEK_POSITION and JOG, in their order (R18, R19). -/
def Sys2Proof.Expect.seekRefusal (s : State) (outOfRange : Bool) : Option Status :=
  if s.rs.mode = .auto then some .mode
  else if outOfRange then some .range
  else if s.latched then some .halted
  else if s.tc.state = .unloaded then some .noRoll
  else if s.tc.state = .threading ∨ s.tc.state = .scanning ∨ s.tc.state = .rewinding ∨ s.fu.probe ≠ none then some .busy
  else none

/-- The highest seek target: the guard end while the roll length is known (R10). -/
def Sys2Proof.Expect.highestTarget (s : State) : Nat :=
  match s.mountedEntry.rollLength with
  | some l => l - 2000
  | none => 16777215

/-- The record of a host seek as it begins (R3, R5, R6). -/
def Sys2Proof.Expect.hostSeek (g : MotionSettings) (target : Nat) (clamped : Bool) (limit : Nat) : Seek :=
  { requester := .host, target := target, clamped := clamped, speedLimit := limit, accel := g.acceleration,
    capSpeed := g.scanSpeed, dwell := g.settleDwell, corrections := 0, correcting := false }

/-- A CAPTURE pass that waits for the lamp learns that TC has taken another motion (R167). -/
def Sys2Proof.Expect.motionNoted (r : Rs) : Rs :=
  { r with
    pass :=
      r.pass.map fun p =>
        if p.kind = .capture ∧ p.phase = .seek ∧ p.seekDone = true then { p with disturbed := true } else p }

/-- A host seek that arrives as it is taken (R7): its dwell follows, a dwell of 0 ms ending with it in STOPPED and
ARRIVED. -/
def Sys2Proof.Expect.atOnce (s : State) (m : Seek) : State :=
  let follows := inLoop s.reportedTension s.tu
  if m.dwell = 0 then
    State.post
      { placed s with tc := { stopped s.tc with direction := .none }, tu := slackOff follows, rs := motionNoted s.rs }
      .seekDone (.seekDone .arrived m.target s.tc.position 0 m.clamped)
  else
    { placed s with
      tc := { s.tc with state := .seeking, motion := some (.seek m), phase := .dwell, travel := .none, direction := .none },
      tu := slackOff follows, rs := motionNoted s.rs }

/-- A host seek taken with the film at rest (R5 to R7): within 4 ticks of P it arrives at once; else it starts toward the
target. -/
def Sys2Proof.Expect.fromRest (s : State) (target : Nat) (clamped : Bool) (limit : Nat) : State :=
  let m := hostSeek s.tc.settings target clamped limit
  let follows := inLoop s.reportedTension s.tu
  if s.tc.underrun = 0 ∧ target ≤ s.tc.position + 4 ∧ s.tc.position ≤ target + 4 then atOnce s m
  else
    { placed s with
      tc :=
        { s.tc with
          state := .seeking, motion := some (.seek m), phase := .travel,
          travel := if target + s.tc.underrun < s.tc.position then .reverse else .forward },
      tu := if s.tc.direction = .none then slackOff follows else follows, rs := motionNoted s.rs }

/-- A host seek taken with the film moving (R5 to R7): it goes on where the target lies in the direction of travel at or
beyond the stopping point, v²/(2a) ahead, arriving at once within 4 ticks at creep speed or below, and decelerating at once
where that point is the target; else the film comes to rest at the acceleration setting before it turns, also when it is in
an emergency stop (log 36). The underrun counts as distance below 0 (log 16). -/
def Sys2Proof.Expect.onTheMove (s : State) (target : Nat) (clamped : Bool) (limit : Nat) : State :=
  let m := hostSeek s.tc.settings target clamped limit
  let a := s.tc.settings.acceleration
  let place : Int := (s.tc.position : Int) - s.tc.underrun
  let ahead : Int := if s.tc.direction = .forward then target - place else place - target
  let onward : Bool := decide (0 ≤ ahead ∧ (100 * s.tc.speed ^ 2 : Int) ≤ ahead * (2 * a))
  if onward = true ∧ s.tc.underrun = 0 ∧ ahead ≤ 4 ∧ s.tc.speed ≤ 5 then atOnce s m
  else
    { placed s with
      tc :=
        { s.tc with
          state := .seeking, motion := some (.seek m),
          phase :=
            if onward = false then .reversal
            else if (100 * s.tc.speed ^ 2 : Int) = ahead * (2 * a) then (if s.tc.speed ≤ 5 then .creep else .decelerate)
            else .travel,
          travel := s.tc.direction, stopRate := if onward then s.tc.stopRate else a },
      tu := inLoop s.reportedTension s.tu, rs := motionNoted s.rs }

/-- A host seek taken. -/
def Sys2Proof.Expect.seekTaken (s : State) (target : Nat) (clamped : Bool) (limit : Nat) : State :=
  if resting s.tc = true then fromRest s target clamped limit else onTheMove s target clamped limit

/-- SEEK_POSITION and JOG: refused by the first check that fails, a speed byte of JOG that names neither choice being
out of range (log 13); else the seek is taken from rest or on the move (in an emergency stop with the acceleration setting
as its stop rate, log 36), in place of a host seek in progress, which reports nothing, and the reply carries the clamped
target and the CLAMPED flag (R6, R7, R10, R18, R19). -/
def Obligations.HostSeeksAreTaken : Prop :=
  ∀ (tag : Byte) (s : State), Listening s →
    let alone : Prop := ∀ m, s.tc.motion = some (.seek m) → m.requester = .host
    (∀ p : Nat,
      let refusal := seekRefusal s (decide (16777215 < p))
      (∀ r, refusal = some r → exec (.seekPosition tag p) s = .next (replied (placed s) tag 0x02 r []))
      ∧ (refusal = none → alone →
        let flag := decide (highestTarget s < p)
        let target := min p (highestTarget s)
        exec (.seekPosition tag p) s =
          .next
            (replied (seekTaken s target flag s.tc.settings.seekSpeed) tag 0x02 .accepted
              (u32 target ++ [if flag then 1 else 0]))))
    ∧ (∀ (d : Int) (sp : Option JogSpeed),
      let refusal := seekRefusal s (decide (d = 0 ∨ d < -16777215 ∨ 16777215 < d ∨ sp = none))
      (∀ r, refusal = some r → exec (.jog tag d sp) s = .next (replied (placed s) tag 0x03 r []))
      ∧ (refusal = none → alone →
        let dest : Int := s.tc.position + d
        let flag := decide (dest < 0 ∨ (highestTarget s : Int) < dest)
        let target := if dest < 0 then 0 else if (highestTarget s : Int) < dest then highestTarget s else dest.toNat
        exec (.jog tag d sp) s =
          .next
            (replied (seekTaken s target flag (if sp = some .index then s.tc.settings.indexSpeed else 5)) tag 0x03 .accepted
              (u32 target ++ [if flag then 1 else 0]))))

/-- STOP_TRANSPORT by the state it is taken in (R20), with no pass of RS and no index pass in progress: a moving seek
or run is brought to a controlled stop, with no motion in progress during it (log 36); in the dwell, and where the
film is at rest already (log 36), TC is STOPPED at once. -/
def Obligations.StopTransportByState : Prop :=
  ∀ (tag : Byte) (s : State), Listening s → s.rs.pass = none → s.ix.pass = none →
    ((s.tc.state = .threading ∨ s.tc.state = .rewinding) →
      exec (.stopTransport tag) s = .next (replied (placed s) tag 0x04 .busy []))
    ∧ ((s.tc.state = .unloaded ∨ s.tc.state = .halted ∨ (s.tc.state = .stopped ∧ s.fu.probe = none)
        ∨ ((s.tc.state = .seeking ∨ s.tc.state = .scanning) ∧ s.tc.motion = none)) →
      exec (.stopTransport tag) s = .next (replied (placed s) tag 0x04 .ok []))
    ∧ (∀ r : Run, s.tc.state = .scanning → s.tc.motion = some (.run r) →
      (resting s.tc = false →
        exec (.stopTransport tag) s =
          .next
            (replied
              { placed s with
                tc :=
                  { s.tc with
                    motion := none, phase := .controlledStop, stopRate := r.accel,
                    endedRun := some { requester := r.requester, purpose := r.purpose, reason := .stopped } } }
              tag 0x04 .ok []))
      ∧ (resting s.tc = true →
        ∃ t : State, exec (.stopTransport tag) s = .next (replied t tag 0x04 .ok [])
          ∧ t.tc = { stopped s.tc with stopRate := r.accel, endedRun := none }
          ∧ (r.purpose = .capture → t.fu.tracking = false ∧ t.cp.jobs = none)))
    ∧ (∀ m : Seek, s.tc.state = .seeking → s.tc.motion = some (.seek m) → m.requester = .host →
      let halted : State :=
        if s.tc.phase = .dwell ∨ resting s.tc = true then
          offered { placed s with tc := stopped s.tc, tu := slackOff (inLoop s.reportedTension s.tu) }
        else { placed s with tc := { s.tc with motion := none, phase := .controlledStop, stopRate := m.accel } }
      exec (.stopTransport tag) s =
        .next
          (replied
            (halted.post .seekDone (.seekDone .stopped m.target s.tc.position m.corrections m.clamped))
            tag 0x04 .ok []))

/-- A rewind is in progress. -/
def Sys2Proof.Expect.rewinds (s : State) : Bool :=
  match s.tc.motion with
  | some (.rewind _) => true
  | _ => false

/-- An encoder tick counted into P or the leader underrun (R1), in every state; a reverse tick of a rewind that ends on it
leaves both 0 (R14; that a recovery rewind ends so too is log 17). -/
def Obligations.EveryTickIsCounted : Prop :=
  ∀ (d : TickDirection) (pixels : List Byte) (s : State), s.resetHeld = false →
    let p := s.tc.position
    let u := s.tc.underrun
    ∃ t : State, exec (.encoderTick d pixels) s = .next t
      ∧ (t.tc.position, t.tc.underrun) =
        (match d with
          | .forward => if 0 < u then (p, u - 1) else (if p < 16777215 then p + 1 else p, u)
          | .reverse =>
            if s.gateFilm = false ∧ p ≤ 1 ∧ rewinds s then (0, 0)
            else if 0 < p then (p - 1, u)
            else (p, min (u + 1) 16777215))

/-- An encoder tick with no motion, index pass or tracking in progress (R1, R62): the counts of the 10 ms and P or the
leader underrun; reverse motion at P = 0 arms the leader start with the tracker NONE. Nothing else changes. -/
def Obligations.TickOfIdleFilm : Prop :=
  ∀ (d : TickDirection) (pixels : List Byte) (s : State), s.resetHeld = false → s.tc.motion = none → s.ix.pass = none →
    s.ix.tracker.state ≠ .reckoning → s.fu.tracking = false → s.tc.state ≠ .scanning →
    (d = .forward → 0 < s.tc.underrun ∨ s.tc.position < 16777215) →
    exec (.encoderTick d pixels) s =
      .next
        (match d with
          | .forward =>
            { s with
              tc :=
                { s.tc with
                  windowTicks := s.tc.windowTicks + 1, windowForward := true,
                  position := if 0 < s.tc.underrun then s.tc.position else s.tc.position + 1,
                  underrun := s.tc.underrun - 1 } }
          | .reverse =>
            { s with
              tc :=
                { s.tc with
                  windowTicks := s.tc.windowTicks + 1, windowReverse := true, position := s.tc.position - 1,
                  underrun := if 0 < s.tc.position then s.tc.underrun else min (s.tc.underrun + 1) 16777215 },
              ix :=
                if s.tc.position ≤ 1 then
                  { s.ix with
                    tracker := { s.ix.tracker with state := .none, frame := none, segment := none, leaderArmed := true } }
                else s.ix })

/-- The end of a 10 ms with no motion in progress, no stop under way and the tracker not COUNTING (R1, R35): the speed
is the ticks counted; the direction is the ticks', NONE with none, and one of the two where ticks went both ways (a
free value, log 4). The windows without a tick are counted to 20 (log 19). -/
def Sys2Proof.Expect.SpeedIsTheTicksOfTenMilliseconds : Prop :=
  ∀ s : State, s.resetHeld = false → s.tc.motion = none → s.tc.phase = .idle → s.ix.tracker.state ≠ .counting →
    let both := s.tc.windowForward && s.tc.windowReverse
    ∃ d : Direction,
      exec .speedWindow s =
        .next
          { s with
            tc :=
              { s.tc with
                speed := s.tc.windowTicks, direction := d, windowTicks := 0, windowForward := false,
                windowReverse := false, idleWindows := if s.tc.windowTicks = 0 then min (s.tc.idleWindows + 1) 20 else 0 },
            tu :=
              if (s.tc.state = .seeking ∨ s.tc.state = .scanning ∨ s.tc.state = .rewinding) ∧ d ≠ .none then s.tu
              else slackOff s.tu,
            free := if both then s.free + 1 else s.free }
      ∧ (s.tc.windowTicks = 0 → d = .none)
      ∧ (0 < s.tc.windowTicks → d = .forward ∨ d = .reverse)
      ∧ (0 < s.tc.windowTicks → both = false → (d = .forward ↔ s.tc.windowForward = true))

/-- A stop that has come to rest (R11, R12, R23): STOPPED, no motion, and TC's report of STOPPED is a planning
opportunity (log 20). -/
def Sys2Proof.Expect.FilmAtRestIsStopped : Prop :=
  ∀ s : State, s.resetHeld = false → s.tc.motion = none → s.tc.windowTicks = 0 →
    (s.tc.phase = .controlledStop ∨ s.tc.phase = .emergencyStop) → s.tc.endedRun = none →
    s.tc.windowForward = false → s.tc.windowReverse = false → (s.tc.state = .seeking ∨ s.tc.state = .scanning) →
    exec .speedWindow s =
      .next
        (offered
          { s with
            tc :=
              { s.tc with
                state := .stopped, phase := .idle, travel := .none, speed := 0, direction := .none,
                idleWindows := min (s.tc.idleWindows + 1) 20 },
            tu := slackOff (inLoop s.reportedTension s.tu) })

/-- SPEED_WINDOW with no motion in progress. -/
def Obligations.SpeedWindowWithoutMotion : Prop := SpeedIsTheTicksOfTenMilliseconds ∧ FilmAtRestIsStopped

/-- A host's seek at the end of a 10 ms (R7, R8): within 4 ticks of its target at creep speed or below with no
underrun it arrives, and the dwell starts with the direction NONE, a dwell of 0 ms ending with it in STOPPED and
ARRIVED; come to rest after its second failed correction it ends MISSED in STOPPED, with SEEK_MISSED and no dwell. The
windows without a tick are counted to 20 (log 19); the STOPPED reached is a planning opportunity (log 20). -/
def Sys2Proof.Expect.SeekArrivesOrMisses : Prop :=
  ∀ (s : State) (m : Seek), s.resetHeld = false → s.tc.motion = some (.seek m) → m.requester = .host →
    s.ix.tracker.state ≠ .counting → (s.tc.windowForward && s.tc.windowReverse) = false →
    ((s.tc.phase = .travel ∨ s.tc.phase = .decelerate ∨ s.tc.phase = .creep) → s.tc.underrun = 0 →
      m.target ≤ s.tc.position + 4 → s.tc.position ≤ m.target + 4 → s.tc.windowTicks ≤ 5 →
      let held : Tc :=
        { s.tc with
          phase := .dwell, travel := .none, direction := .none, speed := s.tc.windowTicks, windowTicks := 0,
          windowForward := false, windowReverse := false,
          idleWindows := if s.tc.windowTicks = 0 then min (s.tc.idleWindows + 1) 20 else 0 }
      exec .speedWindow s =
        .next
          (if m.dwell = 0 then
            State.post (offered { s with tc := stopped held, tu := slackOff (inLoop s.reportedTension s.tu) })
              .seekDone (.seekDone .arrived m.target s.tc.position m.corrections m.clamped)
           else { s with tc := held, tu := slackOff s.tu }))
    ∧ (s.tc.phase = .overshoot → 2 ≤ m.corrections → s.tc.windowTicks = 0 →
      exec .speedWindow s =
        .next
          (State.post
            (State.faultOccur
              (offered
                { s with
                  tc :=
                    { s.tc with
                      state := .stopped, motion := none, phase := .idle, travel := .none, speed := 0, direction := .none,
                      windowForward := false, windowReverse := false, idleWindows := min (s.tc.idleWindows + 1) 20 },
                  tu := slackOff (inLoop s.reportedTension s.tu) })
              .seekMissed .minor (.seekMissed m.target s.tc.position))
            .seekDone (.seekDone .missed m.target s.tc.position m.corrections m.clamped)))

/-- SETTLE_DWELL_EXPIRY and ENCODER_TIMEOUT (R7, R15): the host's seek ends ARRIVED in STOPPED; ENCODER_FAULT is
raised while a speed is commanded in SEEKING, SCANNING or REWINDING, and not otherwise: not while the film is braked
to rest (log 36). A dwell's expiry outside the dwell changes nothing (log 8). -/
def Sys2Proof.Expect.DwellEndsTheSeekAndTheEncoderIsWatched : Prop :=
  ∀ s : State, s.resetHeld = false →
    (∀ m : Seek, s.tc.motion = some (.seek m) → m.requester = .host → s.tc.phase = .dwell →
      exec .settleDwellExpiry s =
        .next
          (State.post
            (offered
              { s with
                tc := { s.tc with state := .stopped, motion := none, phase := .idle, travel := .none },
                tu := slackOff (inLoop s.reportedTension s.tu) })
            .seekDone (.seekDone .arrived m.target s.tc.position m.corrections m.clamped)))
    ∧ (s.tc.phase ≠ .dwell → exec .settleDwellExpiry s = .next s)
    ∧ exec .encoderTimeout s =
      .next
        (if (s.tc.state = .seeking ∨ s.tc.state = .scanning ∨ s.tc.state = .rewinding) ∧ 0 < s.commandedSpeed then
          s.raise .encoderFault .major (.encoder s.tc.state s.tc.position)
         else s)

/-- How a host seek arrives, misses and ends, and the watch on the encoder. -/
def Obligations.SeeksEnd : Prop := SeekArrivesOrMisses ∧ DwellEndsTheSeekAndTheEncoderIsWatched

/-- TRAILER_EVENT (R11): not acted on unless the film moves forward, nor during a rewind (R14) or with no roll mounted
(log 18); in a host's seek P becomes the roll length if that was absent or greater, END_OF_FILM is raised, the film
makes an emergency stop and the seek ends END_OF_FILM. -/
def Sys2Proof.Expect.TrailerEndsTheSeek : Prop :=
  ∀ s : State, s.resetHeld = false →
    ((s.tc.direction ≠ .forward ∨ s.tc.state = .rewinding ∨ s.tc.state = .unloaded) → exec .trailerEvent s = .next s)
    ∧ (∀ (m : Seek) (n : Nat), s.tc.direction = .forward → 0 < s.tc.speed → s.tc.state = .seeking → s.tc.motion = some (.seek m) →
      m.requester = .host → s.mountedSlot = some n → s.ix.pass = none →
      let p := s.tc.position
      let e := s.entry n
      let learned : State :=
        { s with
          cu :=
            { s.cu with
              entries :=
                s.cu.entries.set n
                  { e with rollLength := some (match e.rollLength with | some l => min l p | none => p) } } }
      let raised := learned.faultOccur .endOfFilm .minor (.endOfFilm p)
      exec .trailerEvent s =
        .next
          (State.post
            { raised with tc := { s.tc with motion := none, phase := .emergencyStop, stopRate := 4000 } }
            .seekDone (.seekDone .endOfFilm m.target p m.corrections m.clamped)))

/-- The gate sensor (R14, R16, R50): the sensor's value is taken; film seen while the threader threads is noted; a loss of
threaded film raises FILM_BREAK in STOPPED, SEEKING, SCANNING and HALTED, and ends a rewind: TC is UNLOADED and, with its
cartridge in its slot, the entry is STORED and unlocked and the live tables are empty (R55). -/
def Sys2Proof.Expect.GateSensorEvents : Prop :=
  ∀ s : State, s.resetHeld = false →
    let lost : State := { s with gateFilm := false }
    (s.tc.threaded = false → exec .gateLoss s = .next lost)
    ∧ (s.tc.threaded = true → (s.tc.state = .stopped ∨ s.tc.state = .seeking ∨ s.tc.state = .scanning ∨ s.tc.state = .halted) →
      exec .gateLoss s = .next (lost.raise .filmBreak .major (.breakGate s.tc.position)))
    ∧ (s.tc.threaded = true → s.tc.state = .rewinding →
      ∃ t : State, exec .gateLoss s = .next t ∧ t.tc.position = 0 ∧ t.tc.underrun = 0 ∧ t.tc.threaded = false
        ∧ t.gateFilm = false ∧ (s.rs.pass = none → t.tc.state = .unloaded ∧ t.tc.motion = none)
        ∧ (∀ n, s.rs.pass = none → s.mountedSlot = some n → s.presence.getD n false = true →
          t.cu.entries = s.cu.entries.set n { s.entry n with state := .stored } ∧ t.cu.lock = none
            ∧ t.cu.opRequester = none ∧ t.ix.segments = [] ∧ t.ix.landmarks = [] ∧ t.fu.map = []))
    ∧ exec .gateFilmSeen s =
      .next
        { s with
          gateFilm := true,
          cu :=
            { s.cu with
              gateReported :=
                s.cu.gateReported || decide (s.tc.state = .threading ∧ s.cu.threader = .engaged) } }

/-- The trailer sensor and the gate sensor. -/
def Obligations.TrailerAndGateSensorsAct : Prop := TrailerEndsTheSeek ∧ GateSensorEvents

/-- The run-up (R13): ceil(100 v² / 2a) + 100 ticks; a run starts one run-up before its first window at the given speed if
that fits, else at the greatest whole speed from 5 mm/s whose run-up fits, else at 5 mm/s from 0. -/
def Obligations.RunUpIsComputed : Prop :=
  ∀ a v first : Nat, 0 < a → 5 ≤ v →
    (100 * v ^ 2 ≤ (runUp a v - 100) * (2 * a) ∧ ∀ k, 100 * v ^ 2 ≤ k * (2 * a) → runUp a v - 100 ≤ k)
    ∧ 100 ≤ runUp a v
    ∧ (runUp a 5 ≤ first →
      let r := runStart a v first
      5 ≤ r.1 ∧ r.1 ≤ v ∧ runUp a r.1 ≤ first ∧ r.2 = first - runUp a r.1
        ∧ ∀ u, 5 ≤ u → u ≤ v → runUp a u ≤ first → u ≤ r.1)
    ∧ (first < runUp a 5 → runStart a v first = (5, 0))

/-! ### Tension -/

/-- T_raw is floor((code − zero_code) × K / (G × 256)), toward minus infinity, and the reported tension is T_raw
clamped to [0, 4000] (R25). -/
def Sys2Proof.Expect.SampleIsConverted : Prop :=
  ∀ (code : Nat) (s : State), s.resetHeld = false → 0 < s.tu.settings.gain →
    ∃ t : State, exec (.tensionSample code) s = .next t
      ∧ t.tu.code = code
      ∧ t.tu.tRaw * (s.tu.settings.gain * 256) ≤ ((code : Int) - s.tu.zeroCode) * s.tu.settings.scale
      ∧ ((code : Int) - s.tu.zeroCode) * s.tu.settings.scale < (t.tu.tRaw + 1) * (s.tu.settings.gain * 256)
      ∧ t.reportedTension = (min (max t.tu.tRaw 0) 4000).toNat

/-- What a sample leaves of TU (R24, R26, R30 to R32, R35), and that it changes nothing else: the calibration's sum,
the comparator's counts and its indication, a detection at the sample that brings the over count to F while the loop
is on (its own step is then due, the model's choice, log 5), the loop's running sum, the on-target count, and the
slack counts while the film moves. -/
def Sys2Proof.Expect.SampleIsCounted : Prop :=
  ∀ (code : Nat) (s : State), s.resetHeld = false →
    let exceeds : Bool := decide (s.tu.limitCode < code ∨ code = 4095)
    let f := s.tu.settings.filterCount
    let moving : Bool :=
      decide ((s.tc.state = .seeking ∨ s.tc.state = .scanning ∨ s.tc.state = .rewinding) ∧ s.tc.direction ≠ .none)
    ∃ v : Tu, exec (.tensionSample code) s = .next { s with tu := v }
      ∧ (v.overCount, v.withinCount, v.overLimit) =
        (if exceeds then (min (s.tu.overCount + 1) 16, 0, true) else (0, min (s.tu.withinCount + 1) 16, false))
      ∧ (v.detectionDue =
        (s.tu.detectionDue || (exceeds && s.tu.loopOn && decide (s.tu.overCount < f ∧ f ≤ min (s.tu.overCount + 1) 16))))
      ∧ (v.calSum, v.calCount) =
        (if s.tu.calStatus = .inProgress ∧ s.tu.calCount < 64 then (s.tu.calSum + code, s.tu.calCount + 1)
         else (s.tu.calSum, s.tu.calCount))
      ∧ v.runningSum =
        (if s.tu.loopOn then s.tu.runningSum + s.tu.setpoint - ({ s with tu := v } : State).reportedTension
         else s.tu.runningSum)
      ∧ (let near : Bool :=
          s.tu.loopOn && decide (s.tu.setpoint = s.tu.settings.target)
            && decide (distance ({ s with tu := v } : State).reportedTension s.tu.settings.target ≤ 10)
         (v.onTargetCount, v.onTarget) = (if near then (min (s.tu.onTargetCount + 1) 100, s.tu.onTarget) else (0, false)))
      ∧ (v.slackCount, v.breakCount, v.recoveryCount) =
        (if moving = false then (s.tu.slackCount, s.tu.breakCount, s.tu.recoveryCount)
         else if v.tRaw < s.tu.settings.slackLevel then
          (min (s.tu.slackCount + 1) 16, min (s.tu.breakCount + 1) 500, 0)
         else (0, 0, min (s.tu.recoveryCount + 1) 16))
      ∧ v.settings = s.tu.settings ∧ v.zeroCode = s.tu.zeroCode ∧ v.limitCode = s.tu.limitCode ∧ v.loopOn = s.tu.loopOn
      ∧ v.setpoint = s.tu.setpoint ∧ v.capInForce = s.tu.capInForce ∧ v.driveInhibit = s.tu.driveInhibit
      ∧ v.slackEpisode = s.tu.slackEpisode ∧ v.calStatus = s.tu.calStatus

/-- TENSION_SAMPLE. -/
def Obligations.SampleIsTaken : Prop := SampleIsConverted ∧ SampleIsCounted

/-- The limit code (R32): zero_code plus the least whole number at or above limit × G × 256 / K. -/
def Sys2Proof.Expect.IsLimitCode (base limit gain scale code : Nat) : Prop :=
  base ≤ code ∧ limit * gain * 256 ≤ (code - base) * scale ∧ ∀ k, limit * gain * 256 ≤ k * scale → code - base ≤ k

/-- SET_TENSION (R28, R29, R32): its six checks in order; accepted, the settings are replaced, and where a restricted one
changed the limit code is recomputed, the four counts are 0 and the speed cap is lifted. The reply carries the limit
code. -/
def Sys2Proof.Expect.TensionSettingsAreSet : Prop :=
  ∀ (tag : Byte) (a : TensionArgs) (s : State), Listening s →
    let g := s.tu.settings
    let inRange : Bool :=
      decide ((a.gain = 1 ∨ a.gain = 2 ∨ a.gain = 4 ∨ a.gain = 8) ∧ (1 ≤ a.scale ∧ a.scale ≤ 65535)
        ∧ (50 ≤ a.target ∧ a.target ≤ 800) ∧ (100 ≤ a.limit ∧ a.limit ≤ 1500) ∧ a.slackLevel ≤ 200
        ∧ (a.filterCount = 1 ∨ a.filterCount = 4 ∨ a.filterCount = 8 ∨ a.filterCount = 16) ∧ a.action ≠ none)
    let limitCode := limitCodeOf s.tu.zeroCode a.limit a.gain a.scale
    let restricted : Bool :=
      decide (a.gain ≠ g.gain ∨ a.scale ≠ g.scale ∨ a.limit ≠ g.limit ∨ a.filterCount ≠ g.filterCount
        ∨ a.action ≠ some g.action)
    let v : Tu :=
      { s.tu with
        settings :=
          { gain := a.gain, scale := a.scale, target := a.target, limit := a.limit, slackLevel := a.slackLevel,
            filterCount := a.filterCount, action := a.action.getD .halt } }
    let w : Tu :=
      if restricted then
        { v with
          limitCode := limitCode, overCount := 0, withinCount := 0, slackCount := 0, breakCount := 0, capInForce := false }
      else v
    exec (.setTension tag a) s =
      .next
        (answered s tag 0x09
          (if inRange = false then some .range
           else if a.limit ≤ a.target then some .range
           else if a.target ≤ a.slackLevel then some .range
           else if 4095 < limitCode then some .range
           else if s.tu.calStatus = .inProgress then some .busy
           else if restricted ∧ s.tc.state ≠ .unloaded ∧ s.tc.state ≠ .stopped then some .busy
           else none)
          { placed s with tu := w } .ok (u16 w.limitCode))
    ∧ (inRange = true → IsLimitCode s.tu.zeroCode a.limit a.gain a.scale limitCode)

/-- ZERO_TENSION and CALIBRATION_COMPLETE (R26): refused BUSY unless UNLOADED with none in progress; at the 64th
sample the average rounded half-up becomes zero_code with its limit code where that is 4095 or less, else the status
is OUT_OF_RANGE. CALIBRATION_COMPLETE without a calibration at its 64th sample changes nothing (log 8). -/
def Sys2Proof.Expect.ZeroCalibration : Prop :=
  ∀ (tag : Byte) (s : State), s.resetHeld = false →
    (s.li.places < 4 →
      exec (.zeroTension tag) s =
        .next
          (answered s tag 0x08 (if s.tc.state ≠ .unloaded ∨ s.tu.calStatus = .inProgress then some .busy else none)
            { placed s with tu := { s.tu with calStatus := .inProgress, calSum := 0, calCount := 0 } } .accepted []))
    ∧ (¬ (s.tu.calStatus = .inProgress ∧ s.tu.calCount = 64) → exec .calibrationComplete s = .next s)
    ∧ (s.tu.calStatus = .inProgress → s.tu.calCount = 64 →
      let average := (s.tu.calSum + 32) / 64
      let limitCode := limitCodeOf average s.tu.settings.limit s.tu.settings.gain s.tu.settings.scale
      exec .calibrationComplete s =
        .next
          { s with
            tu :=
              if limitCode ≤ 4095 then
                { s.tu with
                  zeroCode := average, limitCode := limitCode, calStatus := .done, calSum := 0, calCount := 0,
                  overCount := 0, withinCount := 0, slackCount := 0, breakCount := 0 }
              else { s.tu with calStatus := .outOfRange, calSum := 0, calCount := 0 } })

/-- SET_TENSION, ZERO_TENSION and CALIBRATION_COMPLETE. -/
def Obligations.TensionIsSetAndCalibrated : Prop := TensionSettingsAreSet ∧ ZeroCalibration

/-- The loop's own steps (R31, R34, R35): the setpoint moves by 1 cN toward the target while the loop is on, the
on-target indication is set once its condition has held on 100 samples, the speed cap is lifted when the within count
has reached F, and a slack episode ends when the recovery count has; a step whose condition does not hold changes
nothing (log 8). -/
def Sys2Proof.Expect.TensionStepsFollowTheirCounts : Prop :=
  ∀ s : State, s.resetHeld = false →
    let u := s.tu
    let f := u.settings.filterCount
    exec .setpointRampStep s =
        .next
          { s with
            tu :=
              { u with
                setpoint :=
                  if u.loopOn = false then u.setpoint
                  else if u.setpoint < u.settings.target then u.setpoint + 1
                  else if u.settings.target < u.setpoint then u.setpoint - 1
                  else u.setpoint } }
      ∧ exec .onTargetSet s =
        .next { s with tu := { u with onTarget := u.onTarget || decide (u.loopOn = true ∧ 100 ≤ u.onTargetCount) } }
      ∧ exec .speedCapLift s =
        .next { s with tu := { u with capInForce := u.capInForce && decide (u.withinCount < f) } }
      ∧ exec .slackEpisodeEnd s =
        .next { s with tu := { u with slackEpisode := u.slackEpisode && decide (u.recoveryCount < f) } }

/-- OVER_TENSION_DETECTION, SLACK_EPISODE_BEGIN and FILM_BREAK_DETECTION (R32 to R36): the action in force, the TRIP
notice and the report OVER_TENSION, MAJOR under HALT and MINOR under REPORT; SLACK at the count F; FILM_BREAK at the
count 500. Without their condition they change nothing (a detection is due from its sample on, log 5; the rest is log
8); under REPORT the speed cap comes into force with the loop on (R34, log 20). -/
def Sys2Proof.Expect.TensionFaultsAreReported : Prop :=
  ∀ s : State, s.resetHeld = false →
    let moving : Bool :=
      decide ((s.tc.state = .seeking ∨ s.tc.state = .scanning ∨ s.tc.state = .rewinding) ∧ s.tc.direction ≠ .none)
    let trip (t : State) : State :=
      t.post .trip
        (.trip s.tu.settings.action s.tu.code s.reportedTension s.tu.limitCode s.tc.position s.tc.state)
    exec .overTensionDetection s =
        .next
          (if s.tu.detectionDue = false then s
           else
            match s.tu.settings.action with
            | .halt =>
              (trip { s with tu := { s.tu with detectionDue := false, driveInhibit := true } }).raise .overTension .major
                .overTension
            | .report =>
              (trip { s with tu := { s.tu with detectionDue := false, capInForce := s.tu.loopOn } }).raise .overTension
                .minor .overTension)
      ∧ exec .slackEpisodeBegin s =
        .next
          (if moving = true ∧ s.tu.settings.filterCount ≤ s.tu.slackCount ∧ s.tu.slackEpisode = false then
            State.raise { s with tu := { s.tu with slackEpisode := true } } .slack .minor
              (.slack s.tu.tRaw s.tc.position s.tc.state)
           else s)
      ∧ exec .filmBreakDetection s =
        .next
          (if moving = true ∧ 500 ≤ s.tu.breakCount then
            s.raise .filmBreak .major (.breakSlack s.tu.tRaw s.tc.position)
           else s)

/-- The steps and the detections that follow from samples. -/
def Obligations.TensionStepsAndDetections : Prop := TensionStepsFollowTheirCounts ∧ TensionFaultsAreReported

/-! ### The carousel and the directory -/

/-- The entries with one replaced. -/
def Sys2Proof.Expect.withEntry (s : State) (n : Nat) (e : Entry) : State :=
  { s with cu := { s.cu with entries := s.cu.entries.set n e } }

/-- ASSIGN_ROLL (R45): its four checks in order; the description is replaced and a REJECTED entry becomes STORED with
SLOT_CHANGE; a label is set (a label arrival), removed (a roll gone) or replaced (both, with the entry's index fields
as for a new insertion, the landmarks-dropped indication among them, which is log 36). -/
def Sys2Proof.Expect.RollIsDescribed : Prop :=
  ∀ (tag : Byte) (a : AssignArgs) (s : State), Listening s → s.cu.entries.length = 12 →
    let e := s.entry a.slot
    let inRange : Bool :=
      decide (a.slot ≤ 11 ∧ a.gauge ≠ none ∧ a.base ≠ none ∧ 51200 ≤ a.q0 ∧ a.q0 ≤ 1536000 ∧ a.lampLevel ≤ 1023
        ∧ a.label.length ≤ 16 ∧ ∀ b ∈ a.label, 0x20 ≤ b.toNat ∧ b.toNat ≤ 0x7E)
    let refusal : Option Status :=
      if inRange = false then some .range
      else if e.state = .empty then some .noRoll
      else if e.state = .mounting ∨ e.state = .mounted ∨ e.state = .unmounting then some .busy
      else if a.label ≠ [] ∧ (List.range 12).any fun n => decide (n ≠ a.slot ∧ (s.entry n).label = a.label) then some .duplicateLabel
      else none
    let d : Description :=
      { gauge := a.gauge.getD .mm16, base := a.base.getD .acetate, q0 := a.q0, lampLevel := a.lampLevel }
    let described : State :=
      let t := withEntry (placed s) a.slot { e with description := some d, state := .stored }
      if e.state = .rejected then t.post .slotChange (.slotChange a.slot .stored) else t
    (∀ r, refusal = some r → exec (.assignRoll tag a) s = .next (replied (placed s) tag 0x10 r []))
    ∧ (refusal = none →
      exec (.assignRoll tag a) s =
        .next
          (replied
            (if e.label = a.label then described
             else if e.label = [] then
              (withEntry described a.slot { e with description := some d, state := .stored, label := a.label }).labelArrival
                a.label
             else if a.label = [] then
              (withEntry described a.slot { e with description := some d, state := .stored, label := [] }).rollGone a.slot
                e.label
             else
              ((withEntry described a.slot
                { Entry.empty with state := .stored, label := a.label, description := some d }).rollGone a.slot
                  e.label).labelArrival a.label)
            tag 0x10 .ok []))

/-- FORGET_INDEX (R46): its checks; then UNINDEXED, no last indexed frame, empty saved segment table and landmark
list, the landmarks-dropped indication clear; the READY requests of the slot wait for an index. Label, description,
roll length and focus map stay. -/
def Sys2Proof.Expect.IndexIsForgotten : Prop :=
  ∀ (tag : Byte) (n : Nat) (s : State), Listening s →
    let e := s.entry n
    let t :=
      withEntry (placed s) n
        { e with
          indexState := .unindexed, lastIndexed := none, segments := [], landmarks := [], landmarksDropped := false }
    exec (.forgetIndex tag n) s =
      .next
        (answered s tag 0x11
          (if 11 < n then some .range
           else if e.state = .empty ∨ e.state = .rejected then some .noRoll
           else if e.state = .mounting ∨ e.state = .mounted ∨ e.state = .unmounting then some .busy
           else none)
          (if e.label = [] then t
           else
            offered
              { t with
                rs :=
                  { t.rs with
                    queue :=
                      t.rs.queue.map fun r =>
                        if r.slot = some n ∧ r.state = .ready then
                          { r with slot := some n, placed := none, state := .waitingIndex }
                        else r } })
          .ok [])

/-- ASSIGN_ROLL and FORGET_INDEX. -/
def Obligations.DirectoryIsWritten : Prop := RollIsDescribed ∧ IndexIsForgotten

/-- MOUNT_ROLL (R40, R48, R49): its five checks in order; the entry is MOUNTING with SLOT_CHANGE, the lock is engaged
on the slot, TC is THREADING, a calibration short of its 64th sample is abandoned (R27); the carousel turns the way
that takes fewer slots, ascending at six (and where the slot is at the station without the at-position indication, log
36), with the rotation timer running. A slot already at the station, at position, is threaded at once. -/
def Sys2Proof.Expect.MountBegins : Prop :=
  ∀ (tag : Byte) (n : Nat) (s : State), Listening s → s.cu.entries.length = 12 →
    let e := s.entry n
    let refusal : Option Status :=
      if s.rs.mode = .auto then some .mode
      else if 11 < n then some .range
      else if s.latched then some .halted
      else if s.tc.state ≠ .unloaded ∨ s.cu.threader = .retracting then some .occupied
      else if e.state ≠ .stored ∨ e.description = none then some .noRoll
      else none
    (∀ r, refusal = some r → exec (.mountRoll tag n) s = .next (replied (placed s) tag 0x13 r []))
    ∧ (refusal = none →
      ∃ t : State, exec (.mountRoll tag n) s = .next (replied t tag 0x13 .accepted [])
        ∧ t.cu.entries = s.cu.entries.set n { e with state := .mounting } ∧ t.cu.lock = some n
        ∧ t.cu.opRequester = some .host ∧ t.cu.station = s.cu.station ∧ t.cu.atPosition = s.cu.atPosition
        ∧ t.tc.state = .threading
        ∧ t.tc.motion = some (.threading { speedLimit := 5, accel := s.tc.settings.acceleration })
        ∧ t.tc.position = s.tc.position
        ∧ t.tc.threaded = s.tc.threaded
        ∧ t.li = ((placed s).post .slotChange (.slotChange n .mounting)).li
        ∧ t.tu.calStatus = (if s.tu.calStatus = .inProgress ∧ s.tu.calCount < 64 then .abandoned else s.tu.calStatus)
        ∧ t.tu.zeroCode = s.tu.zeroCode ∧ t.tu.limitCode = s.tu.limitCode
        ∧ t.ix = s.ix ∧ t.fu = s.fu ∧ t.cp = s.cp ∧ t.ct = s.ct ∧ t.dc = s.dc ∧ t.fm = s.fm
        ∧ (if s.cu.station = n ∧ s.cu.atPosition = true then
            t.cu.threader = .engaged ∧ t.cu.threadingTimer = true ∧ t.cu.rotation = none ∧ t.tu.loopOn = true
              ∧ t.tc.phase = .creep ∧ t.tc.travel = .forward
           else
            t.cu.rotationTimer = true ∧ t.tc.phase = .idle
              ∧ t.cu.rotation = some { target := n, ascending := decide ((n + 12 - s.cu.station) % 12 ≤ 6) }))

/-- UNMOUNT_ROLL (R54): its four checks in order; the live tables are copied into the entry, which is UNMOUNTING, TC
is REWINDING toward P = 0 at the rewind speed, at creep speed where its deceleration trigger is met as it is taken (R5), as
it always is at P = 0 (at once also where the film still coasts forward, log 36), and the INDEX_PASS item leaves the
list. -/
def Sys2Proof.Expect.UnmountBegins : Prop :=
  ∀ (tag : Byte) (s : State), Listening s → s.cu.entries.length = 12 →
    let refusal : Option Status :=
      if s.rs.mode = .auto then some .mode
      else if s.latched then some .halted
      else if s.tc.state = .unloaded then some .noRoll
      else if s.tc.state ≠ .stopped ∨ s.fu.probe ≠ none then some .busy
      else none
    (∀ r, refusal = some r → exec (.unmountRoll tag) s = .next (replied (placed s) tag 0x14 r []))
    ∧ (∀ n, refusal = none → s.mountedSlot = some n →
      ∃ t : State, exec (.unmountRoll tag) s = .next (replied t tag 0x14 .accepted [])
        ∧ t.cu.entries =
          s.cu.entries.set n
            { s.entry n with
              state := .unmounting, segments := s.ix.segments, landmarks := s.ix.landmarks, focusMap := s.fu.map }
        ∧ t.cu.lock = s.cu.lock ∧ t.tc.state = .rewinding ∧ t.tc.travel = .reverse
        ∧ t.tc.phase =
          (if 100 * s.tc.speed ^ 2 < s.tc.position * (2 * s.tc.settings.acceleration) then .travel
           else if s.tc.speed ≤ 5 then .creep
           else .decelerate)
        ∧ t.tc.motion =
          some
            (.rewind
              { recovery := false, speedLimit := 4000, accel := s.tc.settings.acceleration,
                capSpeed := s.tc.settings.scanSpeed })
        ∧ t.tc.position = s.tc.position ∧ t.tc.threaded = s.tc.threaded
        ∧ t.li = ((placed s).post .slotChange (.slotChange n .unmounting)).li
        ∧ t.rs.items = s.rs.items.filter (fun i => !isIndexItem i) ∧ t.rs.queue = s.rs.queue
        ∧ t.ix = s.ix ∧ t.fu = s.fu ∧ t.cp = s.cp ∧ t.ct = s.ct ∧ t.dc = s.dc ∧ t.fm = s.fm)

/-- MOUNT_ROLL and UNMOUNT_ROLL. -/
def Obligations.MountAndUnmountBegin : Prop := MountBegins ∧ UnmountBegins

/-- CAROUSEL_POSITION_CHANGE and THREADING_COMPLETE (R40, R50): the sensor is read; at the target the threader is
engaged with its timer and the loop on. With gate film and the on-target indication the entry is MOUNTED, TC is
STOPPED at P = 0, threaded, and the entry's tables, gauge and lamp level are installed; until then nothing happens
(log 8). -/
def Obligations.RollIsThreaded : Prop :=
  ∀ s : State, s.resetHeld = false → s.cu.entries.length = 12 →
    (∀ (station : Nat) (at_ : Bool),
      let read : State := { s with cu := { s.cu with station := station, atPosition := at_ } }
      (¬ (∃ r, s.cu.rotation = some r ∧ r.target = station ∧ at_ = true) →
        exec (.carouselPositionChange station at_) s = .next read)
      ∧ (∀ r, s.cu.rotation = some r → r.target = station → at_ = true → s.tc.state = .threading →
        ∃ t : State, exec (.carouselPositionChange station at_) s = .next t
          ∧ t.cu =
            { read.cu with
              rotation := none, rotationTimer := false, threader := .engaged, threadingTimer := true,
              gateReported := s.gateFilm }
          ∧ t.tc = { s.tc with phase := .creep, travel := .forward } ∧ t.tu.loopOn = true
          ∧ t.li = s.li ∧ t.ix = s.ix ∧ t.fm = s.fm ∧ t.rs = s.rs))
    ∧ (¬ (s.tc.state = .threading ∧ s.cu.threader = .engaged ∧ s.gateFilm = true ∧ s.tu.onTarget = true) →
      exec .threadingComplete s = .next s)
    ∧ (∀ n, s.tc.state = .threading → s.cu.threader = .engaged → s.gateFilm = true → s.tu.onTarget = true →
      s.mountedSlot = some n →
      ∃ t : State, exec .threadingComplete s = .next t
        ∧ t.tc.state = .stopped ∧ t.tc.position = 0 ∧ t.tc.underrun = 0 ∧ t.tc.threaded = true ∧ t.tc.motion = none
        ∧ t.cu.threader = .retracted ∧ t.cu.threadingTimer = false ∧ t.cu.lock = s.cu.lock
        ∧ t.cu.entries = s.cu.entries.set n { s.entry n with state := .mounted }
        ∧ t.ix.segments = (s.entry n).segments ∧ t.ix.landmarks = (s.entry n).landmarks
        ∧ t.ix.tracker =
          { state := .none, frame := none, segment := none, lastMark := none, leaderArmed := true, stray := 0 }
        ∧ t.ix.invalidMarks = 0 ∧ t.fu.map = (s.entry n).focusMap
        ∧ t.cp.gauge = (s.entry n).description.map Description.gauge
        ∧ t.cp.lampLevel = (s.entry n).description.map Description.lampLevel
        ∧ t.fm = s.fm ∧ t.dc = s.dc ∧ t.ct = s.ct)

/-- The carousel's timers and the retraction's end (R51, R52): an expired rotation or retraction timer raises
CAROUSEL_JAM; an expired threading timer leaves TC UNLOADED, the entry REJECTED, THREAD_FAILED raised and the leader
retracting; the leader retracted releases the lock. An event whose timer is stopped changes nothing (log 8). A slot
whose sensor reports it empty by then is left to R44 and log 27. -/
def Obligations.CarouselTimersAct : Prop :=
  ∀ s : State, s.resetHeld = false → s.cu.entries.length = 12 →
    (s.cu.rotationTimer = false → exec .rotationTimeout s = .next s)
    ∧ (∀ r, s.cu.rotation = some r → s.cu.rotationTimer = true →
      exec .rotationTimeout s =
        .next
          (State.raise { s with cu := { s.cu with rotationTimer := false } } .carouselJam .major
            (.jamRotation r.target s.cu.station s.cu.atPosition)))
    ∧ exec .retractionTimeout s =
      .next
        (if s.cu.retractionTimer then
          State.raise { s with cu := { s.cu with retractionTimer := false } } .carouselJam .major
            (.jamThreader (s.cu.lock.getD 0))
         else s)
    ∧ (s.cu.threadingTimer = false → exec .threadingTimeout s = .next s)
    ∧ (∀ n, s.cu.threadingTimer = true → s.mountedSlot = some n → s.presence.getD n false = true →
      ∃ t : State, exec .threadingTimeout s = .next t
        ∧ t.tc.state = .unloaded ∧ t.tc.motion = none ∧ t.tu.loopOn = false
        ∧ t.cu.entries = s.cu.entries.set n { s.entry n with state := .rejected }
        ∧ t.cu.threader = .retracting ∧ t.cu.retractionTimer = true ∧ t.cu.threadingTimer = false
        ∧ t.cu.lock = s.cu.lock ∧ (∃ e ∈ t.fm.active, e.code = .threadFailed ∧ e.detail = .threadFailed n s.cu.gateReported)
        ∧ t.ix = s.ix ∧ t.fu = s.fu ∧ t.dc = s.dc ∧ t.ct = s.ct)
    ∧ (s.cu.threader ≠ .retracting → exec .leaderRetracted s = .next s)
    ∧ (∀ n, s.cu.threader = .retracting → s.cu.lock = some n → s.presence.getD n false = true →
      exec .leaderRetracted s =
        .next (offered { s with cu := { s.cu with threader := .retracted, retractionTimer := false, lock := none } }))

/-- The slot presence sensors (R43, R44): a change starts the slot's 250 ms, and a report that repeats the value changes
nothing; stable, an insertion makes an EMPTY entry STORED with nothing else known and posts SLOT_CHANGE; a removal makes a
STORED or REJECTED entry EMPTY, posts it, and reports a labelled roll gone; any other report only ends the wait. A
PRESENCE_STABLE with no wait running changes nothing (log 8). -/
def Obligations.PresenceIsTakenWhenStable : Prop :=
  ∀ (n : Nat) (s : State), s.resetHeld = false → n < 12 → s.presence.length = 12 →
    let present := s.presence.getD n false
    let e := s.entry n
    let waited : State := { s with cu := { s.cu with settling := s.cu.settling.set n false } }
    (∀ b : Bool,
      exec (.slotPresenceChange n b) s =
        .next
          (if present = b then s
           else { s with presence := s.presence.set n b, cu := { s.cu with settling := s.cu.settling.set n true } }))
    ∧ exec (.presenceStable n) s =
      .next
        (if s.cu.settling.getD n false = false then s
         else if present = true ∧ e.state = .empty then
          (withEntry waited n { Entry.empty with state := .stored }).post .slotChange (.slotChange n .stored)
         else if present = false ∧ (e.state = .stored ∨ e.state = .rejected) then
          let gone := (withEntry waited n Entry.empty).post .slotChange (.slotChange n .empty)
          if e.label = [] then gone else gone.rollGone n e.label
         else waited)

/-! ### Marks, the index and pitch learning -/

/-- SET_MARK_CLASSES (R61): RANGE unless 20 < short_max < medium_max < long_max ≤ 4000; BUSY in SEEKING, SCANNING,
REWINDING or THREADING or during an index pass; else the limits are replaced. The limits held at a mark's second edge
class it, and it goes to the tracker (R63 to R67) at its position and in its direction. They are 120, 300 and 800
after power-on, and neither a soft reset nor a mount changes them. -/
def Obligations.MarkClassesAreSet : Prop :=
  (∀ (tag : Byte) (a b c : Nat) (s : State), Listening s →
    exec (.setMarkClasses tag a b c) s =
      .next
        (answered s tag 0x18
          (if ¬ (20 < a ∧ a < b ∧ b < c ∧ c ≤ 4000) then some .range
           else if s.tc.state = .seeking ∨ s.tc.state = .scanning ∨ s.tc.state = .rewinding ∨ s.tc.state = .threading
              ∨ s.ix.pass ≠ none then some .busy
           else none)
          { placed s with ix := { s.ix with classes := { shortMax := a, mediumMax := b, longMax := c } } } .ok []))
  ∧ (∀ (p : Nat) (e : FirstEdge) (s : State), s.resetHeld = false → s.ix.firstEdge = some e → s.tc.speed ≤ 1500 →
      s.tc.underrun = 0 → s.tc.direction = e.direction → e.direction ≠ .none → 20 ≤ distance e.position p →
      let long := distance e.position p
      let lifted : State := { s with ix := { s.ix with firstEdge := none } }
      let track (c : MarkClass) : State :=
        (lifted.trackMark (decide (e.direction = .forward)) (markPosition e.direction e.position p) c).settleSince lifted
      exec (.edgeMark .second p) s =
        .next
          (if long ≤ s.ix.classes.shortMax then track .short
           else if long ≤ s.ix.classes.mediumMax then track .medium
           else if long ≤ s.ix.classes.longMax then track .long
           else { lifted with ix := { lifted.ix with invalidMarks := min (s.ix.invalidMarks + 1) 65535 } }))
  ∧ State.reset.ix.classes = { shortMax := 120, mediumMax := 300, longMax := 800 }
  ∧ (∀ (x : Sensors) (s : State), ∃ t, exec (.powerOn x) s = .next t ∧ t.ix.classes = State.reset.ix.classes)
  ∧ (∀ (tag : Byte) (s : State), Listening s → ∃ t, exec (.reset tag) s = .next t ∧ t.ix.classes = s.ix.classes)
  ∧ (∀ (tag : Byte) (n : Nat) (s : State),
      (∃ t, exec (.mountRoll tag n) s = .next t ∧ t.ix.classes = s.ix.classes)
        ∧ ∃ t, exec .threadingComplete s = .next t ∧ t.ix.classes = s.ix.classes)

/-- SET_PITCH_LEARNING (R95): RANGE outside 1 to 6; else k is replaced in every state, and every observation from then on
learns by it. k is 3 after power-on and after RESETn, a soft reset keeps it, and READ_INDEX reports it last. -/
def Obligations.SmoothingShiftIsSet : Prop :=
  (∀ (tag : Byte) (k : Nat) (s : State), Listening s →
    exec (.setPitchLearning tag k) s =
      .next
        (answered s tag 0x1B (if 1 ≤ k ∧ k ≤ 6 then none else some .range)
          { placed s with ix := { s.ix with shift := k } } .ok []))
  ∧ (∀ (s : State) (g : Segment) (f m : Nat),
      (s.observe g f m).ix.segments =
        s.ix.segments.map fun x => if x.number = g.number then observed s.ix.shift x f m else x)
  ∧ State.reset.ix.shift = 3
  ∧ (∀ (x : Sensors) (s : State),
      (∃ t, exec (.powerOn x) s = .next t ∧ t.ix.shift = 3)
        ∧ (s.resetHeld = true → ∃ t, exec (.resetnRelease x) s = .next t ∧ t.ix.shift = 3))
  ∧ (∀ (tag : Byte) (s : State), Listening s →
      (∃ t, exec (.reset tag) s = .next t ∧ t.ix.shift = s.ix.shift)
        ∧ ∃ d, exec (.readIndex tag) s = .next (replied (placed s) tag 0x1A .ok (d ++ u8 s.ix.shift)))

/-- EDGE_MARK (R59, R60): the first edge is kept with the direction at it while marks can be read; the second takes it
away; below 20 ticks the mark is noise, above long_max it counts as invalid; above 1500 mm/s, with an underrun or in
another direction no mark is read (a direction that changed and changed back is not seen, log 36); with the direction
NONE the mark lies at its lower edge and is taken as read toward the second (log 21). -/
def Obligations.MarkIsReadFromItsEdges : Prop :=
  ∀ (p : Nat) (s : State), s.resetHeld = false →
    let readable : Bool := decide (s.tc.speed ≤ 1500 ∧ s.tc.underrun = 0)
    let lifted : State := { s with ix := { s.ix with firstEdge := none } }
    exec (.edgeMark .first p) s =
        .next
          { s with
            ix :=
              { s.ix with
                firstEdge := if readable then some { position := p, direction := s.tc.direction } else none } }
      ∧ (s.ix.firstEdge = none → exec (.edgeMark .second p) s = .next s)
      ∧ (∀ e, s.ix.firstEdge = some e →
        let long := distance e.position p
        ((readable = false ∨ s.tc.direction ≠ e.direction) → exec (.edgeMark .second p) s = .next lifted)
        ∧ (readable = true → s.tc.direction = e.direction →
          (long < 20 → exec (.edgeMark .second p) s = .next lifted)
          ∧ (20 ≤ long → s.ix.classes.shortMax < long → s.ix.classes.mediumMax < long → s.ix.classes.longMax < long →
            exec (.edgeMark .second p) s =
              .next
                { s with
                  ix := { s.ix with firstEdge := none, invalidMarks := min (s.ix.invalidMarks + 1) 65535 } })
          ∧ (e.direction = .none → 20 ≤ long → long ≤ s.ix.classes.shortMax →
            exec (.edgeMark .second p) s =
              .next ((lifted.trackMark (decide (e.position ≤ p)) (min e.position p) .short).settleSince lifted))))

/-- A SHORT mark read in forward motion while COUNTING in an open segment, outside a pass and a capture (R63, R90):
its step from the last mark is floor(((m − L) × 256 + floor(Q / 2)) / Q); a step of 0 is stray, as is one below 0 (log
21); another counts the frame that far on, and the count is an observation, but for a frame above the last indexed one
in a run, the stop that a soft reset makes of an index run taken as one (log 36). -/
def Obligations.MarkIsCounted : Prop :=
  ∀ (m p f : Nat) (g : Segment) (l : LastMark) (s : State), s.resetHeld = false → s.tc.speed ≤ 1500 →
    s.tc.underrun = 0 → s.tc.direction = .forward → s.ix.pass = none → s.cp.jobs = none →
    s.ix.firstEdge = some { position := m, direction := .forward } → m + 20 ≤ p → p ≤ m + s.ix.classes.shortMax →
    s.ix.tracker.state = .counting → s.currentSegment = some g → s.ix.tracker.frame = some f →
    s.ix.tracker.lastMark = some l → g.lastFrame = none → g.firstFrame ≤ f → 0 < g.pitch →
    let n := markStep g true l.position m
    let lifted : State := { s with ix := { s.ix with firstEdge := none } }
    let counted : State :=
      { lifted with
        ix :=
          { lifted.ix with
            tracker :=
              { s.ix.tracker with
                state := .counting, frame := some (f + n.toNat), segment := some g.number,
                lastMark := some { position := m, cls := .short } } } }
    ((n * g.pitch ≤ ((m : Int) - l.position) * 256 + (g.pitch / 2 : Nat))
      ∧ ((m : Int) - l.position) * 256 + (g.pitch / 2 : Nat) < (n + 1) * g.pitch)
    ∧ (n ≤ 0 →
      exec (.edgeMark .second p) s =
        .next
          { lifted with
            ix :=
              { lifted.ix with
                tracker := { s.ix.tracker with stray := min (s.ix.tracker.stray + 1) 65535 } } })
    ∧ (0 < n → f + n ≤ 65535 →
      exec (.edgeMark .second p) s =
        .next
          (if s.tc.state = .scanning ∧ s.lastIndexed < f + n.toNat then counted
           else counted.observe g (f + n.toNat) m))

/-- SPLICE_EVENT (R69): in an index run at its frontier, COUNTING and forward, it closes the open segment at the
current frame and the splice's position and sets the pending break reason SPLICE; at any other time it has no effect. -/
def Obligations.SpliceClosesTheSegment : Prop :=
  ∀ (p : Nat) (s : State), s.resetHeld = false →
    (¬ (s.atFrontier = true ∧ s.ix.tracker.state = .counting ∧ s.tc.direction = .forward) →
      exec (.spliceEvent p) s = .next s)
    ∧ (∀ (g : Segment) (q : IndexPass) (f : Nat), s.atFrontier = true → s.ix.tracker.state = .counting →
      s.tc.direction = .forward → s.ix.segments.getLast? = some g → s.ix.pass = some q → s.ix.tracker.frame = some f →
      exec (.spliceEvent p) s =
        .next
          { s with
            ix :=
              { s.ix with
                pass := some { q with pending := some .splice },
                segments :=
                  if g.lastFrame = none then
                    s.ix.segments.map fun x =>
                      if x.number = g.number then { x with lastFrame := some f, endPos := some p, frontier := none } else x
                  else s.ix.segments } })

/-- The raw prediction (R86): Pa + floor(((f − Fa) × Q + 128) / 256), the floor toward minus infinity. -/
def Sys2Proof.Expect.RawPrediction : Prop :=
  ∀ (g : Segment) (f : Nat),
    let d : Int := (f : Int) - g.anchorFrame
    let moved := predict g f - g.anchorPos
    moved * 256 ≤ d * g.pitch + 128 ∧ d * g.pitch + 128 < (moved + 1) * 256

/-- The inverse of a position (R88): Fa + floor(((P − Pa) × 256 + floor(Q / 2)) / Q), clamped to [F0, F1] in a closed
segment and to [F0, highest placed frame] in the open one. -/
def Sys2Proof.Expect.InverseOfAPosition : Prop :=
  ∀ (g : Segment) (highest p : Nat), 0 < g.pitch →
    let last := match g.lastFrame with | some e => e | none => highest
    g.firstFrame ≤ last →
    ∃ k : Int,
      k * g.pitch ≤ ((p : Int) - g.anchorPos) * 256 + (g.pitch / 2 : Nat)
      ∧ ((p : Int) - g.anchorPos) * 256 + (g.pitch / 2 : Nat) < (k + 1) * g.pitch
      ∧ (inverse g highest p : Int) =
        (if g.anchorFrame + k < g.firstFrame then (g.firstFrame : Int)
         else if (last : Int) < g.anchorFrame + k then last
         else g.anchorFrame + k)

/-- The capture window (R89): max(8, floor(Q / 1024)) while PROVISIONAL, else max(8, floor(Q / 2048)); from 25 to 1500
ticks over the range of Q. -/
def Sys2Proof.Expect.CaptureWindowOfASegment : Prop :=
  ∀ g : Segment,
    (g.learning = .provisional → captureWindow g = max 8 (g.pitch / 1024))
    ∧ ((g.learning = .learned ∨ g.learning = .drifted) → captureWindow g = max 8 (g.pitch / 2048))
    ∧ (51200 ≤ g.pitch → g.pitch ≤ 1536000 → 25 ≤ captureWindow g ∧ captureWindow g ≤ 1500)

/-- The formulas of a segment: prediction, inverse and capture window. -/
def Obligations.IndexFormulas : Prop := RawPrediction ∧ InverseOfAPosition ∧ CaptureWindowOfASegment

/-- The law of placed positions (R87): a placed position lies within its segment's bounds and, once the roll length is
known, within the guard end; CLAMPED is set exactly where it differs from the raw prediction; a guard end below S0
places nothing. -/
def Obligations.PlacedPositionsAreBounded : Prop :=
  ∀ (g : Segment) (length : Option Nat) (f : Nat), g.startPos ≤ upperBound g →
    (match placeIn g length f with
      | .placed p =>
        p.segment = g.number ∧ g.startPos ≤ p.position ∧ p.position ≤ upperBound g
          ∧ (∀ l, length = some l → p.position ≤ l - 2000)
          ∧ (p.clamped = true ↔ (p.position : Int) ≠ predict g f)
      | .beyondGuard => ∃ l, length = some l ∧ l - 2000 < g.startPos
      | .notPlaced => False)

/-- An observation (R91 to R93): within W it clears the rejects, and with a span of 16 frames or more it moves the anchor,
takes the observed pitch whole when PROVISIONAL and by the smoothing shift otherwise, clamped, and makes the segment
LEARNED; outside W it is a reject, and the third makes the segment DRIFTED with PITCH_DRIFT reported. It changes no other
segment and nothing else of the part. -/
def Obligations.ObservationTeachesThePitch : Prop :=
  (∀ (shift f m : Nat) (g : Segment),
    let d : Int := (f : Int) - g.anchorFrame
    let r : Int := (m : Int) - predict g f
    let seen : Int := (((m : Int) - g.anchorPos) * 256).tdiv d
    let q : Int :=
      if g.learning = .provisional then seen else g.pitch + (seen - g.pitch).tdiv (2 ^ shift : Nat)
    let w := observed shift g f m
    (captureWindow g < r.natAbs → g.rejects + 1 < 3 → w = { g with rejects := g.rejects + 1 })
    ∧ (captureWindow g < r.natAbs → 3 ≤ g.rejects + 1 → w = { g with rejects := 0, learning := .drifted })
    ∧ (r.natAbs ≤ captureWindow g → d.natAbs < 16 → w = { g with rejects := 0 })
    ∧ (r.natAbs ≤ captureWindow g → 16 ≤ d.natAbs →
      w =
        { g with
          rejects := 0, pitch := (min (max q 51200) 1536000).toNat, learning := .learned, anchorFrame := f, anchorPos := m,
          observations := min (g.observations + 1) 65535 }))
  ∧ (∀ (s : State) (g : Segment) (f m n : Nat), s.mountedSlot = some n →
      let r : Int := (m : Int) - predict g f
      let t : State :=
        { s with
          ix :=
            { s.ix with
              segments := s.ix.segments.map fun x => if x.number = g.number then observed s.ix.shift x f m else x } }
      s.observe g f m =
        if captureWindow g < r.natAbs ∧ 3 ≤ g.rejects + 1 then
          t.faultOccur .pitchDrift .minor (.pitchDrift n g.number f r g.pitch)
        else t)

/-- LOCATE_FRAME and FRAME_AT (R96, R97): refused in their order, else replied OK with what the index places; neither
changes anything. -/
def Obligations.FrameLookups : Prop :=
  ∀ (tag : Byte) (f p : Nat) (s : State), Listening s →
    exec (.locateFrame tag f) s =
        .next
          (match s.placeLive f, findFrame s.ix.segments s.highestPlaced f with
            | .placed at_, some g =>
              answered s tag 0x1C
                (if f = 0 then some .range else if s.tc.state = .unloaded then some .noRoll else none) (placed s) .ok
                (locateData s f g at_)
            | _, _ =>
              replied (placed s) tag 0x1C
                (if f = 0 then .range else if s.tc.state = .unloaded then .noRoll else .notInRoll) [])
      ∧ exec (.frameAt tag p) s =
        .next
          (match segmentAt s.ix.segments p with
            | some g =>
              answered s tag 0x1D
                (if 16777215 < p then some .range else if s.tc.state = .unloaded then some .noRoll else none) (placed s) .ok
                (u8 g.number ++ u16 (inverse g s.highestPlaced p) ++ i32 (predict g (inverse g s.highestPlaced p)))
            | none =>
              replied (placed s) tag 0x1D
                (if 16777215 < p then .range else if s.tc.state = .unloaded then .noRoll else .notInRoll) [])

/-- INDEX_ROLL (R74, R75): its checks in order, a target frame of 0 in any choice and, by log 13, a choice that names
none, a presence byte above 1 and TARGET without a frame being out of range; on an INDEXED roll, or a PARTIAL one
whose last indexed frame has reached the target, OK without a pass; a FRESH pass at P = 0 empties the index, arms the
leader start and takes the index run at once (also where the film still coasts in reverse, log 36). -/
def Obligations.IndexPassIsOrdered : Prop :=
  ∀ (tag : Byte) (c : Option IndexChoice) (x : OptArg) (s : State), Listening s →
    let e := s.mountedEntry
    let f : Option Nat :=
      match c, x with
      | some .target, .present n => some n
      | some .fresh, .present n => some n
      | _, _ => none
    let refusal : Option Status :=
      if s.rs.mode = .auto then some .mode
      else if c = none ∨ x = .badPresence ∨ (c = some .target ∧ x = .absent) ∨ x = .present 0 then some .range
      else if s.latched then some .halted
      else if s.tc.state = .unloaded then some .noRoll
      else if s.tc.state ≠ .stopped ∨ s.fu.probe ≠ none ∨ s.ix.pass ≠ none then some .busy
      else none
    (∀ r, refusal = some r → exec (.indexRoll tag c x) s = .next (replied (placed s) tag 0x19 r []))
    ∧ (refusal = none → c ≠ some .fresh →
      (e.indexState = .indexed
        ∨ (e.indexState = .partial_ ∧ ∃ n, f = some n ∧ n ≤ (match e.lastIndexed with | some k => k | none => 0))) →
      exec (.indexRoll tag c x) s = .next (replied (placed s) tag 0x19 .ok []))
    ∧ (∀ n, refusal = none → (c = some .fresh ∨ e.indexState = .unindexed) → s.tc.position = 0 →
      s.mountedSlot = some n → s.cu.entries.length = 12 →
      ∃ t : State, exec (.indexRoll tag c x) s = .next (replied t tag 0x19 .accepted [])
        ∧ t.tc.state = .scanning ∧ t.tc.travel = .forward ∧ t.tc.phase = .travel
        ∧ t.tc.motion =
          some
            (.run
              { requester := .ix, purpose := .index, speed := s.tc.settings.indexSpeed,
                accel := s.tc.settings.acceleration, endPosition := none })
        ∧ t.ix.segments = [] ∧ t.ix.landmarks = [] ∧ t.ix.tracker.state = .none ∧ t.ix.tracker.leaderArmed = true
        ∧ t.ix.pass =
          some
            { kind := .fresh, target := f, requester := .host, phase := .run, frontier := true, countedTo := 0,
              pending := none, lastAtStart := none, startedLost := false, firstMarkDue := false, failed := false,
              limitHit := false, trailer := none }
        ∧ t.cu.entries =
          s.cu.entries.set n
            { s.entry n with indexState := .unindexed, lastIndexed := none, landmarksDropped := false }
        ∧ t.fu = s.fu ∧ t.cp = s.cp ∧ t.ct = s.ct ∧ t.dc = s.dc ∧ t.fm = s.fm ∧ t.li = (placed s).li)

/-! ### Focus -/

/-- Every band's score (R103): the sum over its lines of the squares of the differences between each pixel and the
next, saturating at 4,294,967,295. -/
def Sys2Proof.Expect.BandScore : Prop :=
  (∀ band : List (List Byte),
    bandScore band =
      min
        ((band.map fun line =>
          ((line.zip line.tail).map fun (x, y) => ((y.toNat : Int) - x.toNat).natAbs ^ 2).sum).sum)
        4294967295)

/-- The peak of a sweep (R107) is the lowest of the points with the highest score, and a sweep with a point has one. -/
def Sys2Proof.Expect.PeakIsTheLowestOfTheHighest : Prop :=
  ∀ ps : List ProbePoint, ps ≠ [] →
    ∃ x : ProbePoint, ps[peakPlace ps]? = some x ∧ (∀ y ∈ ps, y.mark ≤ x.mark)
      ∧ (∀ (i : Nat) (y : ProbePoint), ps[i]? = some y → y.mark = x.mark → peakPlace ps ≤ i)

/-- The parabola of a peak (R108): 0 where a − 2b + c is 0, else trunc(s × (a − c) / (2 × (a − 2b + c))) clamped to half a
step each way. -/
def Sys2Proof.Expect.PeakIsRefinedByAParabola : Prop :=
  ∀ step a b c : Nat,
    let denom : Int := (a : Int) - 2 * b + c
    let half : Int := (step / 2 : Nat)
    (denom = 0 → parabolaOffset step a b c = 0)
    ∧ (denom ≠ 0 →
      parabolaOffset step a b c = min (max (((step : Int) * ((a : Int) - c)).tdiv (2 * denom)) (-half)) half)

/-- The score of a band and the peak of a sweep. -/
def Obligations.PeakOfASweep : Prop := BandScore ∧ PeakIsTheLowestOfTheHighest ∧ PeakIsRefinedByAParabola

/-- FOCUS_PROBE (R102, R105, R106): its checks in order; the centre is moved so that the sweep fits the soft limits,
and the reply carries it with the shifted indication; the probe records P, and its lamp request warms a lamp that is
OFF. -/
def Obligations.ProbeBegins : Prop :=
  ∀ (tag : Byte) (c h st : OptArg) (s : State), Listening s →
    let f := s.fu.settings
    let value (a : OptArg) (d : Nat) : Nat := match a with | .present n => n | _ => d
    let outside (a : OptArg) (lo hi : Nat) : Bool :=
      match a with | .present n => decide (n < lo ∨ hi < n) | .absent => false | .badPresence => true
    let span := value h f.halfSpan
    let step := value st f.step
    let centre := value c (s.lensFor s.tc.position)
    let refusal : Option Status :=
      if s.rs.mode = .auto then some .mode
      else if outside c 0 4095 ∨ outside h 2 2048 ∨ outside st 1 1024 ∨ 2 * span % step ≠ 0 ∨ 2 * span / step + 1 < 5
          ∨ 33 < 2 * span / step + 1 ∨ f.lensMax - f.lensMin < 2 * span then some .range
      else if s.latched then some .halted
      else if s.tc.state = .unloaded then some .noRoll
      else if s.tc.state ≠ .stopped ∨ s.fu.probe ≠ none ∨ s.ix.pass ≠ none then some .busy
      else none
    let taken : Nat :=
      if centre < f.lensMin + span then f.lensMin + span
      else if f.lensMax < centre + span then f.lensMax - span else centre
    let shifted : Bool := decide (centre < f.lensMin + span ∨ f.lensMax < centre + span)
    (∀ r, refusal = some r → exec (.focusProbe tag c h st) s = .next (replied (placed s) tag 0x20 r []))
    ∧ (refusal = none → s.cp.lamp ≠ .lit → f.lensMin ≤ f.lensMax → f.lensMax ≤ 4095 → 0 < step →
      ∃ points : List ProbePoint,
        points.map ProbePoint.lens =
            (List.range (2 * span / step + 1)).map (fun i => taken - span + i * step)
          ∧ (∀ x ∈ points, x.score = none)
          ∧ exec (.focusProbe tag c h st) s =
            .next
              (replied
                { placed s with
                  fu :=
                    { s.fu with
                      probe :=
                        some
                          { requester := .host, position := s.tc.position, centre := taken, halfSpan := span, step := step,
                            shifted := shifted, sweep := 1, phase := .lamp, points := points } },
                  cp := { s.cp with probeHolds := true, lamp := .warming } }
                tag 0x20 .accepted (u16 taken ++ [if shifted then 1 else 0])))

/-- SET_FOCUS and CLEAR_FOCUS_MAP (R101, R102, R113): SET_FOCUS by its checks in order, a target outside changed soft
limits commanded again at the limit; CLEAR_FOCUS_MAP refused BUSY during a probe, else every entry is gone, and with
none on RS's list nothing else changes. -/
def Obligations.FocusSettingsAndMapClear : Prop :=
  ∀ (tag : Byte) (a : FocusSettings) (s : State), Listening s →
    let inRange : Bool :=
      decide (a.lensMin < a.lensMax ∧ a.lensMax ≤ 4095 ∧ a.nominal ≤ 4095 ∧ 100 ≤ a.mergeDistance
        ∧ a.mergeDistance ≤ 1000000 ∧ 8 ≤ a.staleRatio ∧ a.staleRatio ≤ 15 ∧ 2 ≤ a.halfSpan ∧ a.halfSpan ≤ 2048
        ∧ 1 ≤ a.step ∧ a.step ≤ 1024 ∧ 2 * a.halfSpan % a.step = 0 ∧ 5 ≤ 2 * a.halfSpan / a.step + 1
        ∧ 2 * a.halfSpan / a.step + 1 ≤ 33 ∧ 2 * a.halfSpan ≤ a.lensMax - a.lensMin)
    exec (.setFocus tag a) s =
        .next
          (answered s tag 0x21
            (if inRange = false then some .range
             else if s.fu.probe ≠ none then some .busy
             else if a.mergeDistance ≠ s.fu.settings.mergeDistance ∧ s.tc.state ≠ .unloaded then some .busy
             else none)
            { placed s with
              fu :=
                { s.fu with
                  settings := a,
                  target :=
                    if a.lensMin = s.fu.settings.lensMin ∧ a.lensMax = s.fu.settings.lensMax then s.fu.target
                    else if s.fu.target < a.lensMin then a.lensMin
                    else if a.lensMax < s.fu.target then a.lensMax else s.fu.target } }
            .ok [])
      ∧ (s.fu.probe ≠ none → exec (.clearFocusMap tag) s = .next (replied (placed s) tag 0x22 .busy []))
      ∧ (s.fu.probe = none → s.rs.items = [] → s.rs.pass = none →
        exec (.clearFocusMap tag) s =
          .next (replied { placed s with fu := { s.fu with map := [] } } tag 0x22 .ok []))

/-- LENS_STEP, LAMP_WARMUP_EXPIRY and PROBE_BAND_READ (R101, R106, R124, R125): a warming lamp is LIT, which starts a
probe's sweep at its lowest point and is told to a job list's pass; the lens steps once toward its target; a band read
with the lens at its point and the lamp LIT scores the first point without a score, and the next such point is the
lens's target; a warm-up expiry with no lamp warming and a band that FU has not asked for change nothing (log 8). -/
def Sys2Proof.Expect.LensStepsAndPointsAreScored : Prop :=
  ∀ s : State, s.resetHeld = false →
    exec .lensStep s =
        .next
          { s with
            fu :=
              { s.fu with
                lens :=
                  if s.fu.lens < s.fu.target then s.fu.lens + 1
                  else if s.fu.target < s.fu.lens then s.fu.lens - 1 else s.fu.lens } }
      ∧ (s.cp.lamp ≠ .warming → exec .lampWarmupExpiry s = .next s)
      ∧ (s.cp.lamp = .warming → s.cp.listHolds = true → s.cp.probeHolds = false →
        exec .lampWarmupExpiry s =
          .next
            { s with
              cp := { s.cp with lamp := .lit },
              rs := { s.rs with pass := s.rs.pass.map fun p => { p with lampLit := true } } })
      ∧ (∀ (p : Probe) (x : ProbePoint) (rest : List ProbePoint), s.cp.lamp = .warming → s.cp.listHolds = false →
        s.cp.probeHolds = true → s.fu.probe = some p → p.phase = .lamp → p.points = x :: rest → x.score = none →
        exec .lampWarmupExpiry s =
          .next
            { s with
              cp := { s.cp with lamp := .lit },
              fu :=
                { s.fu with
                  probe := some { p with phase := .sweep },
                  target := clampNat s.fu.settings.lensMin s.fu.settings.lensMax x.lens } })
      ∧ (∀ ls : List (List Byte),
        ((s.fu.probe = none ∨ (∃ p, s.fu.probe = some p ∧ p.phase = .lamp) ∨ s.fu.lens ≠ s.fu.target) →
          exec (.probeBandRead ls) s = .next s)
        ∧ (∀ (p : Probe) (scored : List ProbePoint) (x y : ProbePoint) (rest : List ProbePoint), s.fu.probe = some p →
          p.phase = .sweep → s.fu.lens = s.fu.target → s.cp.lamp = .lit → p.points = scored ++ x :: y :: rest →
          (∀ z ∈ scored, z.score ≠ none) → x.score = none → y.score = none →
          exec (.probeBandRead ls) s =
            .next
              { s with
                fu :=
                  { s.fu with
                    probe :=
                      some
                        { p with
                          points :=
                            scored ++ { x with score := some (bandScore (ls.map s.activePixels)) } :: y :: rest },
                    target := clampNat s.fu.settings.lensMin s.fu.settings.lensMax y.lens } }))

/-- The probe's lamp request is released (R109, R124). -/
def Sys2Proof.Expect.unlit (c : Cp) : Cp := { c with probeHolds := false, lamp := if c.listHolds then c.lamp else .off }

/-- A probe has completed with a result (R109): the entry is in the map, the lens goes to the result, the lamp request is
released, the record is gone; a host's probe posts FOCUS_DONE with the entry that the insertion displaced. Of RS only the
work list, its pass and the round due can change. -/
def Sys2Proof.Expect.probeEnded (s : State) (fm : Fm) (li : Li) (p : Probe) (o : ProbeOutcome) (lens score : Nat)
    (t : State) : Prop :=
  let merge := s.fu.settings.mergeDistance
  t.fu =
      { s.fu with
        probe := none, target := clampNat s.fu.settings.lensMin s.fu.settings.lensMax lens,
        map := mapAfter merge { position := p.position, lens := lens, score := score, stale := false } s.fu.map }
    ∧ t.cp = unlit s.cp ∧ t.fm = fm ∧ t.rs.queue = s.rs.queue ∧ t.tc = s.tc ∧ t.tu = s.tu ∧ t.cu = s.cu ∧ t.ix = s.ix
    ∧ t.ct = s.ct ∧ t.dc = s.dc
    ∧ (p.requester = .host →
      t.li =
        (State.post { s with li := li } .focusDone
          (.focusDone p.requester o p.position lens score p.sweep p.shifted
            ((displacedEntry merge p.position s.fu.map).map fun e => e.position))).li)

/-- The band read that completes a sweep (R106 to R109, R125): with the last point scored, the peak x lies at place j. An
interior peak is refined and the probe ends PEAK. A peak at an end of sweep 1 begins sweep 2 around it, at the points
within the soft limits (log 30). A peak at an end of sweep 2 raises FOCUS_EDGE and the probe ends EDGE_LIMITED. A band read
with the lamp not LIT ends the probe as by a halt. -/
def Sys2Proof.Expect.SweepIsCompleted : Prop :=
  ∀ (ls : List (List Byte)) (s : State) (p : Probe), s.resetHeld = false → s.fu.probe = some p → p.phase = .sweep →
    s.fu.lens = s.fu.target →
    (∀ (scored : List ProbePoint) (z x : ProbePoint) (j : Nat), s.cp.lamp = .lit → p.points = scored ++ [z] →
      (∀ y ∈ scored, y.score ≠ none) → z.score = none →
      let ps := scored ++ [{ z with score := some (bandScore (ls.map s.activePixels)) }]
      ps[j]? = some x → (∀ y ∈ ps, y.mark ≤ x.mark) →
      (∀ (i : Nat) (y : ProbePoint), i < j → ps[i]? = some y → y.mark < x.mark) →
      (∀ a b : ProbePoint, 0 < j → ps[j - 1]? = some a → ps[j + 1]? = some b →
        ∃ t : State, exec (.probeBandRead ls) s = .next t
          ∧ probeEnded s s.fm s.li p .peak (x.lens + parabolaOffset p.step a.mark x.mark b.mark).toNat x.mark t)
      ∧ ((j = 0 ∨ j + 1 = ps.length) → p.sweep = 1 →
        ∃ points : List ProbePoint,
          points.map ProbePoint.lens =
              (((List.range (2 * p.halfSpan / p.step + 1)).map (fun i => x.lens + i * p.step)).filter (fun k =>
                decide (s.fu.settings.lensMin + p.halfSpan ≤ k ∧ k ≤ s.fu.settings.lensMax + p.halfSpan))).map
                (fun k => k - p.halfSpan)
            ∧ (∀ y ∈ points, y.score = none)
            ∧ exec (.probeBandRead ls) s =
              .next
                { s with
                  fu :=
                    { s.fu with
                      probe := some { p with centre := x.lens, sweep := 2, points := points },
                      target :=
                        match points with
                        | y :: _ => clampNat s.fu.settings.lensMin s.fu.settings.lensMax y.lens
                        | [] => s.fu.target } })
      ∧ ((j = 0 ∨ j + 1 = ps.length) → p.sweep ≠ 1 →
        let raised :=
          s.faultOccur .focusEdge .minor
            (.focusEdge p.position x.lens (decide (x.lens = s.fu.settings.lensMin ∨ x.lens = s.fu.settings.lensMax)))
        ∃ t : State, exec (.probeBandRead ls) s = .next t
          ∧ probeEnded s raised.fm raised.li p .edgeLimited x.lens x.mark t))
    ∧ (s.cp.lamp ≠ .lit → p.requester = .host →
      exec (.probeBandRead ls) s =
        .next
          (offered
            (State.post { s with fu := { s.fu with probe := none, target := s.fu.lens }, cp := unlit s.cp } .focusDone
              (.focusAborted .host .halted))))

/-- The lens, the lamp, the points of a sweep and its end. -/
def Obligations.LensMovesAndBandsAreScored : Prop := LensStepsAndPointsAreScored ∧ SweepIsCompleted

/-- The law of the map at an insertion (R111): with an entry within the merge distance, or from a full map, exactly
one entry goes, the nearest, of two equally near the lower-position one; otherwise none; the new one stands in
position order, and no other entry changes. -/
def Obligations.MapInsertion : Prop :=
  ∀ (merge : Nat) (e : MapEntry) (m : List MapEntry), MapLaw m →
    let after := mapAfter merge e m
    let away (x : MapEntry) : Nat := distance x.position e.position
    let crowded : Prop := (∃ x ∈ m, away x ≤ merge) ∨ m.length = 32
    MapLaw after
      ∧ (crowded →
        ∃ x ∈ m, (∀ y ∈ m, away x ≤ away y) ∧ (∀ y ∈ m, away y = away x → x.position ≤ y.position)
          ∧ ∀ y, y ∈ after ↔ y = e ∨ (y ∈ m ∧ y ≠ x))
      ∧ (¬ crowded → ∀ y, y ∈ after ↔ y = e ∨ y ∈ m)

/-! ### Settings of the other blocks -/

/-- SET_CAPTURE, SET_PLANNING, SET_MODE, SET_LOG_MODE and CLEAR_LOG (R122, R159, R160, R210): a value out of its range
refuses with RANGE (that a mode byte naming no mode is one is log 13); SET_CAPTURE is BUSY while a slot is RESERVED or
FILLING, a list held or a probe in progress; AUTO is a planning opportunity; else the settings are replaced. -/
def Sys2Proof.Expect.OtherSettings : Prop :=
  ∀ (tag : Byte) (s : State), Listening s →
    (∀ a : CaptureSettings,
      let crop (first count : Nat) : Prop := first ≤ 8191 ∧ 16 ≤ count ∧ count ≤ 8192 ∧ first + count ≤ 8192
      let inRange : Prop :=
        1 ≤ a.linePitch ∧ a.linePitch ≤ 8 ∧ a.margin ≤ 2000 ∧ 1000 ≤ a.lineRate ∧ a.lineRate ≤ 40000
          ∧ crop a.first16 a.count16 ∧ crop a.first35 a.count35
      let busy : Prop :=
        (∃ c, some c ∈ s.cp.slots ∧ (c.state = .reserved ∨ c.state = .filling)) ∨ s.cp.jobs ≠ none ∨ s.fu.probe ≠ none
      (¬ inRange → exec (.setCapture tag a) s = .next (replied (placed s) tag 0x28 .range []))
      ∧ (inRange → busy → exec (.setCapture tag a) s = .next (replied (placed s) tag 0x28 .busy []))
      ∧ (inRange → ¬ busy →
        exec (.setCapture tag a) s = .next (replied { placed s with cp := { s.cp with settings := a } } tag 0x28 .ok [])))
    ∧ (∀ (d : Nat) (o : Option Bool),
      exec (.setPlanning tag d o) s =
        .next
          (answered s tag 0x3C (if 1000000 < d ∨ o = none then some .range else none)
            { placed s with rs := { s.rs with joinDistance := d, indexOnDemand := o.getD true } } .ok []))
    ∧ exec (.setMode tag none) s = .next (replied (placed s) tag 0x3B .range [])
    ∧ exec (.setMode tag (some .manual)) s =
      .next (replied { placed s with rs := { s.rs with mode := .manual } } tag 0x3B .ok [])
    ∧ exec (.setMode tag (some .auto)) s =
      .next (replied (offered { placed s with rs := { s.rs with mode := .auto } }) tag 0x3B .ok [])
    ∧ exec (.setLogMode tag none) s = .next (replied (placed s) tag 0x53 .range [])
    ∧ (∀ m : LogMode,
      exec (.setLogMode tag (some m)) s =
        .next (replied { placed s with fm := { s.fm with logMode := m } } tag 0x53 .ok []))
    ∧ exec (.clearLog tag) s =
      .next
        (replied { placed s with fm := { s.fm with log := [], overflow := 0, fullReported := false } } tag 0x55 .ok [])

/-- The commands that set the motion, capture, planning, mode and log settings. -/
def Obligations.SettingsAreSet : Prop := MotionSettingsAreSet ∧ OtherSettings

/-! ### The catalogue -/

/-- LOAD_WINDOW (R141): its five checks in order, an access byte that names no class being out of range (log 13); the
window enters the table at its place in base order with denied count 0. -/
def Obligations.WindowIsLoaded : Prop :=
  ∀ (tag : Byte) (a : WindowArgs) (s : State), Listening s →
    let inRange : Prop :=
      a.id ≤ 63 ∧ a.base ≠ 0 ∧ 1 ≤ a.stride ∧ a.stride ≤ 4 ∧ a.firstFrame ≠ 0 ∧ a.label ≠ [] ∧ printableLabel a.label
        ∧ a.access ≠ none
    let highest := a.firstFrame + (a.limit - a.base) * a.stride
    let taken : Prop := ∃ w ∈ s.ct.windows, w.id = a.id
    let meets : Prop := ∃ w ∈ s.ct.windows, a.base ≤ w.limit ∧ w.base ≤ a.limit
    let answer (r : Status) : Prop := exec (.loadWindow tag a) s = .next (replied (placed s) tag 0x30 r [])
    (¬ inRange → answer .range) ∧ (inRange → a.limit < a.base → answer .range)
    ∧ (inRange → a.base ≤ a.limit → 65535 < highest → answer .range)
    ∧ (inRange → a.base ≤ a.limit → highest ≤ 65535 → taken → answer .duplicate)
    ∧ (inRange → a.base ≤ a.limit → highest ≤ 65535 → ¬ taken → meets → answer .overlap)
    ∧ (∀ k, inRange → a.base ≤ a.limit → highest ≤ 65535 → ¬ taken → ¬ meets → a.access = some k →
      let w : Window :=
        { id := a.id, base := a.base, limit := a.limit, label := a.label, firstFrame := a.firstFrame, stride := a.stride,
          access := k, originMask := a.originMask, denied := 0 }
      exec (.loadWindow tag a) s =
        .next
          (replied
            { placed s with
              ct :=
                { s.ct with
                  windows :=
                    s.ct.windows.takeWhile (fun x => decide (x.base ≤ a.base))
                      ++ w :: s.ct.windows.dropWhile (fun x => decide (x.base ≤ a.base)) } }
            tag 0x30 .ok []))

/-- DROP_WINDOW (R142): RANGE above 63, NOT_FOUND without a window of that id; else the window goes, the others keep
their order, and the reply carries its fields, the denied count included; the queue stays. A window loaded later
counts from 0. -/
def Obligations.WindowIsDropped : Prop :=
  (∀ (tag : Byte) (n : Nat) (s : State), Listening s →
    (63 < n → exec (.dropWindow tag n) s = .next (replied (placed s) tag 0x31 .range []))
    ∧ (n ≤ 63 → (∀ w ∈ s.ct.windows, w.id ≠ n) →
      exec (.dropWindow tag n) s = .next (replied (placed s) tag 0x31 .notFound []))
    ∧ (∀ (before after : List Window) (w : Window), n ≤ 63 → s.ct.windows = before ++ w :: after → w.id = n →
      (∀ x ∈ before, x.id ≠ n) → (∀ x ∈ after, x.id ≠ n) →
      exec (.dropWindow tag n) s =
        .next
          (replied { placed s with ct := { s.ct with windows := before ++ after } } tag 0x31 .ok
            (u8 w.id ++ u32 w.base ++ u32 w.limit ++ u8 w.label.length ++ w.label ++ u16 w.firstFrame ++ u8 w.stride
              ++ u8 w.access.ctorIdx ++ u16 w.originMask ++ u16 w.denied))))
  ∧ (∀ (tag : Byte) (a : WindowArgs) (s t : State), Listening s → exec (.loadWindow tag a) s = .next t →
      ∀ w ∈ t.ct.windows, w ∈ s.ct.windows ∨ (w.id = a.id ∧ w.denied = 0))

/-! ### Requests -/

/-- Ids (R156): the next id above the last one, counting 1 to 255 and wrapping, ids held by entries skipped: it lies
in the range, no entry holds it, and every id passed over on the way is held. A submission that joins the queue takes
it, and it becomes the last assigned, which is 0 after power-on. Its age is the submission counter, 0 after power-on,
which then counts up and wraps from 4,294,967,295 to 0. A refused submission takes neither. -/
def Obligations.NextIdIsFree : Prop :=
  (∀ s : State, s.rs.queue.length ≤ 32 → s.rs.lastId ≤ 255 →
    let held (n : Nat) : Prop := ∃ r ∈ s.rs.queue, r.id = n
    let after (k : Nat) : Nat := (s.rs.lastId + k) % 255 + 1
    1 ≤ s.freshId ∧ s.freshId ≤ 255 ∧ ¬ held s.freshId
      ∧ ∃ k, s.freshId = after k ∧ ∀ j, j < k → held (after j))
  ∧ State.reset.rs.lastId = 0 ∧ State.reset.rs.submissions = 0
  ∧ (∀ (tag : Byte) (i origin : Nat) (p : Option Priority) (s : State), Listening s →
      ∃ t, exec (.submitRequest tag i origin p) s = .next t
        ∧ ((∃ r, t.rs.queue = s.rs.queue ++ [r] ∧ r.id = s.freshId ∧ r.age = s.rs.submissions ∧ t.rs.lastId = s.freshId
              ∧ t.rs.submissions = (s.rs.submissions + 1) % 4294967296
              ∧ ∃ d, t.li.replies = s.li.replies ++ [{ tag := tag, kind := 0x38, status := .accepted, data := d }])
          ∨ (t.rs.queue = s.rs.queue ∧ t.rs.lastId = s.rs.lastId ∧ t.rs.submissions = s.rs.submissions
              ∧ ∃ st, st ≠ .accepted
                ∧ t.li.replies = s.li.replies ++ [{ tag := tag, kind := 0x38, status := st, data := [] }])))

/-- SUBMIT_REQUEST (R144 to R149, R158): RS's checks, then CT's: NOT_HELD, WITHDRAWN, DENIED with its count; an image
of an allowed window becomes frame F + (i − B) × stride. For a label that no entry holds it waits for the roll: the
entry joins the queue with the next id and age, ROLL_WANTED is posted, the reply is ACCEPTED (its absent slot and
absent READY group are laid out by log 10). -/
def Obligations.RequestIsSubmitted : Prop :=
  ∀ (tag : Byte) (i origin : Nat) (p : Option Priority) (s : State), Listening s →
    let answer (r : Status) : Prop := exec (.submitRequest tag i origin p) s = .next (replied (placed s) tag 0x38 r [])
    ((15 < origin ∨ p = none) → answer .range)
    ∧ (origin ≤ 15 → p ≠ none → 32 ≤ s.rs.queue.length → answer .queueFull)
    ∧ (origin ≤ 15 → p ≠ none → s.rs.queue.length < 32 →
      ((∀ w ∈ s.ct.windows, ¬ (w.base ≤ i ∧ i ≤ w.limit)) → answer .notHeld)
      ∧ (∀ (before after : List Window) (w : Window), s.ct.windows = before ++ w :: after → w.base ≤ i → i ≤ w.limit →
        (∀ x, x ∈ before ∨ x ∈ after → ¬ (x.base ≤ i ∧ i ≤ x.limit)) →
        (w.access = .withdrawn → answer .withdrawn)
        ∧ (w.access = .restricted → w.originMask.testBit origin = false →
          exec (.submitRequest tag i origin p) s =
            .next
              (replied
                { placed s with
                  ct :=
                    { s.ct with windows := before ++ { w with denied := min (w.denied + 1) 65535 } :: after } }
                tag 0x38 .denied []))
        ∧ (∀ k, (w.access = .openToAll ∨ (w.access = .restricted ∧ w.originMask.testBit origin = true)) → p = some k →
          s.slotOfLabel w.label = none →
          let r : Request :=
            { id := s.freshId, age := s.rs.submissions, origin := origin, image := i, windowId := w.id, label := w.label,
              frame := w.firstFrame + (i - w.base) * w.stride, priority := k, slot := none, placed := none, retries := 0,
              storeSlot := none, passedOver := 0, state := .waitingRoll }
          let queued : State :=
            { placed s with
              rs :=
                { s.rs with
                  queue := s.rs.queue ++ [r], lastId := s.freshId, submissions := (s.rs.submissions + 1) % 4294967296 } }
          exec (.submitRequest tag i origin p) s =
            .next
              (replied
                (offered
                  (queued.post .rollWanted
                    (.rollWanted w.label
                      ((s.rs.queue.filter fun x => decide (x.state = .waitingRoll ∧ x.label = w.label)).length + 1))))
                tag 0x38 .accepted
                (u8 r.id ++ u8 w.id ++ u8 w.label.length ++ w.label ++ u16 r.frame ++ u8 0 ++ List.replicate 9 0)))))

/-- CANCEL_REQUEST (R136, R171): NOT_FOUND without the entry, TOO_LATE while it is DELIVERING; else the entry goes,
and a slot that carries its id, RESERVED, FILLING or READY, is FREE. -/
def Obligations.RequestIsCancelled : Prop :=
  ∀ (tag : Byte) (id : Nat) (s : State), Listening s →
    ((∀ r ∈ s.rs.queue, r.id ≠ id) → exec (.cancelRequest tag id) s = .next (replied (placed s) tag 0x39 .notFound []))
    ∧ (∀ r, s.findRequest id = some r →
      (r.state = .delivering → exec (.cancelRequest tag id) s = .next (replied (placed s) tag 0x39 .tooLate []))
      ∧ ((r.state = .waitingRoll ∨ r.state = .waitingIndex ∨ r.state = .ready) →
        exec (.cancelRequest tag id) s =
          .next
            (replied
              (offered
                { placed s with rs := { s.rs with queue := s.rs.queue.filter fun x => decide (x.id ≠ id) } })
              tag 0x39 .cancelled []))
      ∧ (∀ (n : Nat) (c : StoreSlot), (r.state = .planned ∨ r.state = .capturing ∨ r.state = .captured) →
        s.storeSlotOf id = some n → s.cp.slots[n]? = some (some c) →
        (c.state = .reserved ∨ c.state = .filling ∨ c.state = .ready) →
        ∃ t : State, exec (.cancelRequest tag id) s = .next t
          ∧ t.cp.slots = s.cp.slots.set n none
          ∧ t.cp.ready = (if c.state = .ready then s.cp.ready.filter (fun x => decide (x ≠ n)) else s.cp.ready)
          ∧ (∀ q ∈ t.rs.queue, q.id ≠ id)
          ∧ (∀ q ∈ s.rs.queue, q.id ≠ id → (q.state = .delivering → q.storeSlot ≠ some n) → q ∈ t.rs.queue)
          ∧ t.li.replies = s.li.replies ++ [{ tag := tag, kind := 0x39, status := .cancelled, data := [] }]
          ∧ t.tc = s.tc ∧ t.ix = s.ix ∧ t.ct = s.ct ∧ t.dc = s.dc ∧ t.fm = s.fm ∧ t.cu = s.cu ∧ t.fu = s.fu))

/-- PLANNING_ROUND (R159, R161 to R163): a round is taken only where it is due (a step of its own, log 5) and the planning
conditions hold; with no entry
waiting for an index or READY it changes nothing more; with TC UNLOADED and no roll in the path, the roll of the only
waiting entry, STORED, described and labelled, is mounted in a MOUNT pass. -/
def Obligations.PlanningRoundChoosesTheRoll : Prop :=
  ∀ s : State, s.resetHeld = false →
    let may : Prop :=
      s.rs.mode = .auto ∧ s.rs.pass = none ∧ (s.tc.state = .stopped ∨ s.tc.state = .unloaded) ∧ s.fu.probe = none
        ∧ s.ix.pass = none ∧ s.latched = false
    let taken : State := { s with rs := { s.rs with planningDue := false } }
    (s.rs.planningDue = false → exec .planningRound s = .next s)
    ∧ (s.rs.planningDue = true → ¬ may → exec .planningRound s = .next taken)
    ∧ (s.rs.planningDue = true → may → (∀ r ∈ s.rs.queue, r.state ≠ .waitingIndex ∧ r.state ≠ .ready) →
      exec .planningRound s = .next taken)
    ∧ (∀ (r : Request) (n : Nat), s.rs.planningDue = true → may → s.tc.state = .unloaded → s.cu.threader = .retracted →
      s.rs.queue = [r] → r.state = .waitingIndex → r.slot = some n → n < 12 → s.cu.entries.length = 12 →
      s.mountedSlot = none → s.slotOfLabel r.label = some n → (s.entry n).state = .stored →
      (s.entry n).indexState = .unindexed → (s.entry n).description ≠ none → r.label ≠ [] →
      ∃ t : State, exec .planningRound s = .next t
        ∧ t.tc.state = .threading ∧ t.cu.lock = some n ∧ t.cu.opRequester = some .rs
        ∧ (t.entry n).state = .mounting
        ∧ (∃ p, t.rs.pass = some p ∧ p.kind = .mount ∧ p.phase = .mount ∧ p.slot = n ∧ p.label = r.label)
        ∧ t.rs.queue = [{ r with placed := none }] ∧ t.rs.planningDue = false)

/-- CAPTURE_RUN_ORDER (R114, R129, R130, R167): a step of its own (log 5), nothing until a CAPTURE pass in its SEEK
phase has both reports; then, with TC STOPPED, no probe, no other motion and no MAJOR fault, TC takes the run of the
plan, its end clamped to the guard end, tracking starts, the list is bound and a job whose ws lies below P is missed (the
film commanded forward at once, log 36); otherwise the pass ends ABANDONED. -/
def Sys2Proof.Expect.CaptureRunIsOrdered : Prop :=
  ∀ (pixels : List Byte) (s : State), s.resetHeld = false →
    ((∀ p, s.rs.pass = some p →
        ¬ (p.kind = .capture ∧ p.phase = .seek ∧ p.seekDone = true ∧ p.lampLit = true)) →
      exec (.captureRunOrder pixels) s = .next s)
    ∧ (∀ (p : RsPass) (plan : RunPlan), s.rs.pass = some p → p.kind = .capture → p.phase = .seek → p.seekDone = true →
      p.lampLit = true → p.plan = some plan →
      (s.fu.probe = none → p.disturbed = false → s.tc.state = .stopped → s.latched = false →
        (∀ l, s.cp.jobs = some l → ∀ j ∈ l.jobs, j.state = .waiting ∧ j.windowStart ≠ s.tc.position) →
        ∃ t : State, exec (.captureRunOrder pixels) s = .next t
          ∧ t.tc.state = .scanning ∧ t.tc.phase = .travel ∧ t.tc.travel = .forward
          ∧ t.tc.motion =
            some
              (.run
                { requester := .rs, purpose := .capture, speed := plan.speed, accel := s.tc.settings.acceleration,
                  endPosition :=
                    some
                      (match s.mountedEntry.rollLength with
                        | some l => min (l - 2000) plan.endPosition
                        | none => plan.endPosition) })
          ∧ t.rs.pass = some { p with phase := .run } ∧ t.fu.tracking = true ∧ t.fu.lagReported = false
          ∧ t.cp =
            { s.cp with
              jobs :=
                s.cp.jobs.map fun l =>
                  { bound := true,
                    jobs := l.jobs.map fun j => { j with missed := decide (j.windowStart < s.tc.position) } } }
          ∧ t.ix = s.ix ∧ t.cu = s.cu ∧ t.ct = s.ct ∧ t.dc = s.dc ∧ t.li = s.li ∧ t.fm = s.fm)
      ∧ (s.fu.probe ≠ none ∨ p.disturbed = true ∨ s.tc.state ≠ .stopped ∨ s.latched = true →
        ∃ t : State, exec (.captureRunOrder pixels) s = .next t
          ∧ t.cp.jobs = none ∧ t.rs.pass = none ∧ t.tc = s.tc ∧ t.ix = s.ix ∧ t.cu = s.cu ∧ t.ct = s.ct ∧ t.dc = s.dc
          ∧ t.fm = s.fm ∧ t.fu = s.fu
          ∧ (s.cp.jobs = none →
            t =
              offered
                (State.post { s with rs := { s.rs with pass := none } } .passDone
                  (.passDone .capture .abandoned p.slot p.capturedJobs p.misframeJobs p.droppedJobs)))))

/-- The frame record of a job (R134), with its pixel count, its score and whether its mark was not seen. -/
def Sys2Proof.Expect.recordOf (j : Job) (pixels score : Nat) (notSeen : Bool) : FrameRecord where
  reqId := j.order.reqId
  origin := j.order.origin
  image := j.order.image
  label := j.order.label
  frame := j.order.frame
  segment := j.order.segment
  predicted := j.order.predicted
  observed := j.observed
  windowStart := j.windowStart
  lines := j.lines
  pixels := pixels
  lens := j.lens
  score := score
  flags :=
    { clamped := j.order.clamped, truncated := j.truncated, markNotSeen := notSeen, focusLag := j.focusLag,
      predictedOnly := j.predictedOnly }

/-- A forward tick of a bound run of one job, the film moving (R126, R127, R130, R131, R133, R134). At no line
position of the job the store is as it was. A job missed when the run was taken never starts. At its window start
the slot is FILLING with the first line, the record names the lens position and the flags, and the request is
CAPTURING. At a later line the slot takes it. With the n-th line the record is completed with the score and
MARK_NOT_SEEN, the slot is READY at the end of the Ready List, the job is DONE, the request CAPTURED and the pass
counts it. -/
def Sys2Proof.Expect.RunTakesLines : Prop :=
  ∀ (pixels : List Byte) (s : State) (r : Run) (j : Job) (c : StoreSlot), s.resetHeld = false →
    s.tc.state = .scanning → s.tc.motion = some (.run r) → r.purpose = .capture → resting s.tc = false →
    s.ix.pass = none → s.ix.tracker.state ≠ .reckoning → (0 < s.tc.underrun ∨ s.tc.position < 16777215) →
    s.cp.jobs = some { bound := true, jobs := [j] } → s.cp.slots[j.order.slot]? = some (some c) →
    let p := if 0 < s.tc.underrun then s.tc.position else s.tc.position + 1
    let lensTarget :=
      if s.fu.tracking = true ∧ s.tc.underrun = 0 then
        clampNat s.fu.settings.lensMin s.fu.settings.lensMax (s.lensFor p)
      else s.fu.target
    let pitch := s.cp.settings.linePitch
    let lines := c.lines ++ [s.activePixels pixels]
    let store (x : StoreSlot) (k : Job) (ready : List Nat) : Cp :=
      { s.cp with
        slots := s.cp.slots.set j.order.slot (some x), jobs := some { bound := true, jobs := [k] }, ready := ready }
    let request (t : State) (st : RequestState) : Prop :=
      ∀ r, s.findRequest j.order.reqId = some r → t.findRequest j.order.reqId = some { r with state := st }
    let starts : Prop := j.state = .waiting ∧ j.missed = false ∧ j.windowStart = p
    let continues : Prop := j.state = .filling ∧ j.windowStart + j.lineIndex * pitch = p
    ∃ t : State, exec (.encoderTick .forward pixels) s = .next t
      ∧ (¬ starts → ¬ continues → t.cp = s.cp)
      ∧ (starts → c.state = .reserved → j.lineIndex + 1 < j.lines →
        request t .capturing
        ∧ (let k : Job :=
            { j with
              state := .filling, lineIndex := j.lineIndex + 1, lens := s.fu.lens,
              focusLag := decide (4 < distance s.fu.lens lensTarget),
              predictedOnly := decide (s.ix.tracker.state ≠ .counting) }
          t.cp =
            store { c with state := .filling, lines := lines, record := recordOf k s.crop.2 0 false } k s.cp.ready))
      ∧ (continues → c.state = .filling → j.lineIndex + 1 < j.lines →
        t.cp = store { c with lines := lines } { j with lineIndex := j.lineIndex + 1 } s.cp.ready)
      ∧ (continues → c.state = .filling → j.lineIndex + 1 = j.lines →
        request t .captured
        ∧ (∀ q, s.rs.pass = some q → t.rs.pass = some { q with capturedJobs := q.capturedJobs + 1 })
        ∧ (let first := (j.order.predicted + j.pitch / 512 - j.windowStart + pitch - 1) / pitch
          let band := (lines.drop (min first (j.lines - 8))).take 8
          t.cp =
            store
              { c with state := .ready, lines := lines, record := recordOf j s.crop.2 (bandScore band) j.observed.isNone }
              { j with state := .done, lineIndex := j.lines } (s.cp.ready ++ [j.order.slot])))

/-- The order of a CAPTURE pass's run, and what a forward tick of it does to the frame store. -/
def Obligations.CaptureRunIsOrderedAndTaken : Prop := CaptureRunIsOrdered ∧ RunTakesLines

/-! ### Delivery -/

/-- CONFIGURE_CHANNEL and TELEMETRY_INTERVAL_EXPIRY (R182, R183): the three checks in order; channel B to and from
STREAMING; an expiry numbers the snapshot, replaces one still waiting and counts it skipped; outside STREAMING it
changes nothing (log 8). -/
def Sys2Proof.Expect.ChannelsAreConfigured : Prop :=
  ∀ (tag : Byte) (c : Option ChannelId) (m : Option ChannelMode) (n : Nat) (s : State), s.resetHeld = false →
    let sending : Bool := match c with | some .a => s.dc.a.sending.isSome | some .b => s.dc.b.sending.isSome | none => false
    let refusal : Option Status :=
      if c = none ∨ m = none ∨ n < 10 ∨ 1000 < n then some .range
      else if c = some .a ∧ m = some .telemetry then some .range
      else if sending then some .busy
      else none
    let toB (d : Dc) : State := { placed s with dc := d }
    (s.li.places < 4 →
      (∀ r, refusal = some r →
        exec (.configureChannel tag c m n) s = .next (replied (placed s) tag 0x40 r []))
      ∧ (refusal = none → (c = some .a ∨ (s.dc.b.mode = .image ∧ m = some .image)) →
        exec (.configureChannel tag c m n) s = .next (replied (placed s) tag 0x40 .ok []))
      ∧ (refusal = none → c = some .b → m = some .telemetry →
        exec (.configureChannel tag c m n) s =
          .next
            (replied
              (toB
                { s.dc with
                  b := { s.dc.b with mode := .telemetry }, interval := n,
                  skipped := if s.dc.b.mode = .image then 0 else s.dc.skipped })
              tag 0x40 .ok []))
      ∧ (refusal = none → c = some .b → m = some .image → s.dc.b.mode = .telemetry → s.cp.ready = [] →
        exec (.configureChannel tag c m n) s =
          .next
            (replied (toB { s.dc with b := { s.dc.b with mode := .image }, snapshot := none }) tag 0x40 .ok [])))
    ∧ (s.dc.b.mode = .image → exec .telemetryIntervalExpiry s = .next s)
    ∧ (s.dc.b.mode = .telemetry →
      let k := if s.dc.snapshot = none then s.dc.skipped else min (s.dc.skipped + 1) 255
      let q := (s.dc.sequence + 1) % 65536
      exec .telemetryIntervalExpiry s =
        .next
          { s with
            dc :=
              { s.dc with
                sequence := q, skipped := k,
                snapshot :=
                  some
                    (u16 q ++ u32 s.li.uptime ++ u32 s.tc.position ++ u16 s.tc.speed ++ u8 s.tc.direction.ctorIdx
                      ++ u16 s.reportedTension ++ u16 s.fu.lens ++ u8 s.tc.state.ctorIdx ++ u8 s.ix.tracker.state.ctorIdx
                      ++ u16 (match s.ix.tracker.frame with | some f => f | none => 0) ++ u8 s.rs.queue.length
                      ++ u8 (s.cp.slots.filter fun x => x.isNone).length ++ u8 s.cp.ready.length
                      ++ u8 (if s.rs.mode = .auto then 1 else 0)
                      ++ u8 ((if s.latched then 1 else 0) + (if s.tu.capInForce then 2 else 0)) ++ u8 k) } })

/-- CHANNEL_TAKE_SLOT (R173, R176 to R178), a step of its own (log 5): with nothing READY, or neither channel IDLE,
nothing changes (log 8); channel A takes the head, which is SENDING and its entry DELIVERING, and offers block 0 of
ceil(bytes / 4096), flagged FIRST, with the frame record and the first pixel bytes. -/
def Sys2Proof.Expect.HeadOfTheReadyListIsTaken : Prop :=
  ∀ s : State, s.resetHeld = false →
    (s.cp.ready = [] → exec .channelTakeSlot s = .next s)
    ∧ (¬ (s.dc.a.mode = .image ∧ s.dc.a.sending = none) → ¬ (s.dc.b.mode = .image ∧ s.dc.b.sending = none) →
      exec .channelTakeSlot s = .next s)
    ∧ (∀ (n : Nat) (c : StoreSlot), s.dc.a.mode = .image → s.dc.a.sending = none → s.cp.ready = [n] →
      s.cp.slots[n]? = some (some c) →
      let count := (c.record.lines * c.record.pixels + 4095) / 4096
      let pixels := c.lines.flatten.take 4096
      exec .channelTakeSlot s =
        .next
          { s with
            cp := { s.cp with ready := [], slots := s.cp.slots.set n (some { c with state := .sending }) },
            rs :=
              { s.rs with
                queue := s.rs.queue.map fun r => if r.id = c.reqId then { r with state := .delivering } else r },
            dc :=
              { s.dc with
                a :=
                  { s.dc.a with
                    sending := some { slot := n, reqId := c.reqId, blockCount := count, nextBlock := 0 },
                    waiting :=
                      some
                        (u8 0 ++ u8 (if count = 1 then 3 else 1) ++ u8 n ++ u8 c.reqId ++ u16 0 ++ u16 count
                          ++ u16 pixels.length ++ encFrameRecord c.record ++ pixels) } } })

/-- The delivery channels: configuration, telemetry, and taking a slot. -/
def Obligations.ChannelsDeliverAndStream : Prop := ChannelsAreConfigured ∧ HeadOfTheReadyListIsTaken

/-! ### Faults -/

/-- An occurrence (R203, R204, R209): the entry of its code is made, or counts up with its first seen kept, its class
MAJOR if either was; the other entries stay; the log takes a record by its mode and length; one notice is posted, and
LOG_FULL once per filling in KEEP_FIRST. -/
def Obligations.FaultOccurrenceIsEntered : Prop :=
  ∀ (s : State) (code : FaultCode) (cls : FaultClass) (d : FaultDetail), s.fm.wf →
    let t := s.faultOccur code cls d
    let slot : Option Nat := if s.tc.state = .unloaded then none else s.mountedSlot
    let record : LogRecord :=
      { cls := cls, code := code, detail := d, position := s.tc.position, slot := slot, uptime := s.li.uptime }
    (t.fm.active.filter (fun e => decide (e.code ≠ code)) = s.fm.active.filter fun e => decide (e.code ≠ code))
    ∧ t.fm.active.filter (fun e => decide (e.code = code)) =
      [match s.fm.active.find? (fun e => decide (e.code = code)) with
        | none =>
          { code := code, cls := cls, firstSeen := s.li.uptime, count := 1, detail := d, position := s.tc.position,
            slot := slot }
        | some e =>
          { code := code, cls := if cls = .major then .major else e.cls, firstSeen := e.firstSeen,
            count := min (e.count + 1) 65535, detail := d, position := s.tc.position, slot := slot }]
    ∧ (s.fm.logMode = .off → t.fm.log = s.fm.log)
    ∧ (s.fm.logMode ≠ .off → s.fm.log.length < 10 → t.fm.log = s.fm.log ++ [record])
    ∧ (s.fm.logMode = .keepNewest → s.fm.log.length = 10 → t.fm.log = s.fm.log.tail ++ [record])
    ∧ (s.fm.logMode = .keepFirst → s.fm.log.length = 10 →
      t.fm.log = s.fm.log ∧ t.fm.overflow = min (s.fm.overflow + 1) 65535 ∧ t.fm.fullReported = true)
    ∧ (¬ (s.fm.logMode = .keepFirst ∧ s.fm.log.length = 10) →
      t.fm.overflow = s.fm.overflow ∧ t.fm.fullReported = s.fm.fullReported)
    ∧ t.fm.logMode = s.fm.logMode
    ∧ (let n :=
          match s.fm.active.find? (fun e => decide (e.code = code)) with | none => 1 | some e => min (e.count + 1) 65535
       let logged : State :=
         if s.fm.logMode = .keepFirst ∧ s.fm.log.length = 10 ∧ s.fm.fullReported = false then
           s.post .logFull (.logFull .keepFirst (min (s.fm.overflow + 1) 65535))
         else s
       t.li =
        (match d with
          | FaultDetail.operator c => logged.post Source.operator (.operator cls c n s.tc.position slot)
          | _ =>
            logged.post (if cls = FaultClass.major then Source.faultMajor else Source.faultMinor)
              (.fault code cls n d s.tc.position slot)).li)
    ∧ { t with fm := s.fm, li := s.li } = s

/-- CLEAR_FAULTS and RAISE_FAULT (R206 to R208): scope MINOR removes the MINOR entries; ALL is STILL_PRESENT while a
MAJOR entry's condition is present, and on a set without MAJOR entries removes every entry; RAISE_FAULT is an
occurrence of the operator code of its class, RANGE outside 1 to 99, and a scope or class byte that names none is
RANGE too (log 13). The recovery rewind is commanded at once, whichever way the film coasts (log 36). -/
def Obligations.FaultCommands : Prop :=
  ∀ (tag : Byte) (s : State), Listening s →
    let minors := (s.fm.active.filter fun e => decide (e.cls = .minor)).length
    let majors := s.fm.active.filter fun e => decide (e.cls = .major)
    exec (.clearFaults tag none) s = .next (replied (placed s) tag 0x50 .range [])
    ∧ exec (.clearFaults tag (some .minor)) s =
      .next (replied { placed s with fm := { s.fm with active := majors } } tag 0x50 .ok (u8 minors ++ u8 0))
    ∧ ((∃ e ∈ s.fm.active, e.cls = .major ∧ s.stillPresent e.code = true) →
      exec (.clearFaults tag (some .all)) s = .next (replied (placed s) tag 0x50 .stillPresent []))
    ∧ (majors = [] →
      exec (.clearFaults tag (some .all)) s =
        .next (replied { placed s with fm := { s.fm with active := [] } } tag 0x50 .ok (u8 minors ++ u8 0)))
    ∧ (majors ≠ [] → (∀ e ∈ s.fm.active, e.cls = .major → s.stillPresent e.code = false) →
      ∃ t : State, exec (.clearFaults tag (some .all)) s = .next t
        ∧ t.fm = { s.fm with active := [] } ∧ t.latched = false ∧ t.tu.driveInhibit = false
        ∧ t.li.replies = s.li.replies ++ [{ tag := tag, kind := 0x50, status := .ok, data := u8 minors ++ u8 majors.length }]
        ∧ (s.tc.state ≠ .halted → t.tc = s.tc)
        ∧ (s.tc.state = .halted → (∀ e ∈ majors, e.code ≠ .filmStranded) → s.tc.threaded = true → t.tc.state = .stopped)
        ∧ (s.tc.state = .halted → (∀ e ∈ majors, e.code ≠ .filmStranded) → s.tc.threaded = false →
          t.tc.state = .unloaded)
        ∧ (s.tc.state = .halted → (∃ e ∈ majors, e.code = .filmStranded) → t.tc.state = .rewinding ∧ t.tc.phase = .creep))
    ∧ (∀ (c : Option FaultClass) (n : Nat),
      ((c = none ∨ n < 1 ∨ 99 < n) → exec (.raiseFault tag c n) s = .next (replied (placed s) tag 0x51 .range []))
      ∧ (1 ≤ n → n ≤ 99 →
        (c = some .minor →
          exec (.raiseFault tag c n) s =
            .next (replied ((placed s).faultOccur .operatorMinor .minor (.operator n)) tag 0x51 .ok []))
        ∧ (c = some .major → s.latched = true →
          exec (.raiseFault tag c n) s =
            .next (replied ((placed s).faultOccur .operatorMajor .major (.operator n)) tag 0x51 .ok []))
        ∧ (c = some .major → s.latched = false →
          ∃ t : State, exec (.raiseFault tag c n) s = .next t ∧ t.latched = true ∧ t.cp.lamp = .off ∧ t.cp.jobs = none
            ∧ t.fu.probe = none ∧ t.fu.tracking = false ∧ t.cu.rotation = none ∧ t.cu.rotationTimer = false
            ∧ t.cu.threadingTimer = false ∧ t.cu.threader = s.cu.threader
            ∧ (s.tc.state ≠ .unloaded → t.tc.state = .halted)
            ∧ (s.tc.state = .unloaded → t.tc.state = .unloaded))))

/-! ### Invariants that every step keeps -/

/-- A step keeps the ranges of P and the leader underrun, the directory's twelve entries and unique labels, and the
laws of the index tables and the focus maps. -/
def Obligations.StepKeepsTheFilmAndItsTables : Prop :=
  ∀ s t : State, step s = .next t →
    (s.tc.wf → t.tc.wf) ∧ (s.cu.wf → t.cu.wf) ∧ (s.tablesWf → t.tablesWf)

/-- A step keeps the frame store: sixteen slots, no request in two of them, each READY slot once on the Ready List and no
other slot there (R126, R127), and the lamp's law; the law of the window table, and the law of the queue
and the Internal Work List. Where the laws of the frame store and of the queue hold, it keeps the law of slots that
joins them: every slot that is not FREE names a request id held by an entry of the Host Request Queue (R126), that entry
naming the slot, DELIVERING exactly while the slot is SENDING; with it, each incomplete job's slot is RESERVED or FILLING
under its id, and the deliveries of the two channels are of two SENDING slots. -/
def Obligations.StepKeepsTheStoreCatalogueAndQueue : Prop :=
  ∀ s t : State, step s = .next t →
    (s.cp.wf → t.cp.wf) ∧ (s.ct.wf → t.ct.wf) ∧ (s.rs.wf → t.rs.wf) ∧ (s.cp.wf → s.rs.wf → s.slotsWf → t.slotsWf)

/-- A step keeps the delivery channels' law, the command buffer's places, and the law of the pending notices. -/
def Obligations.StepKeepsTheChannelsAndTheLink : Prop :=
  ∀ s t : State, step s = .next t →
    (s.dc.wf → t.dc.wf) ∧ (s.li.bufferWf → t.li.bufferWf) ∧ (s.li.noticesWf → t.li.noticesWf)

/-- A step keeps the active fault set's law and the law of the log. -/
def Obligations.StepKeepsTheFaultsAndTheLog : Prop := ∀ s t : State, step s = .next t → s.fm.wf → t.fm.wf
end

