-- ==== Sys2Proof/Laws/State.lean ====
section
/-! SUPPORT. Laws/State.lean: what each named update of a block does to each field of the state. Each holds by
rfl, in parentheses so that simp rewrites with it by a proof and not by unfolding. -/

namespace Sys2Proof.Machine

/-! ### Tc -/

@[simp] theorem modTc_tc (s : State) (f : Tc → Tc) : (s.modTc f).tc = f s.tc := (rfl)
@[simp] theorem modTc_tu (s : State) (f : Tc → Tc) : (s.modTc f).tu = s.tu := (rfl)
@[simp] theorem modTc_cu (s : State) (f : Tc → Tc) : (s.modTc f).cu = s.cu := (rfl)
@[simp] theorem modTc_ix (s : State) (f : Tc → Tc) : (s.modTc f).ix = s.ix := (rfl)
@[simp] theorem modTc_fu (s : State) (f : Tc → Tc) : (s.modTc f).fu = s.fu := (rfl)
@[simp] theorem modTc_cp (s : State) (f : Tc → Tc) : (s.modTc f).cp = s.cp := (rfl)
@[simp] theorem modTc_ct (s : State) (f : Tc → Tc) : (s.modTc f).ct = s.ct := (rfl)
@[simp] theorem modTc_rs (s : State) (f : Tc → Tc) : (s.modTc f).rs = s.rs := (rfl)
@[simp] theorem modTc_dc (s : State) (f : Tc → Tc) : (s.modTc f).dc = s.dc := (rfl)
@[simp] theorem modTc_li (s : State) (f : Tc → Tc) : (s.modTc f).li = s.li := (rfl)
@[simp] theorem modTc_fm (s : State) (f : Tc → Tc) : (s.modTc f).fm = s.fm := (rfl)
@[simp] theorem modTc_resetHeld (s : State) (f : Tc → Tc) : (s.modTc f).resetHeld = s.resetHeld := (rfl)
@[simp] theorem modTc_hold (s : State) (f : Tc → Tc) : (s.modTc f).hold = s.hold := (rfl)
@[simp] theorem modTc_gateFilm (s : State) (f : Tc → Tc) : (s.modTc f).gateFilm = s.gateFilm := (rfl)
@[simp] theorem modTc_presence (s : State) (f : Tc → Tc) : (s.modTc f).presence = s.presence := (rfl)
@[simp] theorem modTc_pending (s : State) (f : Tc → Tc) : (s.modTc f).pending = s.pending := (rfl)
@[simp] theorem modTc_free (s : State) (f : Tc → Tc) : (s.modTc f).free = s.free := (rfl)

/-! ### Tu -/

@[simp] theorem modTu_tc (s : State) (f : Tu → Tu) : (s.modTu f).tc = s.tc := (rfl)
@[simp] theorem modTu_tu (s : State) (f : Tu → Tu) : (s.modTu f).tu = f s.tu := (rfl)
@[simp] theorem modTu_cu (s : State) (f : Tu → Tu) : (s.modTu f).cu = s.cu := (rfl)
@[simp] theorem modTu_ix (s : State) (f : Tu → Tu) : (s.modTu f).ix = s.ix := (rfl)
@[simp] theorem modTu_fu (s : State) (f : Tu → Tu) : (s.modTu f).fu = s.fu := (rfl)
@[simp] theorem modTu_cp (s : State) (f : Tu → Tu) : (s.modTu f).cp = s.cp := (rfl)
@[simp] theorem modTu_ct (s : State) (f : Tu → Tu) : (s.modTu f).ct = s.ct := (rfl)
@[simp] theorem modTu_rs (s : State) (f : Tu → Tu) : (s.modTu f).rs = s.rs := (rfl)
@[simp] theorem modTu_dc (s : State) (f : Tu → Tu) : (s.modTu f).dc = s.dc := (rfl)
@[simp] theorem modTu_li (s : State) (f : Tu → Tu) : (s.modTu f).li = s.li := (rfl)
@[simp] theorem modTu_fm (s : State) (f : Tu → Tu) : (s.modTu f).fm = s.fm := (rfl)
@[simp] theorem modTu_resetHeld (s : State) (f : Tu → Tu) : (s.modTu f).resetHeld = s.resetHeld := (rfl)
@[simp] theorem modTu_hold (s : State) (f : Tu → Tu) : (s.modTu f).hold = s.hold := (rfl)
@[simp] theorem modTu_gateFilm (s : State) (f : Tu → Tu) : (s.modTu f).gateFilm = s.gateFilm := (rfl)
@[simp] theorem modTu_presence (s : State) (f : Tu → Tu) : (s.modTu f).presence = s.presence := (rfl)
@[simp] theorem modTu_pending (s : State) (f : Tu → Tu) : (s.modTu f).pending = s.pending := (rfl)
@[simp] theorem modTu_free (s : State) (f : Tu → Tu) : (s.modTu f).free = s.free := (rfl)

/-! ### Cu -/

@[simp] theorem modCu_tc (s : State) (f : Cu → Cu) : (s.modCu f).tc = s.tc := (rfl)
@[simp] theorem modCu_tu (s : State) (f : Cu → Cu) : (s.modCu f).tu = s.tu := (rfl)
@[simp] theorem modCu_cu (s : State) (f : Cu → Cu) : (s.modCu f).cu = f s.cu := (rfl)
@[simp] theorem modCu_ix (s : State) (f : Cu → Cu) : (s.modCu f).ix = s.ix := (rfl)
@[simp] theorem modCu_fu (s : State) (f : Cu → Cu) : (s.modCu f).fu = s.fu := (rfl)
@[simp] theorem modCu_cp (s : State) (f : Cu → Cu) : (s.modCu f).cp = s.cp := (rfl)
@[simp] theorem modCu_ct (s : State) (f : Cu → Cu) : (s.modCu f).ct = s.ct := (rfl)
@[simp] theorem modCu_rs (s : State) (f : Cu → Cu) : (s.modCu f).rs = s.rs := (rfl)
@[simp] theorem modCu_dc (s : State) (f : Cu → Cu) : (s.modCu f).dc = s.dc := (rfl)
@[simp] theorem modCu_li (s : State) (f : Cu → Cu) : (s.modCu f).li = s.li := (rfl)
@[simp] theorem modCu_fm (s : State) (f : Cu → Cu) : (s.modCu f).fm = s.fm := (rfl)
@[simp] theorem modCu_resetHeld (s : State) (f : Cu → Cu) : (s.modCu f).resetHeld = s.resetHeld := (rfl)
@[simp] theorem modCu_hold (s : State) (f : Cu → Cu) : (s.modCu f).hold = s.hold := (rfl)
@[simp] theorem modCu_gateFilm (s : State) (f : Cu → Cu) : (s.modCu f).gateFilm = s.gateFilm := (rfl)
@[simp] theorem modCu_presence (s : State) (f : Cu → Cu) : (s.modCu f).presence = s.presence := (rfl)
@[simp] theorem modCu_pending (s : State) (f : Cu → Cu) : (s.modCu f).pending = s.pending := (rfl)
@[simp] theorem modCu_free (s : State) (f : Cu → Cu) : (s.modCu f).free = s.free := (rfl)

/-! ### Ix -/

@[simp] theorem modIx_tc (s : State) (f : Ix → Ix) : (s.modIx f).tc = s.tc := (rfl)
@[simp] theorem modIx_tu (s : State) (f : Ix → Ix) : (s.modIx f).tu = s.tu := (rfl)
@[simp] theorem modIx_cu (s : State) (f : Ix → Ix) : (s.modIx f).cu = s.cu := (rfl)
@[simp] theorem modIx_ix (s : State) (f : Ix → Ix) : (s.modIx f).ix = f s.ix := (rfl)
@[simp] theorem modIx_fu (s : State) (f : Ix → Ix) : (s.modIx f).fu = s.fu := (rfl)
@[simp] theorem modIx_cp (s : State) (f : Ix → Ix) : (s.modIx f).cp = s.cp := (rfl)
@[simp] theorem modIx_ct (s : State) (f : Ix → Ix) : (s.modIx f).ct = s.ct := (rfl)
@[simp] theorem modIx_rs (s : State) (f : Ix → Ix) : (s.modIx f).rs = s.rs := (rfl)
@[simp] theorem modIx_dc (s : State) (f : Ix → Ix) : (s.modIx f).dc = s.dc := (rfl)
@[simp] theorem modIx_li (s : State) (f : Ix → Ix) : (s.modIx f).li = s.li := (rfl)
@[simp] theorem modIx_fm (s : State) (f : Ix → Ix) : (s.modIx f).fm = s.fm := (rfl)
@[simp] theorem modIx_resetHeld (s : State) (f : Ix → Ix) : (s.modIx f).resetHeld = s.resetHeld := (rfl)
@[simp] theorem modIx_hold (s : State) (f : Ix → Ix) : (s.modIx f).hold = s.hold := (rfl)
@[simp] theorem modIx_gateFilm (s : State) (f : Ix → Ix) : (s.modIx f).gateFilm = s.gateFilm := (rfl)
@[simp] theorem modIx_presence (s : State) (f : Ix → Ix) : (s.modIx f).presence = s.presence := (rfl)
@[simp] theorem modIx_pending (s : State) (f : Ix → Ix) : (s.modIx f).pending = s.pending := (rfl)
@[simp] theorem modIx_free (s : State) (f : Ix → Ix) : (s.modIx f).free = s.free := (rfl)

/-! ### Fu -/

@[simp] theorem modFu_tc (s : State) (f : Fu → Fu) : (s.modFu f).tc = s.tc := (rfl)
@[simp] theorem modFu_tu (s : State) (f : Fu → Fu) : (s.modFu f).tu = s.tu := (rfl)
@[simp] theorem modFu_cu (s : State) (f : Fu → Fu) : (s.modFu f).cu = s.cu := (rfl)
@[simp] theorem modFu_ix (s : State) (f : Fu → Fu) : (s.modFu f).ix = s.ix := (rfl)
@[simp] theorem modFu_fu (s : State) (f : Fu → Fu) : (s.modFu f).fu = f s.fu := (rfl)
@[simp] theorem modFu_cp (s : State) (f : Fu → Fu) : (s.modFu f).cp = s.cp := (rfl)
@[simp] theorem modFu_ct (s : State) (f : Fu → Fu) : (s.modFu f).ct = s.ct := (rfl)
@[simp] theorem modFu_rs (s : State) (f : Fu → Fu) : (s.modFu f).rs = s.rs := (rfl)
@[simp] theorem modFu_dc (s : State) (f : Fu → Fu) : (s.modFu f).dc = s.dc := (rfl)
@[simp] theorem modFu_li (s : State) (f : Fu → Fu) : (s.modFu f).li = s.li := (rfl)
@[simp] theorem modFu_fm (s : State) (f : Fu → Fu) : (s.modFu f).fm = s.fm := (rfl)
@[simp] theorem modFu_resetHeld (s : State) (f : Fu → Fu) : (s.modFu f).resetHeld = s.resetHeld := (rfl)
@[simp] theorem modFu_hold (s : State) (f : Fu → Fu) : (s.modFu f).hold = s.hold := (rfl)
@[simp] theorem modFu_gateFilm (s : State) (f : Fu → Fu) : (s.modFu f).gateFilm = s.gateFilm := (rfl)
@[simp] theorem modFu_presence (s : State) (f : Fu → Fu) : (s.modFu f).presence = s.presence := (rfl)
@[simp] theorem modFu_pending (s : State) (f : Fu → Fu) : (s.modFu f).pending = s.pending := (rfl)
@[simp] theorem modFu_free (s : State) (f : Fu → Fu) : (s.modFu f).free = s.free := (rfl)

/-! ### Cp -/

@[simp] theorem modCp_tc (s : State) (f : Cp → Cp) : (s.modCp f).tc = s.tc := (rfl)
@[simp] theorem modCp_tu (s : State) (f : Cp → Cp) : (s.modCp f).tu = s.tu := (rfl)
@[simp] theorem modCp_cu (s : State) (f : Cp → Cp) : (s.modCp f).cu = s.cu := (rfl)
@[simp] theorem modCp_ix (s : State) (f : Cp → Cp) : (s.modCp f).ix = s.ix := (rfl)
@[simp] theorem modCp_fu (s : State) (f : Cp → Cp) : (s.modCp f).fu = s.fu := (rfl)
@[simp] theorem modCp_cp (s : State) (f : Cp → Cp) : (s.modCp f).cp = f s.cp := (rfl)
@[simp] theorem modCp_ct (s : State) (f : Cp → Cp) : (s.modCp f).ct = s.ct := (rfl)
@[simp] theorem modCp_rs (s : State) (f : Cp → Cp) : (s.modCp f).rs = s.rs := (rfl)
@[simp] theorem modCp_dc (s : State) (f : Cp → Cp) : (s.modCp f).dc = s.dc := (rfl)
@[simp] theorem modCp_li (s : State) (f : Cp → Cp) : (s.modCp f).li = s.li := (rfl)
@[simp] theorem modCp_fm (s : State) (f : Cp → Cp) : (s.modCp f).fm = s.fm := (rfl)
@[simp] theorem modCp_resetHeld (s : State) (f : Cp → Cp) : (s.modCp f).resetHeld = s.resetHeld := (rfl)
@[simp] theorem modCp_hold (s : State) (f : Cp → Cp) : (s.modCp f).hold = s.hold := (rfl)
@[simp] theorem modCp_gateFilm (s : State) (f : Cp → Cp) : (s.modCp f).gateFilm = s.gateFilm := (rfl)
@[simp] theorem modCp_presence (s : State) (f : Cp → Cp) : (s.modCp f).presence = s.presence := (rfl)
@[simp] theorem modCp_pending (s : State) (f : Cp → Cp) : (s.modCp f).pending = s.pending := (rfl)
@[simp] theorem modCp_free (s : State) (f : Cp → Cp) : (s.modCp f).free = s.free := (rfl)

/-! ### Ct -/

@[simp] theorem modCt_tc (s : State) (f : Ct → Ct) : (s.modCt f).tc = s.tc := (rfl)
@[simp] theorem modCt_tu (s : State) (f : Ct → Ct) : (s.modCt f).tu = s.tu := (rfl)
@[simp] theorem modCt_cu (s : State) (f : Ct → Ct) : (s.modCt f).cu = s.cu := (rfl)
@[simp] theorem modCt_ix (s : State) (f : Ct → Ct) : (s.modCt f).ix = s.ix := (rfl)
@[simp] theorem modCt_fu (s : State) (f : Ct → Ct) : (s.modCt f).fu = s.fu := (rfl)
@[simp] theorem modCt_cp (s : State) (f : Ct → Ct) : (s.modCt f).cp = s.cp := (rfl)
@[simp] theorem modCt_ct (s : State) (f : Ct → Ct) : (s.modCt f).ct = f s.ct := (rfl)
@[simp] theorem modCt_rs (s : State) (f : Ct → Ct) : (s.modCt f).rs = s.rs := (rfl)
@[simp] theorem modCt_dc (s : State) (f : Ct → Ct) : (s.modCt f).dc = s.dc := (rfl)
@[simp] theorem modCt_li (s : State) (f : Ct → Ct) : (s.modCt f).li = s.li := (rfl)
@[simp] theorem modCt_fm (s : State) (f : Ct → Ct) : (s.modCt f).fm = s.fm := (rfl)
@[simp] theorem modCt_resetHeld (s : State) (f : Ct → Ct) : (s.modCt f).resetHeld = s.resetHeld := (rfl)
@[simp] theorem modCt_hold (s : State) (f : Ct → Ct) : (s.modCt f).hold = s.hold := (rfl)
@[simp] theorem modCt_gateFilm (s : State) (f : Ct → Ct) : (s.modCt f).gateFilm = s.gateFilm := (rfl)
@[simp] theorem modCt_presence (s : State) (f : Ct → Ct) : (s.modCt f).presence = s.presence := (rfl)
@[simp] theorem modCt_pending (s : State) (f : Ct → Ct) : (s.modCt f).pending = s.pending := (rfl)
@[simp] theorem modCt_free (s : State) (f : Ct → Ct) : (s.modCt f).free = s.free := (rfl)

/-! ### Rs -/

@[simp] theorem modRs_tc (s : State) (f : Rs → Rs) : (s.modRs f).tc = s.tc := (rfl)
@[simp] theorem modRs_tu (s : State) (f : Rs → Rs) : (s.modRs f).tu = s.tu := (rfl)
@[simp] theorem modRs_cu (s : State) (f : Rs → Rs) : (s.modRs f).cu = s.cu := (rfl)
@[simp] theorem modRs_ix (s : State) (f : Rs → Rs) : (s.modRs f).ix = s.ix := (rfl)
@[simp] theorem modRs_fu (s : State) (f : Rs → Rs) : (s.modRs f).fu = s.fu := (rfl)
@[simp] theorem modRs_cp (s : State) (f : Rs → Rs) : (s.modRs f).cp = s.cp := (rfl)
@[simp] theorem modRs_ct (s : State) (f : Rs → Rs) : (s.modRs f).ct = s.ct := (rfl)
@[simp] theorem modRs_rs (s : State) (f : Rs → Rs) : (s.modRs f).rs = f s.rs := (rfl)
@[simp] theorem modRs_dc (s : State) (f : Rs → Rs) : (s.modRs f).dc = s.dc := (rfl)
@[simp] theorem modRs_li (s : State) (f : Rs → Rs) : (s.modRs f).li = s.li := (rfl)
@[simp] theorem modRs_fm (s : State) (f : Rs → Rs) : (s.modRs f).fm = s.fm := (rfl)
@[simp] theorem modRs_resetHeld (s : State) (f : Rs → Rs) : (s.modRs f).resetHeld = s.resetHeld := (rfl)
@[simp] theorem modRs_hold (s : State) (f : Rs → Rs) : (s.modRs f).hold = s.hold := (rfl)
@[simp] theorem modRs_gateFilm (s : State) (f : Rs → Rs) : (s.modRs f).gateFilm = s.gateFilm := (rfl)
@[simp] theorem modRs_presence (s : State) (f : Rs → Rs) : (s.modRs f).presence = s.presence := (rfl)
@[simp] theorem modRs_pending (s : State) (f : Rs → Rs) : (s.modRs f).pending = s.pending := (rfl)
@[simp] theorem modRs_free (s : State) (f : Rs → Rs) : (s.modRs f).free = s.free := (rfl)

/-! ### Dc -/

@[simp] theorem modDc_tc (s : State) (f : Dc → Dc) : (s.modDc f).tc = s.tc := (rfl)
@[simp] theorem modDc_tu (s : State) (f : Dc → Dc) : (s.modDc f).tu = s.tu := (rfl)
@[simp] theorem modDc_cu (s : State) (f : Dc → Dc) : (s.modDc f).cu = s.cu := (rfl)
@[simp] theorem modDc_ix (s : State) (f : Dc → Dc) : (s.modDc f).ix = s.ix := (rfl)
@[simp] theorem modDc_fu (s : State) (f : Dc → Dc) : (s.modDc f).fu = s.fu := (rfl)
@[simp] theorem modDc_cp (s : State) (f : Dc → Dc) : (s.modDc f).cp = s.cp := (rfl)
@[simp] theorem modDc_ct (s : State) (f : Dc → Dc) : (s.modDc f).ct = s.ct := (rfl)
@[simp] theorem modDc_rs (s : State) (f : Dc → Dc) : (s.modDc f).rs = s.rs := (rfl)
@[simp] theorem modDc_dc (s : State) (f : Dc → Dc) : (s.modDc f).dc = f s.dc := (rfl)
@[simp] theorem modDc_li (s : State) (f : Dc → Dc) : (s.modDc f).li = s.li := (rfl)
@[simp] theorem modDc_fm (s : State) (f : Dc → Dc) : (s.modDc f).fm = s.fm := (rfl)
@[simp] theorem modDc_resetHeld (s : State) (f : Dc → Dc) : (s.modDc f).resetHeld = s.resetHeld := (rfl)
@[simp] theorem modDc_hold (s : State) (f : Dc → Dc) : (s.modDc f).hold = s.hold := (rfl)
@[simp] theorem modDc_gateFilm (s : State) (f : Dc → Dc) : (s.modDc f).gateFilm = s.gateFilm := (rfl)
@[simp] theorem modDc_presence (s : State) (f : Dc → Dc) : (s.modDc f).presence = s.presence := (rfl)
@[simp] theorem modDc_pending (s : State) (f : Dc → Dc) : (s.modDc f).pending = s.pending := (rfl)
@[simp] theorem modDc_free (s : State) (f : Dc → Dc) : (s.modDc f).free = s.free := (rfl)

/-! ### Li -/

@[simp] theorem modLi_tc (s : State) (f : Li → Li) : (s.modLi f).tc = s.tc := (rfl)
@[simp] theorem modLi_tu (s : State) (f : Li → Li) : (s.modLi f).tu = s.tu := (rfl)
@[simp] theorem modLi_cu (s : State) (f : Li → Li) : (s.modLi f).cu = s.cu := (rfl)
@[simp] theorem modLi_ix (s : State) (f : Li → Li) : (s.modLi f).ix = s.ix := (rfl)
@[simp] theorem modLi_fu (s : State) (f : Li → Li) : (s.modLi f).fu = s.fu := (rfl)
@[simp] theorem modLi_cp (s : State) (f : Li → Li) : (s.modLi f).cp = s.cp := (rfl)
@[simp] theorem modLi_ct (s : State) (f : Li → Li) : (s.modLi f).ct = s.ct := (rfl)
@[simp] theorem modLi_rs (s : State) (f : Li → Li) : (s.modLi f).rs = s.rs := (rfl)
@[simp] theorem modLi_dc (s : State) (f : Li → Li) : (s.modLi f).dc = s.dc := (rfl)
@[simp] theorem modLi_li (s : State) (f : Li → Li) : (s.modLi f).li = f s.li := (rfl)
@[simp] theorem modLi_fm (s : State) (f : Li → Li) : (s.modLi f).fm = s.fm := (rfl)
@[simp] theorem modLi_resetHeld (s : State) (f : Li → Li) : (s.modLi f).resetHeld = s.resetHeld := (rfl)
@[simp] theorem modLi_hold (s : State) (f : Li → Li) : (s.modLi f).hold = s.hold := (rfl)
@[simp] theorem modLi_gateFilm (s : State) (f : Li → Li) : (s.modLi f).gateFilm = s.gateFilm := (rfl)
@[simp] theorem modLi_presence (s : State) (f : Li → Li) : (s.modLi f).presence = s.presence := (rfl)
@[simp] theorem modLi_pending (s : State) (f : Li → Li) : (s.modLi f).pending = s.pending := (rfl)
@[simp] theorem modLi_free (s : State) (f : Li → Li) : (s.modLi f).free = s.free := (rfl)

/-! ### Fm -/

@[simp] theorem modFm_tc (s : State) (f : Fm → Fm) : (s.modFm f).tc = s.tc := (rfl)
@[simp] theorem modFm_tu (s : State) (f : Fm → Fm) : (s.modFm f).tu = s.tu := (rfl)
@[simp] theorem modFm_cu (s : State) (f : Fm → Fm) : (s.modFm f).cu = s.cu := (rfl)
@[simp] theorem modFm_ix (s : State) (f : Fm → Fm) : (s.modFm f).ix = s.ix := (rfl)
@[simp] theorem modFm_fu (s : State) (f : Fm → Fm) : (s.modFm f).fu = s.fu := (rfl)
@[simp] theorem modFm_cp (s : State) (f : Fm → Fm) : (s.modFm f).cp = s.cp := (rfl)
@[simp] theorem modFm_ct (s : State) (f : Fm → Fm) : (s.modFm f).ct = s.ct := (rfl)
@[simp] theorem modFm_rs (s : State) (f : Fm → Fm) : (s.modFm f).rs = s.rs := (rfl)
@[simp] theorem modFm_dc (s : State) (f : Fm → Fm) : (s.modFm f).dc = s.dc := (rfl)
@[simp] theorem modFm_li (s : State) (f : Fm → Fm) : (s.modFm f).li = s.li := (rfl)
@[simp] theorem modFm_fm (s : State) (f : Fm → Fm) : (s.modFm f).fm = f s.fm := (rfl)
@[simp] theorem modFm_resetHeld (s : State) (f : Fm → Fm) : (s.modFm f).resetHeld = s.resetHeld := (rfl)
@[simp] theorem modFm_hold (s : State) (f : Fm → Fm) : (s.modFm f).hold = s.hold := (rfl)
@[simp] theorem modFm_gateFilm (s : State) (f : Fm → Fm) : (s.modFm f).gateFilm = s.gateFilm := (rfl)
@[simp] theorem modFm_presence (s : State) (f : Fm → Fm) : (s.modFm f).presence = s.presence := (rfl)
@[simp] theorem modFm_pending (s : State) (f : Fm → Fm) : (s.modFm f).pending = s.pending := (rfl)
@[simp] theorem modFm_free (s : State) (f : Fm → Fm) : (s.modFm f).free = s.free := (rfl)

/-! ### Free values -/

@[simp] theorem spendFree_tc (s : State) : s.spendFree.tc = s.tc := (rfl)
@[simp] theorem spendFree_tu (s : State) : s.spendFree.tu = s.tu := (rfl)
@[simp] theorem spendFree_cu (s : State) : s.spendFree.cu = s.cu := (rfl)
@[simp] theorem spendFree_ix (s : State) : s.spendFree.ix = s.ix := (rfl)
@[simp] theorem spendFree_fu (s : State) : s.spendFree.fu = s.fu := (rfl)
@[simp] theorem spendFree_cp (s : State) : s.spendFree.cp = s.cp := (rfl)
@[simp] theorem spendFree_ct (s : State) : s.spendFree.ct = s.ct := (rfl)
@[simp] theorem spendFree_rs (s : State) : s.spendFree.rs = s.rs := (rfl)
@[simp] theorem spendFree_dc (s : State) : s.spendFree.dc = s.dc := (rfl)
@[simp] theorem spendFree_li (s : State) : s.spendFree.li = s.li := (rfl)
@[simp] theorem spendFree_fm (s : State) : s.spendFree.fm = s.fm := (rfl)
@[simp] theorem spendFree_resetHeld (s : State) : s.spendFree.resetHeld = s.resetHeld := (rfl)
@[simp] theorem spendFree_hold (s : State) : s.spendFree.hold = s.hold := (rfl)
@[simp] theorem spendFree_gateFilm (s : State) : s.spendFree.gateFilm = s.gateFilm := (rfl)
@[simp] theorem spendFree_presence (s : State) : s.spendFree.presence = s.presence := (rfl)
@[simp] theorem spendFree_pending (s : State) : s.spendFree.pending = s.pending := (rfl)
@[simp] theorem spendFree_free (s : State) : s.spendFree.free = s.free + 1 := (rfl)

end Sys2Proof.Machine
end

