-- ==== Sys2Proof/Laws/Keeps.lean ====
section
/-! SUPPORT. Laws/Keeps.lean: the laws of Safety.lean that an operation of the part keeps, said once as a relation between
the state before and the state after; how the named updates and the shared forms keep it. -/

namespace Sys2Proof.Machine

/-- What the command buffer's law is about. -/
def Li.talk (l : Li) : Nat × List Reply × Nat := (l.places, l.replies, l.sendingReply)

/-- An operation inside a command's action, block by block: every law that holds before holds after, and the command
buffer, the reply list and the reply in transmission are untouched. -/
structure KeepsBlocks (s t : State) : Prop where
  tc : s.tc.wf → t.tc.wf
  cu : s.cu.wf → t.cu.wf
  tables : s.tablesWf → t.tablesWf
  cp : s.cp.wf → t.cp.wf
  ct : s.ct.wf → t.ct.wf
  rs : s.rs.wf → t.rs.wf
  dc : s.dc.wf → t.dc.wf
  notices : s.li.noticesWf → t.li.noticesWf
  fm : s.fm.wf → t.fm.wf
  talk : t.li.talk = s.li.talk

theorem KeepsBlocks.trans {a b c : State} (h : KeepsBlocks a b) (k : KeepsBlocks b c) : KeepsBlocks a c :=
  ⟨fun w => k.tc (h.tc w), fun w => k.cu (h.cu w), fun w => k.tables (h.tables w), fun w => k.cp (h.cp w),
    fun w => k.ct (h.ct w), fun w => k.rs (h.rs w), fun w => k.dc (h.dc w), fun w => k.notices (h.notices w),
    fun w => k.fm (h.fm w), k.talk.trans h.talk⟩

/-- The laws of CP's slots and of RS's queue, and the law that joins them. -/
structure State.storeWf (s : State) : Prop where
  cp : s.cp.wf
  rs : s.rs.wf
  slots : s.slotsWf

/-- An operation inside a command's action: it keeps every block's law, and the law that joins CP's slots to RS's queue. -/
structure Keeps (s t : State) : Prop extends KeepsBlocks s t where
  slots : s.storeWf → t.slotsWf

theorem Keeps.store {s t : State} (h : Keeps s t) (w : s.storeWf) : t.storeWf := ⟨h.cp w.cp, h.rs w.rs, h.slots w⟩

theorem Keeps.refl (s : State) : Keeps s s := ⟨⟨id, id, id, id, id, id, id, id, id, rfl⟩, State.storeWf.slots⟩

theorem Keeps.trans {a b c : State} (h : Keeps a b) (k : Keeps b c) : Keeps a c :=
  ⟨h.toKeepsBlocks.trans k.toKeepsBlocks, fun w => k.slots (h.store w)⟩

/-- An operation that leaves the slots, the queue's entries, the jobs and the deliveries. -/
theorem KeepsBlocks.keeps {s t : State} (k : KeepsBlocks s t) (hs : t.cp.slots = s.cp.slots) (hj : t.cp.jobs = s.cp.jobs)
    (hq : t.rs.queue = s.rs.queue) (hd : t.dc.sent = s.dc.sent) : Keeps s t := by
  refine ⟨k, fun w => ?_⟩
  unfold State.slotsWf State.jobList
  rw [hs, hj, hq, hd]
  exact w.slots

@[simp] theorem keeps_self (s : State) : Keeps s s ↔ True := ⟨fun _ => trivial, fun _ => Keeps.refl s⟩

/-! ### The laws unfolded -/

@[simp] theorem tcWf_iff (c : Tc) :
    c.wf ↔ c.position ≤ maxPosition ∧ c.underrun ≤ maxPosition ∧ (c.underrun = 0 ∨ c.position = 0) :=
  ⟨fun w => ⟨w.1, w.2, w.3⟩, fun w => ⟨w.1, w.2.1, w.2.2⟩⟩

@[simp] theorem mapLaw_iff (m : List MapEntry) : MapLaw m ↔ m.length ≤ 32 ∧ Ascending MapEntry.position m :=
  ⟨fun w => ⟨w.1, w.2⟩, fun w => ⟨w.1, w.2⟩⟩

@[simp] theorem indexLaw_iff (a : List Segment) (b : List Landmark) :
    IndexLaw a b ↔ a.length ≤ 32 ∧ b.length ≤ 256 ∧ Ascending Landmark.frame b :=
  ⟨fun w => ⟨w.1, w.2, w.3⟩, fun w => ⟨w.1, w.2.1, w.2.2⟩⟩

@[simp] theorem cpWf_iff (c : Cp) :
    c.wf ↔
      c.slots.length = 16 ∧ (c.lamp = .off ↔ (c.probeHolds = false ∧ c.listHolds = false)) ∧ StoreLaw c.slots c.ready :=
  ⟨fun w => ⟨w.1, w.2, w.3⟩, fun w => ⟨w.1, w.2.1, w.2.2⟩⟩

@[simp] theorem rsWf_iff (r : Rs) :
    r.wf ↔ r.queue.length ≤ 32 ∧ (r.queue.map Request.id).Nodup ∧ (∀ q ∈ r.queue, 1 ≤ q.id ∧ q.id ≤ 255)
      ∧ (r.items.filter isIndexItem).length ≤ 1 ∧ (r.items.filter fun i => !isIndexItem i).length ≤ 3 :=
  ⟨fun w => ⟨w.1, w.2, w.3, w.4, w.5⟩, fun w => ⟨w.1, w.2.1, w.2.2.1, w.2.2.2.1, w.2.2.2.2⟩⟩

@[simp] theorem channelWf_iff (c : Channel) :
    c.wf ↔ (c.mode = .telemetry → c.sending = none) ∧ (c.sending = none → c.waiting = none ∧ c.inTransmission = false)
      ∧ (c.waiting.isSome → c.inTransmission = false) :=
  ⟨fun w => ⟨w.1, w.2, w.3⟩, fun w => ⟨w.1, w.2.1, w.2.2⟩⟩

@[simp] theorem dcWf_iff (d : Dc) :
    d.wf ↔ d.a.wf ∧ d.b.wf ∧ d.a.mode = .image ∧ (d.snapshot.isSome → d.b.mode = .telemetry)
      ∧ (10 ≤ d.interval ∧ d.interval ≤ 1000) :=
  ⟨fun w => ⟨w.1, w.2, w.3, w.4, w.5⟩, fun w => ⟨w.1, w.2.1, w.2.2.1, w.2.2.2.1, w.2.2.2.2⟩⟩

@[simp] theorem noticesWf_iff (l : Li) :
    l.noticesWf ↔ Ascending (fun n : Notice => n.source.ctorIdx) l.notices
      ∧ (∀ n ∈ l.notices, 1 ≤ n.count ∧ n.count ≤ 255) ∧ l.levels.length = 16
      ∧ (∀ n ∈ l.notices, l.levels.getD n.source.ctorIdx .off ≠ .off) :=
  ⟨fun w => ⟨w.1, w.2, w.3, w.4⟩, fun w => ⟨w.1, w.2.1, w.2.2.1, w.2.2.2⟩⟩

@[simp] theorem fmWf_iff (m : Fm) :
    m.wf ↔ Ascending (fun e : FaultEntry => e.code.ctorIdx) m.active ∧ (∀ e ∈ m.active, classLegal e.code e.cls)
      ∧ (∀ e ∈ m.active, 1 ≤ e.count ∧ e.count ≤ countMax) ∧ m.log.length ≤ 10 :=
  ⟨fun w => ⟨w.1, w.2, w.3, w.4⟩, fun w => ⟨w.1, w.2.1, w.2.2.1, w.2.2.2⟩⟩

/-! ### The named updates -/

section
variable {s0 s : State}

@[simp] theorem modTc_keeps {f : Tc → Tc} (h : Keeps s0 s) (hf : s.tc.wf → (f s.tc).wf) : Keeps s0 (s.modTc f) :=
  h.trans ⟨⟨hf, id, fun w => ⟨w.1, w.2, w.3, w.4⟩, id, id, id, id, id, id, rfl⟩, fun w => w.slots⟩

@[simp] theorem modTu_keeps {f : Tu → Tu} (h : Keeps s0 s) : Keeps s0 (s.modTu f) :=
  h.trans ⟨⟨id, id, fun w => ⟨w.1, w.2, w.3, w.4⟩, id, id, id, id, id, id, rfl⟩, fun w => w.slots⟩

/-- An update of CU that leaves the entries. -/
@[simp] theorem modCu_keeps {f : Cu → Cu} (h : Keeps s0 s) (hf : (f s.cu).entries = s.cu.entries) :
    Keeps s0 (s.modCu f) :=
  h.trans
    ⟨⟨id, fun w => ⟨by simpa [hf] using w.1, by simpa [hf] using w.2⟩,
      fun w => ⟨w.1, w.2, by simpa [hf] using w.3, by simpa [hf] using w.4⟩, id, id, id, id, id, id, rfl⟩, fun w => w.slots⟩

@[simp] theorem modIx_keeps {f : Ix → Ix} (h : Keeps s0 s)
    (hf : IndexLaw s.ix.segments s.ix.landmarks → IndexLaw (f s.ix).segments (f s.ix).landmarks) :
    Keeps s0 (s.modIx f) :=
  h.trans ⟨⟨id, id, fun w => ⟨hf w.1, w.2, w.3, w.4⟩, id, id, id, id, id, id, rfl⟩, fun w => w.slots⟩

@[simp] theorem modFu_keeps {f : Fu → Fu} (h : Keeps s0 s) (hf : MapLaw s.fu.map → MapLaw (f s.fu).map) :
    Keeps s0 (s.modFu f) :=
  h.trans ⟨⟨id, id, fun w => ⟨w.1, hf w.2, w.3, w.4⟩, id, id, id, id, id, id, rfl⟩, fun w => w.slots⟩

theorem modCp_blocks {f : Cp → Cp} (hf : s.cp.wf → (f s.cp).wf) : KeepsBlocks s (s.modCp f) :=
  ⟨id, id, fun w => ⟨w.1, w.2, w.3, w.4⟩, hf, id, id, id, id, id, rfl⟩

theorem modRs_blocks {f : Rs → Rs} (hf : s.rs.wf → (f s.rs).wf) : KeepsBlocks s (s.modRs f) :=
  ⟨id, id, fun w => ⟨w.1, w.2, w.3, w.4⟩, id, id, hf, id, id, id, rfl⟩

theorem modDc_blocks {f : Dc → Dc} (hf : s.dc.wf → (f s.dc).wf) : KeepsBlocks s (s.modDc f) :=
  ⟨id, id, fun w => ⟨w.1, w.2, w.3, w.4⟩, id, id, id, hf, id, id, rfl⟩

/-- An update of CP that leaves the slots and the jobs. -/
@[simp] theorem modCp_keeps {f : Cp → Cp} (h : Keeps s0 s) (hf : s.cp.wf → (f s.cp).wf)
    (hs : (f s.cp).slots = s.cp.slots) (hj : (f s.cp).jobs = s.cp.jobs) : Keeps s0 (s.modCp f) :=
  h.trans ((modCp_blocks hf).keeps hs hj rfl rfl)

@[simp] theorem modCt_keeps {f : Ct → Ct} (h : Keeps s0 s) (hf : s.ct.wf → (f s.ct).wf) : Keeps s0 (s.modCt f) :=
  h.trans ⟨⟨id, id, fun w => ⟨w.1, w.2, w.3, w.4⟩, id, hf, id, id, id, id, rfl⟩, fun w => w.slots⟩

/-- An update of RS that leaves the queue's entries. -/
@[simp] theorem modRs_keeps {f : Rs → Rs} (h : Keeps s0 s) (hf : s.rs.wf → (f s.rs).wf)
    (hq : (f s.rs).queue = s.rs.queue) : Keeps s0 (s.modRs f) :=
  h.trans ((modRs_blocks hf).keeps rfl rfl hq rfl)

/-- An update of DC that leaves the deliveries. -/
@[simp] theorem modDc_keeps {f : Dc → Dc} (h : Keeps s0 s) (hf : s.dc.wf → (f s.dc).wf)
    (hd : (f s.dc).sent = s.dc.sent) : Keeps s0 (s.modDc f) :=
  h.trans ((modDc_blocks hf).keeps rfl rfl rfl hd)

@[simp] theorem modLi_keeps {f : Li → Li} (h : Keeps s0 s) (hf : s.li.noticesWf → (f s.li).noticesWf)
    (ht : (f s.li).talk = s.li.talk) : Keeps s0 (s.modLi f) :=
  h.trans ⟨⟨id, id, fun w => ⟨w.1, w.2, w.3, w.4⟩, id, id, id, id, hf, id, ht⟩, fun w => w.slots⟩

@[simp] theorem modFm_keeps {f : Fm → Fm} (h : Keeps s0 s) (hf : s.fm.wf → (f s.fm).wf) : Keeps s0 (s.modFm f) :=
  h.trans ⟨⟨id, id, fun w => ⟨w.1, w.2, w.3, w.4⟩, id, id, id, id, id, hf, rfl⟩, fun w => w.slots⟩

@[simp] theorem spendFree_keeps (h : Keeps s0 s) : Keeps s0 s.spendFree :=
  h.trans ⟨⟨id, id, fun w => ⟨w.1, w.2, w.3, w.4⟩, id, id, id, id, id, id, rfl⟩, fun w => w.slots⟩

/-! ### The shared forms -/

@[simp] theorem ite_keeps {c : Prop} [Decidable c] {a b : State} (ha : c → Keeps s0 a) (hb : ¬c → Keeps s0 b) :
    Keeps s0 (if c then a else b) := by
  split
  · exact ha ‹_›
  · exact hb ‹_›

@[simp] theorem onlyIf_keeps {c : Bool} {f : State → State} (h : Keeps s0 s) (hf : c = true → Keeps s0 (f s)) :
    Keeps s0 (s.onlyIf c f) := by
  unfold State.onlyIf
  split
  · exact hf ‹_›
  · exact h

@[simp] theorem withSome_keeps {α : Type} {x : Option α} {f : State → α → State} (h : Keeps s0 s)
    (hf : ∀ a, x = some a → Keeps s0 (f s a)) : Keeps s0 (s.withSome x f) := by
  unfold State.withSome
  split
  · exact hf _ rfl
  · exact h

@[simp] theorem each_keeps {α : Type} {xs : List α} {f : State → α → State} (h : Keeps s0 s)
    (hf : ∀ t a, Keeps s0 t → Keeps s0 (f t a)) : Keeps s0 (s.each xs f) := by
  unfold State.each
  induction xs generalizing s with
  | nil => exact h
  | cons a rest ih => exact ih (hf s a h)

@[simp] theorem refuse_keeps {st : Status} (h : Keeps s0 s) : Keeps s0 (s.refuse st).state := h
@[simp] theorem done_keeps (h : Keeps s0 s) : Keeps s0 s.done.state := h
@[simp] theorem doneWith_keeps {d : List Byte} (h : Keeps s0 s) : Keeps s0 (s.doneWith d).state := h
@[simp] theorem acceptedWith_keeps {d : List Byte} (h : Keeps s0 s) : Keeps s0 (s.acceptedWith d).state := h

/-- An action behind checks: it runs only when every check passes. -/
@[simp] theorem checked_keeps {cs : List (Bool × Status)} {act : State → Answer} (h : Keeps s0 s)
    (ha : (∀ c ∈ cs, c.1 = false) → Keeps s0 (act s).state) : Keeps s0 (checked s cs act).state := by
  unfold checked
  split
  · exact h
  · rename_i hn
    apply ha
    intro c hc
    simpa using List.find?_eq_none.mp hn c hc

end

end Sys2Proof.Machine
end

