-- ==== Sys2Proof/Laws/Ops.lean ====
section
/-! SUPPORT. Laws/Ops.lean: the shared operations of Machine/Ops.lean keep the laws. -/

namespace Sys2Proof.Machine

/-! ### The pending set -/

theorem noticeAdd_mem {n m : Notice} {l : List Notice} (h : m ∈ noticeAdd n l) :
    (m.source = n.source ∧ m.detail = n.detail ∧ m.uptime = n.uptime) ∨ m ∈ l := by
  induction l with
  | nil => simp only [noticeAdd, List.mem_singleton] at h; subst h; exact .inl ⟨rfl, rfl, rfl⟩
  | cons x rest ih =>
    unfold noticeAdd at h
    split at h
    · rcases List.mem_cons.mp h with h | h
      · subst h; exact .inl ⟨rfl, rfl, rfl⟩
      · exact .inr (List.mem_cons_of_mem _ h)
    · split at h
      · rcases List.mem_cons.mp h with h | h
        · subst h; exact .inl ⟨rfl, rfl, rfl⟩
        · exact .inr h
      · rcases List.mem_cons.mp h with h | h
        · subst h; exact .inr (List.mem_cons_self ..)
        · rcases ih h with h | h
          · exact .inl h
          · exact .inr (List.mem_cons_of_mem _ h)

theorem noticeAdd_count {n m : Notice} {l : List Notice} (hn : 1 ≤ n.count ∧ n.count ≤ 255)
    (hl : ∀ x ∈ l, 1 ≤ x.count ∧ x.count ≤ 255) (h : m ∈ noticeAdd n l) : 1 ≤ m.count ∧ m.count ≤ 255 := by
  induction l with
  | nil => simp only [noticeAdd, List.mem_singleton] at h; subst h; exact hn
  | cons x rest ih =>
    have hx := hl x (List.mem_cons_self ..)
    unfold noticeAdd at h
    split at h
    · rcases List.mem_cons.mp h with h | h
      · subst h; simp only [saturate]; omega
      · exact hl m (List.mem_cons_of_mem _ h)
    · split at h
      · rcases List.mem_cons.mp h with h | h
        · subst h; exact hn
        · exact hl m h
      · rcases List.mem_cons.mp h with h | h
        · subst h; exact hx
        · exact ih (fun y hy => hl y (List.mem_cons_of_mem _ hy)) h

theorem source_ext {a b : Source} (h : a.ctorIdx = b.ctorIdx) : a = b := by
  cases a <;> cases b <;> first | rfl | (exact absurd h (by decide))

theorem noticeAdd_ascending {n : Notice} {l : List Notice}
    (h : Ascending (fun n : Notice => n.source.ctorIdx) l) :
    Ascending (fun n : Notice => n.source.ctorIdx) (noticeAdd n l) := by
  unfold Ascending at *
  induction l with
  | nil => simp [noticeAdd]
  | cons x rest ih =>
    rw [List.pairwise_cons] at h
    unfold noticeAdd
    split
    · rename_i hs
      rw [List.pairwise_cons]
      exact ⟨fun a ha => by simpa [hs] using h.1 a ha, h.2⟩
    · rename_i hs
      split
      · rename_i hlt
        rw [List.pairwise_cons, List.pairwise_cons]
        refine ⟨fun a ha => ?_, h⟩
        rcases List.mem_cons.mp ha with ha | ha
        · subst ha; exact hlt
        · exact Nat.lt_trans hlt (h.1 a ha)
      · rename_i hge
        rw [List.pairwise_cons]
        refine ⟨fun a ha => ?_, ih h.2⟩
        rcases noticeAdd_mem ha with ha | ha
        · simp only [ha.1]
          have : x.source.ctorIdx ≠ n.source.ctorIdx := fun e => hs (source_ext e)
          omega
        · exact h.1 a ha

@[simp] theorem post_keeps {s0 s : State} {src : Source} {d : NoticeDetail} (h : Keeps s0 s) : Keeps s0 (s.post src d) := by
  unfold State.post
  split
  · exact h
  · rename_i hoff
    refine modLi_keeps h (fun w => ⟨noticeAdd_ascending w.1, fun m hm => ?_, w.3, fun m hm => ?_⟩) rfl
    · exact noticeAdd_count ⟨Nat.le_refl _, Nat.le_of_ble_eq_true rfl⟩ w.2 hm
    · rcases noticeAdd_mem hm with hm | hm
      · simpa [hm.1, State.level] using hoff
      · exact w.4 m hm

/-! ### Planning opportunities -/

@[simp] theorem offerPlanning_keeps {s0 s : State} (h : Keeps s0 s) : Keeps s0 s.offerPlanning := by
  unfold State.offerPlanning
  split
  · exact modRs_keeps h (fun w => ⟨w.1, w.2, w.3, w.4, w.5⟩) rfl
  · exact h

/-! ### Faults -/

theorem faultAdd_mem {e m : FaultEntry} {l : List FaultEntry} (h : m ∈ faultAdd e l) : m.code = e.code ∨ m ∈ l := by
  induction l with
  | nil => simp only [faultAdd, List.mem_singleton] at h; subst h; exact .inl rfl
  | cons x rest ih =>
    unfold faultAdd at h
    split at h
    · rcases List.mem_cons.mp h with h | h
      · subst h; exact .inl rfl
      · exact .inr (List.mem_cons_of_mem _ h)
    · split at h
      · rcases List.mem_cons.mp h with h | h
        · subst h; exact .inl rfl
        · exact .inr h
      · rcases List.mem_cons.mp h with h | h
        · subst h; exact .inr (List.mem_cons_self ..)
        · rcases ih h with h | h
          · exact .inl h
          · exact .inr (List.mem_cons_of_mem _ h)

theorem code_ext {a b : FaultCode} (h : a.ctorIdx = b.ctorIdx) : a = b := by
  cases a <;> cases b <;> first | rfl | (exact absurd h (by decide))

theorem faultAdd_ascending {e : FaultEntry} {l : List FaultEntry}
    (h : Ascending (fun x : FaultEntry => x.code.ctorIdx) l) :
    Ascending (fun x : FaultEntry => x.code.ctorIdx) (faultAdd e l) := by
  unfold Ascending at *
  induction l with
  | nil => simp [faultAdd]
  | cons x rest ih =>
    rw [List.pairwise_cons] at h
    unfold faultAdd
    split
    · rename_i hs
      rw [List.pairwise_cons]
      exact ⟨fun a ha => by simpa [hs] using h.1 a ha, h.2⟩
    · rename_i hs
      split
      · rename_i hlt
        rw [List.pairwise_cons, List.pairwise_cons]
        refine ⟨fun a ha => ?_, h⟩
        rcases List.mem_cons.mp ha with ha | ha
        · subst ha; exact hlt
        · exact Nat.lt_trans hlt (h.1 a ha)
      · rw [List.pairwise_cons]
        refine ⟨fun a ha => ?_, ih h.2⟩
        rcases faultAdd_mem ha with ha | ha
        · simp only [ha]
          have : x.code.ctorIdx ≠ e.code.ctorIdx := fun k => hs (code_ext k)
          omega
        · exact h.1 a ha

/-- The codes of MINOR faults. -/
@[simp] theorem classLegal_minor (c : FaultCode) :
    classLegal c .minor ↔ c ∉ [FaultCode.filmBreak, .encoderFault, .carouselJam, .filmStranded, .operatorMajor] := by
  cases c <;> simp [classLegal]

/-- The codes of MAJOR faults. -/
@[simp] theorem classLegal_major (c : FaultCode) :
    classLegal c .major ↔
      c ∈ [FaultCode.overTension, .filmBreak, .encoderFault, .carouselJam, .filmStranded, .operatorMajor] := by
  cases c <;> simp [classLegal]

theorem classLegal_join {c : FaultCode} {a b : FaultClass} (ha : classLegal c a) (hb : classLegal c b) :
    classLegal c (if a = .major then .major else b) := by
  split
  · rename_i h; rw [h] at ha; exact ha
  · exact hb

theorem faultAdd_class {e m : FaultEntry} {l : List FaultEntry} (he : classLegal e.code e.cls)
    (hl : ∀ x ∈ l, classLegal x.code x.cls) (h : m ∈ faultAdd e l) : classLegal m.code m.cls := by
  induction l with
  | nil => simp only [faultAdd, List.mem_singleton] at h; subst h; exact he
  | cons x rest ih =>
    have hx := hl x (List.mem_cons_self ..)
    unfold faultAdd at h
    split at h
    · rename_i hs
      rcases List.mem_cons.mp h with h | h
      · subst h; rw [hs] at hx; exact classLegal_join he hx
      · exact hl m (List.mem_cons_of_mem _ h)
    · split at h
      · rcases List.mem_cons.mp h with h | h
        · subst h; exact he
        · exact hl m h
      · rcases List.mem_cons.mp h with h | h
        · subst h; exact hx
        · exact ih (fun y hy => hl y (List.mem_cons_of_mem _ hy)) h

theorem faultAdd_count {e m : FaultEntry} {l : List FaultEntry} (he : 1 ≤ e.count ∧ e.count ≤ countMax)
    (hl : ∀ x ∈ l, 1 ≤ x.count ∧ x.count ≤ countMax) (h : m ∈ faultAdd e l) : 1 ≤ m.count ∧ m.count ≤ countMax := by
  induction l with
  | nil => simp only [faultAdd, List.mem_singleton] at h; subst h; exact he
  | cons x rest ih =>
    have hx := hl x (List.mem_cons_self ..)
    unfold faultAdd at h
    split at h
    · rcases List.mem_cons.mp h with h | h
      · subst h; simp only [saturate, countMax] at *; omega
      · exact hl m (List.mem_cons_of_mem _ h)
    · split at h
      · rcases List.mem_cons.mp h with h | h
        · subst h; exact he
        · exact hl m h
      · rcases List.mem_cons.mp h with h | h
        · subst h; exact hx
        · exact ih (fun y hy => hl y (List.mem_cons_of_mem _ hy)) h

@[simp] theorem offerLog_keeps {s0 s : State} {r : LogRecord} (h : Keeps s0 s) : Keeps s0 (s.offerLog r) := by
  unfold State.offerLog
  split
  · exact h
  · refine modFm_keeps h fun w => ⟨w.1, w.2, w.3, ?_⟩
    have := w.4
    simp only [List.length_append, List.length_singleton]
    split
    · omega
    · simp only [List.length_drop]; omega
  · split
    · refine modFm_keeps h fun w => ⟨w.1, w.2, w.3, ?_⟩
      simp only [List.length_append, List.length_singleton]; omega
    · have k : ∀ f : Fm → Fm, (f s.fm).active = s.fm.active → (f s.fm).log = s.fm.log → Keeps s0 (s.modFm f) := by
        intro f ha hl
        refine modFm_keeps h fun w => ⟨?_, ?_, ?_, ?_⟩
        · rw [ha]; exact w.1
        · rw [ha]; exact w.2
        · rw [ha]; exact w.3
        · rw [hl]; exact w.4
      dsimp only
      split
      · exact k _ rfl rfl
      · exact post_keeps (k _ rfl rfl)

@[simp] theorem postFault_keeps {s0 s : State} {c : FaultCode} {k : FaultClass} {d : FaultDetail} (h : Keeps s0 s) :
    Keeps s0 (s.postFault c k d) := by
  unfold State.postFault
  dsimp only
  split <;> exact post_keeps h

@[simp] theorem faultOccur_keeps {s0 s : State} {c : FaultCode} {k : FaultClass} {d : FaultDetail} (h : Keeps s0 s)
    (hc : classLegal c k) : Keeps s0 (s.faultOccur c k d) := by
  unfold State.faultOccur
  refine postFault_keeps (offerLog_keeps (modFm_keeps h fun w => ⟨faultAdd_ascending w.1, ?_, ?_, w.4⟩))
  · exact fun m hm => faultAdd_class hc w.2 hm
  · exact fun m hm => faultAdd_count ⟨Nat.le_refl _, Nat.le_of_ble_eq_true rfl⟩ w.3 hm

/-! ### Directory entries -/

theorem entry_modEntry (s : State) (n m : Nat) (f : Entry → Entry) (hm : m < s.cu.entries.length) :
    (s.modEntry n f).cu.entries.getD m Entry.empty = if n = m then f (s.entry n) else s.entry m := by
  by_cases hnm : n = m
  · subst hnm
    simp [State.modEntry, State.modCu, List.getD_eq_getElem?_getD, hm]
  · simp [State.modEntry, State.modCu, State.entry, List.getD_eq_getElem?_getD, hnm]

/-- A change of an entry that leaves its label unshared and its saved tables in their laws. -/
theorem modEntry_keeps_of {s0 s : State} {n : Nat} {f : Entry → Entry} (h : Keeps s0 s)
    (hl : s.cu.wf → n < 12 → ∀ m, m < 12 → m ≠ n → (f (s.entry n)).label = (s.entry m).label →
      (f (s.entry n)).label = [])
    (ht : s.tablesWf → IndexLaw (s.entry n).segments (s.entry n).landmarks → MapLaw (s.entry n).focusMap →
      IndexLaw (f (s.entry n)).segments (f (s.entry n)).landmarks ∧ MapLaw (f (s.entry n)).focusMap) :
    Keeps s0 (s.modEntry n f) := by
  have laws : s.tablesWf → IndexLaw (s.entry n).segments (s.entry n).landmarks ∧ MapLaw (s.entry n).focusMap := by
    intro w
    by_cases hn : n < s.cu.entries.length
    · have : s.entry n ∈ s.cu.entries := by
        simp [State.entry, List.getD_eq_getElem?_getD, hn]
      exact ⟨w.3 _ this, w.4 _ this⟩
    · have : s.entry n = Entry.empty := by
        simp [State.entry, List.getD_eq_getElem?_getD, hn]
      rw [this]
      simp [Entry.empty, Ascending]
  refine h.trans ⟨⟨id, fun w => ⟨?_, ?_⟩, fun w => ⟨w.1, w.2, ?_, ?_⟩, id, id, id, id, id, id, rfl⟩, fun w => w.slots⟩
  · simpa [State.modEntry, State.modCu] using w.1
  · intro i j hi hj hij
    have hi' : i < s.cu.entries.length := by rw [w.1]; exact hi
    have hj' : j < s.cu.entries.length := by rw [w.1]; exact hj
    rw [entry_modEntry s n i f hi', entry_modEntry s n j f hj']
    split
    · rename_i hni
      subst hni
      rw [if_neg hij]
      exact hl w hi j hj (Ne.symm hij)
    · split
      · rename_i hnj
        subst hnj
        intro e
        rw [e]
        exact hl w hj i hi hij e.symm
      · exact w.2 i j hi hj hij
  · intro e he
    rcases List.mem_or_eq_of_mem_set he with he | he
    · exact w.3 e he
    · subst he; exact (ht w (laws w).1 (laws w).2).1
  · intro e he
    rcases List.mem_or_eq_of_mem_set he with he | he
    · exact w.4 e he
    · subst he; exact (ht w (laws w).1 (laws w).2).2

/-- A change of an entry that keeps its label and its saved tables. -/
@[simp] theorem modEntry_keeps {s0 s : State} {n : Nat} {f : Entry → Entry} (h : Keeps s0 s)
    (hl : (f (s.entry n)).label = (s.entry n).label) (hs : (f (s.entry n)).segments = (s.entry n).segments)
    (hm : (f (s.entry n)).landmarks = (s.entry n).landmarks) (hf : (f (s.entry n)).focusMap = (s.entry n).focusMap) :
    Keeps s0 (s.modEntry n f) := by
  refine modEntry_keeps_of h (fun w hn m hm' hne => ?_) (fun _ a b => ?_)
  · rw [hl]; exact w.2 n m hn hm' (Ne.symm hne)
  · rw [hs, hm, hf]; exact ⟨a, b⟩

@[simp] theorem modMounted_keeps {s0 s : State} {f : Entry → Entry} (h : Keeps s0 s)
    (hl : ∀ e, (f e).label = e.label) (hs : ∀ e, (f e).segments = e.segments)
    (hm : ∀ e, (f e).landmarks = e.landmarks) (hf : ∀ e, (f e).focusMap = e.focusMap) :
    Keeps s0 (s.modMounted f) := by
  unfold State.modMounted
  exact withSome_keeps h fun n _ => modEntry_keeps h (hl _) (hs _) (hm _) (hf _)

@[simp] theorem setSlotState_keeps {s0 s : State} {n : Nat} {st : SlotState} (h : Keeps s0 s) :
    Keeps s0 (s.setSlotState n st) := by
  unfold State.setSlotState
  exact post_keeps (modEntry_keeps h rfl rfl rfl rfl)

/-! ### TC entering a state -/

@[simp] theorem loopFollow_keeps {s0 s : State} (h : Keeps s0 s) : Keeps s0 s.loopFollow := by
  unfold State.loopFollow
  (repeat' split) <;> simp [h]

@[simp] theorem slackFollow_keeps {s0 s : State} (h : Keeps s0 s) : Keeps s0 s.slackFollow := by
  unfold State.slackFollow
  split <;> simp [h]

@[simp] theorem calibrationFollow_keeps {s0 s : State} (h : Keeps s0 s) : Keeps s0 s.calibrationFollow := by
  unfold State.calibrationFollow
  split <;> simp [h]

@[simp] theorem tensionFollow_keeps {s0 s : State} (h : Keeps s0 s) : Keeps s0 s.tensionFollow :=
  calibrationFollow_keeps (slackFollow_keeps (loopFollow_keeps h))

@[simp] theorem enter_keeps {s0 s : State} {st : TransportState} (h : Keeps s0 s) : Keeps s0 (s.enter st) := by
  unfold State.enter
  have k := tensionFollow_keeps (modTc_keeps (f := fun c => { c with state := st }) h fun w => ⟨w.1, w.2, w.3⟩)
  dsimp only
  split
  · exact offerPlanning_keeps (modCp_keeps k (fun w => ⟨w.1, w.2, w.3⟩) rfl rfl)
  · exact offerPlanning_keeps k
  · exact k

end Sys2Proof.Machine
end

