-- ==== Sys2Proof/Laws/Slots.lean ====
section
/-! SUPPORT. Laws/Slots.lean: the law that joins CP's slots to RS's queue (R126), and each change of the slots, the entries,
the jobs or the deliveries that keeps it. -/

namespace Sys2Proof.Machine

/-- No slot carries the request id. -/
def unnamed (slots : List (Option StoreSlot)) (id : Nat) : Prop :=
  ∀ (i : Nat) (c : StoreSlot), slots[i]? = some (some c) → c.reqId ≠ id

/-- No slot that carries the request id is SENDING. -/
def unsent (slots : List (Option StoreSlot)) (id : Nat) : Prop :=
  ∀ (i : Nat) (c : StoreSlot), slots[i]? = some (some c) → c.reqId = id → c.state ≠ .sending

/-- The order's slot and its request id meet only in each other, in a slot that is not SENDING. -/
def tied (slots : List (Option StoreSlot)) (o : JobOrder) : Prop :=
  ∀ (i : Nat) (c : StoreSlot), slots[i]? = some (some c) → c.reqId = o.reqId ∨ i = o.slot →
    c.reqId = o.reqId ∧ i = o.slot ∧ c.state ≠ .sending

/-! ### One slot set -/

theorem getElem?_set_some {l : List (Option StoreSlot)} {n i : Nat} {a b : StoreSlot} (hn : n < l.length) :
    (l.set n (some a))[i]? = some (some b) ↔ (i = n ∧ b = a) ∨ (i ≠ n ∧ l[i]? = some (some b)) := by
  rw [List.getElem?_set]
  by_cases hi : n = i
  · subst hi; simp [hn, eq_comm]
  · have : i ≠ n := fun e => hi e.symm
    simp [hi, this]

theorem getElem?_set_none {l : List (Option StoreSlot)} {n i : Nat} {b : StoreSlot} :
    (l.set n none)[i]? = some (some b) ↔ i ≠ n ∧ l[i]? = some (some b) := by
  rw [List.getElem?_set]
  by_cases hi : n = i
  · subst hi; simp
  · have : i ≠ n := fun e => hi e.symm
    simp [hi, this]

/-- What stands in slot i after an update of slot n. -/
theorem getElem?_modSlot {l : List (Option StoreSlot)} {n i : Nat} {f : StoreSlot → StoreSlot} {a : StoreSlot} :
    (l.set n ((l.getD n none).map f))[i]? = some (some a) ↔
      ∃ b : StoreSlot, l[i]? = some (some b) ∧ a = if i = n then f b else b := by
  rw [List.getElem?_set, List.getD_eq_getElem?_getD]
  by_cases hi : n = i
  · subst hi
    by_cases hl : n < l.length
    · rw [List.getElem?_eq_getElem hl]
      cases l[n] <;> simp [hl, eq_comm]
    · simp [hl]
  · have : i ≠ n := fun e => hi e.symm
    simp [hi, this]

theorem reservedIn_mod {l : List (Option StoreSlot)} {n : Nat} {f : StoreSlot → StoreSlot} {o : JobOrder}
    (hid : ∀ x, (f x).reqId = x.reqId)
    (hr : ∀ x : StoreSlot, x.state = .reserved ∨ x.state = .filling → (f x).state = .reserved ∨ (f x).state = .filling)
    (h : reservedIn l o) : reservedIn (l.set n ((l.getD n none).map f)) o := by
  obtain ⟨c, hc, e, hs⟩ := h
  refine ⟨_, getElem?_modSlot.mpr ⟨c, hc, rfl⟩, ?_, ?_⟩
  · split
    · rw [hid]; exact e
    · exact e
  · split
    · exact hr c hs
    · exact hs

theorem tied_mod {l : List (Option StoreSlot)} {n : Nat} {f : StoreSlot → StoreSlot} {o : JobOrder}
    (hid : ∀ x, (f x).reqId = x.reqId) (hs : ∀ x, (f x).state = .sending ↔ x.state = .sending) (h : tied l o) :
    tied (l.set n ((l.getD n none).map f)) o := by
  intro i c hc hor
  obtain ⟨b, hb, rfl⟩ := getElem?_modSlot.mp hc
  have e : (if i = n then f b else b).reqId = b.reqId := by split <;> simp [hid]
  have e2 : (if i = n then f b else b).state = .sending ↔ b.state = .sending := by split <;> simp [hs]
  rw [e] at hor ⊢
  obtain ⟨x, y, z⟩ := h i b hb hor
  exact ⟨x, y, fun k => z (e2.mp k)⟩

theorem unsent_free {l : List (Option StoreSlot)} {n id : Nat} (h : unsent l id) : unsent (l.set n none) id :=
  fun i c hc => h i c (getElem?_set_none.mp hc).2

theorem tied_free {l : List (Option StoreSlot)} {n : Nat} {o : JobOrder} (h : tied l o) : tied (l.set n none) o :=
  fun i c hc => h i c (getElem?_set_none.mp hc).2

theorem tied_unnamed {l : List (Option StoreSlot)} {o : JobOrder} (h : tied l o) :
    unnamed (l.set o.slot none) o.reqId := by
  intro i c hc e
  have hm := getElem?_set_none.mp hc
  exact hm.1 (h i c hm.2 (.inl e)).2.1

theorem unnamed_unsent {l : List (Option StoreSlot)} {id : Nat} (h : unnamed l id) : unsent l id :=
  fun i c hc e => absurd e (h i c hc)

theorem tied_unsent {l : List (Option StoreSlot)} {o : JobOrder} (h : tied l o) : unsent l o.reqId :=
  fun i c hc e => (h i c hc (.inl e)).2.2

/-- The slot of an incomplete job, where no id stands in two slots. -/
theorem reservedIn_tied {l : List (Option StoreSlot)} {ready : List Nat} {o : JobOrder} (w : StoreLaw l ready)
    (h : reservedIn l o) : tied l o := by
  obtain ⟨a, ha, hid, hst⟩ := h
  have hns : a.state ≠ .sending := by rcases hst with e | e <;> simp [e]
  intro i c hc hor
  rcases hor with e | rfl
  · have := w.ids i o.slot c a hc ha (e.trans hid.symm)
    subst this
    have : c = a := by simpa [ha] using hc.symm
    subst this
    exact ⟨e, rfl, hns⟩
  · have : c = a := by simpa [ha] using hc.symm
    subst this
    exact ⟨hid, rfl, hns⟩

/-! ### The law after a change -/

section
variable {slots : List (Option StoreSlot)} {queue : List Request} {jobs : List Job} {sent : List Sending}

/-- A change of the queue. -/
theorem SlotLaw.queueOf {q' : List Request} (w : SlotLaw slots queue jobs sent)
    (h : ∀ (i : Nat) (c : StoreSlot), slots[i]? = some (some c) → namedBy queue i c → namedBy q' i c) :
    SlotLaw slots q' jobs sent :=
  ⟨fun i c hc => h i c hc (w.named i c hc), w.active, w.sending, w.apart⟩

/-- A change of the jobs. -/
theorem SlotLaw.jobsOf {js : List Job} (w : SlotLaw slots queue jobs sent)
    (h : ∀ j ∈ js, j.active = true → reservedIn slots j.order) : SlotLaw slots queue js sent :=
  ⟨w.named, h, w.sending, w.apart⟩

/-- Entries with ids of their own are told apart by them. -/
theorem entry_unique {q r : Request} (hd : (queue.map Request.id).Nodup) (hq : q ∈ queue) (hr : r ∈ queue)
    (e : q.id = r.id) : q = r := by
  induction queue with
  | nil => simp at hq
  | cons a rest ih =>
    rw [List.map_cons, List.nodup_cons] at hd
    rcases List.mem_cons.mp hq with hqa | hq' <;> rcases List.mem_cons.mp hr with hra | hr'
    · exact hqa.trans hra.symm
    · exact absurd (List.mem_map.mpr ⟨r, hr', by rw [← e, hqa]⟩) hd.1
    · exact absurd (List.mem_map.mpr ⟨q, hq', by rw [e, hra]⟩) hd.1
    · exact ih hd.2 hq' hr'

/-- The entry that a slot names, among entries with ids of their own. -/
theorem namedBy_unique {c : StoreSlot} {i : Nat} {r : Request} (hd : (queue.map Request.id).Nodup) (hr : r ∈ queue)
    (hid : r.id = c.reqId) (h : namedBy queue i c) :
    r.storeSlot = some i ∧ r.inStore ∧ (c.state = .sending ↔ r.state = .delivering) := by
  obtain ⟨q, hq, e, h2⟩ := h
  rwa [← entry_unique hd hq hr (e.trans hid.symm)]

/-- An entry that is not in the store has no slot. -/
theorem SlotLaw.unnamedOf (w : SlotLaw slots queue jobs sent) (hd : (queue.map Request.id).Nodup) {r : Request}
    (hr : r ∈ queue) (hs : ¬r.inStore) : unnamed slots r.id :=
  fun i c hc e => hs (namedBy_unique hd hr e.symm (w.named i c hc)).2.1

/-- An entry that is not DELIVERING has no SENDING slot. -/
theorem SlotLaw.unsentOf (w : SlotLaw slots queue jobs sent) (hd : (queue.map Request.id).Nodup) {r : Request}
    (hr : r ∈ queue) (hs : r.state ≠ .delivering) : unsent slots r.id :=
  fun i c hc e hsend => hs ((namedBy_unique hd hr e.symm (w.named i c hc)).2.2.mp hsend)

/-- The entries of one id changed, where no slot carries the id. -/
theorem SlotLaw.mapUnnamed (w : SlotLaw slots queue jobs sent) {id : Nat} {f : Request → Request}
    (hu : unnamed slots id) : SlotLaw slots (queue.map fun r => if r.id = id then f r else r) jobs sent := by
  refine w.queueOf fun i c hc ⟨q, hq, hid, h⟩ => ⟨q, List.mem_map.mpr ⟨q, hq, if_neg ?_⟩, hid, h⟩
  exact fun e => hu i c hc (hid.symm.trans e)

/-- The entries of one id changed within the store. -/
theorem SlotLaw.mapWithin (w : SlotLaw slots queue jobs sent) {id : Nat} {f : Request → Request}
    (hu : unsent slots id)
    (hf : ∀ r : Request, (f r).id = r.id ∧ (f r).storeSlot = r.storeSlot ∧ (f r).inStore ∧ (f r).state ≠ .delivering) :
    SlotLaw slots (queue.map fun r => if r.id = id then f r else r) jobs sent := by
  refine w.queueOf fun i c hc ⟨q, hq, hid, hst, hin, hsd⟩ => ?_
  by_cases e : q.id = id
  · refine ⟨f q, List.mem_map.mpr ⟨q, hq, if_pos e⟩, (hf q).1.trans hid, (hf q).2.1.trans hst, (hf q).2.2.1, ?_⟩
    exact ⟨fun k => absurd k (hu i c hc (hid.symm.trans e)), fun k => absurd k (hf q).2.2.2⟩
  · exact ⟨q, List.mem_map.mpr ⟨q, hq, if_neg e⟩, hid, hst, hin, hsd⟩

/-- Entries outside the store changed. -/
theorem SlotLaw.mapOutside (w : SlotLaw slots queue jobs sent) {f : Request → Request}
    (hf : ∀ r : Request, r.inStore → (f r).id = r.id ∧ (f r).storeSlot = r.storeSlot ∧ (f r).state = r.state) :
    SlotLaw slots (queue.map f) jobs sent := by
  refine w.queueOf fun i c _ ⟨q, hq, hid, hst, hin, hsd⟩ => ?_
  obtain ⟨a, b, e⟩ := hf q hin
  refine ⟨f q, List.mem_map_of_mem hq, a.trans hid, b.trans hst, ?_, ?_⟩
  · simpa [Request.inStore, e] using hin
  · rw [e]; exact hsd

/-- The entries of one id removed, where no slot carries the id. -/
theorem SlotLaw.removed (w : SlotLaw slots queue jobs sent) {id : Nat} (hu : unnamed slots id) :
    SlotLaw slots (queue.filter fun r => decide (r.id ≠ id)) jobs sent := by
  refine w.queueOf fun i c hc ⟨q, hq, hid, h⟩ => ⟨q, List.mem_filter.mpr ⟨hq, decide_eq_true ?_⟩, hid, h⟩
  exact fun e => hu i c hc (hid.symm.trans e)

/-- A slot made FREE, its DELIVERING entry removed, where it is neither an incomplete job's nor a delivery's. -/
theorem SlotLaw.free (w : SlotLaw slots queue jobs sent) {n : Nat}
    (hj : ∀ j ∈ jobs, j.active = true → j.order.slot ≠ n) (hd : ∀ d ∈ sent, d.slot ≠ n) :
    SlotLaw (slots.set n none)
      (queue.filter fun r => !(decide (r.state = .delivering) && decide (r.storeSlot = some n))) jobs sent := by
  refine ⟨fun i c hc => ?_, fun j hm ha => ?_, fun d hm => ?_, w.apart⟩
  · obtain ⟨hi, hc'⟩ := getElem?_set_none.mp hc
    obtain ⟨q, hq, hid, hst, h⟩ := w.named i c hc'
    refine ⟨q, List.mem_filter.mpr ⟨hq, ?_⟩, hid, hst, h⟩
    simp [hst, hi]
  · obtain ⟨c, hc, h⟩ := w.active j hm ha
    exact ⟨c, getElem?_set_none.mpr ⟨hj j hm ha, hc⟩, h⟩
  · obtain ⟨c, hc, h⟩ := w.sending d hm
    exact ⟨c, getElem?_set_none.mpr ⟨hd d hm, hc⟩, h⟩

/-- No delivery is of a slot that is not SENDING. -/
theorem SlotLaw.notSent (w : SlotLaw slots queue jobs sent) {n : Nat}
    (h : ∀ c : StoreSlot, slots[n]? = some (some c) → c.state ≠ .sending) : ∀ d ∈ sent, d.slot ≠ n := by
  rintro d hd rfl
  obtain ⟨c, hc, -, hs⟩ := w.sending d hd
  exact h c hc hs

/-- No incomplete job has a slot that does not carry its id. -/
theorem SlotLaw.notJob (w : SlotLaw slots queue jobs sent) {n : Nat}
    (h : ∀ c : StoreSlot, slots[n]? = some (some c) → ∀ j ∈ jobs, j.active = true → c.reqId = j.order.reqId →
      c.state = .reserved ∨ c.state = .filling → False) : ∀ j ∈ jobs, j.active = true → j.order.slot ≠ n := by
  rintro j hj ha rfl
  obtain ⟨c, hc, hid, hs⟩ := w.active j hj ha
  exact h c hc j hj ha hid hs

/-- An update of one slot that keeps its request id and enters or leaves neither SENDING nor the states of an incomplete
job. -/
theorem SlotLaw.modSlot (w : SlotLaw slots queue jobs sent) {n : Nat} {f : StoreSlot → StoreSlot}
    (hid : ∀ x, (f x).reqId = x.reqId) (hs : ∀ x, (f x).state = .sending ↔ x.state = .sending)
    (hr : ∀ x : StoreSlot, x.state = .reserved ∨ x.state = .filling → (f x).state = .reserved ∨ (f x).state = .filling) :
    SlotLaw (slots.set n ((slots.getD n none).map f)) queue jobs sent := by
  refine ⟨fun i c hc => ?_, fun j hm ha => reservedIn_mod hid hr (w.active j hm ha), fun d hm => ?_, w.apart⟩
  · obtain ⟨b, hb, rfl⟩ := getElem?_modSlot.mp hc
    obtain ⟨q, hq, e, h1, h2, h3⟩ := w.named i b hb
    refine ⟨q, hq, ?_, h1, h2, ?_⟩
    · rw [e]; split <;> simp [hid]
    · rw [← h3]; split <;> simp [hs]
  · obtain ⟨c, hc, e, h⟩ := w.sending d hm
    refine ⟨_, getElem?_modSlot.mpr ⟨c, hc, rfl⟩, ?_, ?_⟩
    · split
      · rw [hid]; exact e
      · exact e
    · split
      · exact (hs c).mpr h
      · exact h

/-- A FILLING slot made READY, the jobs of its id no longer incomplete. -/
theorem SlotLaw.makeReady {c : Cp} (w : SlotLaw c.slots queue jobs sent) {n id : Nat} {r : FrameRecord} {js : List Job}
    (hc : ∀ x : StoreSlot, c.slots[n]? = some (some x) → x.reqId = id)
    (hj : ∀ j ∈ js, j.active = true → j.order.reqId ≠ id ∧ ∃ k ∈ jobs, k.active = true ∧ k.order = j.order) :
    SlotLaw (c.makeReady n r).slots queue js sent := by
  unfold Cp.makeReady
  rw [List.getD_eq_getElem?_getD]
  have plain : SlotLaw c.slots queue js sent := w.jobsOf fun j hm ha => by
    obtain ⟨-, k, hk, ka, e⟩ := hj j hm ha
    rw [← e]; exact w.active k hk ka
  cases hn : c.slots[n]? with
  | none => exact plain
  | some o =>
    cases o with
    | none => exact plain
    | some x =>
      simp only [Option.getD_some]
      split
      · rename_i hx
        have hl : n < c.slots.length := (List.getElem?_eq_some_iff.mp hn).1
        refine ⟨fun i a ha => ?_, fun j hm ha => ?_, fun d hm => ?_, w.apart⟩
        · rcases (getElem?_set_some hl).mp ha with ⟨rfl, rfl⟩ | ⟨_, ha'⟩
          · obtain ⟨q, hq, e, h1, h2, h3⟩ := w.named i x hn
            exact ⟨q, hq, e, h1, h2, by rw [← h3, hx]; simp⟩
          · exact w.named i a ha'
        · obtain ⟨hne, -⟩ := hj j hm ha
          obtain ⟨a, h1, h2, h3⟩ := plain.active j hm ha
          refine ⟨a, (getElem?_set_some hl).mpr (.inr ⟨fun e => hne ?_, h1⟩), h2, h3⟩
          rw [e] at h1
          rw [← h2]; exact hc a h1
        · obtain ⟨a, h1, h2, h3⟩ := w.sending d hm
          refine ⟨a, (getElem?_set_some hl).mpr (.inr ⟨fun e => ?_, h1⟩), h2, h3⟩
          rw [e, hn] at h1
          simp only [Option.some.injEq] at h1
          rw [← h1, hx] at h3
          cases h3
      · exact plain

/-- A FREE slot RESERVED for an entry, which becomes PLANNED. -/
theorem SlotLaw.reserve (w : SlotLaw slots queue jobs sent) {n id : Nat} {a : StoreSlot} {f : Request → Request}
    (hn : slots[n]? = some none) (hu : unnamed slots id) (ha : a.reqId = id) (hs : a.state ≠ .sending)
    (hq : ∃ q ∈ queue, q.id = id)
    (hf : ∀ r : Request, (f r).id = r.id ∧ (f r).storeSlot = some n ∧ (f r).inStore ∧ (f r).state ≠ .delivering) :
    SlotLaw (slots.set n (some a)) (queue.map fun r => if r.id = id then f r else r) jobs sent := by
  have hl : n < slots.length := (List.getElem?_eq_some_iff.mp hn).1
  have other : ∀ i c, slots[i]? = some (some c) → i ≠ n := by
    rintro i c hc rfl
    simp [hn] at hc
  refine ⟨fun i c hc => ?_, fun j hm hj => ?_, fun d hm => ?_, w.apart⟩
  · rcases (getElem?_set_some hl).mp hc with ⟨rfl, rfl⟩ | ⟨_, hc'⟩
    · obtain ⟨q, hq, e⟩ := hq
      refine ⟨f q, List.mem_map.mpr ⟨q, hq, if_pos e⟩, ?_, (hf q).2.1, (hf q).2.2.1, ?_⟩
      · rw [(hf q).1, e, ha]
      · exact ⟨fun k => absurd k hs, fun k => absurd k (hf q).2.2.2⟩
    · exact (w.mapUnnamed hu).named i c hc'
  · obtain ⟨c, hc, h⟩ := w.active j hm hj
    exact ⟨c, (getElem?_set_some hl).mpr (.inr ⟨other _ c hc, hc⟩), h⟩
  · obtain ⟨c, hc, h⟩ := w.sending d hm
    exact ⟨c, (getElem?_set_some hl).mpr (.inr ⟨other _ c hc, hc⟩), h⟩

/-- The deliveries in another order. -/
theorem SlotLaw.permSent {sent' : List Sending} (w : SlotLaw slots queue jobs sent) (p : sent'.Perm sent) :
    SlotLaw slots queue jobs sent' :=
  ⟨w.named, w.active, fun d hd => w.sending d (p.mem_iff.mp hd), (p.map _).nodup_iff.mpr w.apart⟩

/-- A delivery replaced by one of the same slot and request. -/
theorem SlotLaw.sameSent {d e : Sending} {rest : List Sending} (w : SlotLaw slots queue jobs (d :: rest))
    (hs : e.slot = d.slot) (hr : e.reqId = d.reqId) : SlotLaw slots queue jobs (e :: rest) := by
  refine ⟨w.named, w.active, fun x hx => ?_, by simpa [hs] using w.apart⟩
  rcases List.mem_cons.mp hx with rfl | hx
  · unfold sentFrom
    rw [hs, hr]
    exact w.sending d (List.mem_cons_self ..)
  · exact w.sending x (List.mem_cons_of_mem _ hx)

/-- A delivery ended: its slot is no other delivery's and no incomplete job's. -/
theorem SlotLaw.ended {d : Sending} {rest : List Sending} (w : SlotLaw slots queue jobs (d :: rest)) :
    SlotLaw slots queue jobs rest ∧ (∀ e ∈ rest, e.slot ≠ d.slot)
      ∧ ∀ j ∈ jobs, j.active = true → j.order.slot ≠ d.slot := by
  have nd := w.apart
  rw [List.map_cons, List.nodup_cons] at nd
  refine ⟨⟨w.named, w.active, fun x hx => w.sending x (List.mem_cons_of_mem _ hx), nd.2⟩, fun e he k => ?_, ?_⟩
  · exact nd.1 (List.mem_map.mpr ⟨e, he, k⟩)
  · obtain ⟨c, hc, -, hs⟩ := w.sending d (List.mem_cons_self ..)
    intro j hj ha e
    obtain ⟨b, hb, -, hk⟩ := w.active j hj ha
    rw [e, hc] at hb
    simp only [Option.some.injEq] at hb
    rw [← hb, hs] at hk
    simp at hk

/-- A READY slot taken for delivery, its entry becoming DELIVERING. -/
theorem SlotLaw.take (w : SlotLaw slots queue jobs sent) {ready : List Nat} (v : StoreLaw slots ready) {n : Nat}
    {a : StoreSlot} {d : Sending} (ha : slots[n]? = some (some a)) (hr : a.state = .ready) (hn : d.slot = n)
    (hid : d.reqId = a.reqId) :
    SlotLaw (slots.set n (some { a with state := .sending }))
      (queue.map fun r => if r.id = a.reqId then { r with state := .delivering } else r) jobs (d :: sent) := by
  have hl : n < slots.length := (List.getElem?_eq_some_iff.mp ha).1
  have other : ∀ i c, slots[i]? = some (some c) → c.state ≠ .ready → i ≠ n := by
    rintro i c hc hs rfl
    simp only [ha, Option.some.injEq] at hc
    exact hs (hc ▸ hr)
  refine ⟨fun i c hc => ?_, fun j hm hj => ?_, fun e he => ?_, ?_⟩
  · rcases (getElem?_set_some hl).mp hc with ⟨rfl, rfl⟩ | ⟨hi, hc'⟩
    · obtain ⟨q, hq, e, h1, h2, -⟩ := w.named i a ha
      exact ⟨_, List.mem_map.mpr ⟨q, hq, if_pos e⟩, e, h1, .inr (.inr (.inr rfl)), by simp⟩
    · obtain ⟨q, hq, e, h⟩ := w.named i c hc'
      refine ⟨q, List.mem_map.mpr ⟨q, hq, if_neg fun k => hi ?_⟩, e, h⟩
      exact v.ids i n c a hc' ha (e.symm.trans k)
  · obtain ⟨c, hc, h1, h2⟩ := w.active j hm hj
    exact ⟨c, (getElem?_set_some hl).mpr (.inr ⟨other _ c hc (by rcases h2 with e | e <;> simp [e]), hc⟩), h1, h2⟩
  · rcases List.mem_cons.mp he with rfl | he
    · exact ⟨{ a with state := .sending }, (getElem?_set_some hl).mpr (.inl ⟨hn, rfl⟩), hid.symm, rfl⟩
    · obtain ⟨c, hc, h1, h2⟩ := w.sending e he
      exact ⟨c, (getElem?_set_some hl).mpr (.inr ⟨other _ c hc (by simp [h2]), hc⟩), h1, h2⟩
  · rw [List.map_cons, List.nodup_cons]
    refine ⟨fun k => ?_, w.apart⟩
    obtain ⟨e, he, hs⟩ := List.mem_map.mp k
    obtain ⟨c, hc, -, h2⟩ := w.sending e he
    exact other _ c hc (by simp [h2]) (hs.trans hn)

end

/-! ### Loops -/

theorem each_blocks {α : Type} {f : State → α → State} (hb : ∀ t a, KeepsBlocks t (f t a)) (xs : List α) (s : State) :
    KeepsBlocks s (s.each xs f) := by
  unfold State.each
  induction xs generalizing s with
  | nil => exact (Keeps.refl s).toKeepsBlocks
  | cons a rest ih => exact (hb s a).trans (ih (f s a))

/-- A loop whose steps keep the joint law where a condition on their items holds, which they leave for every item. -/
theorem each_law {α : Type} {f : State → α → State} {P : State → α → Prop} (hb : ∀ t a, KeepsBlocks t (f t a))
    (hs : ∀ t a, t.storeWf → P t a → (f t a).slotsWf ∧ ∀ b, P t b → P (f t a) b) {xs : List α} {s : State}
    (w : s.storeWf) (h : ∀ a ∈ xs, P s a) : (s.each xs f).slotsWf ∧ ∀ b, P s b → P (s.each xs f) b := by
  unfold State.each
  induction xs generalizing s with
  | nil => exact ⟨w.slots, fun _ hb => hb⟩
  | cons a rest ih =>
    obtain ⟨k, l⟩ := hs s a w (h a (List.mem_cons_self ..))
    have r := ih (s := f s a) ⟨(hb s a).cp w.cp, (hb s a).rs w.rs, k⟩ fun b hm => l b (h b (List.mem_cons_of_mem _ hm))
    exact ⟨r.1, fun b q => r.2 b (l b q)⟩

/-- Such a loop, where the condition holds of every item at its start, keeps the laws. -/
theorem each_keeps_of {α : Type} {s : State} {xs : List α} {f : State → α → State} (P : State → α → Prop)
    (hb : ∀ t a, KeepsBlocks t (f t a)) (h0 : s.storeWf → ∀ a ∈ xs, P s a)
    (hs : ∀ t a, t.storeWf → P t a → (f t a).slotsWf ∧ ∀ b, P t b → P (f t a) b) : Keeps s (s.each xs f) :=
  ⟨each_blocks hb xs s, fun w => (each_law hb hs w (h0 w)).1⟩

end Sys2Proof.Machine
end

