-- ==== Sys2Proof/Laws/Queue.lean ====
section
/-! SUPPORT. Laws/Queue.lean: the operations of Machine/QueueOps.lean keep the laws. -/

namespace Sys2Proof.Machine

/-! ### The queue and the work list -/

theorem rsWf_map {r : Rs} {f : Request → Request} (hf : ∀ x, (f x).id = x.id) (w : r.wf) :
    ({ r with queue := r.queue.map f } : Rs).wf := by
  refine ⟨by simpa using w.1, ?_, ?_, w.4, w.5⟩
  · have : (r.queue.map f).map Request.id = r.queue.map Request.id := by
      rw [List.map_map]; exact List.map_congr_left fun x _ => hf x
    simpa [this] using w.2
  · intro q hq
    obtain ⟨x, hx, rfl⟩ := List.mem_map.mp hq
    rw [hf]; exact w.3 x hx

theorem rsWf_filter {r : Rs} {p : Request → Bool} (w : r.wf) : ({ r with queue := r.queue.filter p } : Rs).wf := by
  refine ⟨Nat.le_trans (List.length_filter_le ..) w.1, ?_, ?_, w.4, w.5⟩
  · exact w.2.sublist (List.filter_sublist.map _)
  · exact fun q hq => w.3 q (List.mem_filter.mp hq).1

/-- The work list after a removal. -/
theorem rsWf_items {r : Rs} {p : WorkItem → Bool} (w : r.wf) : ({ r with items := r.items.filter p } : Rs).wf := by
  refine ⟨w.1, w.2, w.3, ?_, ?_⟩
  · exact Nat.le_trans (List.Sublist.length_le (List.filter_sublist.filter _)) w.4
  · exact Nat.le_trans (List.Sublist.length_le (List.filter_sublist.filter _)) w.5

/-- An update of RS that leaves the queue and the work list. -/
theorem rsWf_same {a b : Rs} (hq : b.queue = a.queue) (hi : b.items = a.items) (w : a.wf) : b.wf := by
  exact ⟨hq ▸ w.1, hq ▸ w.2, hq ▸ w.3, hi ▸ w.4, hi ▸ w.5⟩

theorem withPlacement_id (r : Request) (p : Placement) : (r.withPlacement p).id = r.id := by
  cases p <;> rfl

variable {s0 s : State}

/-! ### What the shared operations leave -/

@[simp] theorem post_cp (src : Source) (d : NoticeDetail) : (s.post src d).cp = s.cp := by
  unfold State.post; split <;> rfl

@[simp] theorem post_rs (src : Source) (d : NoticeDetail) : (s.post src d).rs = s.rs := by
  unfold State.post; split <;> rfl

@[simp] theorem offerPlanning_cp (s : State) : s.offerPlanning.cp = s.cp := by
  unfold State.offerPlanning; split <;> rfl

@[simp] theorem offerPlanning_queue (s : State) : s.offerPlanning.rs.queue = s.rs.queue := by
  unfold State.offerPlanning; split <;> rfl

@[simp] theorem offerPlanning_dc (s : State) : s.offerPlanning.dc = s.dc := by
  unfold State.offerPlanning; split <;> rfl

@[simp] theorem faultOccur_cp (c : FaultCode) (k : FaultClass) (d : FaultDetail) : (s.faultOccur c k d).cp = s.cp := by
  have log : ∀ (t : State) (r : LogRecord), (t.offerLog r).cp = t.cp := by
    intro t r
    unfold State.offerLog
    dsimp only
    (repeat' split) <;> simp
  unfold State.faultOccur State.postFault
  dsimp only
  split <;> simp [log]

theorem jobList_cp {s t : State} (h : t.cp = s.cp) : t.jobList = s.jobList := by unfold State.jobList; rw [h]

/-! ### Entries -/

theorem modRequest_blocks {id : Nat} {f : Request → Request} (hf : ∀ x, (f x).id = x.id) :
    KeepsBlocks s (s.modRequest id f) :=
  modRs_blocks (rsWf_map fun x => by split <;> simp [hf])

/-- The entries of an id that no slot carries. -/
theorem modRequest_keeps {id : Nat} {f : Request → Request} (h : Keeps s0 s) (hf : ∀ x, (f x).id = x.id)
    (hu : s.storeWf → unnamed s.cp.slots id) : Keeps s0 (s.modRequest id f) :=
  h.trans ⟨modRequest_blocks hf, fun w => w.slots.mapUnnamed (hu w)⟩

theorem removeRequest_blocks {id : Nat} : KeepsBlocks s (s.removeRequest id) := modRs_blocks rsWf_filter

theorem removeRequest_keeps {id : Nat} (h : Keeps s0 s) (hu : s.storeWf → unnamed s.cp.slots id) :
    Keeps s0 (s.removeRequest id) :=
  h.trans ⟨removeRequest_blocks, fun w => w.slots.removed (hu w)⟩

theorem failRequest_blocks {r : Request} {why : FailReason} : KeepsBlocks s (s.failRequest r why) :=
  removeRequest_blocks.trans (post_keeps (Keeps.refl _)).toKeepsBlocks

theorem failRequest_keeps {r : Request} {why : FailReason} (h : Keeps s0 s)
    (hu : s.storeWf → unnamed s.cp.slots r.id) : Keeps s0 (s.failRequest r why) :=
  post_keeps (removeRequest_keeps h hu)

@[simp] theorem failRequest_cp (r : Request) (why : FailReason) : (s.failRequest r why).cp = s.cp := post_cp ..

/-- An entry that waits or is READY has no frame-store slot. -/
theorem waits_outside {r : Request} (h : r.waitsOrReady = true ∨ r.state = .waitingRoll) : ¬r.inStore := by
  unfold Request.waitsOrReady at h
  unfold Request.inStore
  cases e : r.state <;> simp [e] at h ⊢

theorem placeAgain_blocks {r : Request} : KeepsBlocks s (s.placeAgain r) := by
  unfold State.placeAgain
  split
  · exact failRequest_blocks
  · exact modRequest_blocks fun x => withPlacement_id x _

theorem placeAgain_keeps {r : Request} (h : Keeps s0 s) (hu : s.storeWf → unnamed s.cp.slots r.id) :
    Keeps s0 (s.placeAgain r) := by
  unfold State.placeAgain
  split
  · exact failRequest_keeps h hu
  · exact modRequest_keeps h (fun x => withPlacement_id x _) hu

@[simp] theorem placeAgain_cp (r : Request) : (s.placeAgain r).cp = s.cp := by
  unfold State.placeAgain
  split
  · exact failRequest_cp ..
  · rfl

/-- Entries placed again that are all outside the store. -/
theorem placeAll_keeps {p : Request → Bool} (h : Keeps s0 s)
    (hp : ∀ r, p r = true → r.waitsOrReady = true ∨ r.state = .waitingRoll) :
    Keeps s0 (s.each (s.rs.queue.filter p) State.placeAgain) := by
  refine h.trans (each_keeps_of (fun t r => unnamed t.cp.slots r.id) (fun _ _ => placeAgain_blocks) ?_ ?_)
  · intro w r hr
    have hm := List.mem_filter.mp hr
    exact w.slots.unnamedOf w.rs.ids hm.1 (waits_outside (hp r hm.2))
  · intro t r w hu
    refine ⟨(placeAgain_keeps (Keeps.refl t) fun _ => hu).slots w, fun b hb => ?_⟩
    rw [placeAgain_cp]; exact hb

@[simp] theorem refresh_keeps (h : Keeps s0 s) : Keeps s0 s.refresh := placeAll_keeps h fun _ k => .inl k

@[simp] theorem postRollWanted_keeps {l : Label} (h : Keeps s0 s) : Keeps s0 (s.postRollWanted l) := post_keeps h

@[simp] theorem labelArrival_keeps {l : Label} (h : Keeps s0 s) : Keeps s0 (s.labelArrival l) :=
  offerPlanning_keeps (placeAll_keeps h fun _ k => by simp at k; exact .inr k.1)

/-- Entries outside the store given another placement. -/
theorem replace_keeps {f : Request → Request} (h : Keeps s0 s) (hid : ∀ x, (f x).id = x.id)
    (hf : ∀ x, x.inStore → f x = x) : Keeps s0 (s.modRs fun q => { q with queue := q.queue.map f }) :=
  h.trans ⟨modRs_blocks (rsWf_map hid), fun w => w.slots.mapOutside fun r k => by rw [hf r k]; exact ⟨rfl, rfl, rfl⟩⟩

@[simp] theorem rollGone_keeps {n : Nat} {l : Label} (h : Keeps s0 s) : Keeps s0 (s.rollGone n l) := by
  unfold State.rollGone
  refine offerPlanning_keeps (onlyIf_keeps ?_ fun _ => postRollWanted_keeps ?_) <;>
    refine replace_keeps h (fun x => by split <;> simp [withPlacement_id]) fun x k => if_neg fun e => ?_ <;>
    exact waits_outside (.inl (by simp at e; exact e.2)) k

@[simp] theorem indexForgotten_keeps {n : Nat} (h : Keeps s0 s) : Keeps s0 (s.indexForgotten n) := by
  refine offerPlanning_keeps (replace_keeps h (fun x => by split <;> simp [withPlacement_id]) fun x k => if_neg fun e => ?_)
  exact waits_outside (.inl (by simp [Request.waitsOrReady, e.2])) k

@[simp] theorem modPass_keeps {f : RsPass → RsPass} (h : Keeps s0 s) : Keeps s0 (s.modPass f) :=
  modRs_keeps h (rsWf_same rfl rfl) rfl

@[simp] theorem passEnd_keeps {o : PassOutcome} (h : Keeps s0 s) : Keeps s0 (s.passEnd o) := by
  unfold State.passEnd
  refine withSome_keeps h fun p _ => ?_
  have k := post_keeps (src := .passDone)
    (d := .passDone p.kind o p.slot p.capturedJobs p.misframeJobs p.droppedJobs)
    (modRs_keeps (f := fun r => { r with pass := none }) h (rsWf_same rfl rfl) rfl)
  dsimp only
  split
  · exact k
  · exact offerPlanning_keeps k

theorem countCapture_queue (r : Rs) (n : Option Nat) : (countCapture r n).queue = r.queue := by
  unfold countCapture; split <;> rfl

theorem jobReport_blocks {id : Nat} {rep : JobReport} : KeepsBlocks s (s.jobReport id rep) := by
  have k := (modPass_keeps (f := fun p => rep.count p) (Keeps.refl s)).toKeepsBlocks
  unfold State.jobReport State.withSome
  dsimp only
  split
  · split
    · exact k.trans (modRequest_blocks fun _ => rfl)
    · refine (k.trans (modRequest_blocks (f := fun x => { x with state := .captured }) fun _ => rfl)).trans
        (modRs_blocks (rsWf_same (countCapture_queue ..) ?_))
      unfold countCapture; split <;> rfl
    · split
      · exact k.trans (modRequest_blocks fun _ => rfl)
      · exact k.trans failRequest_blocks
    · exact k.trans (modRequest_blocks fun _ => rfl)
  · exact k

@[simp] theorem jobReport_cp (id : Nat) (rep : JobReport) : (s.jobReport id rep).cp = s.cp := by
  unfold State.jobReport State.withSome
  dsimp only
  (repeat' split) <;> first | rfl | exact failRequest_cp ..

/-- The job reports that leave an entry in the store. -/
def JobReport.goesOn (rep : JobReport) : Prop := rep = .capturing ∨ rep = .captured

/-- A job report leaves the joint law, where no slot that carries the id is SENDING and, if the report takes the entry out
of the store, no slot carries the id. -/
theorem jobReport_law {slots : List (Option StoreSlot)} {jobs : List Job} {sent : List Sending} {id : Nat}
    {rep : JobReport} (w : SlotLaw slots s.rs.queue jobs sent) (hs : unsent slots id)
    (hu : ¬rep.goesOn → unnamed slots id) : SlotLaw slots (s.jobReport id rep).rs.queue jobs sent := by
  unfold State.jobReport State.withSome
  dsimp only
  split
  · rename_i r hr
    split
    · exact w.mapWithin hs fun _ => ⟨rfl, rfl, .inr (.inl rfl), by simp⟩
    · show SlotLaw slots (countCapture _ _).queue jobs sent
      rw [countCapture_queue]
      exact w.mapWithin hs fun _ => ⟨rfl, rfl, .inr (.inr (.inl rfl)), by simp⟩
    · have hu := hu (by simp [JobReport.goesOn])
      split
      · exact w.mapUnnamed hu
      · have hid : r.id = id := by
          have := List.find?_some hr
          simpa using this
        rw [State.failRequest, post_rs]
        refine w.removed ?_
        rw [hid]; exact hu
    · exact w.mapUnnamed (hu (by simp [JobReport.goesOn]))
  · exact w

/-- A job report touches RS and LI only. -/
theorem jobReport_dc (id : Nat) (rep : JobReport) : (s.jobReport id rep).dc = s.dc := by
  have post : ∀ (t : State) (src : Source) (d : NoticeDetail), (t.post src d).dc = t.dc := by
    intro t src d; unfold State.post; split <;> rfl
  unfold State.jobReport State.withSome State.failRequest
  dsimp only
  (repeat' split) <;> first | rfl | exact post ..

theorem jobReport_keeps {id : Nat} {rep : JobReport} (h : Keeps s0 s) (hs : s.storeWf → unsent s.cp.slots id)
    (hu : s.storeWf → ¬rep.goesOn → unnamed s.cp.slots id) : Keeps s0 (s.jobReport id rep) := by
  refine h.trans ⟨jobReport_blocks, fun w => ?_⟩
  unfold State.slotsWf
  rw [jobList_cp (jobReport_cp id rep), jobReport_cp, jobReport_dc]
  exact jobReport_law w.slots (hs w) (hu w)

/-! ### The laws of the slots and of the Ready List -/

theorem slotIs_iff {c : Cp} {n : Nat} {st : StoreState} :
    c.slotIs n st = true ↔ ∃ a : StoreSlot, c.slots[n]? = some (some a) ∧ a.state = st := by
  unfold Cp.slotIs
  rw [List.getD_eq_getElem?_getD]
  cases hn : c.slots[n]? with
  | none => simp
  | some o => cases o <;> simp

/-- A slot made FREE, a READY one leaving the list. -/
theorem storeLaw_free {c : Cp} (n : Nat) (w : StoreLaw c.slots c.ready) :
    StoreLaw (c.slots.set n none) (if c.slotIs n .ready then c.ready.filter (fun x => decide (x ≠ n)) else c.ready) := by
  have hset (i : Nat) (a : StoreSlot) : (c.slots.set n none)[i]? = some (some a) → i ≠ n ∧ c.slots[i]? = some (some a) := by
    rw [List.getElem?_set]
    split <;> rename_i hi
    · split <;> simp
    · exact fun h => ⟨fun e => hi e.symm, h⟩
  have hback (i : Nat) (a : StoreSlot) : i ≠ n → c.slots[i]? = some (some a) → (c.slots.set n none)[i]? = some (some a) := by
    intro hi h
    rw [List.getElem?_set_ne (Ne.symm hi)]; exact h
  refine ⟨fun i j a b hi hj e => w.ids i j a b (hset i a hi).2 (hset j b hj).2 e, ?_, fun k => ?_⟩
  · split
    · exact w.once.sublist List.filter_sublist
    · exact w.once
  · have hmem : k ∈ (if c.slotIs n .ready then c.ready.filter (fun x => decide (x ≠ n)) else c.ready) ↔
        k ∈ c.ready ∧ k ≠ n := by
      split
      · simp
      · rename_i hn
        refine ⟨fun hk => ⟨hk, fun e => hn (slotIs_iff.mpr ?_)⟩, fun hk => hk.1⟩
        subst e; exact (w.listed k).mp hk
    rw [hmem, w.listed]
    constructor
    · rintro ⟨⟨a, ha, hs⟩, hk⟩
      exact ⟨a, hback k a hk ha, hs⟩
    · rintro ⟨a, ha, hs⟩
      exact ⟨⟨a, (hset k a ha).2, hs⟩, (hset k a ha).1⟩

theorem freeSlot_blocks {n : Nat} : KeepsBlocks s (s.freeSlot n) := by
  unfold State.freeSlot
  refine ((modCp_blocks fun w => ⟨?_, w.2, storeLaw_free n w.3⟩).trans (modRs_blocks rsWf_filter)).trans
    (offerPlanning_keeps (Keeps.refl _)).toKeepsBlocks
  simpa using w.1

@[simp] theorem freeSlot_slots (n : Nat) : (s.freeSlot n).cp.slots = s.cp.slots.set n none := by
  unfold State.freeSlot
  rw [offerPlanning_cp]; rfl

@[simp] theorem freeSlot_jobs (n : Nat) : (s.freeSlot n).cp.jobs = s.cp.jobs := by
  unfold State.freeSlot
  rw [offerPlanning_cp]; rfl

@[simp] theorem freeSlot_dc (n : Nat) : (s.freeSlot n).dc = s.dc := by
  unfold State.freeSlot
  rw [offerPlanning_dc]; rfl

/-- A slot made FREE that is neither an incomplete job's nor a delivery's. -/
theorem freeSlot_law {n : Nat} {jobs : List Job} {sent : List Sending} (w : SlotLaw s.cp.slots s.rs.queue jobs sent)
    (hj : ∀ j ∈ jobs, j.active = true → j.order.slot ≠ n) (hd : ∀ d ∈ sent, d.slot ≠ n) :
    SlotLaw (s.freeSlot n).cp.slots (s.freeSlot n).rs.queue jobs sent := by
  rw [freeSlot_slots]
  unfold State.freeSlot
  rw [offerPlanning_queue]
  exact w.free hj hd

theorem freeSlot_keeps {n : Nat} (h : Keeps s0 s)
    (hj : s.storeWf → ∀ j ∈ s.jobList, j.active = true → j.order.slot ≠ n)
    (hd : s.storeWf → ∀ d ∈ s.dc.sent, d.slot ≠ n) : Keeps s0 (s.freeSlot n) := by
  refine h.trans ⟨freeSlot_blocks, fun w => ?_⟩
  have e : (s.freeSlot n).jobList = s.jobList := by unfold State.jobList; rw [freeSlot_jobs]
  unfold State.slotsWf
  rw [e, freeSlot_dc]
  exact freeSlot_law w.slots (hj w) (hd w)

/-! ### FU's items -/

theorem probeItems_length (s : State) : s.probeItems.length = (s.rs.items.filter fun i => !isIndexItem i).length := by
  unfold State.probeItems
  induction s.rs.items with
  | nil => rfl
  | cons i rest ih => cases i <;> simp_all [isIndexItem]

@[simp] theorem placeItem_keeps {p : Nat} (h : Keeps s0 s) : Keeps s0 (s.placeItem p) := by
  unfold State.placeItem
  split
  · exact h
  · rename_i hno
    refine offerPlanning_keeps (modRs_keeps h (fun w => ⟨w.1, w.2, w.3, ?_, ?_⟩) rfl)
    · simpa [isIndexItem] using w.4
    · have := probeItems_length s
      simp [isIndexItem] at *
      omega

@[simp] theorem itemLeft_keeps (h : Keeps s0 s) : Keeps s0 s.itemLeft :=
  offerPlanning_keeps (withSome_keeps h fun _ _ => placeItem_keeps h)

@[simp] theorem removeItem_keeps {p : Nat} (h : Keeps s0 s) : Keeps s0 (s.removeItem p) := by
  unfold State.removeItem
  split
  · exact itemLeft_keeps (modRs_keeps h rsWf_items rfl)
  · exact h

@[simp] theorem withdraw_keeps {p : Nat} (h : Keeps s0 s) : Keeps s0 (s.withdraw p) := by
  unfold State.withdraw
  split
  · exact h
  · exact removeItem_keeps (modPass_keeps h)

@[simp] theorem removeIndexItem_keeps (h : Keeps s0 s) : Keeps s0 s.removeIndexItem := modRs_keeps h rsWf_items rfl

end Sys2Proof.Machine
end

