-- ==== Sys2Proof/Laws/Focus.lean ====
section
/-! SUPPORT. Laws/Focus.lean: the lens, the map, the lamp, the slots and the job list keep the laws. -/

namespace Sys2Proof.Machine

/-! ### FocusOps.lean -/

@[simp] theorem commandLens_keeps {s0 s : State} (h : Keeps s0 s) (l : Nat) :
    Keeps s0 (State.commandLens s l) := by
  unfold State.commandLens
  (repeat' split) <;>
    first
      | exact h
      | (simp (maxDischargeDepth := 40) +contextual [h]; done)
      | (simp (maxDischargeDepth := 40) +contextual [*]; done)

@[simp] theorem stopLens_keeps {s0 s : State} (h : Keeps s0 s)  :
    Keeps s0 (State.stopLens s) := by
  unfold State.stopLens
  (repeat' split) <;>
    first
      | exact h
      | (simp (maxDischargeDepth := 40) +contextual [h]; done)
      | (simp (maxDischargeDepth := 40) +contextual [*]; done)

theorem insertEntry_mem {e x : MapEntry} {m : List MapEntry} : x ∈ insertEntry e m ↔ x = e ∨ x ∈ m := by
  induction m with
  | nil => simp [insertEntry]
  | cons y rest ih =>
    unfold insertEntry
    split
    · simp
    · simp [ih]; constructor <;> (intro h; rcases h with h | h | h <;> simp [h])

theorem insertEntry_length (e : MapEntry) (m : List MapEntry) : (insertEntry e m).length = m.length + 1 := by
  induction m with
  | nil => rfl
  | cons y rest ih => unfold insertEntry; split <;> simp [ih]

theorem insertEntry_ascending {e : MapEntry} {m : List MapEntry} (h : Ascending MapEntry.position m)
    (hn : ∀ x ∈ m, x.position ≠ e.position) : Ascending MapEntry.position (insertEntry e m) := by
  unfold Ascending at *
  induction m with
  | nil => simp [insertEntry]
  | cons y rest ih =>
    rw [List.pairwise_cons] at h
    unfold insertEntry
    split
    · rename_i hlt
      rw [List.pairwise_cons, List.pairwise_cons]
      refine ⟨fun a ha => ?_, h⟩
      rcases List.mem_cons.mp ha with ha | ha
      · subst ha; exact hlt
      · exact Nat.lt_trans hlt (h.1 a ha)
    · rename_i hge
      rw [List.pairwise_cons]
      refine ⟨fun a ha => ?_, ih h.2 fun x hx => hn x (List.mem_cons_of_mem _ hx)⟩
      rcases insertEntry_mem.mp ha with ha | ha
      · have := hn y (List.mem_cons_self ..)
        subst ha
        omega
      · exact h.1 a ha

theorem leastBy_mem {α : Type} {f : α → Nat} {l : List α} {a : α} (h : leastBy f l = some a) : a ∈ l := by
  induction l generalizing a with
  | nil => simp [leastBy] at h
  | cons x rest ih =>
    unfold leastBy at h
    split at h
    · cases h; simp
    · rename_i b hb
      split at h
      · cases h; simp
      · cases h; exact List.mem_cons_of_mem _ (ih hb)

theorem leastBy_none {α : Type} {f : α → Nat} {l : List α} (h : leastBy f l = none) : l = [] := by
  cases l with
  | nil => rfl
  | cons x rest =>
    unfold leastBy at h
    split at h
    · cases h
    · split at h <;> cases h

theorem leastBy_le {α : Type} {f : α → Nat} {l : List α} {a : α} (h : leastBy f l = some a) :
    ∀ x ∈ l, f a ≤ f x := by
  induction l generalizing a with
  | nil => simp
  | cons y rest ih =>
    intro x hx
    unfold leastBy at h
    split at h
    · rename_i hn
      cases h
      have := leastBy_none hn
      subst this
      simp at hx; subst hx; exact Nat.le_refl _
    · rename_i b hb
      rcases List.mem_cons.mp hx with hx | hx
      · subst hx
        split at h
        · cases h; exact Nat.le_refl _
        · rename_i hlt; cases h; omega
      · have hbx := ih hb x hx
        split at h
        · rename_i hle; cases h; omega
        · cases h; exact hbx

/-- The Focus Map after an insertion keeps its law (R111). -/
theorem mapAfter_law {merge : Nat} {e : MapEntry} {m : List MapEntry} (w : MapLaw m) : MapLaw (mapAfter merge e m) := by
  unfold mapAfter
  cases hd : displacedEntry merge e.position m with
  | some x =>
    have hx : nearestEntry e.position m = some x := by
      unfold displacedEntry at hd
      split at hd
      · rename_i k hk
        split at hd
        · cases hd; exact hk
        · cases hd
      · cases hd
    have hmem : x ∈ m := leastBy_mem hx
    have hsub : (m.filter fun y => decide (y.position ≠ x.position)).Sublist m := List.filter_sublist
    constructor
    · show (insertEntry e (m.filter fun y => decide (y.position ≠ x.position))).length ≤ 32
      rw [insertEntry_length]
      have hlt : (m.filter fun y => decide (y.position ≠ x.position)).length < m.length := by
        exact List.length_filter_lt_length_iff_exists.mpr ⟨x, hmem, by simp⟩
      have := w.1
      omega
    · refine insertEntry_ascending (List.Pairwise.sublist hsub w.2) fun y hy => ?_
      have hy' := List.mem_filter.mp hy
      intro hye
      have hle := leastBy_le hx y hy'.1
      have h0 : distance y.position e.position = 0 := by rw [hye]; simp [distance]
      rw [h0] at hle
      have hxe : x.position = e.position := by simp [distance] at hle; omega
      simp [hye, hxe] at hy'
  | none =>
    have hno : ∀ x ∈ m, x.position ≠ e.position := by
      intro x hx hxe
      unfold displacedEntry at hd
      split at hd
      · rename_i k hk
        have hle := leastBy_le hk x hx
        have h0 : distance x.position e.position = 0 := by rw [hxe]; simp [distance]
        rw [h0] at hle
        split at hd
        · cases hd
        · rename_i hc; exact hc (.inl (by omega))
      · rename_i hk
        have := leastBy_none hk
        subst this
        simp at hx
    constructor
    · show (insertEntry e m).length ≤ 32
      rw [insertEntry_length]
      unfold displacedEntry at hd
      split at hd
      · split at hd
        · cases hd
        · rename_i hc; omega
      · rename_i hk
        have := leastBy_none hk
        subst this
        simp
    · exact insertEntry_ascending w.2 hno

@[simp] theorem insertMap_keeps {s0 s : State} (h : Keeps s0 s) (e : MapEntry) :
    Keeps s0 (State.insertMap s e) := by
  unfold State.insertMap
  exact withSome_keeps (modFu_keeps h mapAfter_law) fun _ _ => withdraw_keeps (modFu_keeps h mapAfter_law)

@[simp] theorem emptyMap_keeps {s0 s : State} (h : Keeps s0 s)  :
    Keeps s0 (State.emptyMap s) := by
  exact each_keeps (modFu_keeps h fun _ => by simp [Ascending]) fun _ _ k => withdraw_keeps k

@[simp] theorem installMap_keeps {s0 s : State} (h : Keeps s0 s) {m : List MapEntry} (hm : s0.tablesWf → MapLaw m) :
    Keeps s0 (s.installMap m) := by
  unfold State.installMap
  refine each_keeps ?_ fun _ _ k => placeItem_keeps k
  exact ⟨⟨h.tc, h.cu, fun w => ⟨(h.tables w).1, hm w, (h.tables w).3, (h.tables w).4⟩, h.cp, h.ct, h.rs, h.dc,
    h.notices, h.fm, h.talk⟩, h.slots⟩

@[simp] theorem reportLag_keeps {s0 s : State} (h : Keeps s0 s) (windowStart : Nat) :
    Keeps s0 (State.reportLag s windowStart) := by
  unfold State.reportLag
  split
  · exact faultOccur_keeps (modFu_keeps h id) rfl
  · exact h

@[simp] theorem frameScored_keeps {s0 s : State} (h : Keeps s0 s) (predicted score : Nat) (lagged : Bool) :
    Keeps s0 (State.frameScored s predicted score lagged) := by
  unfold State.frameScored
  split
  · exact h
  · refine withSome_keeps h fun e _ => ?_
    split
    · refine placeItem_keeps (modFu_keeps h fun w => ⟨by simpa using w.1, ?_⟩)
      refine List.pairwise_map.mpr (w.2.imp fun {a b} hab => ?_)
      split <;> split <;> exact hab
    · exact h

@[simp] theorem trackLens_keeps {s0 s : State} (h : Keeps s0 s)  :
    Keeps s0 (State.trackLens s) := by
  unfold State.trackLens
  (repeat' split) <;>
    first
      | exact h
      | (simp (maxDischargeDepth := 40) +contextual [h]; done)
      | (simp (maxDischargeDepth := 40) +contextual [*]; done)

@[simp] theorem startTracking_keeps {s0 s : State} (h : Keeps s0 s)  :
    Keeps s0 (State.startTracking s) := by
  unfold State.startTracking
  (repeat' split) <;>
    first
      | exact h
      | (simp (maxDischargeDepth := 40) +contextual [h]; done)
      | (simp (maxDischargeDepth := 40) +contextual [*]; done)

@[simp] theorem endTracking_keeps {s0 s : State} (h : Keeps s0 s)  :
    Keeps s0 (State.endTracking s) := by
  unfold State.endTracking
  (repeat' split) <;>
    first
      | exact h
      | (simp (maxDischargeDepth := 40) +contextual [h]; done)
      | (simp (maxDischargeDepth := 40) +contextual [*]; done)

@[simp] theorem commandPoint_keeps {s0 s : State} (h : Keeps s0 s)  :
    Keeps s0 (State.commandPoint s) := by
  unfold State.commandPoint
  (repeat' split) <;>
    first
      | exact h
      | (simp (maxDischargeDepth := 40) +contextual [h]; done)
      | (simp (maxDischargeDepth := 40) +contextual [*]; done)

@[simp] theorem probeLit_keeps {s0 s : State} (h : Keeps s0 s)  :
    Keeps s0 (State.probeLit s) := by
  unfold State.probeLit
  (repeat' split) <;>
    first
      | exact h
      | (simp (maxDischargeDepth := 40) +contextual [h]; done)
      | (simp (maxDischargeDepth := 40) +contextual [*]; done)

/-! ### CaptureOps.lean -/

theorem requested_ne_off (l : Lamp) : l.requested ≠ .off := by cases l <;> simp [Lamp.requested]

@[simp] theorem lampForList_keeps {s0 s : State} (h : Keeps s0 s)  :
    Keeps s0 (State.lampForList s) := by
  unfold State.lampForList
  have k : Keeps s0 (s.modCp fun c => { c with listHolds := true, lamp := c.lamp.requested }) :=
    modCp_keeps h (fun w => ⟨w.1, by simp [requested_ne_off], w.3⟩) rfl rfl
  split
  · exact h
  · dsimp only
    split
    · exact modPass_keeps k
    · exact k

@[simp] theorem lampForProbe_keeps {s0 s : State} (h : Keeps s0 s)  :
    Keeps s0 (State.lampForProbe s) := by
  unfold State.lampForProbe
  have k : Keeps s0 (s.modCp fun c => { c with probeHolds := true, lamp := c.lamp.requested }) :=
    modCp_keeps h (fun w => ⟨w.1, by simp [requested_ne_off], w.3⟩) rfl rfl
  split
  · exact h
  · dsimp only
    split
    · exact probeLit_keeps k
    · exact k

theorem lampSettled_wf {c : Cp} (hs : c.slots.length = 16) (hw : StoreLaw c.slots c.ready)
    (hl : c.probeHolds || c.listHolds → c.lamp ≠ .off) : (lampSettled c).wf := by
  unfold lampSettled
  split
  · rename_i hh
    refine ⟨hs, ⟨fun h => absurd h (hl hh), fun h => ?_⟩, hw⟩
    simp [h.1, h.2] at hh
  · rename_i hh
    refine ⟨hs, ⟨fun _ => ?_, fun _ => rfl⟩, hw⟩
    simpa using hh

theorem lampSettled_slots (c : Cp) : (lampSettled c).slots = c.slots := by unfold lampSettled; split <;> rfl

theorem lampSettled_jobs (c : Cp) : (lampSettled c).jobs = c.jobs := by unfold lampSettled; split <;> rfl

@[simp] theorem releaseListLamp_keeps {s0 s : State} (h : Keeps s0 s)  :
    Keeps s0 (State.releaseListLamp s) := by
  refine modCp_keeps h (fun w => lampSettled_wf w.1 w.3 fun hh e => ?_) (lampSettled_slots _) (lampSettled_jobs _)
  have := (w.2.mp e).1
  simp [this] at hh

@[simp] theorem releaseProbeLamp_keeps {s0 s : State} (h : Keeps s0 s)  :
    Keeps s0 (State.releaseProbeLamp s) := by
  refine modCp_keeps h (fun w => lampSettled_wf w.1 w.3 fun hh e => ?_) (lampSettled_slots _) (lampSettled_jobs _)
  have := (w.2.mp e).2
  simp [this] at hh

/-- An update of one slot that keeps its request id and enters or leaves READY nowhere. -/
theorem storeLaw_mod {c : Cp} {n : Nat} {f : StoreSlot → StoreSlot} (hid : ∀ x, (f x).reqId = x.reqId)
    (hst : ∀ x, (f x).state = .ready ↔ x.state = .ready) (w : StoreLaw c.slots c.ready) :
    StoreLaw (c.slots.set n ((c.slots.getD n none).map f)) c.ready := by
  refine ⟨fun i j a b hi hj e => ?_, w.once, fun k => ?_⟩
  · obtain ⟨x, hx, rfl⟩ := getElem?_modSlot.mp hi
    obtain ⟨y, hy, rfl⟩ := getElem?_modSlot.mp hj
    refine w.ids i j x y hx hy ?_
    split at e <;> split at e <;> simpa [hid] using e
  · rw [w.listed]
    constructor
    · rintro ⟨x, hx, hs⟩
      exact ⟨_, getElem?_modSlot.mpr ⟨x, hx, rfl⟩, by split <;> simp [hst, hs]⟩
    · rintro ⟨a, ha, hs⟩
      obtain ⟨x, hx, rfl⟩ := getElem?_modSlot.mp ha
      exact ⟨x, hx, by split at hs <;> simpa [hst] using hs⟩

/-- An update of one slot that keeps its request id and enters or leaves neither READY nor SENDING nor the states of an
incomplete job. -/
@[simp] theorem modSlot_keeps {s0 s : State} (h : Keeps s0 s) (n : Nat) (f : StoreSlot → StoreSlot)
    (hid : ∀ x, (f x).reqId = x.reqId) (hst : ∀ x, (f x).state = .ready ↔ x.state = .ready)
    (hs : ∀ x, (f x).state = .sending ↔ x.state = .sending)
    (hr : ∀ x : StoreSlot, x.state = .reserved ∨ x.state = .filling → (f x).state = .reserved ∨ (f x).state = .filling) :
    Keeps s0 (State.modSlot s n f) :=
  h.trans ⟨modCp_blocks fun w => ⟨by simpa using w.1, w.2, storeLaw_mod hid hst w.3⟩, fun w => w.slots.modSlot hid hs hr⟩

@[simp] theorem opened_reqId (c : StoreSlot) : c.opened.reqId = c.reqId := by unfold StoreSlot.opened; split <;> rfl

@[simp] theorem opened_ready (c : StoreSlot) : c.opened.state = .ready ↔ c.state = .ready := by
  unfold StoreSlot.opened
  split
  · rename_i h; simp [h]
  · rfl

@[simp] theorem opened_sending (c : StoreSlot) : c.opened.state = .sending ↔ c.state = .sending := by
  unfold StoreSlot.opened
  split
  · rename_i h; simp [h]
  · rfl

@[simp] theorem opened_inUse (c : StoreSlot) (h : c.state = .reserved ∨ c.state = .filling) :
    c.opened.state = .reserved ∨ c.opened.state = .filling := by
  unfold StoreSlot.opened
  split
  · exact .inr rfl
  · exact h

/-- A FREE slot taken for an id that no slot carries. -/
theorem storeLaw_reserve {c : Cp} {n : Nat} {a : StoreSlot} (hn : c.slots[n]? = some none) (hr : a.state ≠ .ready)
    (hid : ∀ (i : Nat) (b : StoreSlot), c.slots[i]? = some (some b) → b.reqId ≠ a.reqId) (w : StoreLaw c.slots c.ready) :
    StoreLaw (c.slots.set n (some a)) c.ready := by
  have hl : n < c.slots.length := (List.getElem?_eq_some_iff.mp hn).1
  have hset (i : Nat) (b : StoreSlot) :
      (c.slots.set n (some a))[i]? = some (some b) ↔ (i = n ∧ b = a) ∨ (i ≠ n ∧ c.slots[i]? = some (some b)) := by
    rw [List.getElem?_set]
    by_cases hi : n = i
    · subst hi; simp [hl, eq_comm]
    · have : i ≠ n := fun e => hi e.symm
      simp [hi, this]
  refine ⟨fun i j x y hi hj e => ?_, w.once, fun k => ?_⟩
  · rcases (hset i x).mp hi with ⟨rfl, rfl⟩ | ⟨ni, hi'⟩ <;> rcases (hset j y).mp hj with ⟨rfl, rfl⟩ | ⟨nj, hj'⟩
    · rfl
    · exact absurd e.symm (hid j y hj')
    · exact absurd e (hid i x hi')
    · exact w.ids i j x y hi' hj' e
  · rw [w.listed]
    constructor
    · rintro ⟨x, hx, hs⟩
      refine ⟨x, (hset k x).mpr (.inr ⟨fun e => ?_, hx⟩), hs⟩
      subst e; simp [hn] at hx
    · rintro ⟨x, hx, hs⟩
      rcases (hset k x).mp hx with ⟨rfl, rfl⟩ | ⟨_, hx'⟩
      · exact absurd hs hr
      · exact ⟨x, hx', hs⟩

/-- A reservation that CP answers with a slot: the slot is FREE, and no slot carries the id (R126). -/
theorem reservable_spec {s : State} {n reqId : Nat} (hr : s.reservable reqId = some n) :
    s.cp.slots[n]? = some none ∧ unnamed s.cp.slots reqId := by
  unfold State.reservable at hr
  split at hr
  · simp at hr
  · rename_i hid
    obtain ⟨hl, hn, -⟩ := List.findIdx?_eq_some_iff_getElem.mp hr
    refine ⟨?_, fun i b hb e => hid ?_⟩
    · rw [List.getElem?_eq_getElem hl]
      simpa using hn
    · unfold State.storeSlotOf
      rw [List.findIdx?_isSome]
      exact List.any_eq_true.mpr ⟨some b, List.mem_of_getElem? hb, by simpa using e⟩

theorem reserveSlot_blocks {s : State} {n reqId : Nat} (hr : s.reservable reqId = some n) :
    KeepsBlocks s (s.reserveSlot n reqId) :=
  modCp_blocks fun w => ⟨by simpa using w.1, w.2,
    storeLaw_reserve (reservable_spec hr).1 (by simp) (reservable_spec hr).2 w.3⟩

/-- A FILLING slot made READY enters the list. -/
theorem storeLaw_makeReady {c : Cp} {n : Nat} {r : FrameRecord} (w : StoreLaw c.slots c.ready) :
    StoreLaw (c.makeReady n r).slots (c.makeReady n r).ready := by
  unfold Cp.makeReady
  rw [List.getD_eq_getElem?_getD]
  cases hn : c.slots[n]? with
  | none => exact w
  | some o =>
    cases o with
    | none => exact w
    | some x =>
      simp only [Option.getD_some]
      split
      · rename_i hx
        have hl : n < c.slots.length := (List.getElem?_eq_some_iff.mp hn).1
        have hout : n ∉ c.ready := fun hm => by
          obtain ⟨a, ha, hs⟩ := (w.listed n).mp hm
          have : a = x := by simpa [hn] using ha.symm
          subst this; simp [hx] at hs
        have hset (i : Nat) (b : StoreSlot) :
            (c.slots.set n (some { x with state := .ready, record := r }))[i]? = some (some b) ↔
              (i = n ∧ b = { x with state := .ready, record := r }) ∨ (i ≠ n ∧ c.slots[i]? = some (some b)) := by
          rw [List.getElem?_set]
          by_cases hi : n = i
          · subst hi; simp [hl, eq_comm]
          · have : i ≠ n := fun e => hi e.symm
            simp [hi, this]
        refine ⟨fun i j a b hi hj e => ?_, ?_, fun k => ?_⟩
        · rcases (hset i a).mp hi with ⟨rfl, rfl⟩ | ⟨ni, hi'⟩ <;> rcases (hset j b).mp hj with ⟨rfl, rfl⟩ | ⟨nj, hj'⟩
          · rfl
          · exact w.ids _ _ x b hn hj' e
          · exact w.ids _ _ a x hi' hn e
          · exact w.ids i j a b hi' hj' e
        · rw [List.nodup_append]
          exact ⟨w.once, by simp, fun a ha b hb e => hout (by rw [← List.mem_singleton.mp hb, ← e]; exact ha)⟩
        · rw [List.mem_append, w.listed, List.mem_singleton]
          constructor
          · rintro (⟨a, ha, hs⟩ | rfl)
            · refine ⟨a, (hset k a).mpr (.inr ⟨fun e => ?_, ha⟩), hs⟩
              subst e
              exact hout ((w.listed k).mpr ⟨a, ha, hs⟩)
            · exact ⟨_, (hset k _).mpr (.inl ⟨rfl, rfl⟩), rfl⟩
          · rintro ⟨a, ha, hs⟩
            rcases (hset k a).mp ha with ⟨rfl, rfl⟩ | ⟨_, ha'⟩
            · exact .inr rfl
            · exact .inl ⟨a, ha', hs⟩
      · exact w

theorem makeReady_blocks {s : State} (n : Nat) (r : FrameRecord) : KeepsBlocks s (s.modCp fun c => c.makeReady n r) := by
  refine modCp_blocks fun w => ⟨?_, ?_, storeLaw_makeReady w.3⟩ <;>
    (unfold Cp.makeReady; split <;> (try split) <;> first | simpa using w.1 | exact w.1 | exact w.2)

theorem makeReady_jobs (c : Cp) (n : Nat) (r : FrameRecord) : (c.makeReady n r).jobs = c.jobs := by
  unfold Cp.makeReady; (repeat' split) <;> rfl

/-- The head of the Ready List taken for sending. -/
theorem storeLaw_take {c : Cp} {n : Nat} (hn : c.ready.head? = some n) (w : StoreLaw c.slots c.ready) :
    StoreLaw (c.slots.set n ((c.slots.getD n none).map fun x => { x with state := .sending })) c.ready.tail := by
  obtain ⟨rest, hr⟩ : ∃ rest, c.ready = n :: rest := by
    cases hc : c.ready with
    | nil => simp [hc] at hn
    | cons a rest => exact ⟨rest, by simpa [hc] using hn⟩
  have hnd := w.once
  rw [hr, List.nodup_cons] at hnd
  refine ⟨fun i j a b hi hj e => ?_, by rw [hr]; exact hnd.2, fun k => ?_⟩
  · obtain ⟨x, hx, rfl⟩ := getElem?_modSlot.mp hi
    obtain ⟨y, hy, rfl⟩ := getElem?_modSlot.mp hj
    refine w.ids i j x y hx hy ?_
    split at e <;> split at e <;> exact e
  · have hk := w.listed k
    rw [hr, List.mem_cons] at hk
    rw [hr, List.tail_cons]
    constructor
    · intro hm
      obtain ⟨a, ha, hs⟩ := hk.mp (.inr hm)
      have hne : k ≠ n := fun e => hnd.1 (e ▸ hm)
      exact ⟨a, getElem?_modSlot.mpr ⟨a, ha, by simp [hne]⟩, hs⟩
    · rintro ⟨a, ha, hs⟩
      obtain ⟨x, hx, rfl⟩ := getElem?_modSlot.mp ha
      by_cases hne : k = n
      · simp [hne] at hs
      · rcases hk.mpr ⟨x, hx, by simpa [hne] using hs⟩ with e | hm
        · exact absurd e hne
        · exact hm

/-! ### The job list -/

theorem modJob_blocks {s : State} (reqId : Nat) (f : Job → Job) : KeepsBlocks s (s.modJob reqId f) :=
  modCp_blocks fun w => ⟨w.1, w.2, w.3⟩

@[simp] theorem modJob_jobList (s : State) (reqId : Nat) (f : Job → Job) :
    (s.modJob reqId f).jobList = s.jobList.map fun j => if j.order.reqId = reqId then f j else j := by
  unfold State.modJob State.jobList
  simp only [modCp_cp]
  cases s.cp.jobs <;> rfl

/-- The jobs of an id changed, each to one that is complete or has its slot. -/
theorem modJob_keeps_of {s0 s : State} (h : Keeps s0 s) (reqId : Nat) (f : Job → Job)
    (hf : s.storeWf → ∀ j ∈ s.jobList, j.order.reqId = reqId → (f j).active = true → reservedIn s.cp.slots (f j).order) :
    Keeps s0 (s.modJob reqId f) := by
  refine h.trans ⟨modJob_blocks reqId f, fun w => ?_⟩
  unfold State.slotsWf
  rw [modJob_jobList]
  refine w.slots.jobsOf fun j hj ha => ?_
  obtain ⟨k, hk, rfl⟩ := List.mem_map.mp hj
  split at ha
  · rename_i e
    rw [if_pos e]
    exact hf w k hk e ha
  · rename_i e
    rw [if_neg e]
    exact w.slots.active k hk ha

/-- The jobs of an id changed, none to an incomplete job of another order. -/
theorem modJob_keeps {s0 s : State} (h : Keeps s0 s) (reqId : Nat) (f : Job → Job)
    (hf : ∀ j, (f j).active = true → j.active = true ∧ (f j).order = j.order) : Keeps s0 (s.modJob reqId f) :=
  modJob_keeps_of h reqId f fun w j hj _ ha => by
    rw [(hf j ha).2]; exact w.slots.active j hj (hf j ha).1

/-- The incomplete jobs' slots freed and the jobs reported (R129, R135). -/
theorem dropJobs_blocks (s : State) : KeepsBlocks s s.dropJobs :=
  each_blocks (fun _ _ => freeSlot_blocks.trans jobReport_blocks) _ s

theorem dropJobs_law {s : State} (w : s.storeWf) :
    SlotLaw s.dropJobs.cp.slots s.dropJobs.rs.queue [] s.dropJobs.dc.sent := by
  have loop : ∀ (js : List Job) (t : State), SlotLaw t.cp.slots t.rs.queue [] t.dc.sent →
      (∀ j ∈ js, tied t.cp.slots j.order) →
        (let u := t.each js fun t j => (t.freeSlot j.order.slot).jobReport j.order.reqId .dropped
         SlotLaw u.cp.slots u.rs.queue [] u.dc.sent) := by
    intro js
    induction js with
    | nil => exact fun t v _ => v
    | cons j rest ih =>
      intro t v ht
      have hj := ht j (List.mem_cons_self ..)
      refine ih _ ?_ fun k hk => ?_
      · have free := freeSlot_law v (n := j.order.slot) (by simp)
          (v.notSent fun c hc => (hj _ c hc (.inr rfl)).2.2)
        have gone : unnamed (t.freeSlot j.order.slot).cp.slots j.order.reqId := by
          rw [freeSlot_slots]; exact tied_unnamed hj
        rw [jobReport_cp, jobReport_dc, freeSlot_dc]
        exact jobReport_law free (unnamed_unsent gone) fun _ => gone
      · rw [jobReport_cp, freeSlot_slots]
        exact tied_free (ht k (List.mem_cons_of_mem _ hk))
  refine loop _ s (w.slots.jobsOf (by simp)) fun j hj => ?_
  have hm := List.mem_filter.mp hj
  exact reservedIn_tied w.cp.store (w.slots.active j hm.1 hm.2)

/-- The incomplete jobs dropped and the list discarded. -/
theorem discardList_keeps {s0 s : State} (h : Keeps s0 s) {f : Cp → Cp} (hf : ∀ c : Cp, c.wf → (f c).wf)
    (hs : ∀ c, (f c).slots = c.slots) (hj : ∀ c, (f c).jobs = none) : Keeps s0 (s.dropJobs.modCp f) := by
  refine h.trans ⟨(dropJobs_blocks s).trans (modCp_blocks (hf _)), fun w => ?_⟩
  have e : (s.dropJobs.modCp f).jobList = [] := by
    unfold State.jobList
    rw [modCp_cp, hj]
  unfold State.slotsWf
  rw [e, modCp_cp, hs]
  exact dropJobs_law w

@[simp] theorem endList_keeps {s0 s : State} (h : Keeps s0 s) : Keeps s0 (State.endList s) := by
  unfold State.endList
  split
  · exact releaseListLamp_keeps (discardList_keeps h (fun c w => ⟨w.1, w.2, w.3⟩) (fun _ => rfl) fun _ => rfl)
  · exact h

@[simp] theorem haltCapture_keeps {s0 s : State} (h : Keeps s0 s) : Keeps s0 (State.haltCapture s) :=
  discardList_keeps h (fun c w => ⟨w.1, by simp [Cp.lampOut], w.3⟩) (fun _ => rfl) fun _ => rfl

/-- Binding the list marks its missed jobs and changes nothing else of them (R130). -/
theorem bindList_jobList (s : State) :
    s.bindList.jobList = s.jobList.map fun j => { j with missed := decide (j.windowStart < s.tc.position) } := by
  unfold State.bindList State.jobList
  simp only [modCp_cp]
  cases s.cp.jobs <;> rfl

@[simp] theorem bindList_keeps {s0 s : State} (h : Keeps s0 s) : Keeps s0 (State.bindList s) := by
  refine h.trans ⟨modCp_blocks fun w => ⟨w.1, w.2, w.3⟩, fun w => ?_⟩
  refine SlotLaw.jobsOf w.slots fun j hj ha => ?_
  rw [bindList_jobList] at hj
  obtain ⟨i, hi, rfl⟩ := List.mem_map.mp hj
  exact w.slots.active i hi ha

/-- A list that passes its checks (R129). -/
theorem holdList_keeps {s0 s : State} (h : Keeps s0 s) {os : List JobOrder} (hr : s.listRefusal os = none) :
    Keeps s0 (State.holdList s os) := by
  have all : os.all s.reservedFor = true := by
    unfold State.listRefusal at hr
    (repeat' split at hr) <;> simp_all
  refine lampForList_keeps (h.trans ⟨modCp_blocks fun w => ⟨w.1, w.2, w.3⟩, fun w => ?_⟩)
  refine SlotLaw.jobsOf w.slots fun j hj _ => ?_
  obtain ⟨o, ho, rfl⟩ := List.mem_map.mp hj
  have hf := List.all_eq_true.mp all o ho
  unfold State.reservedFor at hf
  rw [List.getD_eq_getElem?_getD] at hf
  show reservedIn s.cp.slots o
  cases hn : s.cp.slots[o.slot]? with
  | none => simp [hn] at hf
  | some x =>
    cases x with
    | none => simp [hn] at hf
    | some c =>
      simp [hn] at hf
      exact ⟨c, hn, hf.2, .inl hf.1⟩

/-! ### A cancellation (R136) -/

theorem storeSlotOf_spec {s : State} {id n : Nat} (h : s.storeSlotOf id = some n) :
    ∃ c : StoreSlot, s.cp.slots[n]? = some (some c) ∧ c.reqId = id := by
  obtain ⟨hl, hn, -⟩ := List.findIdx?_eq_some_iff_getElem.mp h
  cases e : s.cp.slots[n] with
  | none => simp [e] at hn
  | some c => exact ⟨c, by rw [List.getElem?_eq_getElem hl, e], by simpa [e] using hn⟩

theorem storeSlotOf_none {s : State} {id : Nat} (h : s.storeSlotOf id = none) : unnamed s.cp.slots id := by
  intro i c hc e
  have := List.findIdx?_eq_none_iff.mp h (some c) (List.mem_of_getElem? hc)
  simp [e] at this

theorem cancelCapture_blocks {s : State} (reqId : Nat) : KeepsBlocks s (s.cancelCapture reqId) := by
  unfold State.cancelCapture State.withSome
  dsimp only
  split
  · split
    · exact (modCp_blocks fun w => ⟨w.1, w.2, w.3⟩).trans freeSlot_blocks
    · exact (modJob_blocks ..).trans freeSlot_blocks
    · exact freeSlot_blocks
    · exact (Keeps.refl s).toKeepsBlocks
  · exact (Keeps.refl s).toKeepsBlocks

@[simp] theorem cancelCapture_keeps {s0 s : State} (h : Keeps s0 s) (reqId : Nat) :
    Keeps s0 (State.cancelCapture s reqId) := by
  refine h.trans ?_
  unfold State.cancelCapture
  refine withSome_keeps (Keeps.refl s) fun n hn => ?_
  obtain ⟨c, hc, hid⟩ := storeSlotOf_spec hn
  have hg : (s.cp.slots.getD n none).map StoreSlot.state = some c.state := by
    rw [List.getD_eq_getElem?_getD, hc]; rfl
  have here : ∀ x : StoreSlot, s.cp.slots[n]? = some (some x) → x = c := fun x hx => by simpa [hc] using hx.symm
  rw [hg]
  cases hst : c.state with
  | reserved =>
    have k : Keeps s (s.modCp fun c =>
        { c with jobs := c.jobs.map fun l =>
            { l with jobs := l.jobs.filter (fun j => decide (j.order.reqId ≠ reqId)) } }) := by
      refine ⟨modCp_blocks fun w => ⟨w.1, w.2, w.3⟩, fun w => SlotLaw.jobsOf w.slots fun j hj ha => ?_⟩
      refine w.slots.active j ?_ ha
      unfold State.jobList at hj ⊢
      simp only [modCp_cp] at hj
      cases hl : s.cp.jobs with
      | none => simp [hl] at hj
      | some l => simp [hl] at hj; exact hj.1
    refine freeSlot_keeps k (fun w => w.slots.notJob fun x hx j hj _ e _ => ?_)
      (fun w => w.slots.notSent fun x hx => by rw [here x hx, hst]; simp)
    rw [here x hx, hid] at e
    unfold State.jobList at hj
    simp only [modCp_cp] at hj
    cases hl : s.cp.jobs with
    | none => simp [hl] at hj
    | some l => simp [hl] at hj; exact hj.2 e.symm
  | filling =>
    refine freeSlot_keeps (modJob_keeps (Keeps.refl s) reqId _ fun j ha => by simp [Job.active] at ha)
      (fun w => w.slots.notJob fun x hx j hj ha e _ => ?_)
      (fun w => w.slots.notSent fun x hx => by rw [here x hx, hst]; simp)
    rw [here x hx, hid] at e
    rw [modJob_jobList] at hj
    obtain ⟨k, -, rfl⟩ := List.mem_map.mp hj
    split at ha
    · simp [Job.active] at ha
    · rename_i hne
      rw [if_neg hne] at e
      exact hne e.symm
  | ready =>
    refine freeSlot_keeps (Keeps.refl s) (fun w => w.slots.notJob fun x hx j _ _ _ e => ?_)
      (fun w => w.slots.notSent fun x hx => by rw [here x hx, hst]; simp)
    rw [here x hx, hst] at e
    simp at e
  | sending => exact Keeps.refl s

/-- The slots after a cancellation: at most one is freed. -/
theorem cancelCapture_slots (s : State) (id : Nat) :
    (s.cancelCapture id).cp.slots = s.cp.slots ∨ ∃ n, (s.cancelCapture id).cp.slots = s.cp.slots.set n none := by
  unfold State.cancelCapture State.withSome
  dsimp only
  split
  · split
    · exact .inr ⟨_, freeSlot_slots _⟩
    · exact .inr ⟨_, freeSlot_slots _⟩
    · exact .inr ⟨_, freeSlot_slots _⟩
    · exact .inl rfl
  · exact .inl rfl

/-- After a cancellation no slot carries the id, where none that carried it was SENDING. -/
theorem cancelCapture_unnamed {s : State} {id : Nat} (w : StoreLaw s.cp.slots s.cp.ready) (hu : unsent s.cp.slots id) :
    unnamed (s.cancelCapture id).cp.slots id := by
  unfold State.cancelCapture State.withSome
  dsimp only
  split
  · rename_i n hn
    obtain ⟨c, hc, hid⟩ := storeSlotOf_spec hn
    have hg : (s.cp.slots.getD n none).map StoreSlot.state = some c.state := by
      rw [List.getD_eq_getElem?_getD, hc]; rfl
    have gone : unnamed (s.cp.slots.set n none) id := by
      intro i x hx e
      have hm := getElem?_set_none.mp hx
      exact hm.1 (w.ids i n x c hm.2 hc (e.trans hid.symm))
    rw [hg]
    cases hst : c.state with
    | sending => exact absurd hst (hu n c hc hid)
    | _ => dsimp only; rw [freeSlot_slots]; exact gone
  · rename_i hn
    exact storeSlotOf_none hn

/-! ### A window's start, its lines and its end (R131, R133) -/

@[simp] theorem reportLag_cp (s : State) (ws : Nat) : (s.reportLag ws).cp = s.cp := by
  unfold State.reportLag
  split
  · exact faultOccur_cp ..
  · rfl

/-- A filling job of its own order, which has its slot. -/
theorem startWindow_keeps {s0 s : State} (h : Keeps s0 s) {j : Job} (hj : s.storeWf → reservedIn s.cp.slots j.order) :
    Keeps s0 (State.startWindow s j) := by
  have opened : Keeps s (s.modSlot j.order.slot StoreSlot.opened) :=
    modSlot_keeps (Keeps.refl s) _ _ opened_reqId opened_ready opened_sending opened_inUse
  have here : reservedIn s.cp.slots j.order →
      reservedIn (s.modSlot j.order.slot StoreSlot.opened).cp.slots j.order := reservedIn_mod opened_reqId opened_inUse
  refine h.trans ?_
  unfold State.startWindow
  dsimp only
  refine modSlot_keeps ⟨?_, fun w => ?_⟩ _ _ (fun _ => rfl) (fun _ => Iff.rfl) (fun _ => Iff.rfl) fun _ => id
  · exact ((opened.toKeepsBlocks.trans jobReport_blocks).trans (reportLag_keeps (Keeps.refl _) _).toKeepsBlocks).trans
      (modJob_blocks ..)
  · have r := here (hj w)
    have report := jobReport_keeps (id := j.order.reqId) (rep := .capturing) (Keeps.refl _)
      (fun w' => tied_unsent (reservedIn_tied w'.cp.store r)) fun _ k => absurd (.inl rfl) k
    refine (modJob_keeps_of (reportLag_keeps report j.windowStart) _ _ fun _ _ _ _ _ => ?_).slots (opened.store w)
    rw [reportLag_cp, jobReport_cp]
    exact r

/-- The jobs after a window's start: those of its id are filling. -/
theorem startWindow_active {s : State} {j k : Job} (hk : k ∈ (s.startWindow j).jobList)
    (e : k.order.reqId = j.order.reqId) : k.active = true := by
  have hl : ∀ (t : State) (n : Nat) (f : StoreSlot → StoreSlot), (t.modSlot n f).jobList = t.jobList := fun _ _ _ => rfl
  unfold State.startWindow at hk
  rw [hl, modJob_jobList] at hk
  obtain ⟨x, -, rfl⟩ := List.mem_map.mp hk
  split at e
  · rename_i hx
    rw [if_pos hx]
    rfl
  · rename_i hx
    exact absurd e hx

theorem endWindow_blocks (s : State) (j : Job) : KeepsBlocks s (s.endWindow j) :=
  (((makeReady_blocks ..).trans (modJob_blocks ..)).trans jobReport_blocks).trans
    (frameScored_keeps (Keeps.refl _) ..).toKeepsBlocks

theorem endWindow_keeps {s0 s : State} (h : Keeps s0 s) {j : Job} (hj : s.storeWf → reservedIn s.cp.slots j.order) :
    Keeps s0 (State.endWindow s j) := by
  refine h.trans ?_
  unfold State.endWindow
  dsimp only
  generalize ({ j.record s.crop.2 with score := _, flags := _ } : FrameRecord) = r
  refine frameScored_keeps ⟨?_, fun w => ?_⟩ _ _ _
  · exact ((makeReady_blocks ..).trans (modJob_blocks ..)).trans jobReport_blocks
  · have t := reservedIn_tied w.cp.store (hj w)
    have law : ((s.modCp fun c => c.makeReady j.order.slot r).modJob j.order.reqId fun x =>
        { x with state := .done }).slotsWf := by
      unfold State.slotsWf
      refine w.slots.makeReady (id := j.order.reqId) (fun x hx => (t _ x hx (.inr rfl)).1) fun k hk ha => ?_
      rw [modJob_jobList] at hk
      obtain ⟨x, hx, rfl⟩ := List.mem_map.mp hk
      split at ha
      · simp [Job.active] at ha
      · rename_i hne
        rw [if_neg hne]
        refine ⟨hne, x, ?_, ha, rfl⟩
        unfold State.jobList at hx ⊢
        rwa [modCp_cp, makeReady_jobs] at hx
    have k := ((makeReady_blocks (s := s) j.order.slot r).trans (modJob_blocks j.order.reqId fun x =>
      { x with state := .done }))
    refine (jobReport_keeps (Keeps.refl _) (fun _ => ?_) fun _ x => absurd (.inr rfl) x).slots ⟨k.cp w.cp, k.rs w.rs, law⟩
    intro i c hc e
    have hm : (s.cp.makeReady j.order.slot r).slots[i]? = some (some c) := hc
    unfold Cp.makeReady at hm
    have old : s.cp.slots[i]? = some (some c) → c.state ≠ .sending := fun q => (t i c q (.inl e)).2.2
    split at hm
    · split at hm
      · rename_i x hx _
        have hl : j.order.slot < s.cp.slots.length := by
          rw [List.getD_eq_getElem?_getD] at hx
          by_cases q : j.order.slot < s.cp.slots.length
          · exact q
          · simp [q] at hx
        rcases (getElem?_set_some hl).mp hm with ⟨-, rfl⟩ | ⟨-, q⟩
        · simp
        · exact old q
      · exact old hm
    · exact old hm

theorem takeLine_keeps {s0 s : State} (h : Keeps s0 s) {j : Job} (line : List Byte)
    (hj : s.storeWf → reservedIn s.cp.slots j.order) : Keeps s0 (State.takeLine s j line) := by
  refine h.trans ?_
  have added : Keeps s (s.modSlot j.order.slot fun c => { c with lines := c.lines ++ [line] }) :=
    modSlot_keeps (Keeps.refl s) _ _ (fun _ => rfl) (fun _ => Iff.rfl) (fun _ => Iff.rfl) fun _ => id
  have here : s.storeWf →
      reservedIn (s.modSlot j.order.slot fun c => { c with lines := c.lines ++ [line] }).cp.slots j.order :=
    fun w => reservedIn_mod (fun _ => rfl) (fun _ => id) (hj w)
  have t : Keeps s ((s.modSlot j.order.slot fun c => { c with lines := c.lines ++ [line] }).modJob j.order.reqId fun _ =>
      { j with lineIndex := j.lineIndex + 1 }) := by
    refine ⟨added.toKeepsBlocks.trans (modJob_blocks ..), fun w => ?_⟩
    exact (modJob_keeps_of (Keeps.refl _) j.order.reqId (fun _ => { j with lineIndex := j.lineIndex + 1 })
      fun _ _ _ _ _ => here w).slots (added.store w)
  unfold State.takeLine
  dsimp only
  split
  · have e := fun (w : s.storeWf) => endWindow_keeps (Keeps.refl _) (j := { j with lineIndex := j.lineIndex + 1 })
      (s := (s.modSlot j.order.slot fun c => { c with lines := c.lines ++ [line] }).modJob j.order.reqId fun _ =>
        { j with lineIndex := j.lineIndex + 1 }) fun _ => here w
    refine ⟨t.toKeepsBlocks.trans ?_, fun w => (e w).slots (t.store w)⟩
    exact endWindow_blocks ..
  · exact t

@[simp] theorem jobAt_keeps {s0 s : State} (h : Keeps s0 s) (line : List Byte) (reqId : Nat) :
    Keeps s0 (State.jobAt s line reqId) := by
  unfold State.jobAt
  refine withSome_keeps h fun j hj => ?_
  have mem : j ∈ s.jobList := List.mem_of_find?_eq_some hj
  have id : j.order.reqId = reqId := by simpa using List.find?_some hj
  dsimp only
  split
  · rename_i hw
    have k := startWindow_keeps h fun w => w.slots.active j mem (by simp [Job.active, hw.1])
    refine withSome_keeps k fun x hx => takeLine_keeps k line fun w => ?_
    have mx : x ∈ (s.startWindow j).jobList := List.mem_of_find?_eq_some hx
    have ex : x.order.reqId = reqId := by simpa using List.find?_some hx
    exact w.slots.active x mx (startWindow_active mx (ex.trans id.symm))
  · split
    · rename_i hf
      exact takeLine_keeps h line fun w => w.slots.active j mem (by simp [Job.active, hf.1])
    · exact h

@[simp] theorem captureLine_keeps {s0 s : State} (h : Keeps s0 s) (pixels : List Byte) :
    Keeps s0 (State.captureLine s pixels) := by
  unfold State.captureLine
  (repeat' split) <;>
    first
      | exact h
      | (simp (maxDischargeDepth := 40) +contextual [h]; done)
      | (simp (maxDischargeDepth := 40) +contextual [*]; done)

/-! ### Marks (R132) -/

theorem misframe_blocks (s : State) (j : Job) (g m : Nat) : KeepsBlocks s (s.misframe j g m) :=
  (((modJob_blocks ..).trans freeSlot_blocks).trans
    (faultOccur_keeps (c := .misframe) (k := .minor) (Keeps.refl _) rfl).toKeepsBlocks).trans jobReport_blocks

theorem misframe_keeps {s0 s : State} (h : Keeps s0 s) {j : Job} (g m : Nat)
    (hj : s.storeWf → tied s.cp.slots j.order) : Keeps s0 (State.misframe s j g m) := by
  refine h.trans ⟨misframe_blocks s j g m, fun w => ?_⟩
  have t := hj w
  have aborted : Keeps s (s.modJob j.order.reqId fun x => { x with state := .aborted }) :=
    modJob_keeps (Keeps.refl s) _ _ fun x hx => by simp [Job.active] at hx
  have slots : (s.modJob j.order.reqId fun x => { x with state := .aborted }).cp.slots = s.cp.slots := rfl
  have list := modJob_jobList s j.order.reqId fun x => { x with state := .aborted }
  unfold State.misframe
  dsimp only
  revert aborted slots list
  generalize (s.modJob j.order.reqId fun x => { x with state := .aborted }) = u
  intro aborted slots list
  have free := freeSlot_keeps (n := j.order.slot) (Keeps.refl u)
    (fun v => v.slots.notJob fun c hc k hk ha e _ => by
      rw [list] at hk
      obtain ⟨x, -, rfl⟩ := List.mem_map.mp hk
      split at ha
      · simp [Job.active] at ha
      · rename_i hne
        rw [if_neg hne] at e
        exact hne (e.symm.trans (t _ c (slots ▸ hc) (.inr rfl)).1))
    (fun v => v.slots.notSent fun c hc => (t _ c (slots ▸ hc) (.inr rfl)).2.2)
  have fault := faultOccur_keeps (c := .misframe) (k := .minor)
    (d := .misframe j.order.reqId j.order.slot j.order.frame g m) free rfl
  have gone : unnamed ((u.freeSlot j.order.slot).faultOccur .misframe .minor
      (.misframe j.order.reqId j.order.slot j.order.frame g m)).cp.slots j.order.reqId := by
    rw [faultOccur_cp, freeSlot_slots, slots]; exact tied_unnamed t
  exact (jobReport_keeps (rep := .misframe) fault (fun _ => unnamed_unsent gone) fun _ _ => gone).slots (aborted.store w)

theorem misframe_slots (s : State) (j : Job) (g m : Nat) :
    (s.misframe j g m).cp.slots = s.cp.slots.set j.order.slot none := by
  unfold State.misframe
  rw [jobReport_cp, faultOccur_cp, freeSlot_slots]
  rfl

@[simp] theorem verified_keeps {s0 s : State} (h : Keeps s0 s) (j : Job) (m : Nat) :
    Keeps s0 (State.verified s j m) := by
  have k : Keeps s0 (s.modJob j.order.reqId fun x => { x with observed := some m }) :=
    modJob_keeps h _ _ fun x hx => ⟨hx, rfl⟩
  unfold State.verified
  dsimp only
  split
  · exact modSlot_keeps k _ _ (fun _ => rfl) (fun _ => Iff.rfl) (fun _ => Iff.rfl) fun _ => id
  · exact k

@[simp] theorem markReported_keeps {s0 s : State} (h : Keeps s0 s) (g m : Nat) :
    Keeps s0 (State.markReported s g m) := by
  refine h.trans (each_keeps_of (fun t j => tied t.cp.slots j.order) (fun t j => ?_) (fun w j hj => ?_) fun t j w ht => ?_)
  · split
    · split
      · split
        · exact (verified_keeps (Keeps.refl t) _ _).toKeepsBlocks
        · exact misframe_blocks ..
      · exact (Keeps.refl t).toKeepsBlocks
    · exact (Keeps.refl t).toKeepsBlocks
  · have hm := List.mem_filter.mp hj
    have ha : j.active = true := by have := hm.2; simp at this; exact this.1
    exact reservedIn_tied w.cp.store (w.slots.active j hm.1 ha)
  · split
    · split
      · split
        · refine ⟨(verified_keeps (Keeps.refl t) _ _).slots w, fun b hb => ?_⟩
          unfold State.verified
          dsimp only
          split
          · exact tied_mod (fun _ => rfl) (fun _ => Iff.rfl) hb
          · exact hb
        · refine ⟨(misframe_keeps (Keeps.refl t) _ _ fun _ => ht).slots w, fun b hb => ?_⟩
          rw [misframe_slots]
          exact tied_free hb
      · exact ⟨w.slots, fun _ hb => hb⟩
    · exact ⟨w.slots, fun _ hb => hb⟩

end Sys2Proof.Machine
end

