-- ==== Sys2Proof/Laws/Transport.lean ====
section
/-! SUPPORT. Laws/Transport.lean: the motions of TC keep the laws. -/

namespace Sys2Proof.Machine

/-! ### TransportOps.lean -/

@[simp] theorem noteMotion_keeps {s0 s : State} (h : Keeps s0 s)  :
    Keeps s0 (State.noteMotion s) := by
  unfold State.noteMotion
  (repeat' split) <;>
    first
      | exact h
      | (simp (maxDischargeDepth := 40) +contextual [h]; done)
      | (simp (maxDischargeDepth := 40) +contextual [*]; done)

@[simp] theorem arrive_keeps {s0 s : State} (h : Keeps s0 s)  :
    Keeps s0 (State.arrive s) := by
  unfold State.arrive
  (repeat' split) <;>
    first
      | exact h
      | (simp (maxDischargeDepth := 40) +contextual [h]; done)
      | (simp (maxDischargeDepth := 40) +contextual [*]; done)

@[simp] theorem depart_keeps {s0 s : State} (h : Keeps s0 s) (m : Seek) :
    Keeps s0 (State.depart s m) := by
  unfold State.depart
  (repeat' split) <;>
    first
      | exact h
      | (simp (maxDischargeDepth := 40) +contextual [h]; done)
      | (simp (maxDischargeDepth := 40) +contextual [*]; done)

@[simp] theorem startRun_keeps {s0 s : State} (h : Keeps s0 s) (req : Requester) (purpose : RunPurpose) (speed : Nat) (endPos : Option Nat) :
    Keeps s0 (State.startRun s req purpose speed endPos) := by
  unfold State.startRun
  (repeat' split) <;>
    first
      | exact h
      | (simp (maxDischargeDepth := 40) +contextual [h]; done)
      | (simp (maxDischargeDepth := 40) +contextual [*]; done)

@[simp] theorem endRun_keeps {s0 s : State} (h : Keeps s0 s) (r : Run) (why : RunEnd) (ph : Phase) (rate : Nat) :
    Keeps s0 (State.endRun s r why ph rate) := by
  unfold State.endRun
  (repeat' split) <;>
    first
      | exact h
      | (simp (maxDischargeDepth := 40) +contextual [h]; done)
      | (simp (maxDischargeDepth := 40) +contextual [*]; done)

@[simp] theorem finishRun_keeps {s0 s : State} (h : Keeps s0 s)  :
    Keeps s0 (State.finishRun s) := by
  unfold State.finishRun
  (repeat' split) <;>
    first
      | exact h
      | (simp (maxDischargeDepth := 40) +contextual [h]; done)
      | (simp (maxDischargeDepth := 40) +contextual [*]; done)

@[simp] theorem startThreading_keeps {s0 s : State} (h : Keeps s0 s)  :
    Keeps s0 (State.startThreading s) := by
  unfold State.startThreading
  (repeat' split) <;>
    first
      | exact h
      | (simp (maxDischargeDepth := 40) +contextual [h]; done)
      | (simp (maxDischargeDepth := 40) +contextual [*]; done)

@[simp] theorem overshoot_keeps {s0 s : State} (h : Keeps s0 s) (m : Seek) :
    Keeps s0 (State.overshoot s m) := by
  unfold State.overshoot
  (repeat' split) <;>
    first
      | exact h
      | (simp (maxDischargeDepth := 40) +contextual [h]; done)
      | (simp (maxDischargeDepth := 40) +contextual [*]; done)

@[simp] theorem motionTests_keeps {s0 s : State} (h : Keeps s0 s)  :
    Keeps s0 (State.motionTests s) := by
  unfold State.motionTests
  (repeat' split) <;>
    first
      | exact h
      | (simp (maxDischargeDepth := 40) +contextual [h]; done)
      | (simp (maxDischargeDepth := 40) +contextual [*]; done)

@[simp] theorem startRewind_keeps {s0 s : State} (h : Keeps s0 s) (recovery : Bool) :
    Keeps s0 (State.startRewind s recovery) := by
  unfold State.startRewind
  (repeat' split) <;>
    first
      | exact h
      | (simp (maxDischargeDepth := 40) +contextual [h]; done)
      | (simp (maxDischargeDepth := 40) +contextual [*]; done)

@[simp] theorem startSeek_keeps {s0 s : State} (h : Keeps s0 s) (req : Requester) (target : Nat) (clamped : Bool) (limit : Nat) :
    Keeps s0 (State.startSeek s req target clamped limit) := by
  unfold State.startSeek
  (repeat' split) <;>
    first
      | exact h
      | (simp (maxDischargeDepth := 40) +contextual [h]; done)
      | (simp (maxDischargeDepth := 40) +contextual [*]; done)

@[simp] theorem orderSeek_keeps {s0 s : State} (h : Keeps s0 s) (req : Requester) (target : Nat) :
    Keeps s0 (State.orderSeek s req target) := by
  unfold State.orderSeek
  (repeat' split) <;>
    first
      | exact h
      | (simp (maxDischargeDepth := 40) +contextual [h]; done)
      | (simp (maxDischargeDepth := 40) +contextual [*]; done)

end Sys2Proof.Machine
end

