-- ==== Sys2Proof/Laws/Index.lean ====
section
/-! SUPPORT. Laws/Index.lean: the tracker, the segments, the landmarks and the learning keep the laws. -/

namespace Sys2Proof.Machine

/-! ### IndexOps.lean -/

@[simp] theorem modTracker_keeps {s0 s : State} (h : Keeps s0 s) (f : Tracker → Tracker) :
    Keeps s0 (State.modTracker s f) := by
  unfold State.modTracker
  (repeat' split) <;>
    first
      | exact h
      | (simp (maxDischargeDepth := 40) +contextual [h]; done)
      | (simp (maxDischargeDepth := 40) +contextual [*]; done)

@[simp] theorem modIndexPass_keeps {s0 s : State} (h : Keeps s0 s) (f : IndexPass → IndexPass) :
    Keeps s0 (State.modIndexPass s f) := by
  unfold State.modIndexPass
  (repeat' split) <;>
    first
      | exact h
      | (simp (maxDischargeDepth := 40) +contextual [h]; done)
      | (simp (maxDischargeDepth := 40) +contextual [*]; done)

/-- Outside a pass there is no record to change, so a mark goes to the tracker on the state as it is (`State.trackMark`). -/
theorem modIndexPass_of_none {s : State} (h : s.ix.pass = none) (f : IndexPass → IndexPass) : s.modIndexPass f = s := by
  have k : s.ix.pass.map f = s.ix.pass := by rw [h]; rfl
  simp only [State.modIndexPass, State.modIx, k]

@[simp] theorem modSegment_keeps {s0 s : State} (h : Keeps s0 s) (n : Nat) (f : Segment → Segment) :
    Keeps s0 (State.modSegment s n f) := by
  unfold State.modSegment
  (repeat' split) <;>
    first
      | exact h
      | (simp (maxDischargeDepth := 40) +contextual [h]; done)
      | (simp (maxDischargeDepth := 40) +contextual [*]; done)

@[simp] theorem strayMark_keeps {s0 s : State} (h : Keeps s0 s)  :
    Keeps s0 (State.strayMark s) := by
  unfold State.strayMark
  (repeat' split) <;>
    first
      | exact h
      | (simp (maxDischargeDepth := 40) +contextual [h]; done)
      | (simp (maxDischargeDepth := 40) +contextual [*]; done)

@[simp] theorem loseTrack_keeps {s0 s : State} (h : Keeps s0 s)  :
    Keeps s0 (State.loseTrack s) := by
  unfold State.loseTrack
  (repeat' split) <;>
    first
      | exact h
      | (simp (maxDischargeDepth := 40) +contextual [h]; done)
      | (simp (maxDischargeDepth := 40) +contextual [*]; done)

@[simp] theorem reckon_keeps {s0 s : State} (h : Keeps s0 s)  :
    Keeps s0 (State.reckon s) := by
  unfold State.reckon
  (repeat' split) <;>
    first
      | exact h
      | (simp (maxDischargeDepth := 40) +contextual [h]; done)
      | (simp (maxDischargeDepth := 40) +contextual [*]; done)

theorem insertLandmark_mem {l x : Landmark} {m : List Landmark} : x ∈ insertLandmark l m ↔ x = l ∨ x ∈ m := by
  induction m with
  | nil => simp [insertLandmark]
  | cons y rest ih =>
    unfold insertLandmark
    split
    · simp
    · simp [ih]; constructor <;> (intro h; rcases h with h | h | h <;> simp [h])

theorem insertLandmark_length (l : Landmark) (m : List Landmark) : (insertLandmark l m).length = m.length + 1 := by
  induction m with
  | nil => rfl
  | cons y rest ih => unfold insertLandmark; split <;> simp [ih]

theorem insertLandmark_ascending {l : Landmark} {m : List Landmark} (h : Ascending Landmark.frame m)
    (hn : ∀ x ∈ m, x.frame ≠ l.frame) : Ascending Landmark.frame (insertLandmark l m) := by
  unfold Ascending at *
  induction m with
  | nil => simp [insertLandmark]
  | cons y rest ih =>
    rw [List.pairwise_cons] at h
    unfold insertLandmark
    split
    · rename_i hlt
      rw [List.pairwise_cons, List.pairwise_cons]
      refine ⟨fun a ha => ?_, h⟩
      rcases List.mem_cons.mp ha with ha | ha
      · subst ha; exact hlt
      · exact Nat.lt_trans hlt (h.1 a ha)
    · rename_i hge
      rw [List.pairwise_cons]
      refine ⟨fun a ha => ?_, ih h.2 fun x hx => hn x (List.mem_cons_of_mem _ hx)⟩
      rcases insertLandmark_mem.mp ha with ha | ha
      · have := hn y (List.mem_cons_self ..)
        subst ha
        omega
      · exact h.1 a ha

@[simp] theorem offerLandmark_keeps {s0 s : State} (h : Keeps s0 s) (f m : Nat) (c : MarkClass) :
    Keeps s0 (State.offerLandmark s f m c) := by
  unfold State.offerLandmark
  split
  · exact h
  · split
    · split
      · split
        · refine modIx_keeps h fun w => ⟨w.1, by simpa using w.2, ?_⟩
          have w3 := w.3
          unfold Ascending at *
          rw [List.pairwise_map]
          exact w3.imp fun {a b} hab => by split <;> split <;> simpa using hab
        · exact h
      · exact h
    · rename_i hn
      split
      · split
        · rename_i hroom
          refine modIx_keeps h fun w => ⟨w.1, ?_, insertLandmark_ascending w.3 fun x hx => ?_⟩
          · rw [insertLandmark_length]; exact hroom
          · simpa using List.find?_eq_none.mp hn x hx
        · exact modMounted_keeps h (fun _ => rfl) (fun _ => rfl) (fun _ => rfl) fun _ => rfl
      · exact h

@[simp] theorem observe_keeps {s0 s : State} (h : Keeps s0 s) (g : Segment) (f m : Nat) :
    Keeps s0 (State.observe s g f m) := by
  unfold State.observe
  (repeat' split) <;>
    first
      | exact h
      | (simp (maxDischargeDepth := 40) +contextual [h]; done)
      | (simp (maxDischargeDepth := 40) +contextual [*]; done)

@[simp] theorem targetTest_keeps {s0 s : State} (h : Keeps s0 s)  :
    Keeps s0 (State.targetTest s) := by
  unfold State.targetTest
  (repeat' split) <;>
    first
      | exact h
      | (simp (maxDischargeDepth := 40) +contextual [h]; done)
      | (simp (maxDischargeDepth := 40) +contextual [*]; done)

@[simp] theorem advance_keeps {s0 s : State} (h : Keeps s0 s) (f : Nat) :
    Keeps s0 (State.advance s f) := by
  unfold State.advance
  (repeat' split) <;>
    first
      | exact h
      | (simp (maxDischargeDepth := 40) +contextual [h]; done)
      | (simp (maxDischargeDepth := 40) +contextual [*]; done)

@[simp] theorem reachFrontier_keeps {s0 s : State} (h : Keeps s0 s) (f : Nat) :
    Keeps s0 (State.reachFrontier s f) := by
  unfold State.reachFrontier
  (repeat' split) <;>
    first
      | exact h
      | (simp (maxDischargeDepth := 40) +contextual [h]; done)
      | (simp (maxDischargeDepth := 40) +contextual [*]; done)

@[simp] theorem frontierCount_keeps {s0 s : State} (h : Keeps s0 s) (g : Segment) (f m n : Nat) :
    Keeps s0 (State.frontierCount s g f m n) := by
  unfold State.frontierCount
  (repeat' split) <;>
    first
      | exact h
      | (simp (maxDischargeDepth := 40) +contextual [h]; done)
      | (simp (maxDischargeDepth := 40) +contextual [*]; done)

@[simp] theorem limitReached_keeps {s0 s : State} (h : Keeps s0 s) (d : FaultDetail) :
    Keeps s0 (State.limitReached s d) := by
  unfold State.limitReached
  (repeat' split) <;>
    first
      | exact h
      | (simp (maxDischargeDepth := 40) +contextual [h]; done)
      | (simp (maxDischargeDepth := 40) +contextual [*]; done)

@[simp] theorem disarmLeader_keeps {s0 s : State} (h : Keeps s0 s)  :
    Keeps s0 (State.disarmLeader s) := by
  unfold State.disarmLeader
  (repeat' split) <;>
    first
      | exact h
      | (simp (maxDischargeDepth := 40) +contextual [h]; done)
      | (simp (maxDischargeDepth := 40) +contextual [*]; done)

@[simp] theorem disarmLeader_segments (s : State) : s.disarmLeader.ix.segments = s.ix.segments := rfl

theorem openWith_keeps {s0 s : State} (h : Keeps s0 s) (g : Segment) (m : Nat) (c : MarkClass)
    (hroom : s.ix.segments.length < 32) : Keeps s0 (s.openWith g m c) := by
  have k : Keeps s0 (s.modIx fun x => { x with segments := x.segments ++ [g] }) :=
    modIx_keeps h fun w => ⟨by simp; omega, w.2, w.3⟩
  unfold State.openWith
  simp (maxDischargeDepth := 40) [k]

theorem openFirst_keeps {s0 s : State} (h : Keeps s0 s) (m : Nat) (c : MarkClass) (hs : s.ix.segments = []) :
    Keeps s0 (s.openFirst m c) := by
  unfold State.openFirst State.onlyIf
  split
  · exact openWith_keeps (disarmLeader_keeps (spendFree_keeps h)) _ _ _ (by simp [State.spendFree, hs])
  · exact openWith_keeps (disarmLeader_keeps h) _ _ _ (by simp [hs])

@[simp] theorem openNext_keeps {s0 s : State} (h : Keeps s0 s) (g : Segment) (m : Nat) (c : MarkClass) :
    Keeps s0 (State.openNext s g m c) := by
  unfold State.openNext
  split
  · split
    · exact strayMark_keeps h
    · split
      · exact limitReached_keeps h _
      · exact openWith_keeps h _ _ _ (by omega)
  · exact strayMark_keeps h

@[simp] theorem countMark_keeps {s0 s : State} (h : Keeps s0 s) (g : Segment) (f m n : Nat) (c : MarkClass) :
    Keeps s0 (State.countMark s g f m n c) := by
  unfold State.countMark
  (repeat' split) <;>
    first
      | exact h
      | (simp (maxDischargeDepth := 40) +contextual [h]; done)
      | (simp (maxDischargeDepth := 40) +contextual [*]; done)

@[simp] theorem leaveSegment_keeps {s0 s : State} (h : Keeps s0 s) (g : Segment) (forward : Bool) (m : Nat) (c : MarkClass) :
    Keeps s0 (State.leaveSegment s g forward m c) := by
  unfold State.leaveSegment
  dsimp only
  generalize (if forward = true then s.segment (g.number + 1)
    else if g.number = 0 then none else s.segment (g.number - 1)) = next
  split
  · generalize (if forward = true then _ else _ : Bool) = reached
    (repeat' split) <;> simp [h]
  · (repeat' split) <;> simp [h]

@[simp] theorem frameLimit_keeps {s0 s : State} (h : Keeps s0 s) (g : Segment) (f last m : Nat) :
    Keeps s0 (State.frameLimit s g f last m) := by
  unfold State.frameLimit
  (repeat' split) <;>
    first
      | exact h
      | (simp (maxDischargeDepth := 40) +contextual [h]; done)
      | (simp (maxDischargeDepth := 40) +contextual [*]; done)

@[simp] theorem stepMark_keeps {s0 s : State} (h : Keeps s0 s) (forward : Bool) (m : Nat) (c : MarkClass) :
    Keeps s0 (State.stepMark s forward m c) := by
  unfold State.stepMark
  (repeat' split) <;>
    first
      | exact h
      | (simp (maxDischargeDepth := 40) +contextual [h]; done)
      | (simp (maxDischargeDepth := 40) +contextual [*]; done)

@[simp] theorem failExtension_keeps {s0 s : State} (h : Keeps s0 s)  :
    Keeps s0 (State.failExtension s) := by
  unfold State.failExtension
  (repeat' split) <;>
    first
      | exact h
      | (simp (maxDischargeDepth := 40) +contextual [h]; done)
      | (simp (maxDischargeDepth := 40) +contextual [*]; done)

@[simp] theorem matchMark_keeps {s0 s : State} (h : Keeps s0 s) (f seg m : Nat) (c : MarkClass) :
    Keeps s0 (State.matchMark s f seg m c) := by
  unfold State.matchMark
  (repeat' split) <;>
    first
      | exact h
      | (simp (maxDischargeDepth := 40) +contextual [h]; done)
      | (simp (maxDischargeDepth := 40) +contextual [*]; done)

@[simp] theorem matchReckoning_keeps {s0 s : State} (h : Keeps s0 s) (first : Bool) (m : Nat) (c : MarkClass) :
    Keeps s0 (State.matchReckoning s first m c) := by
  unfold State.matchReckoning
  (repeat' split) <;>
    first
      | exact h
      | (simp (maxDischargeDepth := 40) +contextual [h]; done)
      | (simp (maxDischargeDepth := 40) +contextual [*]; done)

@[simp] theorem leaderMark_keeps {s0 s : State} (h : Keeps s0 s) (m : Nat) (c : MarkClass) :
    Keeps s0 (State.leaderMark s m c) := by
  unfold State.leaderMark
  split
  · rename_i hn
    split
    · exact openFirst_keeps h m c (List.head?_eq_none_iff.mp hn)
    · exact disarmLeader_keeps h
  · (repeat' split) <;> simp [h]

@[simp] theorem resync_keeps {s0 s : State} (h : Keeps s0 s) (m : Nat) (c : MarkClass) :
    Keeps s0 (State.resync s m c) := by
  unfold State.resync
  (repeat' split) <;>
    first
      | exact h
      | (simp (maxDischargeDepth := 40) +contextual [h]; done)
      | (simp (maxDischargeDepth := 40) +contextual [*]; done)

@[simp] theorem trackMark_keeps {s0 s : State} (h : Keeps s0 s) (forward : Bool) (m : Nat) (c : MarkClass) :
    Keeps s0 (State.trackMark s forward m c) := by
  unfold State.trackMark
  (repeat' split) <;>
    first
      | exact h
      | (simp (maxDischargeDepth := 40) +contextual [h]; done)
      | (simp (maxDischargeDepth := 40) +contextual [*]; done)

@[simp] theorem returnToZero_keeps {s0 s : State} (h : Keeps s0 s)  :
    Keeps s0 (State.returnToZero s) := by
  unfold State.returnToZero
  (repeat' split) <;>
    first
      | exact h
      | (simp (maxDischargeDepth := 40) +contextual [h]; done)
      | (simp (maxDischargeDepth := 40) +contextual [*]; done)

@[simp] theorem gapTest_keeps {s0 s : State} (h : Keeps s0 s)  :
    Keeps s0 (State.gapTest s) := by
  unfold State.gapTest
  (repeat' split) <;>
    first
      | exact h
      | (simp (maxDischargeDepth := 40) +contextual [h]; done)
      | (simp (maxDischargeDepth := 40) +contextual [*]; done)

@[simp] theorem extensionTest_keeps {s0 s : State} (h : Keeps s0 s)  :
    Keeps s0 (State.extensionTest s) := by
  unfold State.extensionTest
  (repeat' split) <;>
    first
      | exact h
      | (simp (maxDischargeDepth := 40) +contextual [h]; done)
      | (simp (maxDischargeDepth := 40) +contextual [*]; done)

@[simp] theorem indexTick_keeps {s0 s : State} (h : Keeps s0 s) (moved zero : Bool) :
    Keeps s0 (State.indexTick s moved zero) := by
  unfold State.indexTick
  (repeat' split) <;>
    first
      | exact h
      | (simp (maxDischargeDepth := 40) +contextual [h]; done)
      | (simp (maxDischargeDepth := 40) +contextual [*]; done)

@[simp] theorem speedForTracker_keeps {s0 s : State} (h : Keeps s0 s)  :
    Keeps s0 (State.speedForTracker s) := by
  unfold State.speedForTracker
  (repeat' split) <;>
    first
      | exact h
      | (simp (maxDischargeDepth := 40) +contextual [h]; done)
      | (simp (maxDischargeDepth := 40) +contextual [*]; done)

@[simp] theorem splice_keeps {s0 s : State} (h : Keeps s0 s) (p : Nat) :
    Keeps s0 (State.splice s p) := by
  unfold State.splice
  (repeat' split) <;>
    first
      | exact h
      | (simp (maxDischargeDepth := 40) +contextual [h]; done)
      | (simp (maxDischargeDepth := 40) +contextual [*]; done)

end Sys2Proof.Machine
end

