-- ==== Sys2Proof/Laws/Carousel.lean ====
section
/-! SUPPORT. Laws/Carousel.lean: cartridges, mounts, probes begun and ended keep the laws. -/

namespace Sys2Proof.Machine

/-! ### CarouselOps.lean -/

theorem tables_entry {s : State} (w : s.tablesWf) (n : Nat) :
    IndexLaw (s.entry n).segments (s.entry n).landmarks ∧ MapLaw (s.entry n).focusMap := by
  by_cases hn : n < s.cu.entries.length
  · have : s.entry n ∈ s.cu.entries := by
      simp [State.entry, List.getD_eq_getElem?_getD, hn]
    exact ⟨w.3 _ this, w.4 _ this⟩
  · have : s.entry n = Entry.empty := by
      simp [State.entry, List.getD_eq_getElem?_getD, hn]
    rw [this]
    simp [Entry.empty, Ascending]

/-- An entry replaced by one without a label and without tables. -/
theorem modEntry_blank {s0 s : State} {n : Nat} {e : Entry} (h : Keeps s0 s) (hl : e.label = [])
    (hs : e.segments = []) (hm : e.landmarks = []) (hf : e.focusMap = []) : Keeps s0 (s.modEntry n fun _ => e) :=
  modEntry_keeps_of h (fun _ _ _ _ _ _ => hl) fun _ _ _ => by simp [hs, hm, hf, Ascending]

@[simp] theorem removeCartridge_keeps {s0 s : State} (h : Keeps s0 s) (n : Nat) :
    Keeps s0 (State.removeCartridge s n) := by
  have k := modEntry_blank (n := n) (e := Entry.empty) h rfl rfl rfl rfl
  unfold State.removeCartridge
  simp (maxDischargeDepth := 40) [k]

@[simp] theorem presenceCheck_keeps {s0 s : State} (h : Keeps s0 s) (n : Nat) :
    Keeps s0 (State.presenceCheck s n) := by
  unfold State.presenceCheck
  (repeat' split) <;>
    first
      | exact h
      | (simp (maxDischargeDepth := 40) +contextual [h]; done)
      | (simp (maxDischargeDepth := 40) +contextual [*]; done)

@[simp] theorem startThreader_keeps {s0 s : State} (h : Keeps s0 s)  :
    Keeps s0 (State.startThreader s) := by
  unfold State.startThreader
  (repeat' split) <;>
    first
      | exact h
      | (simp (maxDischargeDepth := 40) +contextual [h]; done)
      | (simp (maxDischargeDepth := 40) +contextual [*]; done)

@[simp] theorem beginMount_keeps {s0 s : State} (h : Keeps s0 s) (req : Requester) (n : Nat) :
    Keeps s0 (State.beginMount s req n) := by
  unfold State.beginMount
  (repeat' split) <;>
    first
      | exact h
      | (simp (maxDischargeDepth := 40) +contextual [h]; done)
      | (simp (maxDischargeDepth := 40) +contextual [*]; done)

@[simp] theorem startRetraction_keeps {s0 s : State} (h : Keeps s0 s)  :
    Keeps s0 (State.startRetraction s) := by
  unfold State.startRetraction
  (repeat' split) <;>
    first
      | exact h
      | (simp (maxDischargeDepth := 40) +contextual [h]; done)
      | (simp (maxDischargeDepth := 40) +contextual [*]; done)

@[simp] theorem installIndex_keeps {s0 s : State} (h : Keeps s0 s) {segs : List Segment} {marks : List Landmark}
    {q0 : Option Nat} (hi : s0.tablesWf → IndexLaw segs marks) : Keeps s0 (s.installIndex segs marks q0) :=
  ⟨⟨h.tc, h.cu, fun w => ⟨hi w, (h.tables w).2, (h.tables w).3, (h.tables w).4⟩, h.cp, h.ct, h.rs, h.dc, h.notices, h.fm,
    h.talk⟩, h.slots⟩

@[simp] theorem postMountDone_keeps {s0 s : State} (h : Keeps s0 s) (n : Nat) (o : MountOutcome) :
    Keeps s0 (State.postMountDone s n o) := by
  unfold State.postMountDone
  (repeat' split) <;>
    first
      | exact h
      | (simp (maxDischargeDepth := 40) +contextual [h]; done)
      | (simp (maxDischargeDepth := 40) +contextual [*]; done)

@[simp] theorem postUnmountDone_keeps {s0 s : State} (h : Keeps s0 s) (n : Nat) (o : UnmountOutcome) :
    Keeps s0 (State.postUnmountDone s n o) := by
  unfold State.postUnmountDone
  (repeat' split) <;>
    first
      | exact h
      | (simp (maxDischargeDepth := 40) +contextual [h]; done)
      | (simp (maxDischargeDepth := 40) +contextual [*]; done)

@[simp] theorem saveTables_keeps {s0 s : State} (h : Keeps s0 s) (n : Nat) :
    Keeps s0 (State.saveTables s n) := by
  unfold State.saveTables
  exact modEntry_keeps_of h (fun w hn m hm hne e => (w.2 n m hn hm (Ne.symm hne) e)) fun w _ _ => ⟨w.1, w.2⟩

@[simp] theorem beginUnmount_keeps {s0 s : State} (h : Keeps s0 s) (req : Requester) (n : Nat) :
    Keeps s0 (State.beginUnmount s req n) := by
  unfold State.beginUnmount
  (repeat' split) <;>
    first
      | exact h
      | (simp (maxDischargeDepth := 40) +contextual [h]; done)
      | (simp (maxDischargeDepth := 40) +contextual [*]; done)

@[simp] theorem beginRecovery_keeps {s0 s : State} (h : Keeps s0 s)  :
    Keeps s0 (State.beginRecovery s) := by
  unfold State.beginRecovery
  (repeat' split) <;>
    first
      | exact h
      | (simp (maxDischargeDepth := 40) +contextual [h]; done)
      | (simp (maxDischargeDepth := 40) +contextual [*]; done)

@[simp] theorem beginProbe_keeps {s0 s : State} (h : Keeps s0 s) (req : Requester) (centre h st : Nat) :
    Keeps s0 (State.beginProbe s req centre h st) := by
  unfold State.beginProbe
  (repeat' split) <;>
    first
      | exact h
      | (simp (maxDischargeDepth := 40) +contextual [h]; done)
      | (simp (maxDischargeDepth := 40) +contextual [*]; done)

@[simp] theorem orderProbe_keeps {s0 s : State} (h : Keeps s0 s) (p : Nat) :
    Keeps s0 (State.orderProbe s p) := by
  unfold State.orderProbe
  (repeat' split) <;>
    first
      | exact h
      | (simp (maxDischargeDepth := 40) +contextual [h]; done)
      | (simp (maxDischargeDepth := 40) +contextual [*]; done)

end Sys2Proof.Machine
end

