-- ==== Sys2Proof/Laws/Pass.lean ====
section
/-! SUPPORT. Laws/Pass.lean: passes, reports and the MAJOR halt keep the laws. -/

namespace Sys2Proof.Machine

/-! ### PassOps.lean -/

@[simp] theorem rsProbeEnd_keeps {s0 s : State} (h : Keeps s0 s) (o : PassOutcome) :
    Keeps s0 (State.rsProbeEnd s o) := by
  unfold State.rsProbeEnd
  (repeat' split) <;>
    first
      | exact h
      | (simp (maxDischargeDepth := 40) +contextual [h]; done)
      | (simp (maxDischargeDepth := 40) +contextual [*]; done)

@[simp] theorem rsSeekOutcome_keeps {s0 s : State} (h : Keeps s0 s) (o : SeekOutcome) :
    Keeps s0 (State.rsSeekOutcome s o) := by
  unfold State.rsSeekOutcome
  (repeat' split) <;>
    first
      | exact h
      | (simp (maxDischargeDepth := 40) +contextual [h]; done)
      | (simp (maxDischargeDepth := 40) +contextual [*]; done)

@[simp] theorem rsRunEnd_keeps {s0 s : State} (h : Keeps s0 s) (why : RunEnd) :
    Keeps s0 (State.rsRunEnd s why) := by
  unfold State.rsRunEnd
  (repeat' split) <;>
    first
      | exact h
      | (simp (maxDischargeDepth := 40) +contextual [h]; done)
      | (simp (maxDischargeDepth := 40) +contextual [*]; done)

@[simp] theorem rsReplaced_keeps {s0 s : State} (h : Keeps s0 s)  :
    Keeps s0 (State.rsReplaced s) := by
  unfold State.rsReplaced
  (repeat' split) <;>
    first
      | exact h
      | (simp (maxDischargeDepth := 40) +contextual [h]; done)
      | (simp (maxDischargeDepth := 40) +contextual [*]; done)

@[simp] theorem rsMountOutcome_keeps {s0 s : State} (h : Keeps s0 s) (n : Nat) (o : MountOutcome) :
    Keeps s0 (State.rsMountOutcome s n o) := by
  unfold State.rsMountOutcome
  (repeat' split) <;>
    first
      | exact h
      | (simp (maxDischargeDepth := 40) +contextual [h]; done)
      | (simp (maxDischargeDepth := 40) +contextual [*]; done)

@[simp] theorem rsOrderMount_keeps {s0 s : State} (h : Keeps s0 s) (n : Nat) :
    Keeps s0 (State.rsOrderMount s n) := by
  unfold State.rsOrderMount
  (repeat' split) <;>
    first
      | exact h
      | (simp (maxDischargeDepth := 40) +contextual [h]; done)
      | (simp (maxDischargeDepth := 40) +contextual [*]; done)

@[simp] theorem rsUnmountOutcome_keeps {s0 s : State} (h : Keeps s0 s) (o : UnmountOutcome) :
    Keeps s0 (State.rsUnmountOutcome s o) := by
  unfold State.rsUnmountOutcome
  (repeat' split) <;>
    first
      | exact h
      | (simp (maxDischargeDepth := 40) +contextual [h]; done)
      | (simp (maxDischargeDepth := 40) +contextual [*]; done)

@[simp] theorem placeSlotAgain_keeps {s0 s : State} (h : Keeps s0 s) (n : Nat) : Keeps s0 (State.placeSlotAgain s n) :=
  placeAll_keeps h fun _ k => by simp at k; exact .inl k.2

/-- Entries that wait for an index fail. -/
theorem failAll_keeps {s0 s : State} {p : Request → Bool} {why : FailReason} (h : Keeps s0 s)
    (hp : ∀ r, p r = true → r.waitsOrReady = true) :
    Keeps s0 (s.each (s.rs.queue.filter p) fun y r => y.failRequest r why) := by
  refine h.trans (each_keeps_of (fun t r => unnamed t.cp.slots r.id) (fun _ _ => failRequest_blocks) ?_ ?_)
  · intro w r hr
    have hm := List.mem_filter.mp hr
    exact w.slots.unnamedOf w.rs.ids hm.1 (waits_outside (.inl (hp r hm.2)))
  · intro t r w hu
    refine ⟨(failRequest_keeps (Keeps.refl t) fun _ => hu).slots w, fun b hb => ?_⟩
    rw [failRequest_cp]; exact hb

@[simp] theorem rsIndexEnd_keeps {s0 s : State} (h : Keeps s0 s) (rep : IndexReport) :
    Keeps s0 (State.rsIndexEnd s rep) := by
  unfold State.rsIndexEnd
  refine withSome_keeps h fun p _ => ?_
  split
  · have k := placeSlotAgain_keeps (removeIndexItem_keeps h) p.slot
    refine passEnd_keeps (onlyIf_keeps k fun _ => failAll_keeps k fun r q => ?_)
    simp at q
    simp [Request.waitsOrReady, q.2]
  · exact h

@[simp] theorem writeIndex_keeps {s0 s : State} (h : Keeps s0 s) (st : IndexState) (last : Option Nat) :
    Keeps s0 (State.writeIndex s st last) := by
  unfold State.writeIndex
  (repeat' split) <;>
    first
      | exact h
      | (simp (maxDischargeDepth := 40) +contextual [h]; done)
      | (simp (maxDischargeDepth := 40) +contextual [*]; done)

@[simp] theorem closeAtTrailer_keeps {s0 s : State} (h : Keeps s0 s) (p : Nat) :
    Keeps s0 (State.closeAtTrailer s p) := by
  unfold State.closeAtTrailer
  (repeat' split) <;>
    first
      | exact h
      | (simp (maxDischargeDepth := 40) +contextual [h]; done)
      | (simp (maxDischargeDepth := 40) +contextual [*]; done)

@[simp] theorem postIndexDone_keeps {s0 s : State} (h : Keeps s0 s) (o : IndexOutcome) :
    Keeps s0 (State.postIndexDone s o) := by
  unfold State.postIndexDone
  (repeat' split) <;>
    first
      | exact h
      | (simp (maxDischargeDepth := 40) +contextual [h]; done)
      | (simp (maxDischargeDepth := 40) +contextual [*]; done)

@[simp] theorem settleIndex_keeps {s0 s : State} (h : Keeps s0 s) (p : IndexPass) (how : IndexEnd) :
    Keeps s0 (s.settleIndex p how).1 := by
  unfold State.settleIndex
  dsimp only
  (repeat' split) <;> simp (maxDischargeDepth := 40) +contextual [h]

@[simp] theorem endIndexPass_keeps {s0 s : State} (h : Keeps s0 s) (how : IndexEnd) :
    Keeps s0 (State.endIndexPass s how) := by
  unfold State.endIndexPass
  refine withSome_keeps h fun p _ => ?_
  dsimp only
  split <;> simp (maxDischargeDepth := 40) +contextual [h]

@[simp] theorem orderIndexRun_keeps {s0 s : State} (h : Keeps s0 s)  :
    Keeps s0 (State.orderIndexRun s) := by
  unfold State.orderIndexRun
  refine withSome_keeps h fun p _ => ?_
  dsimp only
  (repeat' split) <;> simp (maxDischargeDepth := 40) +contextual [h]

@[simp] theorem beginFresh_keeps {s0 s : State} (h : Keeps s0 s) (req : Requester) (target : Option Nat) :
    Keeps s0 (State.beginFresh s req target) := by
  unfold State.beginFresh
  dsimp only
  have k : ∀ p : IndexPass, Keeps s0 (s.modIx fun x => { x with segments := [], landmarks := [], pass := some p }) :=
    fun p => modIx_keeps h fun _ => by simp [Ascending]
  split <;> simp (maxDischargeDepth := 40) [k]

@[simp] theorem beginExtension_keeps {s0 s : State} (h : Keeps s0 s) (req : Requester) (target : Option Nat) :
    Keeps s0 (State.beginExtension s req target) := by
  unfold State.beginExtension
  (repeat' split) <;>
    first
      | exact h
      | (simp (maxDischargeDepth := 40) +contextual [h]; done)
      | (simp (maxDischargeDepth := 40) +contextual [*]; done)

@[simp] theorem beginIndexPass_keeps {s0 s : State} (h : Keeps s0 s) (req : Requester) (k : IndexKind) (target : Option Nat) :
    Keeps s0 (State.beginIndexPass s req k target) := by
  unfold State.beginIndexPass
  (repeat' split) <;>
    first
      | exact h
      | (simp (maxDischargeDepth := 40) +contextual [h]; done)
      | (simp (maxDischargeDepth := 40) +contextual [*]; done)

@[simp] theorem ixSeekOutcome_keeps {s0 s : State} (h : Keeps s0 s) (o : SeekOutcome) :
    Keeps s0 (State.ixSeekOutcome s o) := by
  unfold State.ixSeekOutcome
  (repeat' split) <;>
    first
      | exact h
      | (simp (maxDischargeDepth := 40) +contextual [h]; done)
      | (simp (maxDischargeDepth := 40) +contextual [*]; done)

@[simp] theorem ixRunEnd_keeps {s0 s : State} (h : Keeps s0 s) (why : RunEnd) :
    Keeps s0 (State.ixRunEnd s why) := by
  unfold State.ixRunEnd
  (repeat' split) <;>
    first
      | exact h
      | (simp (maxDischargeDepth := 40) +contextual [h]; done)
      | (simp (maxDischargeDepth := 40) +contextual [*]; done)

@[simp] theorem ixReplaced_keeps {s0 s : State} (h : Keeps s0 s)  :
    Keeps s0 (State.ixReplaced s) := by
  unfold State.ixReplaced
  (repeat' split) <;>
    first
      | exact h
      | (simp (maxDischargeDepth := 40) +contextual [h]; done)
      | (simp (maxDischargeDepth := 40) +contextual [*]; done)

@[simp] theorem ixTrailer_keeps {s0 s : State} (h : Keeps s0 s)  :
    Keeps s0 (State.ixTrailer s) := by
  unfold State.ixTrailer
  (repeat' split) <;>
    first
      | exact h
      | (simp (maxDischargeDepth := 40) +contextual [h]; done)
      | (simp (maxDischargeDepth := 40) +contextual [*]; done)

@[simp] theorem reportSeek_keeps {s0 s : State} (h : Keeps s0 s) (m : Seek) (o : SeekOutcome) :
    Keeps s0 (State.reportSeek s m o) := by
  unfold State.reportSeek
  (repeat' split) <;>
    first
      | exact h
      | (simp (maxDischargeDepth := 40) +contextual [h]; done)
      | (simp (maxDischargeDepth := 40) +contextual [*]; done)

@[simp] theorem reportRun_keeps {s0 s : State} (h : Keeps s0 s) (e : EndedRun) :
    Keeps s0 (State.reportRun s e) := by
  unfold State.reportRun
  (repeat' split) <;>
    first
      | exact h
      | (simp (maxDischargeDepth := 40) +contextual [h]; done)
      | (simp (maxDischargeDepth := 40) +contextual [*]; done)

@[simp] theorem completeProbe_keeps {s0 s : State} (h : Keeps s0 s) (p : Probe) (o : ProbeOutcome) (lens score : Nat) :
    Keeps s0 (State.completeProbe s p o lens score) := by
  unfold State.completeProbe
  (repeat' split) <;>
    first
      | exact h
      | (simp (maxDischargeDepth := 40) +contextual [h]; done)
      | (simp (maxDischargeDepth := 40) +contextual [*]; done)

@[simp] theorem abortProbe_keeps {s0 s : State} (h : Keeps s0 s) (why : AbortReason) :
    Keeps s0 (State.abortProbe s why) := by
  unfold State.abortProbe
  refine withSome_keeps h fun p _ => ?_
  dsimp only
  split <;> simp (maxDischargeDepth := 40) +contextual [h]

@[simp] theorem completeThreading_keeps {s0 s : State} (h : Keeps s0 s)  :
    Keeps s0 (State.completeThreading s) := by
  unfold State.completeThreading
  refine withSome_keeps h fun n _ => ?_
  have hm : s0.tablesWf → MapLaw (s.entry n).focusMap := fun w => (tables_entry (h.tables w) n).2
  have hi : s0.tablesWf → IndexLaw (s.entry n).segments (s.entry n).landmarks :=
    fun w => (tables_entry (h.tables w) n).1
  dsimp only
  have k : Keeps s0 ((s.modCu fun c => { c with threadingTimer := false, threader := .retracted }).modTc fun c =>
      { c.noMotion.atZero with threaded := true }) := by simp (maxDischargeDepth := 40) [h, Tc.atZero, Tc.noMotion]
  have k' := installMap_keeps (installIndex_keeps (q0 := (s.entry n).description.map fun d => d.q0)
    (setSlotState_keeps (n := n) (st := .mounted) (enter_keeps (st := .stopped) k)) hi) hm
  simp (maxDischargeDepth := 40) +contextual [k']

@[simp] theorem failThreading_keeps {s0 s : State} (h : Keeps s0 s)  :
    Keeps s0 (State.failThreading s) := by
  unfold State.failThreading
  refine withSome_keeps h fun n _ => ?_
  simp (maxDischargeDepth := 40) +contextual [h, Tc.noMotion]

@[simp] theorem endRewind_keeps {s0 s : State} (h : Keeps s0 s)  :
    Keeps s0 (State.endRewind s) := by
  unfold State.endRewind
  dsimp only
  have k : Keeps s0 ((s.modTc fun c => { c.noMotion.atZero with threaded := false }).enter .unloaded) := by
    simp (maxDischargeDepth := 40) [h, Tc.atZero, Tc.noMotion]
  refine withSome_keeps k fun n _ => ?_
  have q : Keeps s0 (((((((s.modTc fun c => { c.noMotion.atZero with threaded := false }).enter .unloaded).setSlotState n
      .stored).modCu fun x => { x with lock := none }).installIndex [] [] none).emptyMap.postUnmountDone n
        .stored).rsUnmountOutcome .stored) := by
    simp (maxDischargeDepth := 40) +contextual [k, Ascending]
  split <;> simp (maxDischargeDepth := 40) [q]

@[simp] theorem rewindAtZero_keeps {s0 s : State} (h : Keeps s0 s)  :
    Keeps s0 (State.rewindAtZero s) := by
  unfold State.rewindAtZero
  (repeat' split) <;>
    first
      | exact h
      | (simp (maxDischargeDepth := 40) +contextual [h]; done)
      | (simp (maxDischargeDepth := 40) +contextual [*]; done)

@[simp] theorem trailerStop_keeps {s0 s : State} (h : Keeps s0 s)  :
    Keeps s0 (State.trailerStop s) := by
  unfold State.trailerStop
  (repeat' split) <;>
    first
      | exact h
      | (simp (maxDischargeDepth := 40) +contextual [h]; done)
      | (simp (maxDischargeDepth := 40) +contextual [*]; done)

@[simp] theorem trailerEffect_keeps {s0 s : State} (h : Keeps s0 s) :
    Keeps s0 (State.trailerEffect s) := by
  unfold State.trailerEffect
  (repeat' split) <;>
    first
      | exact h
      | (simp (maxDischargeDepth := 40) +contextual [h]; done)
      | (simp (maxDischargeDepth := 40) +contextual [*]; done)

@[simp] theorem trailer_keeps {s0 s : State} (h : Keeps s0 s)  :
    Keeps s0 (State.trailer s) := by
  unfold State.trailer
  (repeat' split) <;>
    first
      | exact h
      | (simp (maxDischargeDepth := 40) +contextual [h]; done)
      | (simp (maxDischargeDepth := 40) +contextual [*]; done)

@[simp] theorem missSeek_keeps {s0 s : State} (h : Keeps s0 s) (m : Seek) :
    Keeps s0 (State.missSeek s m) := by
  have k : Keeps s0 (s.modTc Tc.noMotion) := modTc_keeps h fun w => ⟨w.1, w.2, w.3⟩
  exact reportSeek_keeps (faultOccur_keeps (enter_keeps k) (by simp)) _ _

@[simp] theorem restFromStop_keeps {s0 s : State} (h : Keeps s0 s)  :
    Keeps s0 (State.restFromStop s) := by
  unfold State.restFromStop
  simp (maxDischargeDepth := 40) +contextual [h, Tc.noMotion]

@[simp] theorem filmAtRest_keeps {s0 s : State} (h : Keeps s0 s)  :
    Keeps s0 (State.filmAtRest s) := by
  unfold State.filmAtRest
  (repeat' split) <;>
    first
      | exact h
      | (simp (maxDischargeDepth := 40) +contextual [h]; done)
      | (simp (maxDischargeDepth := 40) +contextual [*]; done)

@[simp] theorem endSeek_keeps {s0 s : State} (h : Keeps s0 s) (m : Seek) (o : SeekOutcome) :
    Keeps s0 (s.endSeek m o) :=
  reportSeek_keeps (enter_keeps (modTc_keeps h fun w => ⟨w.1, w.2, w.3⟩)) _ _

@[simp] theorem endZeroDwell_keeps {s0 s : State} (h : Keeps s0 s) :
    Keeps s0 (State.endZeroDwell s) := by
  unfold State.endZeroDwell
  (repeat' split) <;>
    first
      | exact h
      | (simp (maxDischargeDepth := 40) +contextual [h]; done)
      | (simp (maxDischargeDepth := 40) +contextual [*]; done)

@[simp] theorem settleMotion_keeps {s0 s : State} (h : Keeps s0 s) :
    Keeps s0 (State.settleMotion s) := by
  unfold State.settleMotion
  (repeat' split) <;>
    first
      | exact h
      | (simp (maxDischargeDepth := 40) +contextual [h]; done)
      | (simp (maxDischargeDepth := 40) +contextual [*]; done)

@[simp] theorem settleSince_keeps {s0 t : State} (h : Keeps s0 t) (s : State) : Keeps s0 (t.settleSince s) :=
  onlyIf_keeps h fun _ => settleMotion_keeps h

@[simp] theorem haltFocus_keeps {s0 s : State} (h : Keeps s0 s)  :
    Keeps s0 (State.haltFocus s) := by
  unfold State.haltFocus
  (repeat' split) <;>
    first
      | exact h
      | (simp (maxDischargeDepth := 40) +contextual [h]; done)
      | (simp (maxDischargeDepth := 40) +contextual [*]; done)

@[simp] theorem haltTransport_keeps {s0 s : State} (h : Keeps s0 s)  :
    Keeps s0 (State.haltTransport s) := by
  unfold State.haltTransport
  dsimp only
  have k : Keeps s0 ((s.modTc fun c => { c.noMotion with endedRun := none }).enter .halted) := by
    simp (maxDischargeDepth := 40) [h, Tc.noMotion]
  (repeat' split) <;> simp (maxDischargeDepth := 40) +contextual [h, k]

@[simp] theorem haltCarousel_keeps {s0 s : State} (h : Keeps s0 s)  :
    Keeps s0 (State.haltCarousel s) := by
  unfold State.haltCarousel
  (repeat' split) <;>
    first
      | exact h
      | (simp (maxDischargeDepth := 40) +contextual [h]; done)
      | (simp (maxDischargeDepth := 40) +contextual [*]; done)

@[simp] theorem haltScheduler_keeps {s0 s : State} (h : Keeps s0 s)  :
    Keeps s0 (State.haltScheduler s) := by
  unfold State.haltScheduler
  (repeat' split) <;>
    first
      | exact h
      | (simp (maxDischargeDepth := 40) +contextual [h]; done)
      | (simp (maxDischargeDepth := 40) +contextual [*]; done)

@[simp] theorem majorHalt_keeps {s0 s : State} (h : Keeps s0 s)  :
    Keeps s0 (State.majorHalt s) := by
  unfold State.majorHalt
  (repeat' split) <;>
    first
      | exact h
      | (simp (maxDischargeDepth := 40) +contextual [h]; done)
      | (simp (maxDischargeDepth := 40) +contextual [*]; done)

@[simp] theorem raise_keeps {s0 s : State} (h : Keeps s0 s) {code : FaultCode} {cls : FaultClass} {d : FaultDetail}
    (hc : classLegal code cls) : Keeps s0 (s.raise code cls d) := by
  unfold State.raise
  dsimp only
  split
  · exact majorHalt_keeps (faultOccur_keeps h hc)
  · exact faultOccur_keeps h hc

end Sys2Proof.Machine
end

