-- ==== Sys2Proof/Laws/Planning.lean ====
section
/-! SUPPORT. Laws/Planning.lean: a planning round keeps the laws. -/

namespace Sys2Proof.Machine

/-! ### Planning.lean -/

@[simp] theorem setPass_keeps {s0 s : State} (h : Keeps s0 s) (p : RsPass) :
    Keeps s0 (State.setPass s p) := by
  unfold State.setPass
  (repeat' split) <;>
    first
      | exact h
      | (simp (maxDischargeDepth := 40) +contextual [h]; done)
      | (simp (maxDischargeDepth := 40) +contextual [*]; done)

@[simp] theorem changeRoll_keeps {s0 s : State} (h : Keeps s0 s) (n : Nat) :
    Keeps s0 (State.changeRoll s n) := by
  unfold State.changeRoll
  (repeat' split) <;>
    first
      | exact h
      | (simp (maxDischargeDepth := 40) +contextual [h]; done)
      | (simp (maxDischargeDepth := 40) +contextual [*]; done)

theorem removeIndexItem_none (s : State) : s.removeIndexItem.rs.items.filter isIndexItem = [] := by
  simp only [State.removeIndexItem, State.modRs, List.filter_filter, List.filter_eq_nil_iff]
  intro i _
  cases i <;> simp [isIndexItem]

theorem addIndexItem_keeps {s0 s : State} (h : Keeps s0 s) (n : Nat) (t : Option Nat) :
    Keeps s0 (s.removeIndexItem.modRs fun r => { r with items := r.items ++ [.indexPass n t] }) := by
  refine modRs_keeps (removeIndexItem_keeps h) (fun q => ⟨q.1, q.2, q.3, ?_, ?_⟩) rfl
  · rw [List.filter_append, removeIndexItem_none]; simp [isIndexItem, List.filter]
  · have q5 := q.5
    simpa [isIndexItem] using q5

@[simp] theorem indexPassRound_keeps {s0 s : State} (h : Keeps s0 s) (n : Nat) :
    Keeps s0 (State.indexPassRound s n) := by
  unfold State.indexPassRound
  dsimp only
  have k := fun t => addIndexItem_keeps h n t
  split <;> simp (maxDischargeDepth := 40) +contextual [k]

@[simp] theorem probeRound_keeps {s0 s : State} (h : Keeps s0 s) (n p : Nat) :
    Keeps s0 (State.probeRound s n p) := by
  unfold State.probeRound
  (repeat' split) <;>
    first
      | exact h
      | (simp (maxDischargeDepth := 40) +contextual [h]; done)
      | (simp (maxDischargeDepth := 40) +contextual [*]; done)

@[simp] theorem passOver_keeps {s0 s : State} (h : Keeps s0 s) (n : Nat) (ids : List Nat) :
    Keeps s0 (State.passOver s n ids) := by
  refine replace_keeps h (fun x => by split <;> rfl) fun x k => if_neg fun e => ?_
  exact waits_outside (.inl (by simp [Request.waitsOrReady, e.2.1])) k

/-! ### A slot for each request of a run (R167) -/

/-- An entry of the queue has the id, and no slot that carries it is SENDING. -/
def State.plannable (s : State) (id : Nat) : Prop := (∃ q ∈ s.rs.queue, q.id = id) ∧ unsent s.cp.slots id

theorem planRequest_blocks (s : State) (r : Request) : KeepsBlocks s (s.planRequest r) := by
  unfold State.planRequest State.withSome
  split
  · rename_i hk
    exact (reserveSlot_blocks hk).trans (modRequest_blocks fun _ => rfl)
  · exact (Keeps.refl s).toKeepsBlocks

theorem planRequest_law {s : State} {r : Request} (w : s.storeWf) (hr : s.plannable r.id) :
    (s.planRequest r).slotsWf ∧ ∀ b : Request, s.plannable b.id → (s.planRequest r).plannable b.id := by
  unfold State.planRequest State.withSome
  split
  · rename_i k hk
    obtain ⟨hn, hu⟩ := reservable_spec hk
    refine ⟨w.slots.reserve hn hu rfl (by simp) hr.1 fun x => ⟨rfl, rfl, .inl rfl, by simp⟩, fun b hb => ⟨?_, ?_⟩⟩
    · obtain ⟨q, hq, e⟩ := hb.1
      exact ⟨_, List.mem_map_of_mem hq, by split <;> exact e⟩
    · intro i c hc e
      have hl : k < s.cp.slots.length := (List.getElem?_eq_some_iff.mp hn).1
      rcases (getElem?_set_some hl).mp hc with ⟨-, rfl⟩ | ⟨-, q⟩
      · simp
      · exact hb.2 i c q e
  · exact ⟨w.slots, fun _ hb => hb⟩

theorem cancelPlan_step_blocks (s : State) (id : Nat) :
    KeepsBlocks s ((s.cancelCapture id).modRequest id fun r => { r with state := .ready, storeSlot := none }) :=
  (cancelCapture_blocks id).trans (modRequest_blocks fun _ => rfl)

theorem cancelPlan_keeps {s : State} {ids : List Nat} (h : s.storeWf → ∀ id ∈ ids, unsent s.cp.slots id) :
    Keeps s (State.cancelPlan s ids) := by
  refine each_keeps_of (fun t id => unsent t.cp.slots id) cancelPlan_step_blocks h fun t id w hu => ⟨?_, fun b hb => ?_⟩
  · exact (modRequest_keeps (f := fun r => { r with state := .ready, storeSlot := none })
      (cancelCapture_keeps (Keeps.refl t) id) (fun _ => rfl) fun _ => cancelCapture_unnamed w.cp.store hu).slots w
  · show unsent (t.cancelCapture id).cp.slots b
    rcases cancelCapture_slots t id with e | ⟨n, e⟩ <;> rw [e]
    · exact hb
    · exact unsent_free hb

/-- A run of entries that are READY (R166). -/
theorem capturePass_keeps {s0 s : State} (h : Keeps s0 s) (n : Nat) {run : List Request}
    (hrun : ∀ r ∈ run, r ∈ s.rs.queue ∧ r.state = .ready) : Keeps s0 (State.capturePass s n run) := by
  refine h.trans ?_
  unfold State.capturePass
  dsimp only
  have k0 := setPass_keeps (passOver_keeps (Keeps.refl s) n (run.map fun r => r.id))
    (RsPass.begin .capture .seek n (s.entry n).label)
  have p0 : s.storeWf → ∀ r ∈ run,
      ((s.passOver n (run.map fun r => r.id)).setPass (RsPass.begin .capture .seek n (s.entry n).label)).plannable r.id := by
    intro w r hr
    obtain ⟨hq, hs⟩ := hrun r hr
    refine ⟨⟨_, List.mem_map_of_mem hq, by split <;> rfl⟩, ?_⟩
    exact w.slots.unsentOf w.rs.ids hq (by simp [hs])
  revert k0 p0
  generalize (s.passOver n (run.map fun r => r.id)).setPass (RsPass.begin .capture .seek n (s.entry n).label) = t0
  intro k0 p0
  have blocks := each_blocks planRequest_blocks run t0
  have law := fun w : s.storeWf =>
    each_law (P := fun t r => t.plannable r.id) planRequest_blocks (fun _ _ => planRequest_law) (k0.store w) (p0 w)
  have k1 : Keeps s (t0.each run State.planRequest) := ⟨k0.toKeepsBlocks.trans blocks, fun w => (law w).1⟩
  have p1 := fun (w : s.storeWf) (r : Request) (hr : r ∈ run) => (law w).2 r (p0 w r hr)
  split
  · refine passEnd_keeps ⟨k1.toKeepsBlocks.trans (each_blocks cancelPlan_step_blocks _ _), fun w => ?_⟩
    refine (cancelPlan_keeps fun _ id hid => ?_).slots (k1.store w)
    obtain ⟨r, hr, rfl⟩ := List.mem_map.mp hid
    exact (p1 w r hr).2
  · rename_i hl
    exact orderSeek_keeps (modPass_keeps (holdList_keeps k1 hl)) _ _

theorem joinRun_mem {join most : Nat} {run rest : List Windowed} {x : Windowed} (h : x ∈ joinRun join most run rest) :
    x ∈ run ∨ x ∈ rest := by
  induction rest generalizing run with
  | nil => exact .inl (by simpa [joinRun] using h)
  | cons c rest ih =>
    have skip : x ∈ joinRun join most run rest → x ∈ run ∨ x ∈ c :: rest := fun q =>
      (ih q).imp id (List.mem_cons_of_mem _)
    have take : x ∈ joinRun join most (c :: run) rest → x ∈ run ∨ x ∈ c :: rest := fun q => by
      rcases ih q with q | q
      · rcases List.mem_cons.mp q with rfl | q
        · exact .inr (List.mem_cons_self ..)
        · exact .inl q
      · exact .inr (List.mem_cons_of_mem _ q)
    unfold joinRun at h
    (repeat' split at h) <;> first | exact .inl h | exact skip h | exact take h

theorem sortByPosition_mem {l : List Request} {x : Request} (h : x ∈ sortByPosition l) : x ∈ l := by
  have ins : ∀ (acc : List Request) (r : Request), x ∈ insertByPosition r acc → x = r ∨ x ∈ acc := by
    intro acc r
    induction acc with
    | nil => simp [insertByPosition]
    | cons y rest ih =>
      unfold insertByPosition
      split
      · simp
      · intro q
        rcases List.mem_cons.mp q with rfl | q
        · exact .inr (List.mem_cons_self ..)
        · exact (ih q).imp id (List.mem_cons_of_mem _)
  have fold : ∀ (l acc : List Request), x ∈ l.foldl (fun acc r => insertByPosition r acc) acc → x ∈ l ∨ x ∈ acc := by
    intro l
    induction l with
    | nil => exact fun _ q => .inr q
    | cons r rest ih =>
      intro acc q
      rcases ih _ q with q | q
      · exact .inl (List.mem_cons_of_mem _ q)
      · rcases ins acc r q with rfl | q
        · exact .inl (List.mem_cons_self ..)
        · exact .inr q
  simpa using fold l [] h

/-- A composed run is of READY entries of the roll (R166). -/
theorem composeRun_mem {s : State} {n : Nat} {x : Windowed} (h : x ∈ s.composeRun n) :
    x.request ∈ s.rs.queue ∧ x.request.state = .ready := by
  have ready : ∀ r ∈ s.candidates n, r ∈ s.rs.queue ∧ r.state = .ready := by
    intro r hr
    have hm := List.mem_filter.mp (List.mem_filter.mp hr).1
    exact ⟨hm.1, by have := hm.2; simp at this; exact this.2⟩
  have seed : ∀ cs r, s.seedOf cs = some r → r ∈ cs := by
    intro cs r hr
    have pool : ∀ x ∈ (if !(cs.filter fun r => decide (r.priority = .urgent)).isEmpty then
        cs.filter fun r => decide (r.priority = .urgent)
        else if !(cs.filter fun r => decide (8 ≤ r.passedOver)).isEmpty then
          cs.filter fun r => decide (8 ≤ r.passedOver) else cs), x ∈ cs := by
      intro x hx
      (repeat' split at hx) <;> first | exact (List.mem_filter.mp hx).1 | exact hx
    unfold State.seedOf at hr
    dsimp only at hr
    split at hr
    · rename_i y hy
      rw [← Option.some.inj hr]
      exact pool _ (List.mem_filter.mp (leastBy_mem hy)).1
    · exact pool _ (leastBy_mem hr)
  unfold State.composeRun at h
  dsimp only at h
  split at h
  · simp at h
  · rename_i r hr
    rcases joinRun_mem (List.mem_reverse.mp h) with q | q
    · rw [List.mem_singleton.mp q]
      exact ready _ (seed _ _ hr)
    · obtain ⟨y, hy, rfl⟩ := List.mem_map.mp q
      exact ready _ (List.mem_filter.mp (sortByPosition_mem hy)).1

@[simp] theorem decide__keeps {s0 s : State} (h : Keeps s0 s)  :
    Keeps s0 (State.decide_ s) := by
  unfold State.decide_
  (repeat' split) <;>
    first
      | exact h
      | (simp (maxDischargeDepth := 40) +contextual [h]; done)
      | skip
  refine capturePass_keeps h _ fun r hr => ?_
  obtain ⟨x, hx, rfl⟩ := List.mem_map.mp hr
  exact composeRun_mem hx

@[simp] theorem planRound_keeps {s0 s : State} (h : Keeps s0 s) : Keeps s0 (State.planRound s) :=
  decide__keeps (refresh_keeps h)

end Sys2Proof.Machine
end

