-- ==== Sys2Proof/Laws/Families.lean ====
section
/-! SUPPORT. Laws/Families.lean: the actions of the commands and the events of chapters 1 to 10 and 12 keep the laws. -/

namespace Sys2Proof.Machine

/-! ### Transport.lean -/

@[simp] theorem ownSetMotion_keeps {s0 s : State} (h : Keeps s0 s) (a : MotionSettings) :
    Keeps s0 (ownSetMotion a s).state := by
  unfold ownSetMotion
  (repeat' split) <;>
    first
      | exact h
      | (simp (maxDischargeDepth := 40) +contextual [h]; done)
      | (simp (maxDischargeDepth := 40) +contextual [*]; done)

@[simp] theorem seekReplaced_keeps {s0 s : State} (h : Keeps s0 s)  :
    Keeps s0 (State.seekReplaced s) := by
  unfold State.seekReplaced
  (repeat' split) <;>
    first
      | exact h
      | (simp (maxDischargeDepth := 40) +contextual [h]; done)
      | (simp (maxDischargeDepth := 40) +contextual [*]; done)

@[simp] theorem hostSeek_keeps {s0 s : State} (h : Keeps s0 s) (target : Int) (limit : Nat) :
    Keeps s0 (State.hostSeek s target limit).state := by
  unfold State.hostSeek
  (repeat' split) <;>
    first
      | exact h
      | (simp (maxDischargeDepth := 40) +contextual [h]; done)
      | (simp (maxDischargeDepth := 40) +contextual [*]; done)

@[simp] theorem ownSeekPosition_keeps {s0 s : State} (h : Keeps s0 s) (target : Nat) :
    Keeps s0 (ownSeekPosition target s).state := by
  unfold ownSeekPosition
  (repeat' split) <;>
    first
      | exact h
      | (simp (maxDischargeDepth := 40) +contextual [h]; done)
      | (simp (maxDischargeDepth := 40) +contextual [*]; done)

@[simp] theorem ownJog_keeps {s0 s : State} (h : Keeps s0 s) (d : Int) (sp : Option JogSpeed) :
    Keeps s0 (ownJog d sp s).state := by
  unfold ownJog
  (repeat' split) <;>
    first
      | exact h
      | (simp (maxDischargeDepth := 40) +contextual [h]; done)
      | (simp (maxDischargeDepth := 40) +contextual [*]; done)

@[simp] theorem stopSeek_keeps {s0 s : State} (h : Keeps s0 s) (m : Seek) :
    Keeps s0 (State.stopSeek s m) := by
  have k : Keeps s0 (s.modTc Tc.noMotion) := modTc_keeps h fun w => ⟨w.1, w.2, w.3⟩
  unfold State.stopSeek
  (repeat' split) <;> simp (maxDischargeDepth := 40) +contextual [h, k]

@[simp] theorem stopMotion_keeps {s0 s : State} (h : Keeps s0 s)  :
    Keeps s0 (State.stopMotion s) := by
  unfold State.stopMotion
  (repeat' split) <;> simp (maxDischargeDepth := 40) +contextual [h]

@[simp] theorem rsStopReport_keeps {s0 s : State} (h : Keeps s0 s)  :
    Keeps s0 (State.rsStopReport s) := by
  unfold State.rsStopReport
  (repeat' split) <;>
    first
      | exact h
      | (simp (maxDischargeDepth := 40) +contextual [h]; done)
      | (simp (maxDischargeDepth := 40) +contextual [*]; done)

@[simp] theorem ownStopTransport_keeps {s0 s : State} (h : Keeps s0 s)  :
    Keeps s0 (ownStopTransport s).state := by
  unfold ownStopTransport
  (repeat' split) <;>
    first
      | exact h
      | (simp (maxDischargeDepth := 40) +contextual [h]; done)
      | (simp (maxDischargeDepth := 40) +contextual [*]; done)

@[simp] theorem ownReadTransport_keeps {s0 s : State} (h : Keeps s0 s)  :
    Keeps s0 (ownReadTransport s).state := by
  unfold ownReadTransport
  (repeat' split) <;>
    first
      | exact h
      | (simp (maxDischargeDepth := 40) +contextual [h]; done)
      | (simp (maxDischargeDepth := 40) +contextual [*]; done)

theorem movePosition_wf (d : TickDirection) {c : Tc} (w : c.wf) : (movePosition d (countTick d c)).wf := by
  obtain ⟨a, b, e⟩ := w
  cases d
  · by_cases h1 : 0 < c.underrun
    · simp only [movePosition, countTick, h1, if_true, tcWf_iff]; omega
    · by_cases h2 : c.position < maxPosition <;> simp only [movePosition, countTick, h1, h2, if_true, if_false, tcWf_iff]
        <;> omega
  · by_cases h1 : 0 < c.position <;> simp only [movePosition, countTick, h1, if_true, if_false, tcWf_iff, saturate]
      <;> omega

@[simp] theorem tick_keeps {s0 s : State} (h : Keeps s0 s) (d : TickDirection) (pixels : List Byte) :
    Keeps s0 (State.tick s d pixels) := by
  have k : Keeps s0 (s.modTc fun c => movePosition d (countTick d c)) := modTc_keeps h (movePosition_wf d)
  unfold State.tick
  dsimp only
  split <;> simp (maxDischargeDepth := 40) +contextual [k]

@[simp] theorem newSpeed_keeps {s0 s : State} (h : Keeps s0 s)  :
    Keeps s0 (State.newSpeed s) := by
  unfold State.newSpeed
  (repeat' split) <;>
    first
      | exact h
      | (simp (maxDischargeDepth := 40) +contextual [h]; done)
      | (simp (maxDischargeDepth := 40) +contextual [*]; done)

/-! ### Tension.lean -/

@[simp] theorem ownZeroTension_keeps {s0 s : State} (h : Keeps s0 s)  :
    Keeps s0 (ownZeroTension s).state := by
  unfold ownZeroTension
  (repeat' split) <;>
    first
      | exact h
      | (simp (maxDischargeDepth := 40) +contextual [h]; done)
      | (simp (maxDischargeDepth := 40) +contextual [*]; done)

@[simp] theorem ownSetTension_keeps {s0 s : State} (h : Keeps s0 s) (a : TensionArgs) :
    Keeps s0 (ownSetTension a s).state := by
  unfold ownSetTension
  (repeat' split) <;>
    first
      | exact h
      | (simp (maxDischargeDepth := 40) +contextual [h]; done)
      | (simp (maxDischargeDepth := 40) +contextual [*]; done)

@[simp] theorem ownReadTension_keeps {s0 s : State} (h : Keeps s0 s)  :
    Keeps s0 (ownReadTension s).state := by
  unfold ownReadTension
  (repeat' split) <;>
    first
      | exact h
      | (simp (maxDischargeDepth := 40) +contextual [h]; done)
      | (simp (maxDischargeDepth := 40) +contextual [*]; done)

@[simp] theorem sample_keeps {s0 s : State} (h : Keeps s0 s) (code : Nat) :
    Keeps s0 (State.sample s code) := by
  unfold State.sample
  (repeat' split) <;>
    first
      | exact h
      | (simp (maxDischargeDepth := 40) +contextual [h]; done)
      | (simp (maxDischargeDepth := 40) +contextual [*]; done)

@[simp] theorem postTrip_keeps {s0 s : State} (h : Keeps s0 s)  :
    Keeps s0 (State.postTrip s) := by
  unfold State.postTrip
  (repeat' split) <;>
    first
      | exact h
      | (simp (maxDischargeDepth := 40) +contextual [h]; done)
      | (simp (maxDischargeDepth := 40) +contextual [*]; done)

/-! ### Carousel.lean -/

@[simp] theorem describe_keeps {s0 s : State} (h : Keeps s0 s) (n : Nat) (d : Description) :
    Keeps s0 (State.describe s n d) := by
  unfold State.describe
  (repeat' split) <;>
    first
      | exact h
      | (simp (maxDischargeDepth := 40) +contextual [h]; done)
      | (simp (maxDischargeDepth := 40) +contextual [*]; done)

/-- The label step keeps the labels apart when no other entry holds the label sent. -/
theorem relabel_keeps {s0 s : State} (h : Keeps s0 s) (n : Nat) (sent : Label)
    (apart : ∀ m, m < 12 → m ≠ n → (s.entry m).label = sent → sent = []) : Keeps s0 (s.relabel n sent) := by
  have k : ∀ e : Entry, e.label = sent → (s.tablesWf → IndexLaw e.segments e.landmarks ∧ MapLaw e.focusMap) →
      Keeps s0 (s.modEntry n fun _ => e) := by
    intro e he ht
    refine modEntry_keeps_of h (fun _ _ m hm hne x => ?_) fun w _ _ => ht w
    rw [he] at x ⊢
    exact apart m hm hne x.symm
  have law := fun w : s.tablesWf => tables_entry w n
  have k1 : Keeps s0 (s.modEntry n fun e => { e with label := sent }) := k { s.entry n with label := sent } rfl law
  have k2 : Keeps s0 (s.modEntry n fun e =>
      { Entry.inserted with state := e.state, label := sent, description := e.description }) :=
    k { Entry.inserted with state := (s.entry n).state, label := sent, description := (s.entry n).description } rfl
      fun _ => by simp [Entry.inserted, Entry.empty, Ascending]
  have k3 : Keeps s0 (s.modEntry n fun e => { e with label := [] }) :=
    modEntry_keeps_of h (fun _ _ _ _ _ _ => rfl) fun w _ _ => law w
  unfold State.relabel
  dsimp only
  (repeat' split) <;> simp (maxDischargeDepth := 40) [h, k1, k2, k3]

theorem modEntry_label (s : State) (n m : Nat) (f : Entry → Entry) (hf : ∀ e, (f e).label = e.label) :
    ((s.modEntry n f).entry m).label = (s.entry m).label := by
  by_cases hm : m < s.cu.entries.length
  · have := entry_modEntry s n m f hm
    unfold State.entry at this ⊢
    rw [this]
    split
    · rename_i hnm; subst hnm; rw [hf]
    · rfl
  · simp [State.entry, State.modEntry, State.modCu, List.getD_eq_getElem?_getD, hm]

theorem post_cu (s : State) (src : Source) (x : NoticeDetail) : (s.post src x).cu = s.cu := by
  unfold State.post; split <;> rfl

theorem describe_label (s : State) (n m : Nat) (d : Description) :
    ((s.describe n d).entry m).label = (s.entry m).label := by
  unfold State.describe
  dsimp only
  split
  · unfold State.setSlotState
    unfold State.entry
    rw [post_cu]
    exact (modEntry_label (s.modEntry n fun e => { e with description := some d }) n m
      (fun e => { e with state := .stored }) fun _ => rfl).trans
      (modEntry_label s n m _ fun _ => rfl)
  · exact modEntry_label s n m _ fun _ => rfl

@[simp] theorem ownAssignRoll_keeps {s0 s : State} (h : Keeps s0 s) (a : AssignArgs) :
    Keeps s0 (ownAssignRoll a s).state := by
  refine checked_keeps h fun hc => ?_
  simp only [List.mem_cons, List.mem_nil_iff, forall_eq_or_imp, or_false, forall_eq] at hc
  have free := hc.2.2.2
  simp only [labelTaken, Bool.and_eq_false_iff, Bool.not_eq_false', List.isEmpty_iff, List.any_eq_false,
    List.mem_range, Bool.and_eq_true, decide_eq_true_eq, not_and] at free
  split
  · refine done_keeps (relabel_keeps (describe_keeps h _ _) _ _ fun m hm hne e => ?_)
    rw [describe_label] at e
    rcases free with free | free
    · exact free
    · exact absurd e (free m hm hne)
  · exact refuse_keeps h

@[simp] theorem ownForgetIndex_keeps {s0 s : State} (h : Keeps s0 s) (n : Nat) :
    Keeps s0 (ownForgetIndex n s).state := by
  refine checked_keeps h fun _ => ?_
  have k : Keeps s0 (s.modEntry n fun e => { e with
      indexState := .unindexed, lastIndexed := none, segments := [], landmarks := [], landmarksDropped := false }) :=
    modEntry_keeps_of h (fun w hn m hm hne e => w.2 n m hn hm (Ne.symm hne) e) fun w _ b => by
      exact ⟨by simp [Ascending], b⟩
  simp (maxDischargeDepth := 40) [k]

@[simp] theorem ownReadDirectory_keeps {s0 s : State} (h : Keeps s0 s)  :
    Keeps s0 (ownReadDirectory s).state := by
  unfold ownReadDirectory
  (repeat' split) <;>
    first
      | exact h
      | (simp (maxDischargeDepth := 40) +contextual [h]; done)
      | (simp (maxDischargeDepth := 40) +contextual [*]; done)

@[simp] theorem ownMountRoll_keeps {s0 s : State} (h : Keeps s0 s) (n : Nat) :
    Keeps s0 (ownMountRoll n s).state := by
  unfold ownMountRoll
  (repeat' split) <;>
    first
      | exact h
      | (simp (maxDischargeDepth := 40) +contextual [h]; done)
      | (simp (maxDischargeDepth := 40) +contextual [*]; done)

@[simp] theorem ownUnmountRoll_keeps {s0 s : State} (h : Keeps s0 s)  :
    Keeps s0 (ownUnmountRoll s).state := by
  unfold ownUnmountRoll
  (repeat' split) <;>
    first
      | exact h
      | (simp (maxDischargeDepth := 40) +contextual [h]; done)
      | (simp (maxDischargeDepth := 40) +contextual [*]; done)

@[simp] theorem takePresence_keeps {s0 s : State} (h : Keeps s0 s) (n : Nat) :
    Keeps s0 (State.takePresence s n) := by
  have k := modEntry_blank (n := n) (e := Entry.inserted) h rfl rfl rfl rfl
  unfold State.takePresence
  split <;> simp (maxDischargeDepth := 40) [h, k]

/-! ### Index.lean -/

@[simp] theorem ownSetMarkClasses_keeps {s0 s : State} (h : Keeps s0 s) (a b c : Nat) :
    Keeps s0 (ownSetMarkClasses a b c s).state := by
  unfold ownSetMarkClasses
  (repeat' split) <;>
    first
      | exact h
      | (simp (maxDischargeDepth := 40) +contextual [h]; done)
      | (simp (maxDischargeDepth := 40) +contextual [*]; done)

@[simp] theorem ownIndexRoll_keeps {s0 s : State} (h : Keeps s0 s) (c : Option IndexChoice) (t : OptArg) :
    Keeps s0 (ownIndexRoll c t s).state := by
  refine checked_keeps h fun _ => ?_
  dsimp only
  split <;> simp (maxDischargeDepth := 40) [h]

@[simp] theorem ownReadIndex_keeps {s0 s : State} (h : Keeps s0 s)  :
    Keeps s0 (ownReadIndex s).state := by
  unfold ownReadIndex
  (repeat' split) <;>
    first
      | exact h
      | (simp (maxDischargeDepth := 40) +contextual [h]; done)
      | (simp (maxDischargeDepth := 40) +contextual [*]; done)

@[simp] theorem readMark_keeps {s0 s : State} (h : Keeps s0 s) (e : FirstEdge) (second : Nat) :
    Keeps s0 (State.readMark s e second) := by
  unfold State.readMark
  (repeat' split) <;>
    first
      | exact h
      | (simp (maxDischargeDepth := 40) +contextual [h]; done)
      | (simp (maxDischargeDepth := 40) +contextual [*]; done)

@[simp] theorem ownSetPitchLearning_keeps {s0 s : State} (h : Keeps s0 s) (k : Nat) :
    Keeps s0 (ownSetPitchLearning k s).state := by
  unfold ownSetPitchLearning
  (repeat' split) <;>
    first
      | exact h
      | (simp (maxDischargeDepth := 40) +contextual [h]; done)
      | (simp (maxDischargeDepth := 40) +contextual [*]; done)

@[simp] theorem ownLocateFrame_keeps {s0 s : State} (h : Keeps s0 s) (f : Nat) :
    Keeps s0 (ownLocateFrame f s).state := by
  refine checked_keeps h fun _ => ?_
  split <;> simp (maxDischargeDepth := 40) [h]

@[simp] theorem ownFrameAt_keeps {s0 s : State} (h : Keeps s0 s) (p : Nat) :
    Keeps s0 (ownFrameAt p s).state := by
  refine checked_keeps h fun _ => ?_
  split <;> simp (maxDischargeDepth := 40) [h]

/-! ### Focus.lean -/

@[simp] theorem ownFocusProbe_keeps {s0 s : State} (h : Keeps s0 s) (c h st : OptArg) :
    Keeps s0 (ownFocusProbe c h st s).state := by
  unfold ownFocusProbe
  (repeat' split) <;>
    first
      | exact h
      | (simp (maxDischargeDepth := 40) +contextual [h]; done)
      | (simp (maxDischargeDepth := 40) +contextual [*]; done)

@[simp] theorem applyFocus_keeps {s0 s : State} (h : Keeps s0 s) (a : FocusSettings) :
    Keeps s0 (State.applyFocus s a) := by
  unfold State.applyFocus
  (repeat' split) <;>
    first
      | exact h
      | (simp (maxDischargeDepth := 40) +contextual [h]; done)
      | (simp (maxDischargeDepth := 40) +contextual [*]; done)

@[simp] theorem ownSetFocus_keeps {s0 s : State} (h : Keeps s0 s) (a : FocusSettings) :
    Keeps s0 (ownSetFocus a s).state := by
  unfold ownSetFocus
  (repeat' split) <;>
    first
      | exact h
      | (simp (maxDischargeDepth := 40) +contextual [h]; done)
      | (simp (maxDischargeDepth := 40) +contextual [*]; done)

@[simp] theorem ownClearFocusMap_keeps {s0 s : State} (h : Keeps s0 s)  :
    Keeps s0 (ownClearFocusMap s).state := by
  unfold ownClearFocusMap
  (repeat' split) <;>
    first
      | exact h
      | (simp (maxDischargeDepth := 40) +contextual [h]; done)
      | (simp (maxDischargeDepth := 40) +contextual [*]; done)

@[simp] theorem ownReadFocusMap_keeps {s0 s : State} (h : Keeps s0 s)  :
    Keeps s0 (ownReadFocusMap s).state := by
  unfold ownReadFocusMap
  (repeat' split) <;>
    first
      | exact h
      | (simp (maxDischargeDepth := 40) +contextual [h]; done)
      | (simp (maxDischargeDepth := 40) +contextual [*]; done)

@[simp] theorem edgePeak_keeps {s0 s : State} (h : Keeps s0 s) (p : Probe) (x : ProbePoint) :
    Keeps s0 (State.edgePeak s p x) := by
  unfold State.edgePeak
  (repeat' split) <;>
    first
      | exact h
      | (simp (maxDischargeDepth := 40) +contextual [h]; done)
      | (simp (maxDischargeDepth := 40) +contextual [*]; done)

@[simp] theorem sweepDone_keeps {s0 s : State} (h : Keeps s0 s) (p : Probe) :
    Keeps s0 (State.sweepDone s p) := by
  unfold State.sweepDone
  dsimp only
  split
  · exact h
  · generalize (if peakPlace p.points = 0 then none else p.points[peakPlace p.points - 1]?) = lower
    split <;> simp (maxDischargeDepth := 40) [h]

@[simp] theorem bandScored_keeps {s0 s : State} (h : Keeps s0 s) (p : Probe) (score : Nat) :
    Keeps s0 (State.bandScored s p score) := by
  unfold State.bandScored
  (repeat' split) <;>
    first
      | exact h
      | (simp (maxDischargeDepth := 40) +contextual [h]; done)
      | (simp (maxDischargeDepth := 40) +contextual [*]; done)

/-! ### Capture.lean -/

@[simp] theorem ownSetCapture_keeps {s0 s : State} (h : Keeps s0 s) (a : CaptureSettings) :
    Keeps s0 (ownSetCapture a s).state := by
  unfold ownSetCapture
  (repeat' split) <;>
    first
      | exact h
      | (simp (maxDischargeDepth := 40) +contextual [h]; done)
      | (simp (maxDischargeDepth := 40) +contextual [*]; done)

@[simp] theorem ownReadFrameStore_keeps {s0 s : State} (h : Keeps s0 s)  :
    Keeps s0 (ownReadFrameStore s).state := by
  unfold ownReadFrameStore
  (repeat' split) <;>
    first
      | exact h
      | (simp (maxDischargeDepth := 40) +contextual [h]; done)
      | (simp (maxDischargeDepth := 40) +contextual [*]; done)

theorem lampLights_keeps {s0 s : State} (h : Keeps s0 s) (hw : s.cp.lamp = .warming) : Keeps s0 s.lampLights := by
  have k : Keeps s0 (s.modCp fun c => { c with lamp := .lit }) := modCp_keeps h (fun w => by
    have := w.2
    simp_all) rfl rfl
  unfold State.lampLights
  simp (maxDischargeDepth := 40) [k]

/-! ### Catalogue.lean -/

theorem length_le_of_subset {α : Type} [DecidableEq α] {a b : List α} (ha : a.Nodup) (hs : ∀ x ∈ a, x ∈ b) :
    a.length ≤ b.length := by
  induction a generalizing b with
  | nil => simp
  | cons x rest ih =>
    rw [List.nodup_cons] at ha
    have hx := hs x (List.mem_cons_self ..)
    have := ih (b := b.erase x) ha.2 fun y hy =>
      (List.mem_erase_of_ne fun e : y = x => ha.1 (e ▸ hy)).mpr (hs y (List.mem_cons_of_mem _ hy))
    rw [List.length_erase_of_mem hx] at this
    have := List.length_pos_of_mem hx
    simp only [List.length_cons]
    omega

theorem insertWindow_perm (w : Window) (l : List Window) : (insertWindow w l).Perm (w :: l) := by
  induction l with
  | nil => exact .refl _
  | cons x rest ih =>
    unfold insertWindow
    split
    · exact .refl _
    · exact (ih.cons x).trans (.swap w x rest)

theorem insertWindow_apart {w : Window} {l : List Window} (hw : w.base ≤ w.limit)
    (hr : ∀ x ∈ l, x.base ≤ x.limit) (hn : ∀ x ∈ l, rangesOverlap w.base w.limit x.base x.limit = false)
    (hl : l.Pairwise fun a b => a.limit < b.base) : (insertWindow w l).Pairwise fun a b => a.limit < b.base := by
  induction l with
  | nil => simp [insertWindow]
  | cons x rest ih =>
    have hx := hn x (List.mem_cons_self ..)
    have hxr := hr x (List.mem_cons_self ..)
    rw [List.pairwise_cons] at hl
    simp [rangesOverlap] at hx
    unfold insertWindow
    split
    · rename_i hlt
      rw [List.pairwise_cons, List.pairwise_cons]
      have hwx : w.limit < x.base := by
        by_cases hb : w.base ≤ x.limit
        · exact hx hb
        · omega
      refine ⟨fun y hy => ?_, hl⟩
      rcases List.mem_cons.mp hy with hy | hy
      · subst hy; exact hwx
      · have := hl.1 y hy
        omega
    · rw [List.pairwise_cons]
      refine ⟨fun y hy => ?_, ih (fun y hy => hr y (List.mem_cons_of_mem _ hy))
        (fun y hy => hn y (List.mem_cons_of_mem _ hy)) hl.2⟩
      rcases List.mem_cons.mp ((insertWindow_perm w rest).mem_iff.mp hy) with hy | hy
      · subst hy
        by_cases hb : y.base ≤ x.limit
        · have := hx hb; omega
        · omega
      · exact hl.1 y hy

theorem insertWindow_law {w : Window} {c : Ct} (hid : w.id ≤ 63) (hw : w.base ≤ w.limit)
    (hd : ∀ x ∈ c.windows, x.id ≠ w.id) (hn : ∀ x ∈ c.windows, rangesOverlap w.base w.limit x.base x.limit = false)
    (k : c.wf) : ({ c with windows := insertWindow w c.windows } : Ct).wf := by
  have p := insertWindow_perm w c.windows
  have nd : ((insertWindow w c.windows).map Window.id).Nodup := by
    refine ((p.map Window.id).nodup_iff).mpr ?_
    simp only [List.map_cons, List.nodup_cons]
    exact ⟨by simpa using hd, k.2⟩
  have small : ∀ x ∈ insertWindow w c.windows, x.id ≤ 63 := by
    intro x hx
    rcases List.mem_cons.mp (p.mem_iff.mp hx) with hx | hx
    · subst hx; exact hid
    · exact k.3 x hx
  refine ⟨?_, nd, small, ?_, insertWindow_apart hw k.4 hn k.5⟩
  · have := length_le_of_subset (b := List.range 64) nd fun i hi => by
      obtain ⟨x, hx, rfl⟩ := List.mem_map.mp hi
      have := small x hx
      simp; omega
    simpa using this
  · intro x hx
    rcases List.mem_cons.mp (p.mem_iff.mp hx) with hx | hx
    · subst hx; exact hw
    · exact k.4 x hx

theorem ctWf_filter {c : Ct} {p : Window → Bool} (k : c.wf) : ({ c with windows := c.windows.filter p } : Ct).wf :=
  ⟨Nat.le_trans (List.length_filter_le ..) k.1, k.2.sublist (List.filter_sublist.map _),
    fun x hx => k.3 x (List.mem_filter.mp hx).1, fun x hx => k.4 x (List.mem_filter.mp hx).1,
    k.5.sublist List.filter_sublist⟩

theorem ctWf_map {c : Ct} {f : Window → Window} (hi : ∀ w, (f w).id = w.id) (hb : ∀ w, (f w).base = w.base)
    (hl : ∀ w, (f w).limit = w.limit) (k : c.wf) : ({ c with windows := c.windows.map f } : Ct).wf := by
  refine ⟨by simpa using k.1, ?_, ?_, ?_, ?_⟩
  · have : (c.windows.map f).map Window.id = c.windows.map Window.id := by
      rw [List.map_map]; exact List.map_congr_left fun x _ => hi x
    simpa [this] using k.2
  · intro x hx
    obtain ⟨y, hy, rfl⟩ := List.mem_map.mp hx
    rw [hi]; exact k.3 y hy
  · intro x hx
    obtain ⟨y, hy, rfl⟩ := List.mem_map.mp hx
    rw [hb, hl]; exact k.4 y hy
  · exact List.pairwise_map.mpr (k.5.imp fun {a b} q => by rw [hb, hl]; exact q)

@[simp] theorem ownLoadWindow_keeps {s0 s : State} (h : Keeps s0 s) (a : WindowArgs) :
    Keeps s0 (ownLoadWindow a s).state := by
  refine checked_keeps h fun hc => ?_
  simp only [List.mem_cons, List.mem_nil_iff, forall_eq_or_imp, or_false, forall_eq] at hc
  obtain ⟨h1, h2, h3, h4, h5⟩ := hc
  split
  · refine done_keeps (modCt_keeps h fun k => insertWindow_law ?_ ?_ ?_ ?_ k)
    · simp [windowOutOfRange] at h1; simp [windowOf]; omega
    · simpa [windowOf] using h2
    · simpa [windowOf] using h4
    · simpa [windowOf] using h5
  · exact refuse_keeps h

@[simp] theorem ownDropWindow_keeps {s0 s : State} (h : Keeps s0 s) (n : Nat) :
    Keeps s0 (ownDropWindow n s).state := by
  refine checked_keeps h fun _ => ?_
  split
  · exact refuse_keeps h
  · exact doneWith_keeps (modCt_keeps h ctWf_filter)

@[simp] theorem ownListWindows_keeps {s0 s : State} (h : Keeps s0 s) (clear : Option Bool) :
    Keeps s0 (ownListWindows clear s).state := by
  refine checked_keeps h fun _ => doneWith_keeps (onlyIf_keeps h fun _ => modCt_keeps h ?_)
  exact ctWf_map (fun _ => rfl) (fun _ => rfl) fun _ => rfl

/-! ### Scheduler.lean -/

@[simp] theorem countDenied_keeps {s0 s : State} (h : Keeps s0 s) (i : Nat) (st : Status) :
    Keeps s0 (State.countDenied s i st) := by
  unfold State.countDenied
  split
  · exact modCt_keeps h (ctWf_map (fun _ => by split <;> rfl) (fun _ => by split <;> rfl) fun _ => by split <;> rfl)
  · exact h

theorem nextId_range (held : Nat → Bool) (k last : Nat) : 1 ≤ nextId held k last ∧ nextId held k last ≤ 255 := by
  induction k generalizing last with
  | zero => simp only [nextId]; omega
  | succ k ih =>
    unfold nextId
    split
    · exact ih _
    · omega

theorem nextId_held {held : Nat → Bool} {k last : Nat} (h : held (nextId held k last) = true) :
    ∀ i, i ≤ k → held ((last + i) % 255 + 1) = true := by
  induction k generalizing last with
  | zero => intro i hi; have : i = 0 := by omega
            subst this; exact h
  | succ k ih =>
    unfold nextId at h
    split at h
    · rename_i hl
      intro i hi
      cases i with
      | zero => exact hl
      | succ j =>
        have := ih h j (by omega)
        rwa [show (last + (j + 1)) % 255 = (last % 255 + 1 + j) % 255 by omega]
    · rename_i hl
      exact absurd h hl

/-- With room in the queue the id chosen is held by no entry (R156). -/
theorem freshId_new {s : State} (hroom : s.rs.queue.length < 32) : ∀ r ∈ s.rs.queue, r.id ≠ s.freshId := by
  intro r hr he
  have hh := nextId_held (held := fun n => s.rs.queue.any fun r => decide (r.id = n)) (k := 255) (last := s.rs.lastId)
    (List.any_eq_true.mpr ⟨r, hr, decide_eq_true he⟩)
  have := length_le_of_subset (a := List.range' 1 255) (b := s.rs.queue.map Request.id) List.nodup_range' fun m hm => by
    simp only [List.mem_range'_1] at hm
    have q := hh ((m - 1 + 255 - s.rs.lastId % 255) % 255) (by omega)
    rw [show (s.rs.lastId + (m - 1 + 255 - s.rs.lastId % 255) % 255) % 255 + 1 = m by omega] at q
    obtain ⟨x, hx, hxm⟩ := List.any_eq_true.mp q
    exact List.mem_map.mpr ⟨x, hx, of_decide_eq_true hxm⟩
  simp only [List.length_range', List.length_map] at this
  omega

theorem enqueue_keeps {s0 s : State} (h : Keeps s0 s) {r : Request} (hroom : s.rs.queue.length < 32)
    (hid : r.id = s.freshId) : Keeps s0 (s.enqueue r) := by
  refine h.trans ⟨modRs_blocks fun w => ⟨by simp; omega, ?_, ?_, w.4, w.5⟩, fun w => w.slots.queueOf
    fun _ _ _ ⟨q, hq, k⟩ => ⟨q, List.mem_append_left _ hq, k⟩⟩
  · rw [List.map_append, List.nodup_append]
    refine ⟨w.2, by simp, ?_⟩
    intro a ha b hb
    simp only [List.map_cons, List.map_nil, List.mem_singleton] at hb
    obtain ⟨x, hx, rfl⟩ := List.mem_map.mp ha
    rw [hb, hid]
    exact freshId_new hroom x hx
  · intro q hq
    rcases List.mem_append.mp hq with hq | hq
    · exact w.3 q hq
    · rw [List.mem_singleton.mp hq, hid]
      exact nextId_range _ _ _

theorem acceptRequest_keeps {s0 s : State} (h : Keeps s0 s) {r : Request} (hroom : s.rs.queue.length < 32)
    (hid : r.id = s.freshId) : Keeps s0 (s.acceptRequest r) := by
  have k := enqueue_keeps h hroom hid
  unfold State.acceptRequest
  simp (maxDischargeDepth := 40) [k]

@[simp] theorem ownSubmitRequest_keeps {s0 s : State} (h : Keeps s0 s) (i origin : Nat) (pri : Option Priority) :
    Keeps s0 (ownSubmitRequest i origin pri s).state := by
  refine checked_keeps h fun hc => ?_
  simp only [List.mem_cons, List.mem_nil_iff, forall_eq_or_imp, or_false, forall_eq] at hc
  split
  · exact refuse_keeps (countDenied_keeps h _ _)
  · refine acceptedWith_keeps (acceptRequest_keeps h ?_ (withPlacement_id _ _))
    have := hc.2
    simp at this
    exact this

/-- An entry that is not DELIVERING cancelled (R171). -/
theorem cancelEntry_keeps {s0 s : State} (h : Keeps s0 s) {r : Request} (hr : r ∈ s.rs.queue)
    (hd : r.state ≠ .delivering) : Keeps s0 (State.cancelEntry s r) := by
  refine h.trans (offerPlanning_keeps ?_)
  have gone : (r.state = .planned ∨ r.state = .capturing ∨ r.state = .captured) →
      Keeps s ((s.cancelCapture r.id).removeRequest r.id) := fun _ =>
    ⟨(cancelCapture_blocks r.id).trans removeRequest_blocks, fun w =>
      (removeRequest_keeps (cancelCapture_keeps (Keeps.refl s) r.id) fun _ =>
        cancelCapture_unnamed w.cp.store (w.slots.unsentOf w.rs.ids hr hd)).slots w⟩
  have out : ¬r.inStore → Keeps s (s.removeRequest r.id) := fun ho =>
    removeRequest_keeps (Keeps.refl s) fun w => w.slots.unnamedOf w.rs.ids hr ho
  cases e : r.state <;> simp only [e, Request.inStore] at hd gone out ⊢ <;>
    first
      | exact absurd rfl hd
      | exact gone (by simp)
      | exact out (by simp)

@[simp] theorem ownCancelRequest_keeps {s0 s : State} (h : Keeps s0 s) (id : Nat) :
    Keeps s0 (ownCancelRequest id s).state := by
  unfold ownCancelRequest
  split
  · exact refuse_keeps h
  · rename_i r hr
    split
    · exact refuse_keeps h
    · rename_i hd
      exact cancelEntry_keeps h (List.mem_of_find?_eq_some hr) hd

@[simp] theorem ownQueryQueue_keeps {s0 s : State} (h : Keeps s0 s)  :
    Keeps s0 (ownQueryQueue s).state := by
  unfold ownQueryQueue
  (repeat' split) <;>
    first
      | exact h
      | (simp (maxDischargeDepth := 40) +contextual [h]; done)
      | (simp (maxDischargeDepth := 40) +contextual [*]; done)

@[simp] theorem ownSetMode_keeps {s0 s : State} (h : Keeps s0 s) (m : Option DeviceMode) :
    Keeps s0 (ownSetMode m s).state := by
  unfold ownSetMode
  (repeat' split) <;>
    first
      | exact h
      | (simp (maxDischargeDepth := 40) +contextual [h]; done)
      | (simp (maxDischargeDepth := 40) +contextual [*]; done)

@[simp] theorem ownSetPlanning_keeps {s0 s : State} (h : Keeps s0 s) (d : Nat) (demand : Option Bool) :
    Keeps s0 (ownSetPlanning d demand s).state := by
  unfold ownSetPlanning
  (repeat' split) <;>
    first
      | exact h
      | (simp (maxDischargeDepth := 40) +contextual [h]; done)
      | (simp (maxDischargeDepth := 40) +contextual [*]; done)

@[simp] theorem abandonRun_keeps {s0 s : State} (h : Keeps s0 s)  :
    Keeps s0 (State.abandonRun s) := by
  unfold State.abandonRun
  (repeat' split) <;>
    first
      | exact h
      | (simp (maxDischargeDepth := 40) +contextual [h]; done)
      | (simp (maxDischargeDepth := 40) +contextual [*]; done)

@[simp] theorem takeCaptureRun_keeps {s0 s : State} (h : Keeps s0 s) (plan : RunPlan) (pixels : List Byte) :
    Keeps s0 (State.takeCaptureRun s plan pixels) := by
  unfold State.takeCaptureRun
  (repeat' split) <;>
    first
      | exact h
      | (simp (maxDischargeDepth := 40) +contextual [h]; done)
      | (simp (maxDischargeDepth := 40) +contextual [*]; done)

/-! ### Delivery.lean -/

/-- The deliveries of the other channel. -/
def Dc.sentBeside (d : Dc) : ChannelId → List Sending
  | .a => d.b.sending.toList
  | .b => d.a.sending.toList

theorem sent_perm (d : Dc) (id : ChannelId) : d.sent.Perm ((d.channel id).sending.toList ++ d.sentBeside id) := by
  cases id
  · exact .refl _
  · exact List.perm_append_comm

theorem modChannel_sent (s : State) (id : ChannelId) (f : Channel → Channel) :
    (s.modChannel id f).dc.sent.Perm ((f (s.dc.channel id)).sending.toList ++ s.dc.sentBeside id) := by
  cases id
  · exact .refl _
  · exact List.perm_append_comm

/-- A channel changed so that it keeps its law, and channel A stays IMAGE. -/
theorem modChannel_blocks {s : State} {id : ChannelId} {f : Channel → Channel}
    (hf : s.dc.wf → (f (s.dc.channel id)).wf) (hm : (f (s.dc.channel id)).mode = (s.dc.channel id).mode) :
    KeepsBlocks s (s.modChannel id f) := by
  refine modDc_blocks fun w => ?_
  cases id
  · exact ⟨hf w, w.2, hm.trans w.3, w.4, w.5⟩
  · exact ⟨w.1, hf w, w.3, fun q => hm.trans (w.4 q), w.5⟩

theorem modChannel_keeps {s0 s : State} (h : Keeps s0 s) {id : ChannelId} {f : Channel → Channel}
    (hf : s.dc.wf → (f (s.dc.channel id)).wf) (hm : (f (s.dc.channel id)).mode = (s.dc.channel id).mode)
    (hs : (f (s.dc.channel id)).sending = (s.dc.channel id).sending) : Keeps s0 (s.modChannel id f) := by
  refine h.trans ⟨modChannel_blocks hf hm, fun w => SlotLaw.permSent w.slots ?_⟩
  have p := modChannel_sent s id f
  rw [hs] at p
  exact p.trans (sent_perm s.dc id).symm

theorem channel_wf {d : Dc} (w : d.wf) (id : ChannelId) : (d.channel id).wf := by
  cases id
  · exact w.1
  · exact w.2

/-- A block is offered on a channel that is IMAGE and has none in transmission. -/
theorem offerBlock_blocks {s : State} {id : ChannelId} {d : Sending}
    (hf : s.dc.wf → (s.dc.channel id).mode = .image ∧ (s.dc.channel id).inTransmission = false) :
    KeepsBlocks s (s.offerBlock id d) :=
  modChannel_blocks (fun w => ⟨fun q => by simp [(hf w).1] at q, fun q => by simp at q, fun _ => (hf w).2⟩) rfl

theorem takeSlot_keeps {s0 s : State} (h : Keeps s0 s) {id : ChannelId} {n : Nat} (hn : s.cp.ready.head? = some n)
    (hi : (s.dc.channel id).sending = none)
    (hf : s.dc.wf → (s.dc.channel id).mode = .image ∧ (s.dc.channel id).inTransmission = false) :
    Keeps s0 (s.takeSlot id n) := by
  have k : KeepsBlocks s
      ((s.modCp fun c => { c with ready := c.ready.tail }).modSlot n fun x => { x with state := .sending }) :=
    modCp_blocks
      (f := fun c =>
        { c with
          ready := c.ready.tail, slots := c.slots.set n ((c.slots.getD n none).map fun x => { x with state := .sending }) })
      fun w => ⟨by simpa using w.1, w.2, storeLaw_take hn w.3⟩
  refine h.trans ⟨(k.trans (modRequest_blocks (f := fun r => { r with state := .delivering }) fun _ => rfl)).trans
    (offerBlock_blocks (s := State.modRequest _ _ fun r => { r with state := .delivering }) hf), fun w => ?_⟩
  obtain ⟨a, ha, hr⟩ := (w.cp.store.listed n).mp (List.mem_of_mem_head? hn)
  have set : s.cp.slots.set n ((s.cp.slots.getD n none).map fun x => { x with state := .sending }) =
      s.cp.slots.set n (some { a with state := .sending }) := by
    rw [List.getD_eq_getElem?_getD, ha]; rfl
  have here : (((s.modCp fun c => { c with ready := c.ready.tail }).modSlot n fun x =>
      { x with state := .sending }).slotContent n).reqId = a.reqId := by
    show (((s.cp.slots.set n ((s.cp.slots.getD n none).map fun x =>
      { x with state := .sending })).getD n none).getD _).reqId = _
    rw [set, List.getD_eq_getElem?_getD, (getElem?_set_some (List.getElem?_eq_some_iff.mp ha).1).mpr (.inl ⟨rfl, rfl⟩)]
    rfl
  unfold State.takeSlot State.slotTaken State.offerBlock
  dsimp only
  rw [here]
  have p := (sent_perm s.dc id).symm
  rw [hi] at p
  refine SlotLaw.permSent ?_ (modChannel_sent ..)
  show SlotLaw (s.cp.slots.set n ((s.cp.slots.getD n none).map fun x => { x with state := .sending })) _ _ _
  rw [set]
  exact (w.slots.permSent p).take w.cp.store ha hr rfl rfl

theorem idle_wf {c : Channel} (w : c.wf) (hi : c.idle = true) : c.mode = .image ∧ c.inTransmission = false := by
  simp only [Channel.idle, Bool.and_eq_true, decide_eq_true_eq, Option.isNone_iff_eq_none] at hi
  exact ⟨hi.1, (w.2 hi.2).2⟩

@[simp] theorem takeHead_keeps {s0 s : State} (h : Keeps s0 s) (id : ChannelId) : Keeps s0 (s.takeHead id) := by
  unfold State.takeHead
  split
  · rename_i hi
    refine withSome_keeps h fun n hn => takeSlot_keeps h hn ?_ fun w => idle_wf (channel_wf w id) hi
    simp only [Channel.idle, Bool.and_eq_true, Option.isNone_iff_eq_none] at hi
    exact hi.2
  · exact h

theorem deliveryEnd_keeps {s0 s : State} (h : Keeps s0 s) {id : ChannelId} {d : Sending}
    (hd : (s.dc.channel id).sending = some d)
    (hf : s.dc.wf → (s.dc.channel id).inTransmission = false) : Keeps s0 (s.deliveryEnd id d) := by
  refine takeHead_keeps (h.trans ⟨freeSlot_blocks.trans (modChannel_blocks (fun w => ?_) rfl), fun w => ?_⟩) id
  · rw [freeSlot_dc] at w ⊢
    exact ⟨fun _ => rfl, fun _ => ⟨rfl, hf w⟩, by simp⟩
  · have p := (sent_perm s.dc id).symm
    rw [hd] at p
    obtain ⟨law, apart, free⟩ := SlotLaw.ended (w.slots.permSent p)
    have v := freeSlot_law law free apart
    have e : (s.freeSlot d.slot).jobList = s.jobList := by unfold State.jobList; rw [freeSlot_jobs]
    rw [← e] at v
    refine v.permSent ?_
    have q := modChannel_sent (s.freeSlot d.slot) id fun c =>
      { c with sending := none, waiting := none, imagesSent := saturate countMax c.imagesSent }
    rw [freeSlot_dc] at q
    exact q

@[simp] theorem blockSent_keeps {s0 s : State} (h : Keeps s0 s) (id : ChannelId) :
    Keeps s0 (State.blockSent s id) := by
  have k : Keeps s0 (s.modChannel id fun c => { c with inTransmission := false }) :=
    modChannel_keeps h (fun w => ⟨(channel_wf w id).1, fun q => ⟨((channel_wf w id).2 q).1, rfl⟩, fun _ => rfl⟩) rfl rfl
  have off : (State.dc (s.modChannel id fun c => { c with inTransmission := false })).channel id =
      { s.dc.channel id with inTransmission := false } := by cases id <;> rfl
  unfold State.blockSent
  refine withSome_keeps k fun d hd => ?_
  have hd' : ((s.modChannel id fun c => { c with inTransmission := false }).dc.channel id).sending = some d := by
    rw [off]; exact hd
  split
  · refine k.trans ⟨offerBlock_blocks fun w => ?_, fun w => ?_⟩
    · have q := (channel_wf w id).1
      rw [off] at q ⊢
      simp only [hd, reduceCtorEq, imp_false] at q
      exact ⟨by cases hm : (s.dc.channel id).mode <;> simp_all, rfl⟩
    · have p := (sent_perm (s.modChannel id fun c => { c with inTransmission := false }).dc id).symm
      rw [hd'] at p
      have law := SlotLaw.sameSent (e := { d with nextBlock := d.nextBlock + 1 }) (w.slots.permSent p) rfl rfl
      exact law.permSent (modChannel_sent ..)
  · exact deliveryEnd_keeps k hd' fun _ => by rw [off]

theorem configureB_keeps {s0 s : State} (h : Keeps s0 s) {m : ChannelMode} {interval : Nat}
    (hb : s.dc.b.sending = none) (hi : 10 ≤ interval ∧ interval ≤ 1000) : Keeps s0 (s.configureB m interval) := by
  unfold State.configureB
  split
  · exact h
  · exact modDc_keeps h (fun w => ⟨w.1, ⟨fun _ => hb, w.2.2, w.2.3⟩, w.3, fun _ => rfl, hi⟩) rfl
  · exact modDc_keeps h (fun w => ⟨w.1, w.2, w.3, w.4, hi⟩) rfl
  · exact takeHead_keeps (modDc_keeps h (fun w => ⟨w.1, ⟨by simp, w.2.2, w.2.3⟩, w.3, by simp, w.5⟩) rfl) _

@[simp] theorem ownConfigureChannel_keeps {s0 s : State} (h : Keeps s0 s) (c : Option ChannelId) (m : Option ChannelMode) (interval : Nat) :
    Keeps s0 (ownConfigureChannel c m interval s).state := by
  refine checked_keeps h fun hc => ?_
  simp only [List.mem_cons, List.mem_nil_iff, forall_eq_or_imp, or_false, forall_eq] at hc
  obtain ⟨h1, h2, h3⟩ := hc
  split
  · refine done_keeps (configureB_keeps h ?_ ?_)
    · simpa [Dc.channel] using h3
    · simp at h1; omega
  · exact done_keeps h

@[simp] theorem ownReadChannels_keeps {s0 s : State} (h : Keeps s0 s)  :
    Keeps s0 (ownReadChannels s).state := by
  unfold ownReadChannels
  (repeat' split) <;>
    first
      | exact h
      | (simp (maxDischargeDepth := 40) +contextual [h]; done)
      | (simp (maxDischargeDepth := 40) +contextual [*]; done)

/-! ### Faults.lean -/

@[simp] theorem clearRequester_keeps {s0 s : State} (h : Keeps s0 s)  :
    Keeps s0 (State.clearRequester s) := by
  unfold State.clearRequester
  (repeat' split) <;>
    first
      | exact h
      | (simp (maxDischargeDepth := 40) +contextual [h]; done)
      | (simp (maxDischargeDepth := 40) +contextual [*]; done)

@[simp] theorem settleStored_keeps {s0 s : State} (h : Keeps s0 s) (n : Nat) :
    Keeps s0 (State.settleStored s n) := by
  unfold State.settleStored
  (repeat' split) <;>
    first
      | exact h
      | (simp (maxDischargeDepth := 40) +contextual [h]; done)
      | (simp (maxDischargeDepth := 40) +contextual [*]; done)

@[simp] theorem settleRejected_keeps {s0 s : State} (h : Keeps s0 s) (n : Nat) :
    Keeps s0 (State.settleRejected s n) := by
  unfold State.settleRejected
  (repeat' split) <;>
    first
      | exact h
      | (simp (maxDischargeDepth := 40) +contextual [h]; done)
      | (simp (maxDischargeDepth := 40) +contextual [*]; done)

@[simp] theorem settleMounted_keeps {s0 s : State} (h : Keeps s0 s) (n : Nat) :
    Keeps s0 (State.settleMounted s n) := by
  unfold State.settleMounted
  (repeat' split) <;>
    first
      | exact h
      | (simp (maxDischargeDepth := 40) +contextual [h]; done)
      | (simp (maxDischargeDepth := 40) +contextual [*]; done)

@[simp] theorem settle_keeps {s0 s : State} (h : Keeps s0 s)  :
    Keeps s0 (State.settle s) := by
  unfold State.settle
  refine withSome_keeps h fun n _ => ?_
  (repeat' split) <;> simp (maxDischargeDepth := 40) [h]

@[simp] theorem leaveHalted_keeps {s0 s : State} (h : Keeps s0 s) (stranded : Bool) :
    Keeps s0 (State.leaveHalted s stranded) := by
  unfold State.leaveHalted
  (repeat' split) <;>
    first
      | exact h
      | (simp (maxDischargeDepth := 40) +contextual [h]; done)
      | (simp (maxDischargeDepth := 40) +contextual [*]; done)

@[simp] theorem liftHalt_keeps {s0 s : State} (h : Keeps s0 s) (stranded : Bool) :
    Keeps s0 (State.liftHalt s stranded) := by
  unfold State.liftHalt
  (repeat' split) <;>
    first
      | exact h
      | (simp (maxDischargeDepth := 40) +contextual [h]; done)
      | (simp (maxDischargeDepth := 40) +contextual [*]; done)

@[simp] theorem clearMinor_keeps {s0 s : State} (h : Keeps s0 s)  :
    Keeps s0 (State.clearMinor s).state := by
  refine doneWith_keeps (modFm_keeps h fun w => ⟨w.1.sublist List.filter_sublist, ?_, ?_, w.4⟩)
  · exact fun e he => w.2 e (List.mem_filter.mp he).1
  · exact fun e he => w.3 e (List.mem_filter.mp he).1

@[simp] theorem clearAll_keeps {s0 s : State} (h : Keeps s0 s)  :
    Keeps s0 (State.clearAll s).state := by
  have k : Keeps s0 (s.modFm fun m => { m with active := [] }) :=
    modFm_keeps h fun w => ⟨.nil, by simp, by simp, w.4⟩
  unfold State.clearAll
  simp (maxDischargeDepth := 40) [k]

@[simp] theorem ownClearFaults_keeps {s0 s : State} (h : Keeps s0 s) (sc : Option ClearScope) :
    Keeps s0 (ownClearFaults sc s).state := by
  unfold ownClearFaults
  (repeat' split) <;>
    first
      | exact h
      | (simp (maxDischargeDepth := 40) +contextual [h]; done)
      | (simp (maxDischargeDepth := 40) +contextual [*]; done)

@[simp] theorem ownRaiseFault_keeps {s0 s : State} (h : Keeps s0 s) (cls : Option FaultClass) (n : Nat) :
    Keeps s0 (ownRaiseFault cls n s).state := by
  unfold ownRaiseFault
  split
  · exact refuse_keeps h
  · rename_i k
    split
    · exact refuse_keeps h
    · exact done_keeps (raise_keeps h (by cases k <;> simp [operatorCode]))

@[simp] theorem ownReadFaults_keeps {s0 s : State} (h : Keeps s0 s)  :
    Keeps s0 (ownReadFaults s).state := by
  unfold ownReadFaults
  (repeat' split) <;>
    first
      | exact h
      | (simp (maxDischargeDepth := 40) +contextual [h]; done)
      | (simp (maxDischargeDepth := 40) +contextual [*]; done)

@[simp] theorem ownReadFaultLog_keeps {s0 s : State} (h : Keeps s0 s)  :
    Keeps s0 (ownReadFaultLog s).state := by
  unfold ownReadFaultLog
  (repeat' split) <;>
    first
      | exact h
      | (simp (maxDischargeDepth := 40) +contextual [h]; done)
      | (simp (maxDischargeDepth := 40) +contextual [*]; done)

@[simp] theorem ownSetLogMode_keeps {s0 s : State} (h : Keeps s0 s) (m : Option LogMode) :
    Keeps s0 (ownSetLogMode m s).state := by
  unfold ownSetLogMode
  (repeat' split) <;>
    first
      | exact h
      | (simp (maxDischargeDepth := 40) +contextual [h]; done)
      | (simp (maxDischargeDepth := 40) +contextual [*]; done)

@[simp] theorem ownClearLog_keeps {s0 s : State} (h : Keeps s0 s)  :
    Keeps s0 (ownClearLog s).state := by
  unfold ownClearLog
  (repeat' split) <;>
    first
      | exact h
      | (simp (maxDischargeDepth := 40) +contextual [h]; done)
      | (simp (maxDischargeDepth := 40) +contextual [*]; done)

end Sys2Proof.Machine
end

