-- ==== Sys2Proof/Laws/Link.lean ====
section
/-! SUPPORT. Laws/Link.lean: start-up, the soft reset, the hand-over of commands, the receiver and the transmit arbiter keep
the laws; the law of the command buffer moves here. -/

namespace Sys2Proof.Machine

/-! ### What a command or an event keeps -/

/-- A command or an event: every law that holds before holds after, the command buffer's among them. -/
structure StepKeeps (s t : State) : Prop where
  tc : s.tc.wf → t.tc.wf
  cu : s.cu.wf → t.cu.wf
  tables : s.tablesWf → t.tablesWf
  cp : s.cp.wf → t.cp.wf
  ct : s.ct.wf → t.ct.wf
  rs : s.rs.wf → t.rs.wf
  dc : s.dc.wf → t.dc.wf
  notices : s.li.noticesWf → t.li.noticesWf
  fm : s.fm.wf → t.fm.wf
  buffer : s.li.bufferWf → t.li.bufferWf
  slots : s.storeWf → t.slotsWf

theorem StepKeeps.refl (s : State) : StepKeeps s s := ⟨id, id, id, id, id, id, id, id, id, id, State.storeWf.slots⟩

theorem StepKeeps.trans {a b c : State} (h : StepKeeps a b) (k : StepKeeps b c) : StepKeeps a c :=
  ⟨fun w => k.tc (h.tc w), fun w => k.cu (h.cu w), fun w => k.tables (h.tables w), fun w => k.cp (h.cp w),
    fun w => k.ct (h.ct w), fun w => k.rs (h.rs w), fun w => k.dc (h.dc w), fun w => k.notices (h.notices w),
    fun w => k.fm (h.fm w), fun w => k.buffer (h.buffer w), fun w => k.slots ⟨h.cp w.cp, h.rs w.rs, h.slots w⟩⟩

/-- The buffer's law is about places, replies and the reply in transmission only. -/
theorem bufferWf_talk {a b : Li} (h : b.talk = a.talk) (w : a.bufferWf) : b.bufferWf := by
  simp only [Li.talk, Prod.mk.injEq] at h
  exact ⟨by rw [h.1, h.2.1, h.2.2]; exact w.1, by rw [h.1]; exact w.2⟩

theorem Keeps.step {s t : State} (h : Keeps s t) : StepKeeps s t :=
  ⟨h.tc, h.cu, h.tables, h.cp, h.ct, h.rs, h.dc, h.notices, h.fm, bufferWf_talk h.talk, h.slots⟩

/-- An update of LI. -/
theorem modLi_step {s : State} {f : Li → Li} (hf : s.li.noticesWf → (f s.li).noticesWf)
    (hb : s.li.bufferWf → (f s.li).bufferWf) : StepKeeps s (s.modLi f) :=
  ⟨id, id, fun w => ⟨w.1, w.2, w.3, w.4⟩, id, id, id, id, hf, id, hb, State.storeWf.slots⟩

theorem each_step {α : Type} {f : State → α → State} (hf : ∀ t a, StepKeeps t (f t a)) (xs : List α) (s : State) :
    StepKeeps s (s.each xs f) := by
  unfold State.each
  induction xs generalizing s with
  | nil => exact StepKeeps.refl s
  | cons a rest ih => exact (hf s a).trans (ih (f s a))

/-! ### Start-up -/

@[simp] theorem postStart_keeps {s0 s : State} (h : Keeps s0 s) (c : ResetCause) : Keeps s0 (s.postStart c) := post_keeps h

@[simp] theorem strand_keeps {s0 s : State} (h : Keeps s0 s) : Keeps s0 s.strand := by
  have k := modEntry_blank (n := s.cu.station) (e := { Entry.inserted with state := .mounted }) h rfl rfl rfl rfl
  unfold State.strand
  simp (maxDischargeDepth := 40) [k]

theorem rebuilt_getD (x : Sensors) (i : Nat) (hi : i < 12) :
    ((rebuiltCu x).entries.getD i Entry.empty).label = [] := by
  simp only [rebuiltCu, List.getD_eq_getElem?_getD, List.getElem?_map, List.getElem?_range hi]
  simp only [Option.map_some, Option.getD_some]
  split <;> rfl

theorem rebuiltCu_wf (x : Sensors) : (rebuiltCu x).wf :=
  ⟨by simp [rebuiltCu], fun i _ hi _ _ _ => rebuilt_getD x i hi⟩

theorem rebuilt_entry {x : Sensors} {e : Entry} (he : e ∈ (rebuiltCu x).entries) :
    e.segments = [] ∧ e.landmarks = [] ∧ e.focusMap = [] := by
  obtain ⟨n, _, rfl⟩ := List.mem_map.mp he
  split <;> exact ⟨rfl, rfl, rfl⟩

/-- Sixteen FREE slots and an empty Ready List. -/
@[simp] theorem storeLaw_empty (k : Nat) : StoreLaw (List.replicate k none) [] :=
  ⟨fun _ _ a _ h => by simp [List.getElem?_replicate] at h, .nil, fun n => by simp [List.getElem?_replicate]⟩

/-- Sixteen FREE slots, an empty queue, no list and no delivery. -/
theorem slotLaw_empty (k : Nat) : SlotLaw (List.replicate k none) [] [] [] :=
  ⟨fun _ _ h => by simp [List.getElem?_replicate] at h, by simp, by simp, .nil⟩

theorem powerUp_step (s : State) (x : Sensors) : StepKeeps s (s.powerUp x) where
  tc _ := by simp [State.powerUp, State.reset, Tc.reset]
  cu _ := rebuiltCu_wf x
  tables _ := by
    refine ⟨by simp [State.powerUp, State.reset, Ix.reset, Ascending], by simp [State.powerUp, State.reset, Fu.reset, Ascending],
      fun e he => ?_, fun e he => ?_⟩ <;> obtain ⟨a, b, c⟩ := rebuilt_entry he <;> simp [a, b, c, Ascending]
  cp _ := ⟨by simp [State.powerUp, State.reset, Cp.reset], by simp [State.powerUp, State.reset, Cp.reset], storeLaw_empty 16⟩
  ct _ := ⟨Nat.zero_le _, .nil, by simp [State.powerUp, State.reset, Ct.reset], by simp [State.powerUp, State.reset, Ct.reset],
    by simp [State.powerUp, State.reset, Ct.reset]⟩
  rs _ := by simp [State.powerUp, State.reset, Rs.reset]
  dc _ := by simp [State.powerUp, State.reset, Dc.reset, Channel.reset]
  notices _ := by simp [State.powerUp, Li.reset, Ascending]
  fm _ := by simp [State.powerUp, State.reset, Fm.reset, Ascending]
  buffer _ := ⟨rfl, Nat.zero_le _⟩
  slots _ := slotLaw_empty 16

theorem startUp_step (s : State) (c : ResetCause) (x : Sensors) : StepKeeps s (s.startUp c x) :=
  (powerUp_step s x).trans
    (postStart_keeps (onlyIf_keeps (Keeps.refl _) fun _ => strand_keeps (Keeps.refl _)) c).step

/-! ### The soft reset -/

section
variable {s0 s : State}

@[simp] theorem resetTransport_keeps (h : Keeps s0 s) : Keeps s0 s.resetTransport := by
  unfold State.resetTransport
  (repeat' split) <;> simp (maxDischargeDepth := 40) [h]

@[simp] theorem resetIndex_keeps (h : Keeps s0 s) : Keeps s0 s.resetIndex := by
  unfold State.resetIndex
  simp (maxDischargeDepth := 40) +contextual [h]

@[simp] theorem resetFocus_keeps (h : Keeps s0 s) : Keeps s0 s.resetFocus := modFu_keeps h fun w => ⟨w.1, w.2⟩

theorem writeIndex_rs (st : IndexState) (last : Option Nat) : (s.writeIndex st last).rs = s.rs := by
  unfold State.writeIndex State.modMounted State.withSome
  split <;> rfl

theorem resetIndex_rs (s : State) : s.resetIndex.rs = s.rs := by
  show (s.withSome s.ix.pass fun u p => (u.settleIndex p (.aborted .stopped)).1).rs = s.rs
  unfold State.withSome State.settleIndex
  dsimp only
  (repeat' split) <;> first | rfl | exact writeIndex_rs ..

/-- RS, IX, FU, CP and DC at a soft reset: together they empty the queue, the slots, the list and the deliveries. -/
theorem resetTables_keeps (h : Keeps s0 s) :
    Keeps s0 s.resetScheduler.resetIndex.resetFocus.resetCapture.resetDelivery := by
  have rs : KeepsBlocks s s.resetScheduler := modRs_blocks fun _ => by simp
  have mid := (resetFocus_keeps (resetIndex_keeps (Keeps.refl s.resetScheduler))).toKeepsBlocks
  have cp : ∀ t : State, KeepsBlocks t t.resetCapture := fun t =>
    modCp_blocks fun _ => ⟨by simp, by simp [Cp.lampOut], storeLaw_empty 16⟩
  have dc : ∀ t : State, KeepsBlocks t t.resetDelivery := fun t => modDc_blocks fun w => by
    refine ⟨⟨fun _ => rfl, fun _ => ⟨rfl, rfl⟩, fun _ => rfl⟩, ⟨fun _ => rfl, fun _ => ⟨rfl, rfl⟩, fun _ => rfl⟩, w.3, ?_, w.5⟩
    simp
  refine h.trans ⟨((rs.trans mid).trans (cp _)).trans (dc _), fun _ => ?_⟩
  have queue : s.resetScheduler.resetIndex.resetFocus.resetCapture.resetDelivery.rs.queue = [] := by
    show s.resetScheduler.resetIndex.rs.queue = []
    rw [resetIndex_rs]; rfl
  unfold State.slotsWf
  rw [queue]
  exact slotLaw_empty 16

@[simp] theorem resetLink_keeps (h : Keeps s0 s) : Keeps s0 s.resetLink := by
  refine modLi_keeps h (fun w => ⟨.nil, by simp, w.3, by simp⟩) ?_
  simp only [Li.talk, Li.sendingReply, Prod.mk.injEq, true_and]
  cases hx : s.li.tx with
  | none => rfl
  | some m => cases hm : m.source <;> simp [TxSource.orphaned, hm]

@[simp] theorem resetFaults_keeps (h : Keeps s0 s) : Keeps s0 s.resetFaults :=
  modFm_keeps h fun w => ⟨w.1.sublist List.filter_sublist, fun e he => w.2 e (List.mem_filter.mp he).1,
    fun e he => w.3 e (List.mem_filter.mp he).1, w.4⟩

@[simp] theorem softReset_keeps (h : Keeps s0 s) : Keeps s0 s.softReset := by
  unfold State.softReset
  have k := resetTables_keeps h
  simp (maxDischargeDepth := 40) [k]

@[simp] theorem ownReset_keeps (h : Keeps s0 s) : Keeps s0 (ownReset s).state := done_keeps (softReset_keeps h)

/-! ### LI's own commands -/

@[simp] theorem ownSetNoticeLevels_keeps (h : Keeps s0 s) (ls : List (Option NoticeLevel)) :
    Keeps s0 (ownSetNoticeLevels ls s).state := by
  refine checked_keeps h fun hc => done_keeps (modLi_keeps h (fun w => ?_) rfl)
  simp only [List.mem_singleton, forall_eq, Bool.or_eq_false_iff, decide_eq_false_iff_not, Decidable.not_not] at hc
  refine ⟨w.1.sublist List.filter_sublist, fun n hn => w.2 n (List.mem_filter.mp hn).1, by simp [setLevels, hc.2],
    fun n hn => ?_⟩
  exact of_decide_eq_true (List.mem_filter.mp hn).2

@[simp] theorem ownReadLink_keeps (h : Keeps s0 s) (c : Option Bool) : Keeps s0 (ownReadLink c s).state :=
  checked_keeps h fun _ => doneWith_keeps (onlyIf_keeps h fun _ => modLi_keeps h (fun w => ⟨w.1, w.2, w.3, w.4⟩) rfl)

@[simp] theorem ownIdentify_keeps (h : Keeps s0 s) : Keeps s0 (ownIdentify s).state := h

/-- Every owner's action keeps the laws. -/
@[simp] theorem ownerOf_keeps (h : Keeps s0 s) (i : Instr) : Keeps s0 (ownerOf i s).state := by
  cases i <;> simp [ownerOf, h]

@[simp] theorem frameOwner_keeps (h : Keeps s0 s) (kind tag : Byte) (b : List Byte) :
    Keeps s0 (frameOwner kind tag b s).state := by
  unfold frameOwner
  cases decodeFrame kind tag b with
  | unknown => exact h
  | badLength => exact h
  | command i => exact ownerOf_keeps h i

@[simp] theorem linkError_keeps (h : Keeps s0 s) (k : LinkErrorKind) : Keeps s0 (s.linkError k) := by
  unfold State.linkError
  refine post_keeps (modLi_keeps h ?_ ?_)
  · intro w; cases k <;> exact ⟨w.1, w.2, w.3, w.4⟩
  · cases k <;> rfl

@[simp] theorem hunt_keeps (h : Keeps s0 s) : Keeps s0 s.hunt := modLi_keeps h (fun w => ⟨w.1, w.2, w.3, w.4⟩) rfl

end

/-! ### The hand-over and the receiver -/

/-- A command's place is taken and its reply joins the list: the command buffer's law holds again (R190, R191). -/
theorem takeCommand_step {s : State} {tag kind : Byte} {owner : State → Answer}
    (ho : ∀ u, Keeps u (owner u).state) : StepKeeps s (s.takeCommand tag kind owner) := by
  unfold State.takeCommand
  split
  · exact (linkError_keeps (Keeps.refl s) _).step
  · rename_i hp
    have k := ho (s.modLi fun l => { l with places := l.places + 1 })
    have kt := k.talk
    simp only [Li.talk, Prod.mk.injEq] at kt
    refine ⟨k.tc, k.cu, fun w => ?_, k.cp, k.ct, k.rs, k.dc, fun w => ?_, k.fm, fun w => ?_, fun w => k.slots ⟨w.cp, w.rs, w.slots⟩⟩
    · have q := k.tables ⟨w.1, w.2, w.3, w.4⟩
      exact ⟨q.1, q.2, q.3, q.4⟩
    · have q := k.notices ⟨w.1, w.2, w.3, w.4⟩
      exact ⟨q.1, q.2, q.3, q.4⟩
    · obtain ⟨w1, w2⟩ := w
      refine ⟨?_, ?_⟩
      · show (owner _).state.li.places = ((owner _).state.li.replies ++ _).length + (owner _).state.li.sendingReply
        have e1 : (owner _).state.li.places = s.li.places + 1 := kt.1
        have e2 : (owner _).state.li.replies = s.li.replies := kt.2.1
        have e3 : (owner _).state.li.sendingReply = s.li.sendingReply := kt.2.2
        rw [e1, e2, e3, List.length_append, List.length_singleton]
        omega
      · show (owner _).state.li.places ≤ 4
        rw [kt.1]
        simp only [modLi_li]
        omega

theorem rxByte_step (s : State) (b : Byte) : StepKeeps s (s.rxByte b) := by
  have upd : ∀ (u : State) (f : List Byte), Keeps u (u.modLi fun l => { l with rx := f }) :=
    fun u f => modLi_keeps (Keeps.refl u) (fun w => ⟨w.1, w.2, w.3, w.4⟩) rfl
  have whole : ∀ f, StepKeeps s (s.wholeFrame f) := by
    intro f
    unfold State.wholeFrame
    dsimp only
    split
    · exact (hunt_keeps (Keeps.refl s)).step.trans (takeCommand_step fun u => frameOwner_keeps (Keeps.refl u) _ _ _)
    · exact (linkError_keeps (hunt_keeps (Keeps.refl s)) _).step
  unfold State.rxByte
  split
  · split
    · exact (upd s _).step
    · exact StepKeeps.refl s
  · unfold State.collect
    split
    · exact (upd s _).step
    · split
      · exact (linkError_keeps (hunt_keeps (Keeps.refl s)) _).step
      · split
        · exact (upd s _).step
        · exact whole _

/-! ### The transmit arbiter -/

theorem transmit_step {s : State} {source : TxSource} {kind tag : Byte} {body : List Byte} (ht : s.li.tx = none)
    (hm : source ≠ .reply) : StepKeeps s (s.transmit source kind tag body) := by
  refine modLi_step (fun w => ⟨w.1, w.2, w.3, w.4⟩) fun w => ⟨?_, w.2⟩
  have := w.1
  simp [Li.sendingReply, ht, hm] at this ⊢
  exact this

theorem nextBlock_waiting {s : State} {id : ChannelId} {b : List Byte} (h : s.nextBlock = some (id, b)) :
    (s.dc.channel id).waiting = some b := by
  unfold State.nextBlock at h
  (repeat' split at h) <;> simp_all [Dc.channel] <;> (obtain ⟨rfl, rfl⟩ := h; simp_all)

theorem arbitrate_step (s : State) : StepKeeps s s.arbitrate := by
  unfold State.arbitrate
  split
  · exact StepKeeps.refl s
  · rename_i hx
    have ht : s.li.tx = none := by
      simp only [Bool.or_eq_true, not_or, Bool.not_eq_true, Option.isSome_eq_false_iff, Option.isNone_iff_eq_none] at hx
      exact hx.2
    split
    · rename_i r rest hr
      refine ⟨id, id, fun w => ⟨w.1, w.2, w.3, w.4⟩, id, id, id, id, fun w => ⟨w.1, w.2, w.3, w.4⟩, id, fun w => ?_,
        State.storeWf.slots⟩
      obtain ⟨w1, w2⟩ := w
      refine ⟨?_, w2⟩
      simp [Li.sendingReply, ht, hr] at w1
      simp [State.beginReply, State.transmit, State.modLi, Li.sendingReply, hr, w1]
    · split
      · rename_i n hn
        refine StepKeeps.trans (b := s.modLi fun l =>
          { l with notices := l.notices.filter fun x => decide (x.source ≠ n.source) })
          (Keeps.step (modLi_keeps (Keeps.refl s) (fun w => ?_) rfl)) (transmit_step ht (by simp))
        exact ⟨w.1.sublist List.filter_sublist, fun n hn => w.2 n (List.mem_filter.mp hn).1, w.3,
          fun n hn => w.4 n (List.mem_filter.mp hn).1⟩
      · split
        · exact StepKeeps.trans (b := s.modDc fun d => { d with snapshot := none })
            (Keeps.step (modDc_keeps (Keeps.refl s) (fun w => ⟨w.1, w.2, w.3, by simp, w.5⟩) rfl)) (transmit_step ht (by simp))
        · split
          · rename_i id b hb
            have hw := nextBlock_waiting hb
            have k : Keeps s (s.modChannel id fun c => { c with waiting := none, inTransmission := true }) := by
              refine modChannel_keeps (Keeps.refl s) (fun w => ?_) rfl rfl
              have q := channel_wf w id
              refine ⟨q.1, fun hn => ?_, by simp⟩
              have := (q.2 hn).1
              rw [hw] at this
              cases this
            refine StepKeeps.trans (Keeps.step (modLi_keeps (f := fun l => { l with lastChannel := id }) k
              (fun w => ⟨w.1, w.2, w.3, w.4⟩) rfl)) (transmit_step (source := .block id) ?_ (by simp))
            exact ht
          · exact StepKeeps.refl s

/-- The message sent: its place is freed, or its channel told (R196). -/
theorem messageSent_step {s : State} {m : TxMessage} (hm : s.li.tx = some m) :
    StepKeeps s ((s.modLi fun l => { l with tx := none }).sentReport m.source) := by
  have gone : m.source ≠ .reply → Keeps s (s.modLi fun l => { l with tx := none }) := fun hs =>
    modLi_keeps (Keeps.refl s) (fun w => ⟨w.1, w.2, w.3, w.4⟩) (by simp [Li.talk, Li.sendingReply, hm, hs])
  unfold State.sentReport
  split
  · rename_i hs
    refine ⟨id, id, fun w => ⟨w.1, w.2, w.3, w.4⟩, id, id, id, id, fun w => ⟨w.1, w.2, w.3, w.4⟩, id, fun w => ?_,
        State.storeWf.slots⟩
    obtain ⟨w1, w2⟩ := w
    simp [Li.sendingReply, hm, hs] at w1
    refine ⟨?_, ?_⟩ <;> simp [State.modLi, Li.sendingReply] <;> omega
  · rename_i hs
    exact (blockSent_keeps (gone (by simp [hs])) _).step
  all_goals
    rename_i hs
    exact (gone (by simp [hs])).step

end Sys2Proof.Machine
end

