-- ==== Sys2Proof/Laws/Commands.lean ====
section
/-! SUPPORT. Commands.lean: what a command of the host comes to once its checks are read off, and what TC's entering a state
comes to. -/

namespace Sys2Proof.Machine

set_option Elab.async false

theorem whenRunning_running {s : State} (h : s.resetHeld = false) (f : State → State) : whenRunning s f = .next (f s) := by
  simp [whenRunning, h]

theorem whenRunning_held {s : State} (h : s.resetHeld = true) (f : State → State) : whenRunning s f = .next s := by
  simp [whenRunning, h]

theorem checked_nil (s : State) (act : State → Answer) : checked s [] act = act s := rfl

theorem checked_cons (s : State) (b : Bool) (r : Status) (cs : List (Bool × Status)) (act : State → Answer) :
    checked s ((b, r) :: cs) act = if b then s.refuse r else checked s cs act := by
  cases b <;> simp [checked]

/-- With a place free, a command is its owner's answer on the state with the place taken. -/
theorem takeCommand_free {s : State} (h : s.li.places < 4) (tag kind : Byte) (owner : State → Answer) :
    s.takeCommand tag kind owner =
      (let a := owner { s with li := { s.li with places := s.li.places + 1 } }
       a.state.reply tag kind a.status a.data) := by
  have : ¬ 4 ≤ s.li.places := by omega
  simp only [State.takeCommand, this, if_false]; rfl

/-- With no place free, a command is an overrun. -/
theorem takeCommand_full {s : State} (h : 4 ≤ s.li.places) (tag kind : Byte) (owner : State → Answer) :
    s.takeCommand tag kind owner = s.linkError .overrun := by
  simp [State.takeCommand, h]

/-- What the loop's being on does to TU. -/
theorem loopFollow_on {s : State} (h : s.loopWanted = true) :
    s.loopFollow =
      { s with tu := if s.tu.loopOn then s.tu else { s.tu with loopOn := true, setpoint := s.reportedTension } } := by
  unfold State.loopFollow
  by_cases k : s.tu.loopOn = true
  · simp [h, k]
  · simp only [Bool.not_eq_true] at k; simp [h, k, State.modTu]

/-- Slack detection disarmed. -/
theorem slackFollow_still {s : State} (h : s.filmMoving = false) :
    s.slackFollow = { s with tu := { s.tu with slackCount := 0, breakCount := 0, recoveryCount := 0, slackEpisode := false } } := by
  simp [State.slackFollow, h, State.modTu]

theorem slackFollow_moving {s : State} (h : s.filmMoving = true) : s.slackFollow = s := by
  simp [State.slackFollow, h]

/-- A planning opportunity changes only whether a round is due. -/
theorem offerPlanning_eq (s : State) :
    s.offerPlanning = { s with rs := { s.rs with planningDue := s.rs.planningDue || s.mayPlan } } := by
  unfold State.offerPlanning
  by_cases h : s.mayPlan = true
  · simp [h, State.modRs]
  · simp only [Bool.not_eq_true] at h; simp [h]

/-- The planning conditions, spelled out (R159). -/
theorem mayPlan_eq (s : State) :
    s.mayPlan =
      decide (s.rs.mode = .auto ∧ s.rs.pass = none ∧ (s.tc.state = .stopped ∨ s.tc.state = .unloaded) ∧ s.fu.probe = none
        ∧ s.ix.pass = none ∧ s.latched = false) := by
  unfold State.mayPlan
  simp only [Bool.decide_and, Bool.decide_or, Bool.and_assoc]
  cases s.rs.pass <;> cases s.fu.probe <;> cases s.ix.pass <;> cases s.latched <;> simp

end Sys2Proof.Machine
end

