-- ==== Sys2Proof/Laws/PerInstr.lean ====
section
/-! SUPPORT. PerInstr.lean: the per-constructor lemmas of the family LinkFrame. A host command's body fits a frame of the
link (at most 4,200 bytes, R189) and its kind lies below 80h, where the part's own messages start (R188); a row that no
frame carries has no body. -/

namespace Sys2Proof.Laws.LinkFrame

set_option Elab.async false

/-- The frame of a well-formed command keeps the link's bounds (R188, R189). -/
def Statement (i : Instr) : Prop :=
  ∀ kind tag body, i.wf = true → encodeCommand i = some (kind, tag, body) → body.length ≤ 4200 ∧ kind.toNat < 0x80

@[simp] theorem length_u8 (n : Nat) : (u8 n).length = 1 := rfl
@[simp] theorem length_u16 (n : Nat) : (u16 n).length = 2 := rfl
@[simp] theorem length_u32 (n : Nat) : (u32 n).length = 4 := rfl
@[simp] theorem length_i32 (z : Int) : (i32 z).length = 4 := rfl
@[simp] theorem length_choiceByte (n : Option Nat) : (choiceByte n).length = 1 := rfl
@[simp] theorem length_wireLabel (l : Label) : (wireLabel l).length = 1 + l.length := by simp [wireLabel]
@[simp] theorem length_optFieldBytes (o : OptArg) : (optFieldBytes o).length = 3 := by cases o <;> rfl

/-- A choice byte for each of a list. -/
@[simp] theorem length_choices {α : Type} (f : α → Option Nat) (l : List α) :
    (l.flatMap fun x => choiceByte (f x)).length = l.length := by
  induction l with
  | nil => rfl
  | cons x xs ih => simp [ih, Nat.add_comm]

/-- A command whose frame is known keeps the bounds when its own body and kind do. -/
theorem of_frame {i : Instr} {k t : Byte} {b : List Byte} (he : encodeCommand i = some (k, t, b))
    (hb : i.wf = true → b.length ≤ 4200) (hk : k.toNat < 0x80) : Statement i := by
  intro kind tag body hw h
  simp only [he, Option.some.injEq, Prod.mk.injEq] at h
  obtain ⟨rfl, rfl, rfl⟩ := h
  exact ⟨hb hw, hk⟩

/-- A row that no frame carries. -/
theorem of_none {i : Instr} (he : encodeCommand i = none) : Statement i := by
  intro kind tag body _ h
  rw [he] at h
  cases h

theorem powerOn (sensors : Sensors) : Statement (.powerOn sensors) :=
  of_none rfl

theorem resetnRelease (sensors : Sensors) : Statement (.resetnRelease sensors) :=
  of_none rfl

theorem uptimeTick : Statement (.uptimeTick) :=
  of_none rfl

theorem linkFrameReceived (bytes : List Byte) : Statement (.linkFrameReceived bytes) :=
  of_none rfl

theorem frameByteTimeout : Statement (.frameByteTimeout) :=
  of_none rfl

theorem messageBegin : Statement (.messageBegin) :=
  of_none rfl

theorem messageSent : Statement (.messageSent) :=
  of_none rfl

theorem holdAssert : Statement (.holdAssert) :=
  of_none rfl

theorem holdRelease : Statement (.holdRelease) :=
  of_none rfl

theorem setMotion (tag : Byte) (args : MotionSettings) : Statement (.setMotion tag args) :=
  of_frame rfl (fun _ => by simp) (by decide)

theorem seekPosition (tag : Byte) (target : Nat) : Statement (.seekPosition tag target) :=
  of_frame rfl (fun _ => by simp) (by decide)

theorem jog (tag : Byte) (distance : Int) (speed : Option JogSpeed) : Statement (.jog tag distance speed) :=
  of_frame rfl (fun _ => by simp) (by decide)

theorem stopTransport (tag : Byte) : Statement (.stopTransport tag) :=
  of_frame rfl (fun _ => Nat.zero_le _) (by decide)

theorem readTransport (tag : Byte) : Statement (.readTransport tag) :=
  of_frame rfl (fun _ => Nat.zero_le _) (by decide)

theorem encoderTick (direction : TickDirection) (pixels : List Byte) : Statement (.encoderTick direction pixels) :=
  of_none rfl

theorem speedWindow : Statement (.speedWindow) :=
  of_none rfl

theorem settleDwellExpiry : Statement (.settleDwellExpiry) :=
  of_none rfl

theorem encoderTimeout : Statement (.encoderTimeout) :=
  of_none rfl

theorem trailerEvent : Statement (.trailerEvent) :=
  of_none rfl

theorem gateLoss : Statement (.gateLoss) :=
  of_none rfl

theorem gateFilmSeen : Statement (.gateFilmSeen) :=
  of_none rfl

theorem zeroTension (tag : Byte) : Statement (.zeroTension tag) :=
  of_frame rfl (fun _ => Nat.zero_le _) (by decide)

theorem setTension (tag : Byte) (args : TensionArgs) : Statement (.setTension tag args) :=
  of_frame rfl (fun _ => by simp) (by decide)

theorem readTension (tag : Byte) : Statement (.readTension tag) :=
  of_frame rfl (fun _ => Nat.zero_le _) (by decide)

theorem tensionSample (code : Nat) : Statement (.tensionSample code) :=
  of_none rfl

theorem calibrationComplete : Statement (.calibrationComplete) :=
  of_none rfl

theorem setpointRampStep : Statement (.setpointRampStep) :=
  of_none rfl

theorem onTargetSet : Statement (.onTargetSet) :=
  of_none rfl

theorem overTensionDetection : Statement (.overTensionDetection) :=
  of_none rfl

theorem speedCapLift : Statement (.speedCapLift) :=
  of_none rfl

theorem slackEpisodeBegin : Statement (.slackEpisodeBegin) :=
  of_none rfl

theorem slackEpisodeEnd : Statement (.slackEpisodeEnd) :=
  of_none rfl

theorem filmBreakDetection : Statement (.filmBreakDetection) :=
  of_none rfl

theorem assignRoll (tag : Byte) (args : AssignArgs) : Statement (.assignRoll tag args) := by
  refine of_frame rfl (fun hw => ?_) (by decide)
  have hl : args.label.length < 256 := by
    simp only [Instr.wf, isWireLabel, Bool.and_eq_true, decide_eq_true_eq] at hw
    omega
  simp
  omega

theorem forgetIndex (tag : Byte) (slot : Nat) : Statement (.forgetIndex tag slot) :=
  of_frame rfl (fun _ => by simp) (by decide)

theorem readDirectory (tag : Byte) : Statement (.readDirectory tag) :=
  of_frame rfl (fun _ => Nat.zero_le _) (by decide)

theorem mountRoll (tag : Byte) (slot : Nat) : Statement (.mountRoll tag slot) :=
  of_frame rfl (fun _ => by simp) (by decide)

theorem unmountRoll (tag : Byte) : Statement (.unmountRoll tag) :=
  of_frame rfl (fun _ => Nat.zero_le _) (by decide)

theorem carouselPositionChange (station : Nat) (atPosition : Bool) :
    Statement (.carouselPositionChange station atPosition) :=
  of_none rfl

theorem threadingComplete : Statement (.threadingComplete) :=
  of_none rfl

theorem rotationTimeout : Statement (.rotationTimeout) :=
  of_none rfl

theorem threadingTimeout : Statement (.threadingTimeout) :=
  of_none rfl

theorem retractionTimeout : Statement (.retractionTimeout) :=
  of_none rfl

theorem leaderRetracted : Statement (.leaderRetracted) :=
  of_none rfl

theorem slotPresenceChange (slot : Nat) (present : Bool) : Statement (.slotPresenceChange slot present) :=
  of_none rfl

theorem presenceStable (slot : Nat) : Statement (.presenceStable slot) :=
  of_none rfl

theorem setMarkClasses (tag : Byte) (shortMax : Nat) (mediumMax : Nat) (longMax : Nat) :
    Statement (.setMarkClasses tag shortMax mediumMax longMax) :=
  of_frame rfl (fun _ => by simp) (by decide)

theorem indexRoll (tag : Byte) (choice : Option IndexChoice) (target : OptArg) :
    Statement (.indexRoll tag choice target) :=
  of_frame rfl (fun _ => by simp) (by decide)

theorem readIndex (tag : Byte) : Statement (.readIndex tag) :=
  of_frame rfl (fun _ => Nat.zero_le _) (by decide)

theorem edgeMark (edge : MarkEdge) (position : Nat) : Statement (.edgeMark edge position) :=
  of_none rfl

theorem spliceEvent (position : Nat) : Statement (.spliceEvent position) :=
  of_none rfl

theorem setPitchLearning (tag : Byte) (shift : Nat) : Statement (.setPitchLearning tag shift) :=
  of_frame rfl (fun _ => by simp) (by decide)

theorem locateFrame (tag : Byte) (frame : Nat) : Statement (.locateFrame tag frame) :=
  of_frame rfl (fun _ => by simp) (by decide)

theorem frameAt (tag : Byte) (position : Nat) : Statement (.frameAt tag position) :=
  of_frame rfl (fun _ => by simp) (by decide)

theorem focusProbe (tag : Byte) (centre : OptArg) (halfSpan : OptArg) (step : OptArg) :
    Statement (.focusProbe tag centre halfSpan step) :=
  of_frame rfl (fun _ => by simp) (by decide)

theorem setFocus (tag : Byte) (args : FocusSettings) : Statement (.setFocus tag args) :=
  of_frame rfl (fun _ => by simp) (by decide)

theorem clearFocusMap (tag : Byte) : Statement (.clearFocusMap tag) :=
  of_frame rfl (fun _ => Nat.zero_le _) (by decide)

theorem readFocusMap (tag : Byte) : Statement (.readFocusMap tag) :=
  of_frame rfl (fun _ => Nat.zero_le _) (by decide)

theorem lensStep : Statement (.lensStep) :=
  of_none rfl

theorem probeBandRead (lines : List (List Byte)) : Statement (.probeBandRead lines) :=
  of_none rfl

theorem setCapture (tag : Byte) (args : CaptureSettings) : Statement (.setCapture tag args) :=
  of_frame rfl (fun _ => by simp) (by decide)

theorem readFrameStore (tag : Byte) : Statement (.readFrameStore tag) :=
  of_frame rfl (fun _ => Nat.zero_le _) (by decide)

theorem lampWarmupExpiry : Statement (.lampWarmupExpiry) :=
  of_none rfl

theorem loadWindow (tag : Byte) (args : WindowArgs) : Statement (.loadWindow tag args) := by
  refine of_frame rfl (fun hw => ?_) (by decide)
  have hl : args.label.length < 256 := by
    simp only [Instr.wf, isWireLabel, Bool.and_eq_true, decide_eq_true_eq] at hw
    omega
  simp
  omega

theorem dropWindow (tag : Byte) (id : Nat) : Statement (.dropWindow tag id) :=
  of_frame rfl (fun _ => by simp) (by decide)

theorem listWindows (tag : Byte) (clear : Option Bool) : Statement (.listWindows tag clear) :=
  of_frame rfl (fun _ => by simp) (by decide)

theorem submitRequest (tag : Byte) (image : Nat) (origin : Nat) (priority : Option Priority) :
    Statement (.submitRequest tag image origin priority) :=
  of_frame rfl (fun _ => by simp) (by decide)

theorem cancelRequest (tag : Byte) (id : Nat) : Statement (.cancelRequest tag id) :=
  of_frame rfl (fun _ => by simp) (by decide)

theorem queryQueue (tag : Byte) : Statement (.queryQueue tag) :=
  of_frame rfl (fun _ => Nat.zero_le _) (by decide)

theorem setMode (tag : Byte) (mode : Option DeviceMode) : Statement (.setMode tag mode) :=
  of_frame rfl (fun _ => by simp) (by decide)

theorem setPlanning (tag : Byte) (joinDistance : Nat) (onDemand : Option Bool) :
    Statement (.setPlanning tag joinDistance onDemand) :=
  of_frame rfl (fun _ => by simp) (by decide)

theorem planningRound : Statement (.planningRound) :=
  of_none rfl

theorem captureRunOrder (pixels : List Byte) : Statement (.captureRunOrder pixels) :=
  of_none rfl

theorem configureChannel (tag : Byte) (channel : Option ChannelId) (mode : Option ChannelMode) (interval : Nat) :
    Statement (.configureChannel tag channel mode interval) :=
  of_frame rfl (fun _ => by simp) (by decide)

theorem readChannels (tag : Byte) : Statement (.readChannels tag) :=
  of_frame rfl (fun _ => Nat.zero_le _) (by decide)

theorem channelTakeSlot : Statement (.channelTakeSlot) :=
  of_none rfl

theorem telemetryIntervalExpiry : Statement (.telemetryIntervalExpiry) :=
  of_none rfl

theorem setNoticeLevels (tag : Byte) (levels : List (Option NoticeLevel)) :
    Statement (.setNoticeLevels tag levels) := by
  refine of_frame rfl (fun hw => ?_) (by decide)
  have hl : levels.length = 16 := by simpa [Instr.wf] using hw
  rw [length_choices (fun l : Option NoticeLevel => l.map NoticeLevel.ctorIdx)]
  omega

theorem readLink (tag : Byte) (clear : Option Bool) : Statement (.readLink tag clear) :=
  of_frame rfl (fun _ => by simp) (by decide)

theorem identify (tag : Byte) : Statement (.identify tag) :=
  of_frame rfl (fun _ => Nat.zero_le _) (by decide)

theorem reset (tag : Byte) : Statement (.reset tag) :=
  of_frame rfl (fun _ => Nat.zero_le _) (by decide)

theorem clearFaults (tag : Byte) (scope : Option ClearScope) : Statement (.clearFaults tag scope) :=
  of_frame rfl (fun _ => by simp) (by decide)

theorem raiseFault (tag : Byte) (cls : Option FaultClass) (code : Nat) : Statement (.raiseFault tag cls code) :=
  of_frame rfl (fun _ => by simp) (by decide)

theorem readFaults (tag : Byte) : Statement (.readFaults tag) :=
  of_frame rfl (fun _ => Nat.zero_le _) (by decide)

theorem setLogMode (tag : Byte) (mode : Option LogMode) : Statement (.setLogMode tag mode) :=
  of_frame rfl (fun _ => by simp) (by decide)

theorem readFaultLog (tag : Byte) : Statement (.readFaultLog tag) :=
  of_frame rfl (fun _ => Nat.zero_le _) (by decide)

theorem clearLog (tag : Byte) : Statement (.clearLog tag) :=
  of_frame rfl (fun _ => Nat.zero_le _) (by decide)

theorem resetnAssert : Statement (.resetnAssert) :=
  of_none rfl

end Sys2Proof.Laws.LinkFrame
end

