-- ==== Sys2Proof/Tests/Slice0.lean ====
section
/-! SUPPORT. Slice0.lean: the model's own tests: ill-formed commands that the well-formedness check refuses, worked cases of
the spec, and for every statement with hypotheses a concrete state and operands that meet them. -/

namespace Sys2Proof.Tests

open Sys2Proof Sys2Proof.Machine Sys2Proof.Expect

set_option Elab.async false

/-! ### States the tests share -/

/-- A command that the link can carry. -/
def wireJog : { i : Instr // i.wf = true } := ⟨.jog 2 (-300) none, by decide +kernel⟩

/-- The state after a command, where it answers one. -/
def after (i : Instr) (s : State) : Option State :=
  match exec i s with
  | .next t => some t
  | _ => none

def desc : Description := { gauge := .mm16, base := .acetate, q0 := 76800, lampLevel := 500 }

/-- The roll "A", described, in its slot. -/
def rollA : Entry := { Entry.empty with state := .stored, label := [0x41], description := some desc }

/-- TC UNLOADED: the roll "A" in slot 3, an undescribed roll in slot 5. -/
def shelf : State :=
  { State.reset with
    cu := { Cu.reset with entries := (Cu.reset.entries.set 3 rollA).set 5 { Entry.empty with state := .stored } },
    presence := (State.reset.presence.set 3 true).set 5 true }

/-- "A" mounted, TC STOPPED at P = 1000. -/
def loaded : State :=
  { shelf with
    tc := { Tc.reset with state := .stopped, position := 1000, threaded := true },
    cu :=
      { shelf.cu with
        station := 3, atPosition := true, lock := some 3, entries := shelf.cu.entries.set 3 { rollA with state := .mounted } },
    gateFilm := true }

def withTc (f : Tc → Tc) (s : State) : State := { s with tc := f s.tc }
def withTu (f : Tu → Tu) (s : State) : State := { s with tu := f s.tu }
def withCu (f : Cu → Cu) (s : State) : State := { s with cu := f s.cu }
def withIx (f : Ix → Ix) (s : State) : State := { s with ix := f s.ix }
def withFu (f : Fu → Fu) (s : State) : State := { s with fu := f s.fu }
def withCp (f : Cp → Cp) (s : State) : State := { s with cp := f s.cp }
def withRs (f : Rs → Rs) (s : State) : State := { s with rs := f s.rs }
def withDc (f : Dc → Dc) (s : State) : State := { s with dc := f s.dc }
def withLi (f : Li → Li) (s : State) : State := { s with li := f s.li }

/-- AUTO mode with a round due. -/
def automatic (s : State) : State := withRs (fun r => { r with mode := .auto, planningDue := true }) s

def hostSeek : Seek :=
  { requester := .host, target := 5000, clamped := false, speedLimit := 2000, accel := 1500, capSpeed := 200, dwell := 50,
    corrections := 0, correcting := false }

def seeking : State :=
  withTc
    (fun c =>
      { c with
        state := .seeking, motion := some (.seek hostSeek), phase := .travel, travel := .forward, direction := .forward,
        speed := 100 })
    loaded

/-- The host's seek in a phase, at a position, with its corrections and the ticks of the present 10 ms. -/
def seekAt (ph : Phase) (position ticks corrections : Nat) : State :=
  withTc
    (fun c =>
      { c with
        phase := ph, position := position, windowTicks := ticks,
        motion := some (.seek { hostSeek with corrections := corrections }) })
    seeking

def captureRun : Run := { requester := .rs, purpose := .capture, speed := 100, accel := 1500, endPosition := some 9000 }

def scanning : State :=
  withTc (fun c => { c with state := .scanning, motion := some (.run captureRun) }) seeking

def rewinding : State :=
  withTc
    (fun c =>
      { c with
        state := .rewinding,
        motion := some (.rewind { recovery := false, speedLimit := 4000, accel := 1500, capSpeed := 200 }) })
    seeking

/-- A film whose motion has ended, at rest in an emergency stop. -/
def stopping : State := withTc (fun c => { c with motion := none, phase := .emergencyStop }) scanning

def halted : State := withTc (fun c => { c with state := .halted }) loaded

/-- A rotation toward slot 3 for the mount of "A". -/
def rotating : State :=
  withCu
    (fun c =>
      { c with
        rotation := some { target := 3, ascending := true }, rotationTimer := true, lock := some 3,
        entries := c.entries.set 3 { rollA with state := .mounting } })
    (withTc (fun c => { c with state := .threading, motion := some (.threading { speedLimit := 100, accel := 1500 }) }) shelf)

/-- The threader engaged on "A", film in the gate and the loop on target. -/
def threading : State :=
  { withTu (fun u => { u with loopOn := true, onTarget := true })
      (withCu
        (fun c =>
          { c with
            station := 3, atPosition := true, rotation := none, rotationTimer := false, threader := .engaged,
            threadingTimer := true })
        rotating) with
    gateFilm := true }

def retracting : State :=
  withCu (fun c => { c with threader := .retracting, retractionTimer := true, lock := some 3 }) shelf

/-- Segment 0, open, from frame 1 at 500 with 300 ticks a frame. -/
def seg0 : Segment :=
  { number := 0, firstFrame := 1, lastFrame := none, startPos := 500, endPos := none, frontier := none, anchorFrame := 1,
    anchorPos := 500, pitch := 76800, observations := 0, rejects := 0, inferred := 0, reason := .start,
    learning := .provisional }

/-- COUNTING at frame 4, whose mark lay at 1400. -/
def counting : State :=
  withIx
    (fun x =>
      { x with
        segments := [seg0],
        tracker :=
          { state := .counting, frame := some 4, segment := some 0, lastMark := some { position := 1400, cls := .short },
            leaderArmed := false, stray := 0 } })
    seeking

def underEdge (m : Nat) (s : State) : State :=
  withIx (fun x => { x with firstEdge := some { position := m, direction := .forward } }) s

def freshPass : IndexPass :=
  { kind := .fresh, target := none, requester := .host, phase := .run, frontier := true, countedTo := 4, pending := none,
    lastAtStart := none, startedLost := false, firstMarkDue := false, failed := false, limitHit := false,
    trailer := none }

def indexing : State := withIx (fun x => { x with pass := some freshPass }) counting

def points (score : Option Nat) : List ProbePoint := (List.range 5).map fun i => { lens := 10 * i, score := score }

/-- A host probe in a phase, the lamp in a state, its points. -/
def probing (ph : ProbePhase) (lamp : Lamp) (ps : List ProbePoint) : State :=
  withCp (fun c => { c with probeHolds := true, lamp := lamp })
    (withFu
      (fun f =>
        { f with
          probe :=
            some
              { requester := .host, position := 1000, centre := 20, halfSpan := 20, step := 10, shifted := false, sweep := 1,
                phase := ph, points := ps } })
      loaded)

def request (id : Nat) (st : RequestState) (slot : Option Nat) : Request :=
  { id := id, age := 1, origin := 0, image := 5, windowId := 1, label := [0x41], frame := 3, priority := .normal, slot := slot,
    placed := none, retries := 0, storeSlot := none, passedOver := 0, state := st }

def queued (q : List Request) (s : State) : State := withRs (fun r => { r with queue := q }) s

def window (id base limit : Nat) : Window :=
  { id := id, base := base, limit := limit, label := [0x42], firstFrame := 10, stride := 2, access := .restricted,
    originMask := 5, denied := 0 }

def windows (ws : List Window) (s : State) : State := { s with ct := { windows := ws } }

/-- A filled frame-store slot of 2 lines of 3 pixels for request 7. -/
def filled (st : StoreState) : StoreSlot :=
  { state := st, reqId := 7,
    record :=
      { reqId := 7, origin := 1, image := 10, label := [0x41], frame := 3, segment := 0,
        flags := { clamped := false, truncated := false, markNotSeen := false, focusLag := false, predictedOnly := false },
        predicted := 900, observed := none, windowStart := 800, lines := 2, pixels := 3, lens := 5, score := 6 },
    lines := [[1, 2, 3], [4, 5, 6]] }

/-- Slot 4 holds request 7's image. -/
def holding (st : StoreState) : State :=
  queued [{ request 7 .captured (some 3) with storeSlot := some 4 }]
    (withCp
      (fun c =>
        { c with slots := c.slots.set 4 (some (filled st)), ready := if st = .ready then [4] else [] })
      loaded)

def planA : RunPlan :=
  { jobs := [{ reqId := 7, slot := 4, frame := 3, windowStart := 1200, lines := 20 }], start := 1000, speed := 100,
    endPosition := 1240, speedLowered := false, verified := false }

def capturePass : RsPass :=
  { kind := .capture, phase := .seek, slot := 3, label := [0x41], item := none, probePosition := 0, dropped := false,
    plan := some planA, seekDone := true, lampLit := true, disturbed := false, capturedJobs := 0, misframeJobs := 0,
    droppedJobs := 0 }

def planned (s : State) : State := withRs (fun r => { r with pass := some capturePass }) s

def fault (c : FaultCode) (k : FaultClass) : FaultEntry :=
  { code := c, cls := k, firstSeen := 5, count := 1, detail := .overTension, position := 4, slot := some 3 }

def faulty (es : List FaultEntry) (s : State) : State := { s with fm := { s.fm with active := es } }

/-- MESSAGE: a message of a source in transmission. -/
def transmitting (src : TxSource) (s : State) : State :=
  withLi (fun l => { l with tx := some { source := src, frame := frameBytes 0x80 0 [] }, places := 1 }) s

/-- Channel A sends block k of the two of slot 4. -/
def sending (k : Nat) : State :=
  withDc
    (fun d =>
      { d with
        a :=
          { d.a with
            inTransmission := true, sending := some { slot := 4, reqId := 7, blockCount := 2, nextBlock := k } } })
    (transmitting (.block .a) (holding .sending))

def sensors (gate : Bool) : Sensors :=
  { presence := (List.replicate 12 false).set 2 true, station := 4, atPosition := true, gateFilm := gate }

/-! ### WellFormed refuses an ill-formed command, one for each check -/

theorem test_illFormed_sensors :
    [Instr.powerOn { sensors true with presence := [] }, .resetnRelease { sensors true with station := 12 }].all
      (fun i => !i.wf) = true := by decide +kernel

theorem test_illFormed_motion :
    [Instr.setMotion 0 ⟨65536, 0, 0, 0, 0⟩, .setMotion 0 ⟨0, 65536, 0, 0, 0⟩, .setMotion 0 ⟨0, 0, 65536, 0, 0⟩,
      .setMotion 0 ⟨0, 0, 0, 65536, 0⟩, .setMotion 0 ⟨0, 0, 0, 0, 65536⟩, .seekPosition 0 4294967296, .jog 0 2147483648 none,
      .jog 0 (-2147483649) none, .encoderTick .forward (List.replicate 8193 0)].all
      (fun i => !i.wf) = true := by decide +kernel

theorem test_illFormed_tension :
    [Instr.setTension 0 ⟨256, 0, 0, 0, 0, 0, none⟩, .setTension 0 ⟨0, 65536, 0, 0, 0, 0, none⟩,
      .setTension 0 ⟨0, 0, 65536, 0, 0, 0, none⟩, .setTension 0 ⟨0, 0, 0, 65536, 0, 0, none⟩,
      .setTension 0 ⟨0, 0, 0, 0, 256, 0, none⟩, .setTension 0 ⟨0, 0, 0, 0, 0, 256, none⟩, .tensionSample 4096].all
      (fun i => !i.wf) = true := by decide +kernel

theorem test_illFormed_carousel :
    [Instr.assignRoll 0 ⟨256, [], none, none, 0, 0⟩, .assignRoll 0 ⟨0, List.replicate 256 0, none, none, 0, 0⟩,
      .assignRoll 0 ⟨0, [], none, none, 4294967296, 0⟩, .assignRoll 0 ⟨0, [], none, none, 0, 65536⟩, .forgetIndex 0 256,
      .mountRoll 0 256, .carouselPositionChange 12 true, .slotPresenceChange 12 true, .presenceStable 12].all
      (fun i => !i.wf) = true := by decide +kernel

theorem test_illFormed_index :
    [Instr.setMarkClasses 0 65536 0 0, .setMarkClasses 0 0 65536 0, .setMarkClasses 0 0 0 65536,
      .indexRoll 0 none (.present 65536), .edgeMark .first 16777216, .spliceEvent 16777216, .setPitchLearning 0 256,
      .locateFrame 0 65536, .frameAt 0 4294967296].all
      (fun i => !i.wf) = true := by decide +kernel

theorem test_illFormed_focus :
    [Instr.focusProbe 0 (.present 65536) .absent .absent, .focusProbe 0 .absent (.present 65536) .absent,
      .focusProbe 0 .absent .absent (.present 65536), .setFocus 0 ⟨65536, 0, 0, 0, 0, 0, 0⟩,
      .setFocus 0 ⟨0, 65536, 0, 0, 0, 0, 0⟩, .setFocus 0 ⟨0, 0, 65536, 0, 0, 0, 0⟩,
      .setFocus 0 ⟨0, 0, 0, 4294967296, 0, 0, 0⟩, .setFocus 0 ⟨0, 0, 0, 0, 256, 0, 0⟩,
      .setFocus 0 ⟨0, 0, 0, 0, 0, 65536, 0⟩, .setFocus 0 ⟨0, 0, 0, 0, 0, 0, 65536⟩, .probeBandRead [],
      .probeBandRead (List.replicate 8 (List.replicate 8193 0))].all
      (fun i => !i.wf) = true := by decide +kernel

theorem test_illFormed_capture :
    [Instr.setCapture 0 ⟨256, 0, 0, 0, 0, 0, 0⟩, .setCapture 0 ⟨0, 65536, 0, 0, 0, 0, 0⟩,
      .setCapture 0 ⟨0, 0, 65536, 0, 0, 0, 0⟩, .setCapture 0 ⟨0, 0, 0, 65536, 0, 0, 0⟩,
      .setCapture 0 ⟨0, 0, 0, 0, 65536, 0, 0⟩, .setCapture 0 ⟨0, 0, 0, 0, 0, 65536, 0⟩,
      .setCapture 0 ⟨0, 0, 0, 0, 0, 0, 65536⟩, .captureRunOrder (List.replicate 8193 0)].all
      (fun i => !i.wf) = true := by decide +kernel

theorem test_illFormed_requests :
    [Instr.loadWindow 0 ⟨256, 0, 0, [], 0, 0, none, 0⟩, .loadWindow 0 ⟨0, 4294967296, 0, [], 0, 0, none, 0⟩,
      .loadWindow 0 ⟨0, 0, 4294967296, [], 0, 0, none, 0⟩, .loadWindow 0 ⟨0, 0, 0, List.replicate 256 0, 0, 0, none, 0⟩,
      .loadWindow 0 ⟨0, 0, 0, [], 65536, 0, none, 0⟩, .loadWindow 0 ⟨0, 0, 0, [], 0, 256, none, 0⟩,
      .loadWindow 0 ⟨0, 0, 0, [], 0, 0, none, 65536⟩, .dropWindow 0 256, .submitRequest 0 4294967296 0 none,
      .submitRequest 0 0 256 none, .cancelRequest 0 256, .setPlanning 0 4294967296 none].all
      (fun i => !i.wf) = true := by decide +kernel

theorem test_illFormed_link :
    [Instr.configureChannel 0 none none 65536, .setNoticeLevels 0 [], .raiseFault 0 none 256].all
      (fun i => !i.wf) = true := by decide +kernel

/-! ### Worked cases of the spec -/

/-- The CRC's check value (R188). -/
theorem test_crc : crc16 [0x31, 0x32, 0x33, 0x34, 0x35, 0x36, 0x37, 0x38, 0x39] = 0x29B1 := by decide +kernel

/-- Powering the part on with nothing in it gives the state after reset. -/
theorem test_powerOn_empty :
    after (.powerOn { presence := List.replicate 12 false, station := 0, atPosition := false, gateFilm := false }) State.reset
      = some State.reset := by decide +kernel

/-- A frame of SEEK_POSITION, received byte by byte, is the command. -/
theorem test_frame_seek :
    after (.linkFrameReceived (commandFrame (.seekPosition 7 1234))) loaded = after (.seekPosition 7 1234) loaded := by
  decide +kernel

/-- The default limit code, 2048 + 320 (R32). -/
theorem test_limitCode : limitCodeOf 2048 400 4 1280 = 2368 := by decide

/-- The capture window of 1,000 ticks a frame, PROVISIONAL and LEARNED (R89). -/
theorem test_captureWindow :
    captureWindow { seg0 with pitch := 256000 } = 250
      ∧ captureWindow { seg0 with pitch := 256000, learning := .learned } = 125 := by decide

/-- A mark three frames on is counted as frame 7. -/
theorem test_mark_counted :
    (after (.edgeMark .second 2350) (underEdge 2300 counting)).map (fun t => t.ix.tracker.frame) = some (some 7) := by
  decide +kernel

/-! ### Witnesses: states and operands that meet the statements' hypotheses -/

theorem witness_CommandsThatAreNotTaken :
    ({ loaded with resetHeld := true } : State).resetHeld = true
      ∧ (encodeCommand (.readIndex 4)).isSome = true ∧ loaded.resetHeld = false
      ∧ 4 ≤ (withLi (fun l => { l with places := 4 }) loaded).li.places := by decide

theorem witness_FrameBodiesRoundTrip :
    wireJog.val.wf = true ∧ encodeCommand wireJog.val = some (0x03, 2, [255, 255, 254, 212, 255])
      ∧ loaded.li.rx = [] := by decide

theorem witness_ReceiverDiscardsBadFrames :
    loaded.li.rx = [] ∧ loaded.resetHeld = false ∧ (∀ b ∈ ([1, 2] : List Byte), b ≠ 0xC3) ∧ 4200 < 16 * 256 + 105
      ∧ (0x1069 : BitVec 16) ≠ crc16 (1 :: 2 :: (u16 3 ++ [1, 2, 3])) := by decide +kernel

theorem witness_SentMessageIsReported :
    (transmitting .reply loaded).li.tx.map TxMessage.source = some .reply
      ∧ (transmitting .orphan loaded).li.tx.map TxMessage.source = some .orphan
      ∧ (sending 0).li.tx.map TxMessage.source = some (.block .a)
      ∧ ((sending 0).dc.channel .a).sending.map (fun d => (d.nextBlock, d.blockCount)) = some (0, 2)
      ∧ ((sending 1).dc.channel .a).sending.map (fun d => (d.nextBlock, d.blockCount)) = some (1, 2) := by decide +kernel

/-- A delivery ends: the slot is FREE and the image counted. -/
theorem test_delivery_ends :
    (after .messageSent (sending 1)).map (fun t => (t.cp.slots[4]?, t.dc.a.imagesSent, t.dc.a.sending))
      = some (some none, 1, none) := by decide +kernel

theorem witness_StartUpAndTheResetPin :
    (sensors false).wf = true ∧ (sensors false).gateFilm = false ∧ (sensors true).wf = true
      ∧ (sensors true).gateFilm = true ∧ loaded.resetHeld = false := by decide

theorem witness_NoticesCoalesce :
    (∀ n ∈ State.reset.li.notices, 1 ≤ n.count ∧ n.count ≤ 255) ∧ State.reset.level .start ≠ .off
      ∧ State.reset.level .passDone = .off := by decide

theorem witness_NoticeLevelsAreReplaced :
    Listening loaded ∧ (List.replicate 16 (some NoticeLevel.low)).length = 16
      ∧ none ∈ (none :: List.replicate 15 (some NoticeLevel.low)) := by decide

theorem witness_SoftResetDropsWorkAndKeepsTables : Listening scanning ∧ Listening loaded := by decide

/-- RESET of a run on the move leaves its controlled stop, of a dwell STOPPED, of a threading the threading (R23). -/
theorem test_soft_reset :
    [scanning, seekAt .dwell 5000 0 0, threading].map
        (fun s => (after (.reset 1) s).map fun t => (t.tc.state, t.tc.phase, t.tc.motion.isSome))
      = [some (.scanning, .controlledStop, false), some (.stopped, .idle, false), some (.threading, .idle, true)] := by
  decide +kernel

/-- The settle dwell is set to a length. -/
def dwelling (ms : Nat) (s : State) : State := withTc (fun c => { c with settings := { c.settings with settleDwell := ms } }) s

theorem witness_HostSeeksAreTaken :
    Listening loaded ∧ seekRefusal loaded true = some .range ∧ seekRefusal loaded false = none
      ∧ seekRefusal shelf false = some .noRoll ∧ resting loaded.tc = true ∧ loaded.tc.motion = none
      ∧ (dwelling 0 loaded).tc.settings.settleDwell = 0 ∧ loaded.tc.settings.settleDwell ≠ 0
      ∧ Listening seeking ∧ seekRefusal seeking false = none ∧ resting seeking.tc = false
      ∧ seeking.tc.motion = some (.seek hostSeek) ∧ hostSeek.requester = .host := by decide

/-- A seek from rest to a target within 4 ticks of P is in its dwell at once, and with a dwell of 0 ms in STOPPED; one 5
ticks away departs. -/
theorem test_seek_near :
    [(loaded, 1004), (dwelling 0 loaded, 1004), (loaded, 1005)].map
        (fun x => (after (.seekPosition 1 x.2) x.1).map fun t => (t.tc.state, t.tc.phase, t.tc.travel))
      = [some (.seeking, .dwell, .none), some (.stopped, .idle, .none), some (.seeking, .travel, .forward)] := by
  decide +kernel

/-- A target at the stopping point of a seek on the move is approached, one before it asks for the turn (R6). -/
theorem test_seek_turns :
    [1334, 1333].map (fun p => (after (.seekPosition 1 p) seeking).map fun t => t.tc.phase)
      = [some .travel, some .reversal] := by decide +kernel

/-- A seek taken at creep speed to a target 2 ticks ahead arrives as it is taken (R7), and one whose target is the stopping
point decelerates as it is taken (R5). -/
theorem test_seek_met_at_once :
    [(2, 5), (30, 30)].map (fun (x : Int × Nat) =>
        (after (.jog 1 x.1 (some .creep)) (withTc (fun c => { c with speed := x.2 }) seeking)).map
          fun t => (t.tc.state, t.tc.phase, t.tc.direction))
      = [some (.seeking, .dwell, .none), some (.seeking, .decelerate, .forward)] := by decide +kernel

theorem witness_StopTransportByState :
    Listening rewinding ∧ rewinding.rs.pass = none ∧ rewinding.ix.pass = none ∧ rewinding.tc.state = .rewinding
      ∧ Listening halted ∧ halted.tc.state = .halted ∧ stopping.tc.motion = none ∧ stopping.tc.state = .scanning
      ∧ scanning.tc.motion = some (.run captureRun) ∧ resting scanning.tc = false
      ∧ resting (withTc (fun c => { c with speed := 0 }) scanning).tc = true ∧ (seekAt .dwell 5000 0 0).tc.phase = .dwell
      ∧ resting (seekAt .creep 4990 0 0).tc = false ∧ (seekAt .creep 4990 0 0).tc.phase ≠ .dwell
      ∧ resting (withTc (fun c => { c with speed := 0 }) seeking).tc = true := by decide

theorem witness_TickOfIdleFilm :
    loaded.resetHeld = false ∧ loaded.tc.motion = none ∧ loaded.ix.pass = none ∧ loaded.ix.tracker.state ≠ .reckoning
      ∧ loaded.fu.tracking = false ∧ loaded.tc.state ≠ .scanning
      ∧ (0 < loaded.tc.underrun ∨ loaded.tc.position < 16777215) := by decide

/-- A rewind that ticks to P = 0 with no film in the gate ends. -/
theorem test_rewind_ends :
    (after (.encoderTick .reverse []) { withTc (fun c => { c with position := 1 }) rewinding with gateFilm := false }).map
      (fun t => (t.tc.position, t.tc.underrun, t.tc.state)) = some (0, 0, .unloaded) := by decide +kernel

/-- An unmount at P = 0 goes at creep speed, before and after it counts into the leader; far from 0 at the rewind speed
(R14). -/
theorem test_rewind_creeps_from_zero :
    let rewound (p : Nat) : State := (withTc (fun c => { c with position := p }) loaded).startRewind false
    (rewound 0).commandedSpeed = 5
      ∧ (after (.encoderTick .reverse []) { rewound 0 with gateFilm := true }).map
          (fun t => (t.tc.underrun, t.commandedSpeed)) = some (1, 5)
      ∧ (rewound 5000).commandedSpeed = 4000 := by decide +kernel

/-- The counts of PASS_DONE are a group with its presence byte, of zeros for a pass that is no CAPTURE (R160, R192). -/
theorem test_pass_done_counts :
    encNoticeDetail (.passDone .capture .completed 3 2 1 0) = [4, 0, 3, 1, 2, 1, 0]
      ∧ encNoticeDetail (.passDone .mount .failed 3 0 0 0) = [0, 1, 3, 0, 0, 0, 0] := by decide

/-- VERIFIED is 0 with its group present, NONE is 1 with it absent (R98, R192). -/
theorem test_approach_numbers :
    (encApproach State.reset ⟨true, false, 7⟩).take 7 = [0, 1, 0, 0, 0, 0, 7]
      ∧ (encApproach State.reset ⟨false, false, 7⟩) = 1 :: List.replicate 8 0 := by decide

theorem witness_SpeedWindowWithoutMotion :
    loaded.tc.motion = none ∧ loaded.tc.phase = .idle ∧ loaded.ix.tracker.state ≠ .counting
      ∧ stopping.resetHeld = false ∧ stopping.tc.motion = none ∧ stopping.tc.windowTicks = 0
      ∧ stopping.tc.phase = .emergencyStop ∧ stopping.tc.endedRun = none ∧ stopping.tc.windowForward = false
      ∧ stopping.tc.windowReverse = false ∧ stopping.tc.state = .scanning := by decide

theorem witness_SeeksEnd :
    (seekAt .creep 5004 5 0).resetHeld = false ∧ (seekAt .creep 5004 5 0).tc.motion = some (.seek hostSeek)
      ∧ (seekAt .creep 5004 5 0).ix.tracker.state ≠ .counting ∧ (seekAt .creep 5004 5 0).tc.underrun = 0
      ∧ hostSeek.target ≤ 5004 + 4 ∧ 5004 ≤ hostSeek.target + 4 ∧ (seekAt .creep 5004 5 0).tc.windowTicks ≤ 5
      ∧ ((seekAt .creep 5004 5 0).tc.windowForward && (seekAt .creep 5004 5 0).tc.windowReverse) = false
      ∧ (seekAt .overshoot 5014 0 2).tc.windowTicks = 0 ∧ (seekAt .overshoot 5014 0 2).tc.phase = .overshoot
      ∧ (seekAt .dwell 5000 0 0).tc.phase = .dwell ∧ hostSeek.dwell ≠ 0
      ∧ ({ hostSeek with dwell := 0 } : Seek).requester = .host := by decide

/-- An arrival with a dwell of 0 ms is STOPPED at once (R7). -/
theorem test_zero_dwell :
    (after .speedWindow
      (withTc (fun c => { c with motion := some (.seek { hostSeek with dwell := 0 }) }) (seekAt .creep 5004 5 0))).map
      (fun t => (t.tc.state, t.tc.motion)) = some (.stopped, none) := by decide +kernel

/-- A seek that misses after its second correction is STOPPED with SEEK_MISSED active. -/
theorem test_seek_missed :
    (after .speedWindow (seekAt .overshoot 5014 0 2)).map (fun t => (t.tc.state, t.fm.active.map FaultEntry.code))
      = some (.stopped, [.seekMissed]) := by decide +kernel

theorem witness_TrailerAndGateSensorsAct :
    seeking.resetHeld = false ∧ seeking.tc.direction = .forward ∧ 0 < seeking.tc.speed ∧ seeking.tc.motion = some (.seek hostSeek)
      ∧ seeking.mountedSlot = some 3 ∧ seeking.ix.pass = none ∧ loaded.tc.direction ≠ .forward
      ∧ shelf.tc.threaded = false ∧ loaded.tc.threaded = true ∧ rewinding.tc.threaded = true
      ∧ rewinding.tc.state = .rewinding ∧ rewinding.rs.pass = none ∧ rewinding.mountedSlot = some 3
      ∧ rewinding.presence.getD 3 false = true := by decide +kernel

/-- The gate loss that ends a rewind puts the roll away. -/
theorem test_rewind_puts_away :
    (after .gateLoss rewinding).map
      (fun t => (t.cu.entries.map Entry.state == (rewinding.cu.entries.set 3 rollA).map Entry.state, t.cu.lock, t.tc.state))
      = some (true, none, .unloaded) := by decide +kernel

theorem witness_RunUpIsComputed : 0 < 1500 ∧ 5 ≤ 200 ∧ runUp 1500 5 ≤ 102 ∧ 100 < runUp 1500 5 := by decide

theorem witness_SampleIsTaken : loaded.resetHeld = false ∧ 0 < loaded.tu.settings.gain := by decide

theorem witness_TensionIsSetAndCalibrated :
    Listening shelf
      ∧ (withTu (fun u => { u with calStatus := .inProgress, calCount := 64, calSum := 131072 }) shelf).tu.calCount = 64
      ∧ ¬ (shelf.tu.calStatus = .inProgress ∧ shelf.tu.calCount = 64)
      ∧ IsLimitCode 2048 400 4 1280 (limitCodeOf 2048 400 4 1280) := by
  refine ⟨by decide, by decide, by decide, by decide, by decide, ?_⟩
  intro k hk
  have h : limitCodeOf 2048 400 4 1280 - 2048 = 320 := by decide
  omega

theorem witness_DirectoryIsWritten : Listening shelf ∧ shelf.cu.entries.length = 12 := by decide

/-- A label given to an unlabelled roll is a label arrival: the request that waits for it now waits for an index. -/
theorem test_label_arrival :
    (after (.assignRoll 1 ⟨5, [0x42], some .mm35, some .polyester, 51200, 1023⟩)
      (queued [{ request 2 .waitingRoll none with label := [0x42] }] shelf)).map
      (fun t => t.rs.queue.map fun r => (r.slot, r.state)) = some [(some 5, .waitingIndex)] := by decide +kernel

theorem witness_MountAndUnmountBegin :
    Listening shelf ∧ shelf.cu.entries.length = 12 ∧ shelf.rs.mode ≠ .auto ∧ shelf.latched = false
      ∧ shelf.tc.state = .unloaded ∧ shelf.cu.threader ≠ .retracting ∧ (shelf.entry 3).state = .stored
      ∧ (shelf.entry 3).description ≠ none ∧ (shelf.entry 5).description = none ∧ Listening loaded
      ∧ loaded.tc.state = .stopped ∧ loaded.fu.probe = none ∧ loaded.mountedSlot = some 3 := by decide +kernel

theorem witness_RollIsThreaded :
    rotating.resetHeld = false ∧ rotating.cu.entries.length = 12
      ∧ rotating.cu.rotation = some { target := 3, ascending := true } ∧ rotating.tc.state = .threading
      ∧ threading.tc.state = .threading ∧ threading.cu.threader = .engaged ∧ threading.gateFilm = true
      ∧ threading.tu.onTarget = true ∧ threading.mountedSlot = some 3 ∧ threading.cu.entries.length = 12 := by decide +kernel

/-- A mount that threads is reported MOUNTED with film in the path at P = 0. -/
theorem test_threaded :
    (after .threadingComplete threading).map (fun t => (t.tc.state, t.tc.position, (t.entry 3).state))
      = some (.stopped, 0, .mounted) := by decide +kernel

theorem witness_CarouselTimersAct :
    rotating.cu.rotationTimer = true ∧ shelf.cu.rotationTimer = false ∧ threading.cu.threadingTimer = true
      ∧ threading.mountedSlot = some 3 ∧ threading.presence.getD 3 false = true ∧ shelf.cu.threadingTimer = false
      ∧ retracting.cu.threader = .retracting ∧ retracting.cu.lock = some 3 ∧ retracting.presence.getD 3 false = true
      ∧ shelf.cu.threader ≠ .retracting ∧ retracting.cu.entries.length = 12 := by decide +kernel

theorem witness_PresenceIsTakenWhenStable :
    shelf.resetHeld = false ∧ 11 < 12 ∧ shelf.presence.length = 12 ∧ shelf.presence.getD 3 false = true
      ∧ shelf.presence.getD 11 false = false ∧ (shelf.entry 11).state = .empty ∧ (shelf.entry 3).state = .stored := by
  decide

/-- A cartridge put into slot 11 is STORED once its sensor is stable; the one taken out of slot 3 is gone (R43, R44). -/
theorem test_presence :
    [(11, true), (3, false)].map
        (fun x => ((after (.slotPresenceChange x.1 x.2) shelf).bind (after (.presenceStable x.1))).map fun t =>
          (t.entry x.1).state) = [some .stored, some .empty] := by decide +kernel

theorem witness_MarkClassesAreSet :
    Listening loaded ∧ (underEdge 1000 seeking).ix.firstEdge = some { position := 1000, direction := .forward }
      ∧ (underEdge 1000 seeking).tc.speed ≤ 1500 ∧ (underEdge 1000 seeking).tc.underrun = 0
      ∧ (underEdge 1000 seeking).tc.direction = .forward ∧ Direction.forward ≠ .none ∧ 20 ≤ distance 1000 1020 := by decide

theorem witness_SmoothingShiftIsSet :
    Listening loaded ∧ ({ loaded with resetHeld := true } : State).resetHeld = true := by decide

theorem witness_MarkIsReadFromItsEdges :
    loaded.ix.firstEdge = none ∧ (underEdge 1000 seeking).ix.firstEdge = some { position := 1000, direction := .forward }
      ∧ seeking.tc.direction = .forward ∧ loaded.tc.direction ≠ .forward ∧ distance 1000 1019 < 20
      ∧ seeking.ix.classes.longMax < distance 1000 1801 ∧ loaded.tc.direction = .none
      ∧ (withIx (fun x => { x with firstEdge := some { position := 990, direction := .none } }) loaded).ix.firstEdge
        = some { position := 990, direction := loaded.tc.direction } := by decide

theorem witness_MarkIsCounted :
    (underEdge 1700 counting).tc.speed ≤ 1500 ∧ (underEdge 1700 counting).tc.underrun = 0
      ∧ (underEdge 1700 counting).tc.direction = .forward ∧ (underEdge 1700 counting).ix.pass = none
      ∧ (underEdge 1700 counting).cp.jobs = none ∧ 1700 + 20 ≤ 1720 ∧ 1720 ≤ 1700 + counting.ix.classes.shortMax
      ∧ (underEdge 1700 counting).ix.tracker.state = .counting ∧ (underEdge 1700 counting).currentSegment = some seg0
      ∧ (underEdge 1700 counting).ix.tracker.frame = some 4 ∧ seg0.lastFrame = none ∧ seg0.firstFrame ≤ 4
      ∧ 0 < seg0.pitch ∧ (underEdge 1700 counting).lastIndexed ≤ 4 ∧ 0 < markStep seg0 true 1400 1700
      ∧ markStep seg0 true 1400 1500 ≤ 0 ∧ counting.tc.state ≠ .scanning
      ∧ (withTc (fun c => { c with state := .scanning, motion := some (.run captureRun) }) counting).tc.state = .scanning := by
  decide +kernel

/-- Above the last indexed frame a mark counted in a seek is observed (here rejected), and in a capture run it is not (R63,
R90). -/
theorem test_observation :
    [counting, withTc (fun c => { c with state := .scanning, motion := some (.run captureRun) }) counting].map
        (fun s => (after (.edgeMark .second 1910) (underEdge 1790 s)).map fun t => t.ix.segments.map Segment.rejects)
      = [some [1], some [0]] := by decide +kernel

theorem witness_SpliceClosesTheSegment :
    indexing.resetHeld = false ∧ indexing.atFrontier = true ∧ indexing.ix.tracker.state = .counting
      ∧ indexing.tc.direction = .forward ∧ indexing.ix.segments.getLast? = some seg0
      ∧ indexing.ix.pass = some freshPass ∧ indexing.ix.tracker.frame = some 4 ∧ counting.atFrontier = false := by decide

theorem witness_IndexFormulas :
    0 < seg0.pitch ∧ seg0.firstFrame ≤ 4 ∧ seg0.learning = .provisional ∧ 51200 ≤ seg0.pitch ∧ seg0.pitch ≤ 1536000
      ∧ 51200 ≤ ({ seg0 with pitch := 51200 } : Segment).pitch ∧ inverse seg0 4 100000 = 4 := by decide

theorem witness_PlacedPositionsAreBounded : seg0.startPos ≤ upperBound seg0 := by decide

theorem witness_ObservationTeachesThePitch :
    captureWindow seg0 < ((5000 : Int) - predict seg0 3).natAbs ∧ ({ seg0 with rejects := 2 } : Segment).rejects + 1 = 3
      ∧ ((1100 : Int) - predict seg0 3).natAbs ≤ captureWindow seg0 ∧ ((3 : Int) - seg0.anchorFrame).natAbs < 16
      ∧ ((5310 : Int) - predict seg0 17).natAbs ≤ captureWindow seg0 ∧ 16 ≤ ((17 : Int) - seg0.anchorFrame).natAbs := by
  decide

theorem witness_FrameLookups :
    Listening counting ∧ Listening shelf ∧ segmentAt counting.ix.segments 900 = some seg0
      ∧ segmentAt shelf.ix.segments 900 = none := by decide +kernel

/-- "A" mounted and INDEXED. -/
def indexed : State :=
  withCu (fun c => { c with entries := c.entries.modify 3 fun e => { e with indexState := .indexed } }) loaded

theorem witness_IndexPassIsOrdered :
    Listening loaded ∧ loaded.rs.mode ≠ .auto ∧ loaded.latched = false ∧ loaded.tc.state = .stopped
      ∧ loaded.fu.probe = none ∧ loaded.ix.pass = none ∧ loaded.mountedEntry.indexState = .unindexed
      ∧ (withTc (fun c => { c with position := 0 }) loaded).tc.position = 0 ∧ loaded.mountedSlot = some 3
      ∧ loaded.cu.entries.length = 12
      ∧ indexed.mountedEntry.indexState = .indexed := by decide +kernel

/-- A fresh pass at P = 0 runs at once. -/
theorem test_index_from_zero :
    (after (.indexRoll 1 (some .toEnd) .absent) (withTc (fun c => { c with position := 0 }) loaded)).map
      (fun t => (t.tc.state, t.ix.pass.map IndexPass.phase)) = some (.scanning, some .run) := by decide +kernel

theorem witness_PeakOfASweep :
    let ps : List ProbePoint := [{ lens := 1, score := some 5 }, { lens := 2, score := some 9 }, { lens := 3, score := some 9 }]
    ps ≠ [] ∧ ps[peakPlace ps]? = some { lens := 2, score := some 9 } := by decide

theorem witness_ProbeBegins :
    Listening loaded ∧ loaded.cp.lamp ≠ .lit ∧ loaded.fu.settings.lensMin ≤ loaded.fu.settings.lensMax
      ∧ loaded.fu.settings.lensMax ≤ 4095 ∧ 0 < loaded.fu.settings.step ∧ loaded.rs.mode ≠ .auto
      ∧ loaded.latched = false ∧ loaded.tc.state = .stopped ∧ loaded.fu.probe = none ∧ loaded.ix.pass = none
      ∧ 2 * 40 % 10 = 0 ∧ 5 ≤ 2 * 40 / 10 + 1 := by decide

/-- A probe centred at 10 with a half span of 20 is moved to 20. -/
theorem test_probe_shifted :
    (after (.focusProbe 1 (.present 10) (.present 20) (.present 10)) loaded).map
      (fun t => t.fu.probe.map fun p => (p.centre, p.shifted, p.points.map ProbePoint.lens))
      = some (some (20, true, [0, 10, 20, 30, 40])) := by decide +kernel

theorem witness_FocusSettingsAndMapClear :
    Listening loaded ∧ (probing .lamp .warming (points none)).fu.probe ≠ none ∧ loaded.fu.probe = none
      ∧ loaded.rs.items = [] ∧ loaded.rs.pass = none := by decide

theorem witness_LensMovesAndBandsAreScored :
    (probing .lamp .warming (points none)).resetHeld = false ∧ (probing .lamp .warming (points none)).cp.lamp = .warming
      ∧ (probing .lamp .warming (points none)).cp.listHolds = false
      ∧ (probing .lamp .warming (points none)).cp.probeHolds = true
      ∧ (probing .sweep .lit (points none)).fu.lens = (probing .sweep .lit (points none)).fu.target
      ∧ (probing .sweep .lit (points none)).cp.lamp = .lit ∧ points none = { lens := 0, score := none } :: (points none).tail
      ∧ loaded.cp.lamp ≠ .warming
      ∧ (withCp (fun c => { c with lamp := .warming, listHolds := true }) loaded).cp.probeHolds = false := by decide

/-- A sweep with its last point unscored, of the scores before it. -/
def sweeping (sweep : Nat) (scores : List Nat) : State :=
  let ps := scores.map (fun k => ({ lens := 10 * k, score := some k } : ProbePoint)) ++ [{ lens := 40, score := none }]
  let s := probing .sweep .lit ps
  { s with fu := { s.fu with probe := s.fu.probe.map fun p => { p with sweep := sweep } } }

/-- A dark read scores 0, so the peak of scores 1, 3, 1 lies inside, and that of 3, 2, 1 at the end; the lens has settled.
The probe ends PEAK, begins its second sweep, or ends EDGE_LIMITED with FOCUS_EDGE; with the lamp OFF it is aborted. -/
theorem witness_SweepIsCompleted :
    (sweeping 1 [1, 3, 1]).resetHeld = false ∧ (sweeping 1 [1, 3, 1]).fu.lens = (sweeping 1 [1, 3, 1]).fu.target
      ∧ (sweeping 1 [1, 3, 1]).cp.lamp = .lit ∧ bandScore (([] : List (List Byte)).map loaded.activePixels) = 0
      ∧ (after (.probeBandRead []) (sweeping 1 [1, 3, 1])).map (fun t => (t.fu.probe, t.fu.target, t.fu.map.length, t.cp.lamp))
        = some (none, 30, 1, .off)
      ∧ (after (.probeBandRead []) (sweeping 1 [3, 2, 1])).map
          (fun t => t.fu.probe.map fun p => (p.sweep, p.centre, p.points.map ProbePoint.lens))
        = some (some (2, 30, [10, 20, 30, 40, 50]))
      ∧ (after (.probeBandRead []) (sweeping 2 [3, 2, 1])).map
          (fun t => (t.fu.probe, t.fm.active.map FaultEntry.code, t.fu.map.map MapEntry.lens))
        = some (none, [.focusEdge], [30])
      ∧ (after (.probeBandRead []) (probing .sweep .off (points none))).map
          (fun t => (t.fu.probe, t.cp.probeHolds, t.fu.map.length)) = some (none, false, 0) := by decide +kernel

theorem witness_MapInsertion : MapLaw ([] : List MapEntry) ∧ MapLaw [{ position := 5, lens := 1, score := 1, stale := false }] :=
  ⟨⟨by decide, List.Pairwise.nil⟩, ⟨by decide, List.pairwise_singleton _ _⟩⟩

/-- Of two entries equally near the lower one goes; outside the merge distance none does (R111). -/
theorem test_map_insertion :
    let e (p : Nat) : MapEntry := { position := p, lens := 1, score := 1, stale := false }
    (mapAfter 10 (e 20) [e 10, e 30]).map MapEntry.position = [20, 30]
      ∧ (mapAfter 9 (e 20) [e 10, e 30]).map MapEntry.position = [10, 20, 30] := by decide

theorem witness_SettingsAreSet : Listening loaded ∧ Listening shelf := by decide

def windowArgs (id base limit : Nat) : WindowArgs :=
  { id := id, base := base, limit := limit, label := [0x42], firstFrame := 10, stride := 4, access := some .openToAll,
    originMask := 0 }

theorem witness_WindowIsLoaded :
    Listening (windows [window 1 10 49] loaded) ∧ 1 ≤ (windowArgs 63 50 60).stride ∧ (windowArgs 63 50 60).stride ≤ 4
      ∧ printableLabel (windowArgs 63 50 60).label ∧ (windowArgs 63 50 60).base ≤ (windowArgs 63 50 60).limit
      ∧ 10 + (16431 - 50) * 4 ≤ 65535 ∧ 65535 < 10 + (16432 - 50) * 4 ∧ (window 1 10 49).limit < 50 := by decide

theorem witness_WindowIsDropped :
    Listening (windows [window 1 10 49, window 2 61 70] loaded) ∧ 63 < 64
      ∧ (windows [window 1 10 49, window 2 61 70] loaded).ct.windows = [window 1 10 49] ++ window 2 61 70 :: []
      ∧ (window 1 10 49).id ≠ 2 := by decide

/-- A window loads between its neighbours, and a second of its id is a DUPLICATE. -/
theorem test_windows :
    (after (.loadWindow 1 (windowArgs 9 50 60)) (windows [window 1 10 49, window 2 61 70] loaded)).map
        (fun t => t.ct.windows.map Window.id) = some [1, 9, 2]
      ∧ (after (.loadWindow 1 (windowArgs 2 50 60)) (windows [window 1 10 49, window 2 61 70] loaded)).map
        (fun t => t.li.replies.map Reply.status) = some [.duplicate] := by decide +kernel

theorem witness_NextIdIsFree :
    (queued [request 1 .ready (some 3)] shelf).rs.queue.length ≤ 32 ∧ shelf.rs.lastId ≤ 255
      ∧ (withRs (fun r => { r with lastId := 255 }) (queued [request 1 .ready (some 3)] shelf)).freshId = 2
      ∧ Listening (windows [window 2 61 70] shelf)
      ∧ (after (.submitRequest 1 65 2 (some .urgent)) (windows [window 2 61 70] shelf)).map
          (fun t => (t.rs.queue.length, t.rs.lastId, t.rs.submissions)) = some (1, 1, 1)
      ∧ (after (.submitRequest 1 65 1 (some .urgent)) (windows [window 2 61 70] shelf)).map
          (fun t => (t.rs.queue.length, t.rs.lastId, t.rs.submissions)) = some (0, 0, 0) := by decide +kernel

theorem witness_RequestIsSubmitted :
    Listening (windows [window 2 61 70] shelf) ∧ shelf.rs.queue.length < 32 ∧ 15 < 16
      ∧ (window 2 61 70).base ≤ 65 ∧ 65 ≤ (window 2 61 70).limit ∧ (window 2 61 70).access = .restricted
      ∧ (window 2 61 70).originMask.testBit 1 = false ∧ (window 2 61 70).originMask.testBit 2 = true
      ∧ shelf.slotOfLabel (window 2 61 70).label = none
      ∧ 32 ≤ (queued (List.replicate 32 (request 1 .ready none)) shelf).rs.queue.length := by decide +kernel

theorem witness_RequestIsCancelled :
    Listening (holding .ready) ∧ ((holding .ready).findRequest 7).map Request.state = some .captured
      ∧ (holding .ready).storeSlotOf 7 = some 4 ∧ (holding .ready).cp.slots[4]? = some (some (filled .ready))
      ∧ ((queued [request 1 .ready none] shelf).findRequest 1).map Request.state = some .ready
      ∧ ((queued [request 1 .delivering none] shelf).findRequest 1).map Request.state = some .delivering
      ∧ ∀ r ∈ shelf.rs.queue, r.id ≠ 3 := by decide +kernel

/-- The state in which the planner mounts "A". -/
def plannable : State := automatic (queued [request 1 .waitingIndex (some 3)] shelf)

theorem witness_PlanningRoundChoosesTheRoll :
    plannable.resetHeld = false ∧ plannable.rs.planningDue = true ∧ plannable.mayPlan = true
      ∧ plannable.tc.state = .unloaded ∧ plannable.cu.threader = .retracted ∧ plannable.cu.entries.length = 12
      ∧ plannable.mountedSlot = none ∧ plannable.slotOfLabel [0x41] = some 3 ∧ (plannable.entry 3).state = .stored
      ∧ (plannable.entry 3).indexState = .unindexed ∧ (plannable.entry 3).description ≠ none
      ∧ (automatic seeking).mayPlan = false ∧ (automatic shelf).mayPlan = true := by decide +kernel

theorem test_planner_mounts :
    (after .planningRound plannable).map (fun t => (t.tc.state, t.rs.pass.map RsPass.kind)) = some (.threading, some .mount) := by
  decide +kernel

theorem witness_CaptureRunIsOrdered :
    (planned loaded).resetHeld = false ∧ (planned loaded).rs.pass = some capturePass ∧ capturePass.kind = .capture
      ∧ capturePass.phase = .seek ∧ capturePass.plan = some planA ∧ (planned loaded).fu.probe = none
      ∧ (planned loaded).tc.state = .stopped ∧ (planned loaded).latched = false ∧ (planned loaded).cp.jobs = none
      ∧ (planned seeking).tc.state ≠ .stopped ∧ loaded.rs.pass = none := by decide

/-- A job of 2 lines from 1001 for request 7 in slot 4, in a state, with lines taken. -/
def job (st : JobState) (taken : Nat) : Job :=
  { order :=
      { reqId := 7, origin := 1, image := 10, label := [0x41], slot := 4, frame := 3, segment := 0, predicted := 1001,
        clamped := false },
    windowStart := 1001 - 8 * taken, lines := 2, pitch := 76800, truncated := false, lineIndex := taken, missed := false,
    state := st,
    observed := none, focusLag := false, predictedOnly := false, lens := 0 }

/-- The bound run of one job, its slot in a state, the store's line pitch 8 ticks. -/
def capturing (st : StoreState) (j : Job) : State :=
  planned
    (withCp
      (fun c =>
        { c with
          settings := { c.settings with linePitch := 8, count35 := 2, first35 := 0 },
          slots := c.slots.set 4 (some { filled st with lines := List.replicate j.lineIndex [1, 2] }),
          jobs := some { bound := true, jobs := [j] } })
      (queued [{ request 7 .planned (some 3) with storeSlot := some 4 }] scanning))

theorem witness_RunTakesLines :
    let s := capturing .reserved (job .waiting 0)
    s.resetHeld = false ∧ s.tc.state = .scanning ∧ s.tc.motion = some (.run captureRun) ∧ captureRun.purpose = .capture
      ∧ resting s.tc = false ∧ s.ix.pass = none ∧ s.ix.tracker.state ≠ .reckoning ∧ s.tc.position + 1 = 1001
      ∧ s.cp.jobs = some { bound := true, jobs := [job .waiting 0] } ∧ (job .waiting 0).windowStart = 1001
      ∧ (s.cp.slots[4]?.map fun c => c.map StoreSlot.state) = some (some .reserved)
      ∧ (job .waiting 0).lineIndex + 1 < (job .waiting 0).lines
      ∧ (job .filling 1).windowStart + (job .filling 1).lineIndex * 8 = 1001
      ∧ (job .filling 1).lineIndex + 1 = (job .filling 1).lines := by decide +kernel

/-- The first line of a window makes the slot FILLING and the request CAPTURING (R131). -/
theorem test_window_starts :
    (after (.encoderTick .forward [9, 8, 7]) (capturing .reserved (job .waiting 0))).map
        (fun t => (t.cp.slots[4]?.map (fun c => c.map StoreSlot.state), t.cp.ready, t.rs.queue.map Request.state,
          t.cp.jobs.map fun l => l.jobs.map Job.lineIndex))
      = some (some (some .filling), [], [.capturing], some [1]) := by decide +kernel

/-- A job missed when the run was taken does not start at its ws (R130). -/
theorem test_missed_job_never_starts :
    (after (.encoderTick .forward [9, 8, 7]) (capturing .reserved { job .waiting 0 with missed := true })).map
        (fun t => (t.cp.slots[4]?.map (fun c => c.map StoreSlot.state), t.rs.queue.map Request.state))
      = some (some (some .reserved), [.planned]) := by decide +kernel

/-- The jobs that begin below P are missed as the list is bound, and no other (R130). -/
theorem test_bind_marks_missed_jobs :
    [1000, 1001, 1002].map (fun p =>
        ((capturing .reserved (job .waiting 0)).modTc fun c => { c with position := p }).bindList.jobList.map Job.missed)
      = [[false], [false], [true]] := by decide +kernel

/-- A lower frame counted in reverse leaves the frontier position, and the next higher frame moves it (R68). -/
theorem test_frontier_follows_the_highest_frame :
    let open_ := withIx (fun x => { x with segments := [{ seg0 with frontier := some 1400 }] }) indexing
    ((open_.stepMark false 1100 .short).ix.segments.map Segment.frontier,
        (open_.stepMark true 1700 .short).ix.segments.map Segment.frontier) = ([some 1400], [some 1700]) := by decide +kernel

/-- The leader-start mark disarms the leader start, and the mark that opens a later segment does not (R66). -/
theorem test_only_the_leader_start_disarms :
    let armed := indexing.returnToZero
    (armed.openNext seg0 2000 .short).ix.tracker.leaderArmed = true
      ∧ ((withIx (fun x => { x with segments := [] }) armed).trackMark true 2000 .short).ix.tracker.leaderArmed = false := by
  decide +kernel

/-- A first mark more than W from its prediction (1500 against 1400, W 75) makes the tracker LOST, and fails the extension whose
pass began in sync but not the one that began LOST (R65, R77). -/
theorem test_first_mark_of_an_extension :
    [false, true].map (fun lost =>
        let approached :=
          withIx
            (fun x =>
              { x with
                segments := [seg0], tracker := x.tracker.toReckoning 4 0,
                pass :=
                  some
                    { freshPass with
                      kind := .extension, phase := .approach, frontier := false, lastAtStart := some 4,
                      startedLost := lost } })
            loaded
        let t := approached.orderIndexRun.trackMark true 1500 .short
        (t.ix.tracker.state, t.ix.pass.map fun p => (p.phase, p.failed), t.tc.endedRun.map EndedRun.reason))
      = [(.lost, some (.run, true), some .finished), (.lost, some (.run, false), none)] := by decide +kernel

/-- A window that starts while the run tracks: the lens lags by more than 4 steps behind the target commanded for the new P,
the map's lens there, or by 4 and not more (R114, R131). -/
theorem test_window_start_lags :
    [(104, true), (105, true), (105, false)].map (fun x =>
        (after (.encoderTick .forward [9, 8, 7])
          (withFu
            (fun f =>
              { f with
                tracking := x.2, lens := 100, target := 100,
                map := [{ position := 1000, lens := x.1, score := 9, stale := false }] })
            (capturing .reserved (job .waiting 0)))).map
          fun t => t.cp.jobs.map fun l => l.jobs.map Job.focusLag)
      = [some (some [false]), some (some [true]), some (some [false])] := by decide +kernel

/-- Its last line makes the slot READY and the request CAPTURED (R133). -/
theorem test_window_ends :
    (after (.encoderTick .forward [9, 8, 7]) (capturing .filling (job .filling 1))).map
        (fun t => (t.cp.slots[4]?.map (fun c => c.map StoreSlot.lines), t.cp.ready, t.rs.queue.map Request.state,
          t.rs.pass.map RsPass.capturedJobs))
      = some (some (some [[1, 2], [9, 8]]), [4], [.captured], some 1) := by decide +kernel

theorem witness_ChannelsDeliverAndStream :
    (holding .ready).resetHeld = false ∧ (holding .ready).dc.a.mode = .image ∧ (holding .ready).dc.a.sending = none
      ∧ (holding .ready).cp.ready = [4] ∧ (holding .ready).cp.slots[4]? = some (some (filled .ready)) ∧ loaded.cp.ready = []
      ∧ loaded.dc.b.mode = .image ∧ (sending 0).dc.a.sending ≠ none
      ∧ (withDc (fun d => { d with b := { d.b with mode := .telemetry } }) loaded).dc.b.mode = .telemetry := by decide +kernel

theorem test_channel_takes_the_head :
    (after .channelTakeSlot (holding .ready)).map
      (fun t => (t.cp.ready, t.dc.a.sending.map Sending.blockCount, t.rs.queue.map Request.state))
      = some ([], some 1, [.delivering]) := by decide +kernel

theorem witness_FaultOccurrenceIsEntered :
    loaded.fm.wf ∧ loaded.fm.logMode ≠ .off ∧ loaded.fm.log.length < 10 :=
  ⟨⟨List.Pairwise.nil, fun _ h => (nomatch h), fun _ h => (nomatch h), by decide⟩, by decide, by decide⟩

theorem witness_FaultCommands :
    Listening (faulty [fault .overTension .major, fault .slack .minor] halted) ∧ halted.tc.threaded = true
      ∧ (faulty [fault .overTension .major] halted).stillPresent .overTension = false
      ∧ (faulty [fault .overTension .major] (withTu (fun u => { u with overLimit := true }) halted)).stillPresent .overTension
        = true
      ∧ (faulty [fault .overTension .major] halted).latched = true ∧ loaded.latched = false
      ∧ (faulty [fault .filmStranded .major] halted).stillPresent .filmStranded = false := by decide +kernel

/-- A cleared OVER_TENSION leaves HALTED for STOPPED; FILM_STRANDED leaves it for the recovery rewind. -/
theorem test_clear_faults :
    (after (.clearFaults 1 (some .all)) (faulty [fault .overTension .major] halted)).map (fun t => t.tc.state) = some .stopped
      ∧ (after (.clearFaults 1 (some .all)) (faulty [fault .filmStranded .major] halted)).map (fun t => t.tc.state)
        = some .rewinding := by decide +kernel

/-- The statements that ask only that RESETn is high and a place is free, or that nothing waits. -/
theorem witness_listening :
    Listening loaded ∧ loaded.resetHeld = false ∧ loaded.pending = [] ∧ (transmitting .reply loaded).li.tx ≠ none
      ∧ loaded.li.tx = none := by decide

/-- A step from the loaded part answers a next state. -/
theorem witness_step : (match step loaded with | .next _ => true | _ => false) = true := by decide

theorem witness_StepKeepsTheFilmAndItsTables : loaded.tc.wf ∧ loaded.cu.wf ∧ loaded.tablesWf := by
  have hl :
      ∀ i, i < 12 → ∀ j, j < 12 → i ≠ j →
        (loaded.cu.entries.getD i Entry.empty).label = (loaded.cu.entries.getD j Entry.empty).label →
          (loaded.cu.entries.getD i Entry.empty).label = [] := by
    decide +kernel
  have he : ∀ e ∈ loaded.cu.entries, e.segments = [] ∧ e.landmarks = [] ∧ e.focusMap = [] := by decide +kernel
  refine ⟨⟨by decide, by decide, by decide⟩, ⟨by decide, fun i j hi hj => hl i hi j hj⟩, ?_⟩
  refine ⟨⟨by decide, by decide, List.Pairwise.nil⟩, ⟨by decide, List.Pairwise.nil⟩, fun e h => ?_, fun e h => ?_⟩
  · rw [(he e h).1, (he e h).2.1]
    exact ⟨by decide, by decide, List.Pairwise.nil⟩
  · rw [(he e h).2.2]
    exact ⟨by decide, List.Pairwise.nil⟩

theorem witness_StepKeepsTheStoreCatalogueAndQueue : loaded.cp.wf ∧ loaded.ct.wf ∧ loaded.rs.wf :=
  ⟨⟨by decide, by decide, storeLaw_empty 16⟩,
    ⟨by decide, List.nodup_nil, fun _ h => (nomatch h), fun _ h => (nomatch h), List.Pairwise.nil⟩,
    ⟨by decide, List.nodup_nil, fun _ h => (nomatch h), by decide, by decide⟩⟩

/-- Only slot 4 is not FREE. -/
theorem slot4_only {c x : StoreSlot} {i : Nat} (h : ((List.replicate 16 none).set 4 (some c))[i]? = some (some x)) :
    i = 4 ∧ x = c := by
  rcases (getElem?_set_some (by simp)).mp h with h | h
  · exact h
  · have := h.2
    rw [List.getElem?_replicate] at this
    split at this <;> simp at this

/-- The law of slots holds of a READY slot, of an incomplete job's slot, and of a slot in delivery. -/
theorem witness_law_of_slots :
    (holding .ready).slotsWf ∧ (capturing .reserved (job .waiting 0)).slotsWf
      ∧ (queued [{ request 7 .delivering (some 3) with storeSlot := some 4 }] (sending 0)).slotsWf := by
  refine ⟨⟨fun i c h => ?_, by simp [State.jobList, holding, queued, withRs, withCp, loaded, shelf, State.reset, Cp.reset],
      fun d hd => absurd hd List.not_mem_nil, by decide⟩,
    ⟨fun i c h => ?_, ?_, fun d hd => absurd hd List.not_mem_nil, by decide⟩, ⟨fun i c h => ?_, ?_, ?_, by decide⟩⟩
  · obtain ⟨rfl, rfl⟩ := slot4_only h
    exact ⟨_, List.mem_singleton.mpr rfl, rfl, rfl, .inr (.inr (.inl rfl)), by decide⟩
  · obtain ⟨rfl, rfl⟩ := slot4_only h
    exact ⟨_, List.mem_singleton.mpr rfl, rfl, rfl, .inl rfl, by decide⟩
  · intro j hj _
    rw [List.mem_singleton.mp hj]
    exact ⟨_, rfl, rfl, .inl rfl⟩
  · obtain ⟨rfl, rfl⟩ := slot4_only h
    exact ⟨_, List.mem_singleton.mpr rfl, rfl, rfl, .inr (.inr (.inr rfl)), by decide⟩
  · intro j hj _
    exact absurd hj List.not_mem_nil
  · intro d hd
    rw [List.mem_singleton.mp hd]
    exact ⟨_, rfl, rfl, rfl⟩

theorem witness_StepKeepsTheChannelsAndTheLink : loaded.dc.wf ∧ loaded.li.bufferWf ∧ loaded.li.noticesWf :=
  ⟨⟨⟨by decide, by decide, by decide⟩, ⟨by decide, by decide, by decide⟩, by decide, by decide, by decide⟩,
    ⟨by decide, by decide⟩, ⟨List.pairwise_singleton _ _, by decide, by decide, by decide⟩⟩

/-- A step from a state with a command in front answers that command's state on the queue's rest. -/
theorem test_step_takes_the_front :
    (match step { loaded with pending := [.uptimeTick, .lensStep] } with
      | .next t => decide (t.pending = [.lensStep] ∧ t.li.uptime = 1)
      | _ => false) = true := by decide +kernel

end Sys2Proof.Tests
end

/-! SET_MARK_CLASSES and the class limits (R61). First what the shared operations leave of IX; then
the command, the second edge of a mark, and the three that keep the limits: start-up, the soft reset and a mount. -/

namespace Sys2Proof.Machine

/-! ### The meanings that the rows call -/

theorem exec_powerOn (x : Sensors) (s : State) : exec (.powerOn x) s = .next (s.startUp .powerOn x) := rfl

theorem exec_reset (tag : Byte) (s : State) : exec (.reset tag) s = execReset tag s := rfl

theorem exec_mountRoll (tag : Byte) (n : Nat) (s : State) : exec (.mountRoll tag n) s = execMountRoll tag n s := rfl

theorem exec_threadingComplete (s : State) : exec .threadingComplete s = execThreadingComplete s := rfl

theorem exec_setMarkClasses (tag : Byte) (a b c : Nat) (s : State) :
    exec (.setMarkClasses tag a b c) s = execSetMarkClasses tag a b c s := rfl

theorem exec_edgeMark (edge : MarkEdge) (p : Nat) (s : State) :
    exec (.edgeMark edge p) s = execEdgeMark edge p s := rfl

/-! ### Operations that leave IX alone -/

@[simp] theorem post_ix (s : State) (src : Source) (d : NoticeDetail) : (s.post src d).ix = s.ix := by
  unfold State.post
  split <;> rfl

theorem withSome_ix {α : Type} (s : State) (x : Option α) {f : State → α → State} (hf : ∀ t a, (f t a).ix = t.ix) :
    (s.withSome x f).ix = s.ix := by
  cases x with
  | none => rfl
  | some a => exact hf s a

theorem each_ix {α : Type} (s : State) (xs : List α) {f : State → α → State} (hf : ∀ t a, (f t a).ix = t.ix) :
    (s.each xs f).ix = s.ix := by
  unfold State.each
  induction xs generalizing s with
  | nil => rfl
  | cons a rest ih => exact (ih (f s a)).trans (hf s a)

@[simp] theorem offerPlanning_ix (s : State) : s.offerPlanning.ix = s.ix := by
  rw [offerPlanning_eq]

@[simp] theorem linkError_ix (s : State) (k : LinkErrorKind) : (s.linkError k).ix = s.ix := by
  simp [State.linkError]

@[simp] theorem modEntry_ix (s : State) (n : Nat) (f : Entry → Entry) : (s.modEntry n f).ix = s.ix := rfl

@[simp] theorem modMounted_ix (s : State) (f : Entry → Entry) : (s.modMounted f).ix = s.ix :=
  withSome_ix s _ fun t n => modEntry_ix t n f

@[simp] theorem setSlotState_ix (s : State) (n : Nat) (st : SlotState) : (s.setSlotState n st).ix = s.ix := by
  simp [State.setSlotState]

@[simp] theorem modPass_ix (s : State) (f : RsPass → RsPass) : (s.modPass f).ix = s.ix := rfl

@[simp] theorem noteMotion_ix (s : State) : s.noteMotion.ix = s.ix := modPass_ix s _

@[simp] theorem passEnd_ix (s : State) (o : PassOutcome) : (s.passEnd o).ix = s.ix := by
  refine withSome_ix s _ fun t p => ?_
  dsimp only
  split <;> simp

@[simp] theorem placeItem_ix (s : State) (p : Nat) : (s.placeItem p).ix = s.ix := by
  unfold State.placeItem
  split <;> simp

@[simp] theorem installMap_ix (s : State) (m : List MapEntry) : (s.installMap m).ix = s.ix :=
  each_ix _ _ placeItem_ix

@[simp] theorem postMountDone_ix (s : State) (n : Nat) (o : MountOutcome) : (s.postMountDone n o).ix = s.ix :=
  post_ix s _ _

@[simp] theorem rsMountOutcome_ix (s : State) (n : Nat) (o : MountOutcome) : (s.rsMountOutcome n o).ix = s.ix := by
  unfold State.rsMountOutcome
  split
  · cases o <;> simp
  · rfl

/-! ### TC enters a state: neither IX nor what TC holds beside its state changes -/

theorem loopFollow_eq (s : State) : ∃ u, s.loopFollow = { s with tu := u } := by
  unfold State.loopFollow
  (repeat' split) <;> exact ⟨_, rfl⟩

theorem slackFollow_eq (s : State) : ∃ u, s.slackFollow = { s with tu := u } := by
  unfold State.slackFollow
  split <;> exact ⟨_, rfl⟩

theorem calibrationFollow_eq (s : State) : ∃ u, s.calibrationFollow = { s with tu := u } := by
  unfold State.calibrationFollow
  split <;> exact ⟨_, rfl⟩

/-- TU follows the transport by itself. -/
theorem tensionFollow_eq (s : State) : ∃ u, s.tensionFollow = { s with tu := u } := by
  obtain ⟨a, ha⟩ := loopFollow_eq s
  obtain ⟨b, hb⟩ := slackFollow_eq { s with tu := a }
  obtain ⟨c, hc⟩ := calibrationFollow_eq { s with tu := b }
  exact ⟨c, by rw [State.tensionFollow, ha, hb, hc]⟩

@[simp] theorem tensionFollow_ix (s : State) : s.tensionFollow.ix = s.ix := by
  obtain ⟨u, hu⟩ := tensionFollow_eq s
  rw [hu]

@[simp] theorem tensionFollow_tc (s : State) : s.tensionFollow.tc = s.tc := by
  obtain ⟨u, hu⟩ := tensionFollow_eq s
  rw [hu]

@[simp] theorem offerPlanning_tc (s : State) : s.offerPlanning.tc = s.tc := by
  rw [offerPlanning_eq]

@[simp] theorem enter_ix (s : State) (st : TransportState) : (s.enter st).ix = s.ix := by
  cases st <;> simp [State.enter]

@[simp] theorem enter_tc (s : State) (st : TransportState) : (s.enter st).tc = { s.tc with state := st } := by
  cases st <;> simp [State.enter]

@[simp] theorem startThreading_ix (s : State) : s.startThreading.ix = s.ix := by
  simp [State.startThreading]

@[simp] theorem startThreader_ix (s : State) : s.startThreader.ix = s.ix := by
  simp [State.startThreader]

@[simp] theorem beginMount_ix (s : State) (req : Requester) (n : Nat) : (s.beginMount req n).ix = s.ix := by
  unfold State.beginMount
  dsimp only
  split <;> simp

/-! ### A MAJOR fault that finds nothing to stop -/

/-- A notice posted is LI's alone. -/
theorem post_eq (s : State) (src : Source) (d : NoticeDetail) : ∃ l, s.post src d = { s with li := l } := by
  unfold State.post
  split <;> exact ⟨_, rfl⟩

theorem offerLog_eq (s : State) (r : LogRecord) : ∃ m l, s.offerLog r = { s with fm := m, li := l } := by
  unfold State.offerLog
  split
  · exact ⟨_, _, rfl⟩
  · exact ⟨_, _, rfl⟩
  · split
    · exact ⟨_, _, rfl⟩
    · dsimp only
      split
      · exact ⟨_, _, rfl⟩
      · obtain ⟨l, hl⟩ := post_eq _ .logFull _
        exact ⟨_, l, hl⟩

theorem postFault_eq (s : State) (c : FaultCode) (k : FaultClass) (d : FaultDetail) :
    ∃ l, s.postFault c k d = { s with li := l } := by
  unfold State.postFault
  dsimp only
  split <;> exact post_eq s _ _

/-- A fault occurrence is FM's and LI's alone. -/
theorem faultOccur_eq (s : State) (c : FaultCode) (k : FaultClass) (d : FaultDetail) :
    ∃ m l, s.faultOccur c k d = { s with fm := m, li := l } := by
  unfold State.faultOccur
  dsimp only
  obtain ⟨m, l, hlog⟩ := offerLog_eq _ _
  rw [hlog]
  obtain ⟨l', hpost⟩ := postFault_eq _ _ _ _
  exact ⟨m, l', hpost⟩

/-- Nothing that the MAJOR halt stops is in progress: TC is HALTED already, and no job list, probe or pass of RS is held. -/
structure State.Quiet (s : State) : Prop where
  halted : s.tc.state = .halted
  jobs : s.cp.jobs = none
  probe : s.fu.probe = none
  pass : s.rs.pass = none

theorem haltCapture_of_no_jobs {s : State} (h : s.cp.jobs = none) :
    s.haltCapture = s.modCp fun c => { c with jobs := none }.lampOut := by
  simp [State.haltCapture, State.dropJobs, State.jobList, h, State.each]

theorem haltFocus_of_no_probe {s : State} (h : s.fu.probe = none) : s.haltFocus = s.stopLens.endTracking := by
  simp [State.haltFocus, State.abortProbe, h, State.withSome]

theorem haltTransport_of_halted {s : State} (h : s.tc.state = .halted) : s.haltTransport = s := by
  simp [State.haltTransport, h]

theorem haltScheduler_of_no_pass {s : State} (h : s.rs.pass = none) : s.haltScheduler = s := by
  simp [State.haltScheduler, h]

theorem majorHalt_ix_of_quiet {s : State} (h : s.Quiet) : s.majorHalt.ix = s.ix := by
  unfold State.majorHalt
  rw [haltCapture_of_no_jobs h.jobs, haltFocus_of_no_probe (s := s.modCp _) h.probe,
    haltTransport_of_halted (s := (s.modCp _).stopLens.endTracking) h.halted, haltScheduler_of_no_pass]
  · rfl
  · exact h.pass

theorem raise_ix_of_quiet {s : State} (h : s.Quiet) (c : FaultCode) (k : FaultClass) (d : FaultDetail) :
    (s.raise c k d).ix = s.ix := by
  obtain ⟨m, l, hf⟩ := faultOccur_eq s c k d
  unfold State.raise
  dsimp only
  rw [hf]
  split
  · exact majorHalt_ix_of_quiet ⟨h.halted, h.jobs, h.probe, h.pass⟩
  · rfl

/-! ### The class limits across start-up, the soft reset and a mount -/

/-- Film found in the gate of a part with nothing in progress (R56). -/
theorem strand_ix {s : State} (hj : s.cp.jobs = none) (hp : s.fu.probe = none) (hr : s.rs.pass = none) :
    s.strand.ix = s.ix := by
  unfold State.strand
  dsimp only
  rw [raise_ix_of_quiet]
  · rfl
  · exact ⟨rfl, hj, hp, hr⟩

/-- Start-up, with or without film in the gate, leaves IX at its power-on values (R61, R82). -/
theorem startUp_ix (s : State) (cause : ResetCause) (x : Sensors) : (s.startUp cause x).ix = Ix.reset := by
  unfold State.startUp State.postStart
  rw [post_ix]
  cases x.gateFilm
  · rfl
  · exact strand_ix (s := s.powerUp x) rfl rfl rfl

/-- A pass that a soft reset ends writes the directory, not IX (R83). -/
theorem settleIndex_aborted_ix (s : State) (p : IndexPass) (q : PassOutcome) :
    (s.settleIndex p (.aborted q)).1.ix = s.ix := by
  unfold State.settleIndex State.writeIndex
  dsimp only
  (repeat' split) <;> simp

theorem resetIndex_classes (s : State) : s.resetIndex.ix.classes = s.ix.classes := by
  simp only [State.resetIndex, State.modTracker, modIx_ix]
  rw [withSome_ix s s.ix.pass fun t p => settleIndex_aborted_ix t p .stopped]

/-- A stop with no seek and no run end owed comes to rest without a report to anyone (R12). -/
theorem settleMotion_ix_of_unowed {s : State} (hm : s.tc.motion = none) (he : s.tc.endedRun = none)
    (hp : s.tc.phase = .controlledStop) : s.settleMotion.ix = s.ix := by
  have rest : s.filmAtRest = (s.modTc fun c => { c.noMotion with endedRun := none }).enter .stopped := by
    simp [State.filmAtRest, hp, State.restFromStop, he, State.withSome]
  unfold State.settleMotion
  cases s.atRest
  · simp [State.onlyIf, State.endZeroDwell, hm]
  · simp [State.onlyIf, rest, State.endZeroDwell, Tc.noMotion]

@[simp] theorem stopSeek_ix (s : State) (m : Seek) : (s.stopSeek m).ix = s.ix := by
  unfold State.stopSeek
  split <;> simp

@[simp] theorem resetTransport_ix (s : State) : s.resetTransport.ix = s.ix := by
  unfold State.resetTransport
  split
  · exact stopSeek_ix s _
  · exact settleMotion_ix_of_unowed rfl rfl rfl
  · rfl
  · rfl

theorem softReset_classes (s : State) : s.softReset.ix.classes = s.ix.classes := by
  simp [State.softReset, State.postStart, State.resetLink, State.resetFaults, State.resetDelivery, State.resetCapture,
    State.resetFocus, resetIndex_classes, State.resetScheduler]

/-- A roll's tables come and go; the class limits stay (R60, R61). -/
@[simp] theorem installIndex_classes (s : State) (segs : List Segment) (marks : List Landmark) (q0 : Option Nat) :
    (s.installIndex segs marks q0).ix.classes = s.ix.classes := rfl

theorem completeThreading_classes (s : State) : s.completeThreading.ix.classes = s.ix.classes := by
  unfold State.completeThreading
  cases s.mountedSlot with
  | none => rfl
  | some n => simp [State.withSome]

theorem checked_ix {s : State} {act : State → Answer} (ha : (act s).state.ix = s.ix) (cs : List (Bool × Status)) :
    (checked s cs act).state.ix = s.ix := by
  unfold checked
  split
  · rfl
  · exact ha

theorem ownMountRoll_ix (n : Nat) (s : State) : (ownMountRoll n s).state.ix = s.ix :=
  checked_ix (beginMount_ix s .host n) _

/-- A command keeps the class limits when its owner's action does, also where it finds no place. -/
theorem takeCommand_classes {owner : State → Answer} (ho : ∀ t, (owner t).state.ix.classes = t.ix.classes) (s : State)
    (tag kind : Byte) : (s.takeCommand tag kind owner).ix.classes = s.ix.classes := by
  by_cases h : s.li.places < 4
  · rw [takeCommand_free h]
    exact ho _
  · rw [takeCommand_full (Nat.le_of_not_lt h), linkError_ix]

theorem whenRunning_classes {f : State → State} {s : State} (hf : (f s).ix.classes = s.ix.classes) :
    ∃ t, whenRunning s f = .next t ∧ t.ix.classes = s.ix.classes := by
  cases h : s.resetHeld
  · exact ⟨_, whenRunning_running h f, hf⟩
  · exact ⟨_, whenRunning_held h f, rfl⟩

/-! ### The three commands and events that keep the limits -/

theorem exec_reset_classes (tag : Byte) (s : State) :
    ∃ t, exec (.reset tag) s = .next t ∧ t.ix.classes = s.ix.classes := by
  rw [exec_reset]
  exact whenRunning_classes (takeCommand_classes (owner := ownReset) softReset_classes s tag 0x4B)

theorem exec_mountRoll_classes (tag : Byte) (n : Nat) (s : State) :
    ∃ t, exec (.mountRoll tag n) s = .next t ∧ t.ix.classes = s.ix.classes := by
  rw [exec_mountRoll]
  exact whenRunning_classes (takeCommand_classes (fun t => congrArg Ix.classes (ownMountRoll_ix n t)) s tag 0x13)

theorem exec_threadingComplete_classes (s : State) :
    ∃ t, exec .threadingComplete s = .next t ∧ t.ix.classes = s.ix.classes := by
  rw [exec_threadingComplete]
  refine whenRunning_classes ?_
  split
  · exact completeThreading_classes s
  · rfl

/-! ### The second edge of a mark (R59, R60) -/

/-- With the directions of both edges one and the film readable, the second edge reads the mark. -/
theorem exec_second_edge {p : Nat} {e : FirstEdge} {s : State} (hr : s.resetHeld = false) (he : s.ix.firstEdge = some e)
    (hread : s.edgeReadable = true) (hd : s.tc.direction = e.direction) :
    exec (.edgeMark .second p) s =
      .next
        (let lifted := s.modIx fun x => { x with firstEdge := none }
         (lifted.readMark e p).settleSince lifted) := by
  rw [exec_edgeMark, execEdgeMark, whenRunning_running hr]
  simp [he, State.withSome, hread, hd]

/-- The limits class a length that is no noise (R60). -/
theorem classify_of_long {n : Nat} (h : 20 ≤ n) (k : MarkClasses) :
    classify k n =
      if n ≤ k.shortMax then .mark .short
      else if n ≤ k.mediumMax then .mark .medium
      else if n ≤ k.longMax then .mark .long
      else .invalid :=
  if_neg (Nat.not_lt.mpr h)

/-- A mark with a class goes to the tracker, in the direction of its edges. -/
theorem readMark_of_mark {s : State} {e : FirstEdge} {p : Nat} {c : MarkClass} (he : e.direction ≠ .none)
    (hc : classify s.ix.classes (distance e.position p) = .mark c) :
    s.readMark e p = s.trackMark (decide (e.direction = .forward)) (markPosition e.direction e.position p) c := by
  cases hd : e.direction with
  | forward => simp [State.readMark, hc, hd]
  | reverse => simp [State.readMark, hc, hd]
  | none => exact absurd hd he

/-- A mark longer than long_max is only counted. -/
theorem readMark_of_invalid {s : State} {e : FirstEdge} {p : Nat}
    (hc : classify s.ix.classes (distance e.position p) = .invalid) :
    s.readMark e p = s.modIx fun x => { x with invalidMarks := saturate countMax x.invalidMarks } := by
  simp [State.readMark, hc]

/-- What leaves TC's phase as it was settles nothing. -/
theorem settleSince_same {s t : State} (h : t.tc.phase = s.tc.phase) : t.settleSince s = t := by
  simp [State.settleSince, State.onlyIf, h]

end Sys2Proof.Machine

namespace Sys2Proof.Proofs.MarkClasses

open Sys2Proof.Machine Sys2Proof.Expect

/-! ### The parts of R61 -/

/-- The command's refusals in their order, and the limits it sets. -/
theorem exec_setMarkClasses_answered (tag : Byte) (a b c : Nat) {s : State} (h : Listening s) :
    exec (.setMarkClasses tag a b c) s =
      .next
        (answered s tag 0x18
          (if ¬ (20 < a ∧ a < b ∧ b < c ∧ c ≤ 4000) then some .range
           else if s.tc.state = .seeking ∨ s.tc.state = .scanning ∨ s.tc.state = .rewinding ∨ s.tc.state = .threading
              ∨ s.ix.pass ≠ none then some .busy
           else none)
          { placed s with ix := { s.ix with classes := { shortMax := a, mediumMax := b, longMax := c } } } .ok []) := by
  obtain ⟨hrun, hplace⟩ := h
  rw [exec_setMarkClasses, execSetMarkClasses, whenRunning_running hrun, takeCommand_free hplace]
  unfold ownSetMarkClasses
  simp only [checked_cons, checked_nil, Bool.not_eq_true', decide_eq_false_iff_not, Bool.or_eq_true, decide_eq_true_eq,
    Option.isSome_iff_ne_none, or_assoc]
  by_cases hrange : 20 < a ∧ a < b ∧ b < c ∧ c ≤ 4000
  · rw [if_neg (not_not_intro hrange), if_neg (not_not_intro hrange)]
    split <;> rfl
  · rw [if_pos hrange, if_pos hrange]
    rfl

/-- The limits held at the second edge class the mark. -/
theorem exec_second_edge_classed (p : Nat) (e : FirstEdge) (s : State) (hrun : s.resetHeld = false)
    (he : s.ix.firstEdge = some e) (hspeed : s.tc.speed ≤ 1500) (hunder : s.tc.underrun = 0)
    (hdir : s.tc.direction = e.direction) (hne : e.direction ≠ .none) (hlong : 20 ≤ distance e.position p) :
    let long := distance e.position p
    let lifted : State := { s with ix := { s.ix with firstEdge := none } }
    let track (c : MarkClass) : State :=
      (lifted.trackMark (decide (e.direction = .forward)) (markPosition e.direction e.position p) c).settleSince lifted
    exec (.edgeMark .second p) s =
      .next
        (if long ≤ s.ix.classes.shortMax then track .short
         else if long ≤ s.ix.classes.mediumMax then track .medium
         else if long ≤ s.ix.classes.longMax then track .long
         else { lifted with ix := { lifted.ix with invalidMarks := min (s.ix.invalidMarks + 1) 65535 } }) := by
  intro long lifted track
  have hread : s.edgeReadable = true := by simp [State.edgeReadable, markReadLimit, hspeed, hunder]
  have hedge : exec (.edgeMark .second p) s = .next ((lifted.readMark e p).settleSince lifted) :=
    exec_second_edge hrun he hread hdir
  have hclass : classify lifted.ix.classes long = _ := classify_of_long hlong s.ix.classes
  have htrack : ∀ c, classify lifted.ix.classes long = .mark c → (lifted.readMark e p).settleSince lifted = track c :=
    fun c hc => congrArg (State.settleSince · lifted) (readMark_of_mark hne hc)
  rw [hedge]
  congr 1
  by_cases hs : long ≤ s.ix.classes.shortMax
  · rw [if_pos hs] at hclass ⊢
    exact htrack .short hclass
  by_cases hm : long ≤ s.ix.classes.mediumMax
  · rw [if_neg hs, if_pos hm] at hclass ⊢
    exact htrack .medium hclass
  by_cases hl : long ≤ s.ix.classes.longMax
  · rw [if_neg hs, if_neg hm, if_pos hl] at hclass ⊢
    exact htrack .long hclass
  · rw [if_neg hs, if_neg hm, if_neg hl] at hclass ⊢
    rw [readMark_of_invalid hclass]
    exact settleSince_same rfl

/-- Settles O31: the command, the second edge, and start-up, the soft reset and a mount, each by its own lemma. -/
theorem markClassesAreSet : Obligations.MarkClassesAreSet :=
  ⟨fun tag a b c _ h => exec_setMarkClasses_answered tag a b c h,
    exec_second_edge_classed,
    rfl,
    fun x s => ⟨s.startUp .powerOn x, exec_powerOn x s, congrArg Ix.classes (startUp_ix s .powerOn x)⟩,
    fun tag s _ => exec_reset_classes tag s,
    fun tag n s => ⟨exec_mountRoll_classes tag n s, exec_threadingComplete_classes s⟩⟩

end Sys2Proof.Proofs.MarkClasses

/-! Pitch learning (R91 to R93) and the smoothing shift (R95). First an observation of one segment and of the part; then the
command, and what start-up and the soft reset leave of the shift. -/

namespace Sys2Proof.Machine

/-! ### The meanings that the rows call -/

theorem exec_resetnRelease (x : Sensors) (s : State) : exec (.resetnRelease x) s = execResetnRelease x s := rfl

theorem exec_readIndex (tag : Byte) (s : State) : exec (.readIndex tag) s = execReadIndex tag s := rfl

theorem exec_setPitchLearning (tag : Byte) (k : Nat) (s : State) :
    exec (.setPitchLearning tag k) s = execSetPitchLearning tag k s := rfl

/-! ### The window and the learned pitch -/

theorem withinWindow_iff {g : Segment} {f m : Nat} :
    withinWindow g f m = true ↔ (residual g f m).natAbs ≤ captureWindow g := by
  simp [withinWindow]

theorem withinWindow_eq_false_iff {g : Segment} {f m : Nat} :
    withinWindow g f m = false ↔ captureWindow g < (residual g f m).natAbs := by
  simp [withinWindow]

theorem thirdReject_iff {g : Segment} {f m : Nat} :
    thirdReject g f m = true ↔ captureWindow g < (residual g f m).natAbs ∧ 3 ≤ g.rejects + 1 := by
  simp [thirdReject, withinWindow_eq_false_iff]

theorem clampInt_eq_min_max {lo hi : Int} (h : lo ≤ hi) (z : Int) : clampInt lo hi z = min (max z lo) hi := by
  unfold clampInt
  split
  · omega
  · split <;> omega

/-- PROVISIONAL takes the observed pitch whole, LEARNED and DRIFTED move toward it by the shift (R92). -/
theorem learnedPitch_eq (shift : Nat) (g : Segment) (d : Int) (m : Nat) :
    learnedPitch shift g d m =
      (let seen : Int := (((m : Int) - g.anchorPos) * 256).tdiv d
       let q : Int :=
         if g.learning = .provisional then seen else g.pitch + (seen - g.pitch).tdiv (2 ^ shift : Nat)
       (min (max q 51200) 1536000).toNat) := by
  unfold learnedPitch
  dsimp only
  rw [clampInt_eq_min_max (by decide)]
  cases g.learning <;> rfl

/-! ### A segment after an observation -/

/-- A reject that is not the third is only counted (R93). -/
theorem observed_rejected (shift : Nat) {g : Segment} {f m : Nat} (hw : withinWindow g f m = false)
    (hr : g.rejects + 1 < 3) : observed shift g f m = { g with rejects := g.rejects + 1 } := by
  simp [observed, hw, hr]

/-- The third consecutive reject (R93). -/
theorem observed_drifted (shift : Nat) {g : Segment} {f m : Nat} (hw : withinWindow g f m = false)
    (hr : 3 ≤ g.rejects + 1) : observed shift g f m = { g with rejects := 0, learning := .drifted } := by
  simp [observed, hw, Nat.not_lt.mpr hr]

/-- Accepted with a span too short to learn from (R92). -/
theorem observed_accepted (shift : Nat) {g : Segment} {f m : Nat} (hw : withinWindow g f m = true)
    (hd : ((f : Int) - g.anchorFrame).natAbs < 16) : observed shift g f m = { g with rejects := 0 } := by
  simp [observed, hw, hd]

/-- Accepted and learned from (R92). -/
theorem observed_learned (shift : Nat) {g : Segment} {f m : Nat} (hw : withinWindow g f m = true)
    (hd : 16 ≤ ((f : Int) - g.anchorFrame).natAbs) :
    observed shift g f m =
      { g with
        rejects := 0, pitch := learnedPitch shift g ((f : Int) - g.anchorFrame) m, learning := .learned,
        anchorFrame := f, anchorPos := m, observations := min (g.observations + 1) 65535 } := by
  simp [observed, hw, Nat.not_lt.mpr hd, saturate, countMax]

/-! ### The part after an observation -/

/-- Every record of the observed segment learns, and PITCH_DRIFT is reported on the third reject (R93). -/
theorem observe_eq (s : State) (g : Segment) (f m : Nat) :
    s.observe g f m =
      (let t := s.modSegment g.number fun x => observed s.ix.shift x f m
       if captureWindow g < (residual g f m).natAbs ∧ 3 ≤ g.rejects + 1 then
         t.faultOccur .pitchDrift .minor (.pitchDrift s.rollSlot g.number f (residual g f m) g.pitch)
       else t) := by
  by_cases h : thirdReject g f m = true
  · exact (if_pos h).trans (if_pos (thirdReject_iff.mp h)).symm
  · exact (if_neg h).trans (if_neg (mt thirdReject_iff.mpr h)).symm

@[simp] theorem faultOccur_ix (s : State) (c : FaultCode) (k : FaultClass) (d : FaultDetail) :
    (s.faultOccur c k d).ix = s.ix := by
  obtain ⟨m, l, h⟩ := faultOccur_eq s c k d
  rw [h]

theorem observe_ix (s : State) (g : Segment) (f m : Nat) :
    (s.observe g f m).ix = (s.modSegment g.number fun x => observed s.ix.shift x f m).ix := by
  rw [observe_eq]
  dsimp only
  split
  · exact faultOccur_ix _ _ _ _
  · rfl

theorem rollSlot_of_mounted {s : State} {n : Nat} (h : s.mountedSlot = some n) : s.rollSlot = n := by
  simp [State.rollSlot, h]

/-! ### What start-up and the soft reset leave of IX -/

/-- Of IX a soft reset changes the tracker and the pass alone (R83). -/
theorem resetIndex_ix (s : State) : ∃ k, s.resetIndex.ix = { s.ix with tracker := k, pass := none } := by
  refine ⟨s.resetIndex.ix.tracker, ?_⟩
  have hpass := withSome_ix s s.ix.pass fun t p => settleIndex_aborted_ix t p .stopped
  simp only [State.resetIndex, State.modTracker, modIx_ix, hpass]

theorem softReset_ix (s : State) : ∃ k, s.softReset.ix = { s.ix with tracker := k, pass := none } := by
  obtain ⟨k, hk⟩ := resetIndex_ix s.resetScheduler
  refine ⟨k, ?_⟩
  simp only [State.softReset, State.postStart, post_ix]
  simpa [State.resetLink, State.resetFaults, State.resetDelivery, State.resetCapture, State.resetFocus,
    State.resetScheduler] using hk

theorem softReset_shift (s : State) : s.softReset.ix.shift = s.ix.shift := by
  obtain ⟨k, hk⟩ := softReset_ix s
  rw [hk]

end Sys2Proof.Machine

namespace Sys2Proof.Proofs.PitchLearning

open Sys2Proof.Machine Sys2Proof.Expect

/-- Settles O38: a segment by the lemma for its branch of an observation, the part by `observe_eq`. -/
theorem observationTeachesThePitch : Obligations.ObservationTeachesThePitch := by
  refine ⟨fun shift f m g => ⟨fun hw hr => ?_, fun hw hr => ?_, fun hw hd => ?_, fun hw hd => ?_⟩,
    fun s g f m n hn => ?_⟩
  · exact observed_rejected shift (withinWindow_eq_false_iff.mpr hw) hr
  · exact observed_drifted shift (withinWindow_eq_false_iff.mpr hw) hr
  · exact observed_accepted shift (withinWindow_iff.mpr hw) hd
  · rw [observed_learned shift (withinWindow_iff.mpr hw) hd, learnedPitch_eq]
  · rw [observe_eq, rollSlot_of_mounted hn]
    rfl

/-! ### The parts of R95 -/

theorem exec_setPitchLearning_answered (tag : Byte) (k : Nat) {s : State} (h : Listening s) :
    exec (.setPitchLearning tag k) s =
      .next
        (answered s tag 0x1B (if 1 ≤ k ∧ k ≤ 6 then none else some .range)
          { placed s with ix := { s.ix with shift := k } } .ok []) := by
  obtain ⟨hrun, hplace⟩ := h
  rw [exec_setPitchLearning, execSetPitchLearning, whenRunning_running hrun, takeCommand_free hplace]
  unfold ownSetPitchLearning
  rw [checked_cons, checked_nil]
  by_cases hk : 1 ≤ k ∧ k ≤ 6
  · rw [if_pos hk, decide_eq_true hk]
    rfl
  · rw [if_neg hk, decide_eq_false hk]
    rfl

theorem observe_segments (s : State) (g : Segment) (f m : Nat) :
    (s.observe g f m).ix.segments =
      s.ix.segments.map fun x => if x.number = g.number then observed s.ix.shift x f m else x := by
  rw [observe_ix]
  rfl

/-- Both start-ups leave the power-on shift. -/
theorem exec_startUp_shift (x : Sensors) (s : State) :
    (∃ t, exec (.powerOn x) s = .next t ∧ t.ix.shift = 3)
      ∧ (s.resetHeld = true → ∃ t, exec (.resetnRelease x) s = .next t ∧ t.ix.shift = 3) := by
  refine ⟨⟨_, exec_powerOn x s, congrArg Ix.shift (startUp_ix s .powerOn x)⟩, fun hheld => ?_⟩
  refine ⟨s.startUp .pin x, ?_, congrArg Ix.shift (startUp_ix s .pin x)⟩
  rw [exec_resetnRelease, execResetnRelease, if_pos hheld]

theorem exec_reset_shift (tag : Byte) {s : State} (h : Listening s) :
    ∃ t, exec (.reset tag) s = .next t ∧ t.ix.shift = s.ix.shift := by
  obtain ⟨hrun, hplace⟩ := h
  rw [exec_reset, execReset, whenRunning_running hrun, takeCommand_free hplace]
  exact ⟨_, rfl, softReset_shift (placed s)⟩

theorem exec_readIndex_shift (tag : Byte) {s : State} (h : Listening s) :
    ∃ d, exec (.readIndex tag) s = .next (replied (placed s) tag 0x1A .ok (d ++ u8 s.ix.shift)) := by
  obtain ⟨hrun, hplace⟩ := h
  rw [exec_readIndex, execReadIndex, whenRunning_running hrun, takeCommand_free hplace]
  exact ⟨_, rfl⟩

/-- Settles O32: the command, its use by an observation, and start-up, the soft reset and the report. -/
theorem smoothingShiftIsSet : Obligations.SmoothingShiftIsSet :=
  ⟨fun tag k _ h => exec_setPitchLearning_answered tag k h,
    observe_segments,
    rfl,
    exec_startUp_shift,
    fun tag _ h => ⟨exec_reset_shift tag h, exec_readIndex_shift tag h⟩⟩

end Sys2Proof.Proofs.PitchLearning

/-! DROP_WINDOW (R142): the action by its three cases, and what a LOAD_WINDOW can add to the table. -/

namespace Sys2Proof.Machine

/-! ### The meanings that the rows call -/

theorem exec_dropWindow (tag : Byte) (n : Nat) (s : State) :
    exec (.dropWindow tag n) s = execDropWindow tag n s := rfl

theorem exec_loadWindow (tag : Byte) (a : WindowArgs) (s : State) :
    exec (.loadWindow tag a) s = execLoadWindow tag a s := rfl

/-! ### A table cut at the window of an id -/

/-- The windows that DROP_WINDOW keeps: none of another id goes. -/
theorem filter_otherIds {n : Nat} {l : List Window} (h : ∀ x ∈ l, x.id ≠ n) :
    l.filter (fun x => decide (x.id ≠ n)) = l :=
  List.filter_eq_self.mpr fun x hx => decide_eq_true (h x hx)

theorem find_windowId_none {n : Nat} {l : List Window} (h : ∀ x ∈ l, x.id ≠ n) :
    l.find? (fun x => decide (x.id = n)) = none :=
  List.find?_eq_none.mpr fun x hx => by simpa using h x hx

theorem find_windowId_middle {n : Nat} {before : List Window} {w : Window} (after : List Window) (hw : w.id = n)
    (hb : ∀ x ∈ before, x.id ≠ n) : (before ++ w :: after).find? (fun x => decide (x.id = n)) = some w := by
  simp [List.find?_append, find_windowId_none hb, hw]

theorem filter_otherIds_middle {n : Nat} {before after : List Window} {w : Window} (hw : w.id = n)
    (hb : ∀ x ∈ before, x.id ≠ n) (ha : ∀ x ∈ after, x.id ≠ n) :
    (before ++ w :: after).filter (fun x => decide (x.id ≠ n)) = before ++ after := by
  rw [List.filter_append, List.filter_cons_of_neg (by simpa using hw), filter_otherIds hb, filter_otherIds ha]

/-! ### The action of DROP_WINDOW -/

theorem ownDropWindow_range {n : Nat} (hn : 63 < n) (s : State) : ownDropWindow n s = s.refuse .range := by
  rw [ownDropWindow, checked_cons, decide_eq_true hn]
  rfl

/-- With the id in range, the answer turns on the search for its window alone. -/
theorem ownDropWindow_inRange {n : Nat} (hn : n ≤ 63) (s : State) :
    ownDropWindow n s =
      match s.ct.windows.find? (fun w => decide (w.id = n)) with
      | none => s.refuse .notFound
      | some w =>
        (s.modCt fun c => { c with windows := c.windows.filter (fun x => decide (x.id ≠ n)) }).doneWith
          (encWindow w) := by
  rw [ownDropWindow, checked_cons, checked_nil, decide_eq_false (Nat.not_lt.mpr hn)]
  rfl

theorem ownDropWindow_notFound {n : Nat} {s : State} (hn : n ≤ 63) (h : ∀ w ∈ s.ct.windows, w.id ≠ n) :
    ownDropWindow n s = s.refuse .notFound := by
  rw [ownDropWindow_inRange hn, find_windowId_none h]

theorem ownDropWindow_found {n : Nat} {s : State} {before after : List Window} {w : Window} (hn : n ≤ 63)
    (h : s.ct.windows = before ++ w :: after) (hw : w.id = n) (hb : ∀ x ∈ before, x.id ≠ n)
    (ha : ∀ x ∈ after, x.id ≠ n) :
    ownDropWindow n s = (s.modCt fun c => { c with windows := before ++ after }).doneWith (encWindow w) := by
  have hfind : s.ct.windows.find? (fun x => decide (x.id = n)) = some w := by
    rw [h, find_windowId_middle after hw hb]
  have hrest : s.ct.windows.filter (fun x => decide (x.id ≠ n)) = before ++ after := by
    rw [h, filter_otherIds_middle hw hb ha]
  rw [ownDropWindow_inRange hn, hfind]
  simp only [State.modCt, hrest]

/-- A window's fields in a reply, the label by its length and its bytes (R192). -/
theorem encWindow_eq (w : Window) :
    encWindow w =
      u8 w.id ++ u32 w.base ++ u32 w.limit ++ u8 w.label.length ++ w.label ++ u16 w.firstFrame ++ u8 w.stride
        ++ u8 w.access.ctorIdx ++ u16 w.originMask ++ u16 w.denied := by
  simp only [encWindow, wireLabel, List.append_assoc]

/-! ### What LOAD_WINDOW adds -/

/-- Checks refuse, which leaves the state, or hand over to the action. -/
theorem checked_state_cases (s : State) (cs : List (Bool × Status)) (act : State → Answer) :
    (checked s cs act).state = s ∨ checked s cs act = act s := by
  unfold checked
  split
  · exact .inl rfl
  · exact .inr rfl

/-- A load leaves the table, or inserts the window of its operands. -/
theorem ownLoadWindow_windows (a : WindowArgs) (s : State) :
    (ownLoadWindow a s).state.ct.windows = s.ct.windows
      ∨ ∃ k, (ownLoadWindow a s).state.ct.windows = insertWindow (windowOf a k) s.ct.windows := by
  unfold ownLoadWindow
  rcases checked_state_cases s _ _ with hrefused | hact
  · exact .inl (by rw [hrefused])
  · rw [hact]
    cases a.access with
    | none => exact .inl rfl
    | some k => exact .inr ⟨k, rfl⟩

theorem mem_ownLoadWindow_windows {a : WindowArgs} {s : State} {w : Window}
    (hw : w ∈ (ownLoadWindow a s).state.ct.windows) : w ∈ s.ct.windows ∨ (w.id = a.id ∧ w.denied = 0) := by
  rcases ownLoadWindow_windows a s with hsame | ⟨k, hinsert⟩
  · exact .inl (hsame ▸ hw)
  · rw [hinsert, (insertWindow_perm _ _).mem_iff, List.mem_cons] at hw
    rcases hw with rfl | hold
    · exact .inr ⟨rfl, rfl⟩
    · exact .inl hold

end Sys2Proof.Machine

namespace Sys2Proof.Proofs.DropWindow

open Sys2Proof.Machine Sys2Proof.Expect

/-- A DROP_WINDOW that is taken ends as its action answers. -/
theorem exec_dropWindow_of_answer (tag : Byte) {n : Nat} {s t : State} {r : Status} {d : List Byte} (h : Listening s)
    (ha : ownDropWindow n (placed s) = ⟨t, r, d⟩) :
    exec (.dropWindow tag n) s = .next (replied t tag 0x31 r d) := by
  obtain ⟨hrun, hplace⟩ := h
  rw [exec_dropWindow, execDropWindow, whenRunning_running hrun, takeCommand_free hplace]
  exact congrArg (fun b : Answer => Host.Outcome.next (b.state.reply tag 0x31 b.status b.data)) ha

/-- A window held after a load was held before it, or is the loaded one with nothing counted. -/
theorem exec_loadWindow_windows {tag : Byte} {a : WindowArgs} {s t : State} (h : Listening s)
    (ht : exec (.loadWindow tag a) s = .next t) :
    ∀ w ∈ t.ct.windows, w ∈ s.ct.windows ∨ (w.id = a.id ∧ w.denied = 0) := by
  obtain ⟨hrun, hplace⟩ := h
  rw [exec_loadWindow, execLoadWindow, whenRunning_running hrun, takeCommand_free hplace] at ht
  cases ht
  exact fun w hw => mem_ownLoadWindow_windows (s := placed s) hw

/-- Settles O48: the three answers of DROP_WINDOW by the lemma for each, and the windows after a load. -/
theorem windowIsDropped : Obligations.WindowIsDropped := by
  refine ⟨fun tag n s h => ⟨fun hn => ?_, fun hn hnone => ?_, fun before after w hn hsplit hw hb ha => ?_⟩,
    fun _ _ _ _ h ht => exec_loadWindow_windows h ht⟩
  · exact exec_dropWindow_of_answer tag h (ownDropWindow_range hn (placed s))
  · exact exec_dropWindow_of_answer tag h (ownDropWindow_notFound (s := placed s) hn hnone)
  · rw [← encWindow_eq]
    exact exec_dropWindow_of_answer tag h (ownDropWindow_found (s := placed s) hn hsplit hw hb ha)

end Sys2Proof.Proofs.DropWindow

/-! SUBMIT_REQUEST's ids (R156). First the search for the next id; then what an answer to a submission can be. -/

namespace Sys2Proof.Machine

theorem exec_submitRequest (tag : Byte) (i origin : Nat) (p : Option Priority) (s : State) :
    exec (.submitRequest tag i origin p) s = execSubmitRequest tag i origin p s := rfl

/-! ### The search for the next id -/

/-- The search passes over held ids only. -/
theorem nextId_first (held : Nat → Bool) (k last : Nat) :
    ∃ i, nextId held k last = (last + i) % 255 + 1 ∧ ∀ j, j < i → held ((last + j) % 255 + 1) = true := by
  induction k generalizing last with
  | zero => exact ⟨0, rfl, fun j hj => absurd hj (Nat.not_lt_zero j)⟩
  | succ k ih =>
    cases hlast : held (last % 255 + 1) with
    | false => exact ⟨0, by simp [nextId, hlast], fun j hj => absurd hj (Nat.not_lt_zero j)⟩
    | true =>
      obtain ⟨i, hid, hpassed⟩ := ih (last % 255 + 1)
      have shift (j : Nat) : (last % 255 + 1 + j) % 255 = (last + (j + 1)) % 255 := by omega
      refine ⟨i + 1, by simp [nextId, hlast, hid, shift], fun j hj => ?_⟩
      cases j with
      | zero => exact hlast
      | succ j => exact shift j ▸ hpassed j (by omega)

/-- An entry of the queue holds the id: what the search for the next id asks. -/
def State.holdsId (s : State) (n : Nat) : Bool := s.rs.queue.any fun r => decide (r.id = n)

theorem holdsId_iff {s : State} {n : Nat} : s.holdsId n = true ↔ ∃ r ∈ s.rs.queue, r.id = n := by
  simp [State.holdsId]

theorem freshId_eq (s : State) : s.freshId = nextId s.holdsId 255 s.rs.lastId := rfl

/-- No entry holds the id chosen, also with the queue full (`freshId_new` needs room in it): else the search has found all the
ids held, and 33 of them are more than the queue's entries. -/
theorem freshId_not_held {s : State} (hlen : s.rs.queue.length ≤ 32) : ¬ ∃ r ∈ s.rs.queue, r.id = s.freshId := by
  intro hheld
  have hall := nextId_held (freshId_eq s ▸ holdsId_iff.mpr hheld)
  have hnodup : ((List.range 33).map fun j => (s.rs.lastId + j) % 255 + 1).Nodup :=
    List.pairwise_map.mpr (List.nodup_range.imp_of_mem fun ha hb hne => by
      rw [List.mem_range] at ha hb
      omega)
  have hsub := length_le_of_subset (b := s.rs.queue.map Request.id) hnodup fun n hn => by
    obtain ⟨j, hj, rfl⟩ := List.mem_map.mp hn
    rw [List.mem_range] at hj
    exact List.mem_map.mpr (holdsId_iff.mp (hall j (by omega)))
  simp only [List.length_map, List.length_range] at hsub
  omega

/-! ### What a submission is answered -/

theorem withPlacement_age (r : Request) (p : Placement) : (r.withPlacement p).age = r.age := by
  cases p <;> rfl

@[simp] theorem countDenied_rs (s : State) (i : Nat) (st : Status) : (s.countDenied i st).rs = s.rs := by
  unfold State.countDenied
  split <;> rfl

theorem accessRefusal_ne_accepted {w : Window} {origin : Nat} {st : Status} (h : accessRefusal w origin = some st) :
    st ≠ .accepted := by
  rintro rfl
  unfold accessRefusal at h
  split at h
  · cases h
  · cases h
  · split at h <;> cases h

theorem disposition_refused_ne_accepted {s : State} {i origin : Nat} {st : Status}
    (h : s.disposition i origin = .refused st) : st ≠ .accepted := by
  unfold State.disposition at h
  split at h
  · cases h
    decide
  · split at h
    · rename_i haccess
      cases h
      exact accessRefusal_ne_accepted haccess
    · split at h <;> cases h
      decide

/-- Joining the queue is all an accepted entry does to RS, but for the round that it may leave due. -/
theorem acceptRequest_rs (s : State) (r : Request) :
    ∃ due, (s.acceptRequest r).rs = { (s.enqueue r).rs with planningDue := due } := by
  have hposted : ((s.enqueue r).onlyIf (decide (r.state = .waitingRoll)) fun t => t.postRollWanted r.label).rs
      = (s.enqueue r).rs := by
    unfold State.onlyIf
    split
    · exact post_rs _ _
    · rfl
  rw [State.acceptRequest, offerPlanning_eq]
  dsimp only
  rw [hposted]
  exact ⟨_, rfl⟩

/-- A submission is refused with RS unchanged, or an entry with the next id and age is accepted (R156). -/
theorem ownSubmitRequest_cases (i origin : Nat) (p : Option Priority) (s : State) :
    (∃ (t : State) (st : Status), ownSubmitRequest i origin p s = t.refuse st ∧ t.rs = s.rs ∧ st ≠ .accepted)
      ∨ ∃ r, ownSubmitRequest i origin p s = (s.acceptRequest r).acceptedWith (submitData r) ∧ r.id = s.freshId
          ∧ r.age = s.rs.submissions := by
  rw [ownSubmitRequest, checked_cons, checked_cons, checked_nil]
  split
  · exact .inl ⟨s, .range, rfl, rfl, by decide⟩
  split
  · exact .inl ⟨s, .queueFull, rfl, rfl, by decide⟩
  split
  next st hrefused => exact .inl ⟨_, st, rfl, countDenied_rs s i st, disposition_refused_ne_accepted hrefused⟩
  next => exact .inr ⟨_, rfl, withPlacement_id _ _, withPlacement_age _ _⟩

/-- The action of a submission leaves the reply list to the command buffer. -/
theorem ownSubmitRequest_replies (i origin : Nat) (p : Option Priority) (s : State) :
    (ownSubmitRequest i origin p s).state.li.replies = s.li.replies :=
  congrArg (fun talk : Nat × List Reply × Nat => talk.2.1) (ownSubmitRequest_keeps (Keeps.refl s) i origin p).talk

end Sys2Proof.Machine

namespace Sys2Proof.Proofs.RequestIds

open Sys2Proof.Machine Sys2Proof.Expect

/-- With a place free, a submission ends with its action's answer as the reply. -/
theorem exec_submitRequest_of_answer (tag : Byte) {i origin : Nat} {p : Option Priority} {s : State} (h : Listening s) :
    ∃ t, exec (.submitRequest tag i origin p) s = .next t
      ∧ t.rs = (ownSubmitRequest i origin p (placed s)).state.rs
      ∧ t.li.replies =
          s.li.replies ++ [{ tag := tag, kind := 0x38, status := (ownSubmitRequest i origin p (placed s)).status,
                             data := (ownSubmitRequest i origin p (placed s)).data }] := by
  obtain ⟨hrun, hplace⟩ := h
  rw [exec_submitRequest, execSubmitRequest, whenRunning_running hrun, takeCommand_free hplace]
  exact ⟨_, rfl, rfl, congrArg (· ++ _) (ownSubmitRequest_replies i origin p (placed s))⟩

/-- The next id of R156. -/
theorem freshId_is_next (s : State) (hlen : s.rs.queue.length ≤ 32) :
    1 ≤ s.freshId ∧ s.freshId ≤ 255 ∧ (¬ ∃ r ∈ s.rs.queue, r.id = s.freshId)
      ∧ ∃ k, s.freshId = (s.rs.lastId + k) % 255 + 1
          ∧ ∀ j, j < k → ∃ r ∈ s.rs.queue, r.id = (s.rs.lastId + j) % 255 + 1 := by
  obtain ⟨hlow, hhigh⟩ := nextId_range s.holdsId 255 s.rs.lastId
  obtain ⟨k, hid, hpassed⟩ := nextId_first s.holdsId 255 s.rs.lastId
  exact ⟨hlow, hhigh, freshId_not_held hlen, k, hid, fun j hj => holdsId_iff.mp (hpassed j hj)⟩

/-- A submission takes the next id and age, or is refused and takes neither. -/
theorem exec_submitRequest_ids (tag : Byte) (i origin : Nat) (p : Option Priority) (s : State) (h : Listening s) :
    ∃ t, exec (.submitRequest tag i origin p) s = .next t
      ∧ ((∃ r, t.rs.queue = s.rs.queue ++ [r] ∧ r.id = s.freshId ∧ r.age = s.rs.submissions ∧ t.rs.lastId = s.freshId
            ∧ t.rs.submissions = (s.rs.submissions + 1) % 4294967296
            ∧ ∃ d, t.li.replies = s.li.replies ++ [{ tag := tag, kind := 0x38, status := .accepted, data := d }])
        ∨ (t.rs.queue = s.rs.queue ∧ t.rs.lastId = s.rs.lastId ∧ t.rs.submissions = s.rs.submissions
            ∧ ∃ st, st ≠ .accepted
              ∧ t.li.replies = s.li.replies ++ [{ tag := tag, kind := 0x38, status := st, data := [] }])) := by
  obtain ⟨t, ht, hrs, hreplies⟩ := exec_submitRequest_of_answer tag (i := i) (origin := origin) (p := p) h
  refine ⟨t, ht, ?_⟩
  rcases ownSubmitRequest_cases i origin p (placed s) with ⟨u, st, hown, hu, hst⟩ | ⟨r, hown, hid, hage⟩
  · rw [hown] at hrs hreplies
    have hsame : t.rs = s.rs := hrs.trans hu
    exact .inr ⟨by rw [hsame], by rw [hsame], by rw [hsame], st, hst, hreplies⟩
  · rw [hown] at hrs hreplies
    obtain ⟨due, hjoined⟩ := acceptRequest_rs (placed s) r
    have hnew : t.rs = { ((placed s).enqueue r).rs with planningDue := due } := hrs.trans hjoined
    exact .inl ⟨r, by rw [hnew]; rfl, hid, hage, by rw [hnew]; exact hid, by rw [hnew]; rfl, _, hreplies⟩

/-- Settles O49: the search for the next id, power-on, and the two ends of a submission. -/
theorem nextIdIsFree : Obligations.NextIdIsFree :=
  ⟨fun s hlen _ => freshId_is_next s hlen, rfl, rfl, exec_submitRequest_ids⟩

end Sys2Proof.Proofs.RequestIds

/-! What every row of the table keeps (O57 to O60). A host command is its owner's answer in the command buffer's frame, so
`takeCommand_step` and `ownerOf_keeps` cover all of them; the events follow row by row. -/

namespace Sys2Proof.Machine

/-! ### Host commands, by the frame that carries them -/

/-- A host command's row hands it over to its owner, under the kind and tag of its frame (R190). -/
theorem exec_hostCommand {i : Instr} {kind tag : Byte} {body : List Byte} (h : encodeCommand i = some (kind, tag, body))
    (s : State) : exec i s = whenRunning s fun s => s.takeCommand tag kind (ownerOf i) := by
  cases i <;> cases h <;> rfl

/-- A host command that is taken ends with its owner's answer as the reply. -/
theorem exec_listening {i : Instr} {kind tag : Byte} {body : List Byte} (h : encodeCommand i = some (kind, tag, body))
    {s : State} (hs : Expect.Listening s) :
    exec i s =
      .next
        (Expect.replied (ownerOf i (Expect.placed s)).state tag kind (ownerOf i (Expect.placed s)).status
          (ownerOf i (Expect.placed s)).data) := by
  rw [exec_hostCommand h, whenRunning_running hs.1, takeCommand_free hs.2]
  rfl

/-- A host command that is taken, from its owner's answer. -/
theorem exec_of_answer {i : Instr} {kind tag : Byte} {body : List Byte} (h : encodeCommand i = some (kind, tag, body))
    {s : State} (hs : Expect.Listening s) {t : State} {st : Status} {data : List Byte}
    (ha : ownerOf i (Expect.placed s) = ⟨t, st, data⟩) : exec i s = .next (Expect.replied t tag kind st data) := by
  rw [exec_listening h hs, ha]

/-- A host command that is taken, from the two ends of its owner's checks. -/
theorem exec_answered {i : Instr} {kind tag : Byte} {body : List Byte} (h : encodeCommand i = some (kind, tag, body))
    {s : State} (hs : Expect.Listening s) {refusal : Option Status} {t : State} {st : Status} {data : List Byte}
    (hrefused : ∀ r, refusal = some r → ownerOf i (Expect.placed s) = (Expect.placed s).refuse r)
    (hdone : refusal = none → ownerOf i (Expect.placed s) = ⟨t, st, data⟩) :
    exec i s = .next (Expect.answered s tag kind refusal t st data) := by
  cases refusal with
  | none => exact exec_of_answer h hs (hdone rfl)
  | some r => exact exec_of_answer h hs (hrefused r rfl)

/-! ### Every row keeps the laws -/

theorem whenRunning_keeps {s t : State} {f : State → State} (hf : StepKeeps s (f s)) (h : whenRunning s f = .next t) :
    StepKeeps s t := by
  cases h
  split
  · exact StepKeeps.refl s
  · exact hf

theorem hostCommand_keeps {i : Instr} {s t : State} (he : (encodeCommand i).isSome) (h : exec i s = .next t) :
    StepKeeps s t := by
  obtain ⟨⟨kind, tag, body⟩, hframe⟩ := Option.isSome_iff_exists.mp he
  rw [exec_hostCommand hframe] at h
  exact whenRunning_keeps (takeCommand_step fun u => ownerOf_keeps (Keeps.refl u) i) h

/-! ### The state after reset -/

theorem reset_tc_wf : State.reset.tc.wf := ⟨Nat.zero_le _, Nat.zero_le _, .inl rfl⟩

theorem reset_cu_wf : State.reset.cu.wf := rebuiltCu_wf { presence := [], station := 0, atPosition := false, gateFilm := false }

theorem reset_tablesWf : State.reset.tablesWf where
  liveIndex := ⟨Nat.zero_le _, Nat.zero_le _, .nil⟩
  liveMap := ⟨Nat.zero_le _, .nil⟩
  savedIndex e he := by
    rw [List.eq_of_mem_replicate he]
    exact ⟨Nat.zero_le _, Nat.zero_le _, .nil⟩
  savedMap e he := by
    rw [List.eq_of_mem_replicate he]
    exact ⟨Nat.zero_le _, .nil⟩

theorem reset_cp_wf : State.reset.cp.wf := ⟨rfl, by decide, storeLaw_empty 16⟩

theorem reset_ct_wf : State.reset.ct.wf :=
  ⟨Nat.zero_le _, .nil, fun _ h => absurd h List.not_mem_nil, fun _ h => absurd h List.not_mem_nil, .nil⟩

theorem reset_rs_wf : State.reset.rs.wf :=
  ⟨Nat.zero_le _, .nil, fun _ h => absurd h List.not_mem_nil, Nat.zero_le _, Nat.zero_le _⟩

theorem channelReset_wf : Channel.reset.wf := ⟨fun _ => rfl, fun _ => ⟨rfl, rfl⟩, fun _ => rfl⟩

theorem reset_dc_wf : State.reset.dc.wf := ⟨channelReset_wf, channelReset_wf, rfl, fun h => absurd h (by decide), by decide⟩

theorem reset_bufferWf : State.reset.li.bufferWf := ⟨rfl, Nat.zero_le _⟩

theorem reset_noticesWf : State.reset.li.noticesWf :=
  ⟨List.pairwise_singleton .., by decide, rfl, by decide⟩

theorem liReset_bufferWf : Li.reset.bufferWf := ⟨rfl, Nat.zero_le _⟩

theorem liReset_noticesWf : Li.reset.noticesWf :=
  ⟨.nil, fun _ h => absurd h List.not_mem_nil, rfl, fun _ h => absurd h List.not_mem_nil⟩

theorem reset_fm_wf : State.reset.fm.wf :=
  ⟨.nil, fun _ h => absurd h List.not_mem_nil, fun _ h => absurd h List.not_mem_nil, Nat.zero_le _⟩

theorem reset_slotsWf : State.reset.slotsWf := slotLaw_empty 16

/-! ### The events -/

theorem resetnAssert_keeps (s : State) :
    StepKeeps s
      { State.reset with
        li := Li.reset, resetHeld := true, hold := s.hold, gateFilm := s.gateFilm, presence := s.presence,
        pending := s.pending, free := s.free } where
  tc _ := reset_tc_wf
  cu _ := reset_cu_wf
  tables _ := ⟨reset_tablesWf.liveIndex, reset_tablesWf.liveMap, reset_tablesWf.savedIndex, reset_tablesWf.savedMap⟩
  cp _ := reset_cp_wf
  ct _ := reset_ct_wf
  rs _ := reset_rs_wf
  dc _ := reset_dc_wf
  notices _ := liReset_noticesWf
  fm _ := reset_fm_wf
  buffer _ := liReset_bufferWf
  slots _ := reset_slotsWf

/-- A change of what stands outside the blocks. -/
theorem stepKeeps_outside (s : State) (held hold gate : Bool) (presence : List Bool) (pending : List Instr) (free : Nat) :
    StepKeeps s
      { s with resetHeld := held, hold := hold, gateFilm := gate, presence := presence, pending := pending, free := free } :=
  ⟨id, id, fun w => ⟨w.1, w.2, w.3, w.4⟩, id, id, id, id, id, id, id, State.storeWf.slots⟩

theorem gateFilm_keeps (s : State) (b : Bool) : Keeps s { s with gateFilm := b } :=
  ⟨⟨id, id, fun w => ⟨w.1, w.2, w.3, w.4⟩, id, id, id, id, id, id, rfl⟩, State.storeWf.slots⟩

theorem presence_keeps (s : State) (l : List Bool) : Keeps s { s with presence := l } :=
  ⟨⟨id, id, fun w => ⟨w.1, w.2, w.3, w.4⟩, id, id, id, id, id, id, rfl⟩, State.storeWf.slots⟩

theorem messageSent_keeps (s : State) :
    StepKeeps s (s.withSome s.li.tx fun t m => (t.modLi fun l => { l with tx := none }).sentReport m.source) := by
  cases htx : s.li.tx with
  | none => exact StepKeeps.refl s
  | some m => exact messageSent_step htx

theorem lampWarmup_keeps (s : State) : Keeps s (if s.cp.lamp = .warming then s.lampLights else s) := by
  split
  · exact lampLights_keeps (Keeps.refl s) ‹_›
  · exact Keeps.refl s

theorem keeps_whenRunning {s t : State} {f : State → State} (h : whenRunning s f = .next t) (hf : Keeps s (f s)) :
    StepKeeps s t :=
  whenRunning_keeps hf.step h

/-! ### Rows whose effect branches -/

section
variable {s t : State}

theorem execGateLoss_keeps (h : execGateLoss s = .next t) : StepKeeps s t := by
  refine keeps_whenRunning h ?_
  have k := gateFilm_keeps s false
  dsimp only
  split
  · exact k
  · split
    · exact endRewind_keeps k
    all_goals first | exact raise_keeps k rfl | exact k

theorem execGateFilmSeen_keeps (h : execGateFilmSeen s = .next t) : StepKeeps s t :=
  have k := gateFilm_keeps s true
  keeps_whenRunning h (ite_keeps (fun _ => modCu_keeps k rfl) fun _ => k)

theorem execSettleDwellExpiry_keeps (h : execSettleDwellExpiry s = .next t) : StepKeeps s t := by
  refine keeps_whenRunning h ?_
  have k := Keeps.refl s
  split
  · exact ite_keeps (fun _ => endSeek_keeps k _ _) fun _ => k
  · exact k

theorem execOverTensionDetection_keeps (h : execOverTensionDetection s = .next t) : StepKeeps s t := by
  refine keeps_whenRunning h (ite_keeps (fun _ => ?_) fun _ => Keeps.refl s)
  dsimp only
  split <;> exact raise_keeps (postTrip_keeps (modTu_keeps (modTu_keeps (Keeps.refl s)))) trivial

theorem execCarouselPositionChange_keeps {n : Nat} {b : Bool} (h : execCarouselPositionChange n b s = .next t) :
    StepKeeps s t :=
  have k := modCu_keeps (f := fun c => { c with station := n, atPosition := b }) (Keeps.refl s) rfl
  keeps_whenRunning h (onlyIf_keeps k fun _ => startThreader_keeps k)

theorem execRotationTimeout_keeps (h : execRotationTimeout s = .next t) : StepKeeps s t := by
  refine keeps_whenRunning h ?_
  have k := Keeps.refl s
  split
  · exact ite_keeps (fun _ => raise_keeps (modCu_keeps k rfl) rfl) fun _ => k
  · exact k

theorem execLeaderRetracted_keeps (h : execLeaderRetracted s = .next t) : StepKeeps s t :=
  have k := Keeps.refl s
  keeps_whenRunning h
    (ite_keeps (fun _ => offerPlanning_keeps (withSome_keeps (modCu_keeps k rfl) fun n _ => presenceCheck_keeps
      (modCu_keeps k rfl) n)) fun _ => k)

theorem execSlotPresenceChange_keeps {n : Nat} {b : Bool} (h : execSlotPresenceChange n b s = .next t) : StepKeeps s t :=
  keeps_whenRunning h
    (ite_keeps (fun _ => Keeps.refl s) fun _ => modCu_keeps (presence_keeps s (s.presence.set n b)) rfl)

theorem execPresenceStable_keeps {n : Nat} (h : execPresenceStable n s = .next t) : StepKeeps s t :=
  have k := Keeps.refl s
  keeps_whenRunning h (ite_keeps (fun _ => takePresence_keeps (modCu_keeps k rfl) n) fun _ => k)

theorem execEdgeMark_keeps {e : MarkEdge} {p : Nat} (h : execEdgeMark e p s = .next t) : StepKeeps s t := by
  refine keeps_whenRunning h ?_
  cases e with
  | first => exact modIx_keeps (Keeps.refl s) id
  | second =>
    have k := modIx_keeps (f := fun x => { x with firstEdge := none }) (Keeps.refl s) id
    exact withSome_keeps k fun e _ => ite_keeps (fun _ => settleSince_keeps (readMark_keeps k e p) _) fun _ => k

theorem execPlanningRound_keeps (h : execPlanningRound s = .next t) : StepKeeps s t :=
  have k := modRs_keeps (f := fun r => { r with planningDue := false }) (Keeps.refl s)
    (fun w => ⟨w.room, w.ids, w.range, w.indexItems, w.probeItems⟩) rfl
  keeps_whenRunning h
    (ite_keeps (fun _ => onlyIf_keeps k fun _ => settleSince_keeps (planRound_keeps k) _) fun _ => Keeps.refl s)

theorem execCaptureRunOrder_keeps {px : List Byte} (h : execCaptureRunOrder px s = .next t) : StepKeeps s t := by
  have k := Keeps.refl s
  refine keeps_whenRunning h (withSome_keeps k fun p _ => ite_keeps (fun _ => ?_) fun _ => k)
  refine ite_keeps (fun _ => abandonRun_keeps k) fun _ => ?_
  split
  · exact takeCaptureRun_keeps k _ px
  · exact abandonRun_keeps k

theorem execTelemetryIntervalExpiry_keeps (h : execTelemetryIntervalExpiry s = .next t) : StepKeeps s t := by
  refine keeps_whenRunning h ?_
  dsimp only
  split
  · exact Keeps.refl s
  · rename_i hmode
    have k : Keeps s (s.modDc nextSnapshot) :=
      modDc_keeps (Keeps.refl s) (fun w => ⟨w.a, w.b, w.image, w.snapshot, w.interval⟩) rfl
    exact modDc_keeps k (fun w => ⟨w.a, w.b, w.image, fun _ => hmode, w.interval⟩) rfl

theorem execProbeBandRead_keeps {ls : List (List Byte)} (h : execProbeBandRead ls s = .next t) : StepKeeps s t :=
  have k := Keeps.refl s
  keeps_whenRunning h
    (withSome_keeps k fun _ _ => ite_keeps
      (fun _ => ite_keeps (fun _ => bandScored_keeps k _ _) fun _ => abortProbe_keeps k _) fun _ => k)

theorem execHoldRelease_keeps (h : execHoldRelease s = .next t) : StepKeeps s t :=
  (stepKeeps_outside s s.resetHeld false s.gateFilm s.presence s.pending s.free).trans
    (whenRunning_keeps (arbitrate_step _) h)

theorem execFrameByteTimeout_keeps (h : execFrameByteTimeout s = .next t) : StepKeeps s t :=
  have k := Keeps.refl s
  keeps_whenRunning h (ite_keeps (fun _ => k) fun _ => linkError_keeps (hunt_keeps k) .framing)

end

theorem stepLens_map (f : Fu) : (stepLens f).map = f.map := by
  unfold stepLens
  (repeat' split) <;> rfl

/-- A row that no frame carries keeps the laws. -/
theorem event_keeps {i : Instr} (he : encodeCommand i = none) {s t : State} (h : exec i s = .next t) : StepKeeps s t := by
  have k := Keeps.refl s
  have tu (f : Tu → Tu) : Keeps s (s.modTu f) := modTu_keeps k
  cases i with
  | powerOn x =>
    cases h
    exact startUp_step s .powerOn x
  | resetnRelease x =>
    cases h
    split
    · exact startUp_step s .pin x
    · exact StepKeeps.refl s
  | resetnAssert =>
    cases h
    exact resetnAssert_keeps s
  | uptimeTick =>
    unfold exec execUptimeTick at h
    exact keeps_whenRunning h (modLi_keeps k (fun w => ⟨w.sources, w.counts, w.levels, w.notOff⟩) rfl)
  | linkFrameReceived bytes =>
    unfold exec execLinkFrameReceived at h
    exact whenRunning_keeps (each_step rxByte_step bytes s) h
  | frameByteTimeout => exact execFrameByteTimeout_keeps h
  | messageBegin =>
    unfold exec execMessageBegin at h
    exact whenRunning_keeps (arbitrate_step s) h
  | messageSent =>
    unfold exec execMessageSent at h
    exact whenRunning_keeps (messageSent_keeps s) h
  | holdAssert =>
    cases h
    exact stepKeeps_outside s s.resetHeld true s.gateFilm s.presence s.pending s.free
  | holdRelease => exact execHoldRelease_keeps h
  | encoderTick d pixels =>
    unfold exec execEncoderTick at h
    exact keeps_whenRunning h (tick_keeps k d pixels)
  | speedWindow =>
    unfold exec execSpeedWindow at h
    exact keeps_whenRunning h (settleMotion_keeps (motionTests_keeps (speedForTracker_keeps (slackFollow_keeps
      (newSpeed_keeps k)))))
  | settleDwellExpiry => exact execSettleDwellExpiry_keeps h
  | encoderTimeout =>
    unfold exec execEncoderTimeout at h
    exact keeps_whenRunning h (ite_keeps (fun _ => raise_keeps k rfl) fun _ => k)
  | trailerEvent =>
    unfold exec execTrailerEvent at h
    exact keeps_whenRunning h (ite_keeps (fun _ => settleSince_keeps (trailer_keeps k) s) fun _ => k)
  | gateLoss => exact execGateLoss_keeps h
  | gateFilmSeen => exact execGateFilmSeen_keeps h
  | tensionSample c =>
    unfold exec execTensionSample at h
    exact keeps_whenRunning h (sample_keeps k c)
  | calibrationComplete =>
    unfold exec execCalibrationComplete at h
    exact keeps_whenRunning h (ite_keeps (fun _ => tu _) fun _ => k)
  | setpointRampStep =>
    unfold exec execSetpointRampStep at h
    exact keeps_whenRunning h (ite_keeps (fun _ => tu _) fun _ => k)
  | onTargetSet =>
    unfold exec execOnTargetSet at h
    exact keeps_whenRunning h (ite_keeps (fun _ => tu _) fun _ => k)
  | overTensionDetection => exact execOverTensionDetection_keeps h
  | speedCapLift =>
    unfold exec execSpeedCapLift at h
    exact keeps_whenRunning h (ite_keeps (fun _ => tu _) fun _ => k)
  | slackEpisodeBegin =>
    unfold exec execSlackEpisodeBegin at h
    exact keeps_whenRunning h (ite_keeps (fun _ => raise_keeps (tu _) rfl) fun _ => k)
  | slackEpisodeEnd =>
    unfold exec execSlackEpisodeEnd at h
    exact keeps_whenRunning h (ite_keeps (fun _ => tu _) fun _ => k)
  | filmBreakDetection =>
    unfold exec execFilmBreakDetection at h
    exact keeps_whenRunning h (ite_keeps (fun _ => raise_keeps k rfl) fun _ => k)
  | carouselPositionChange n b => exact execCarouselPositionChange_keeps h
  | threadingComplete =>
    unfold exec execThreadingComplete at h
    exact keeps_whenRunning h (ite_keeps (fun _ => completeThreading_keeps k) fun _ => k)
  | rotationTimeout => exact execRotationTimeout_keeps h
  | threadingTimeout =>
    unfold exec execThreadingTimeout at h
    exact keeps_whenRunning h (ite_keeps (fun _ => failThreading_keeps k) fun _ => k)
  | retractionTimeout =>
    unfold exec execRetractionTimeout at h
    exact keeps_whenRunning h (ite_keeps (fun _ => raise_keeps (modCu_keeps k rfl) rfl) fun _ => k)
  | leaderRetracted => exact execLeaderRetracted_keeps h
  | slotPresenceChange n b => exact execSlotPresenceChange_keeps h
  | presenceStable n => exact execPresenceStable_keeps h
  | edgeMark e p => exact execEdgeMark_keeps h
  | spliceEvent p =>
    unfold exec execSpliceEvent at h
    exact keeps_whenRunning h (splice_keeps k p)
  | lensStep =>
    unfold exec execLensStep at h
    exact keeps_whenRunning h (modFu_keeps k fun w => by rwa [stepLens_map])
  | probeBandRead ls => exact execProbeBandRead_keeps h
  | lampWarmupExpiry =>
    unfold exec execLampWarmupExpiry at h
    exact keeps_whenRunning h (lampWarmup_keeps s)
  | planningRound => exact execPlanningRound_keeps h
  | captureRunOrder px => exact execCaptureRunOrder_keeps h
  | channelTakeSlot =>
    unfold exec execChannelTakeSlot at h
    exact keeps_whenRunning h (takeHead_keeps (takeHead_keeps k .a) .b)
  | telemetryIntervalExpiry => exact execTelemetryIntervalExpiry_keeps h
  | _ => cases he

/-- Every row of the table keeps every law. -/
theorem exec_keeps {i : Instr} {s t : State} (h : exec i s = .next t) : StepKeeps s t := by
  cases he : encodeCommand i with
  | none => exact event_keeps he h
  | some frame => exact hostCommand_keeps (by rw [he]; rfl) h

/-- A step keeps every law: the queue of commands has no part in them. -/
theorem step_keeps {s t : State} (h : step s = .next t) : StepKeeps s t := by
  unfold step at h
  split at h
  · cases h
    exact StepKeeps.refl s
  · rename_i i rest _
    exact (stepKeeps_outside s s.resetHeld s.hold s.gateFilm s.presence rest s.free).trans (exec_keeps h)

end Sys2Proof.Machine

namespace Sys2Proof.Proofs.Invariants

open Sys2Proof.Machine Sys2Proof.Expect

/-- Settles O57. -/
theorem stepKeepsTheFilmAndItsTables : Obligations.StepKeepsTheFilmAndItsTables := fun _ _ h =>
  ⟨(step_keeps h).tc, (step_keeps h).cu, (step_keeps h).tables⟩

/-- Settles O58: the law of slots holds jointly with those of the slots and of the queue. -/
theorem stepKeepsTheStoreCatalogueAndQueue : Obligations.StepKeepsTheStoreCatalogueAndQueue := fun _ _ h =>
  ⟨(step_keeps h).cp, (step_keeps h).ct, (step_keeps h).rs, fun hcp hrs hslots => (step_keeps h).slots ⟨hcp, hrs, hslots⟩⟩

/-- Settles O59. -/
theorem stepKeepsTheChannelsAndTheLink : Obligations.StepKeepsTheChannelsAndTheLink := fun _ _ h =>
  ⟨(step_keeps h).dc, (step_keeps h).buffer, (step_keeps h).notices⟩

/-- Settles O60. -/
theorem stepKeepsTheFaultsAndTheLog : Obligations.StepKeepsTheFaultsAndTheLog := fun _ _ h => (step_keeps h).fm

/-- Settles O1. -/
theorem stepTakesTheFrontCommand : Obligations.StepTakesTheFrontCommand :=
  ⟨fun _ _ _ => rfl, fun s h => by simp only [step, h]⟩

/-- Settles O3. -/
theorem resetSatisfiesTheLaws : Obligations.ResetSatisfiesTheLaws :=
  ⟨reset_tc_wf, reset_cu_wf, reset_tablesWf, reset_cp_wf, reset_ct_wf, reset_rs_wf, reset_dc_wf, reset_bufferWf,
    reset_noticesWf, reset_fm_wf, reset_slotsWf⟩

/-- Settles O2, block by block: each value is the one that the model's reset state holds. -/
theorem resetHoldsTheSpecValues : Obligations.ResetHoldsTheSpecValues := by
  unfold Obligations.ResetHoldsTheSpecValues
  refine ⟨?tc, ?tu, ?cu, ?ix, ?fu, ?cp, rfl, ?rs, ?dc, ?li, ?fm⟩ <;> (repeat' apply And.intro) <;> rfl

end Sys2Proof.Proofs.Invariants

/-! The link (O4 to O8): what is not taken, the frames of the commands, the receiver and the arbiter. -/

namespace Sys2Proof.Machine

/-! ### Rows while RESETn is low -/

/-- The rows that act whether RESETn is low or high: the pins, and the power (R197, R199). -/
def actsInReset : Instr → Bool
  | .powerOn _ | .resetnRelease _ | .resetnAssert | .holdAssert | .holdRelease => true
  | _ => false

theorem exec_held {i : Instr} (hi : actsInReset i = false) {s : State} (hs : s.resetHeld = true) :
    exec i s = .next s := by
  obtain ⟨tc, tu, cu, ix, fu, cp, ct, rs, dc, li, fm, held, hold, gate, presence, pending, free⟩ := s
  cases hs
  cases i with
  | powerOn | resetnRelease | resetnAssert | holdAssert | holdRelease => cases hi
  | _ => rfl

/-! ### Link errors -/

/-- A link error counted, saturating at 65,535, and its notice (R189, R190). -/
theorem linkError_crc (s : State) :
    s.linkError .crc =
      State.post { s with li := { s.li with crcErrors := min (s.li.crcErrors + 1) 65535 } } .linkError
        (.linkError .crc (min (s.li.crcErrors + 1) 65535) s.li.framingErrors s.li.overruns) := rfl

theorem linkError_framing (s : State) :
    s.linkError .framing =
      State.post { s with li := { s.li with framingErrors := min (s.li.framingErrors + 1) 65535 } } .linkError
        (.linkError .framing s.li.crcErrors (min (s.li.framingErrors + 1) 65535) s.li.overruns) := rfl

theorem linkError_overrun (s : State) :
    s.linkError .overrun =
      State.post { s with li := { s.li with overruns := min (s.li.overruns + 1) 65535 } } .linkError
        (.linkError .overrun s.li.crcErrors s.li.framingErrors (min (s.li.overruns + 1) 65535)) := rfl

/-! ### Numbers and fields of a body -/

theorem field_append_right {a b : List Byte} {off len k : Nat} (h : off = a.length + k) :
    field (a ++ b) off len = field b k len := by
  subst h
  simp only [field, List.drop_append]
  rw [List.drop_eq_nil_of_le (Nat.le_add_right _ _), Nat.add_sub_cancel_left]
  rfl

theorem field_append_left {a b : List Byte} {len : Nat} (h : a.length = len) : field (a ++ b) 0 len = beNat a := by
  subst h
  simp [field]

theorem field_all {a : List Byte} {len : Nat} (h : a.length = len) : field a 0 len = beNat a := by
  subst h
  simp [field]

theorem beNat_u8 {n : Nat} (h : n < 256) : beNat (u8 n) = n := by
  simp only [beNat, u8, List.foldl_cons, List.foldl_nil, BitVec.toNat_ofNat]
  omega

theorem beNat_u16 {n : Nat} (h : n < 65536) : beNat (u16 n) = n := by
  simp only [beNat, u16, List.foldl_cons, List.foldl_nil, BitVec.toNat_ofNat]
  omega

theorem beNat_u32 {n : Nat} (h : n < 4294967296) : beNat (u32 n) = n := by
  simp only [beNat, u32, List.foldl_cons, List.foldl_nil, BitVec.toNat_ofNat]
  omega

section
variable {rest : List Byte} {n k len : Nat}

@[simp] theorem field_u8_skip : field (u8 n ++ rest) (k + 1) len = field rest k len :=
  field_append_right (by rw [Nat.add_comm]; rfl)

@[simp] theorem field_u16_skip : field (u16 n ++ rest) (k + 2) len = field rest k len :=
  field_append_right (by rw [Nat.add_comm]; rfl)

@[simp] theorem field_u32_skip : field (u32 n ++ rest) (k + 4) len = field rest k len :=
  field_append_right (by rw [Nat.add_comm]; rfl)

theorem field_u8 (h : n < 256) : field (u8 n ++ rest) 0 1 = n := (field_append_left rfl).trans (beNat_u8 h)

theorem field_u16 (h : n < 65536) : field (u16 n ++ rest) 0 2 = n := (field_append_left rfl).trans (beNat_u16 h)

theorem field_u32 (h : n < 4294967296) : field (u32 n ++ rest) 0 4 = n := (field_append_left rfl).trans (beNat_u32 h)

theorem field_u8_last (h : n < 256) : field (u8 n) 0 1 = n := (field_all rfl).trans (beNat_u8 h)

theorem field_u16_last (h : n < 65536) : field (u16 n) 0 2 = n := (field_all rfl).trans (beNat_u16 h)

theorem field_u32_last (h : n < 4294967296) : field (u32 n) 0 4 = n := (field_all rfl).trans (beNat_u32 h)

end

/-! ### Choices and optional fields -/

/-- A set of named values numbered by num, which `of` reads back; 255 names none of them (R192). -/
structure ChoiceCode {α : Type} (num : α → Nat) (of : Nat → Option α) : Prop where
  small : ∀ x, num x < 255
  known : ∀ x, of (num x) = some x
  unknown : of 255 = none

theorem tripAction_code : ChoiceCode TripAction.ctorIdx tripActionOf :=
  ⟨fun x => by cases x <;> decide, fun x => by cases x <;> rfl, rfl⟩

theorem jogSpeed_code : ChoiceCode JogSpeed.ctorIdx jogSpeedOf :=
  ⟨fun x => by cases x <;> decide, fun x => by cases x <;> rfl, rfl⟩

theorem gauge_code : ChoiceCode gaugeNumber gaugeOf :=
  ⟨fun x => by cases x <;> decide, fun x => by cases x <;> rfl, rfl⟩

theorem base_code : ChoiceCode FilmBase.ctorIdx baseOf :=
  ⟨fun x => by cases x <;> decide, fun x => by cases x <;> rfl, rfl⟩

theorem indexChoice_code : ChoiceCode IndexChoice.ctorIdx indexChoiceOf :=
  ⟨fun x => by cases x <;> decide, fun x => by cases x <;> rfl, rfl⟩

theorem access_code : ChoiceCode AccessClass.ctorIdx accessOf :=
  ⟨fun x => by cases x <;> decide, fun x => by cases x <;> rfl, rfl⟩

theorem priority_code : ChoiceCode Priority.ctorIdx priorityOf :=
  ⟨fun x => by cases x <;> decide, fun x => by cases x <;> rfl, rfl⟩

theorem mode_code : ChoiceCode DeviceMode.ctorIdx modeOf :=
  ⟨fun x => by cases x <;> decide, fun x => by cases x <;> rfl, rfl⟩

theorem channel_code : ChoiceCode ChannelId.ctorIdx channelOf :=
  ⟨fun x => by cases x <;> decide, fun x => by cases x <;> rfl, rfl⟩

theorem channelMode_code : ChoiceCode ChannelMode.ctorIdx channelModeOf :=
  ⟨fun x => by cases x <;> decide, fun x => by cases x <;> rfl, rfl⟩

theorem level_code : ChoiceCode NoticeLevel.ctorIdx levelOf :=
  ⟨fun x => by cases x <;> decide, fun x => by cases x <;> rfl, rfl⟩

theorem scope_code : ChoiceCode ClearScope.ctorIdx scopeOf :=
  ⟨fun x => by cases x <;> decide, fun x => by cases x <;> rfl, rfl⟩

theorem logMode_code : ChoiceCode LogMode.ctorIdx logModeOf :=
  ⟨fun x => by cases x <;> decide, fun x => by cases x <;> rfl, rfl⟩

theorem raiseClass_code : ChoiceCode (fun x : FaultClass => 1 - x.ctorIdx) raiseClassOf :=
  ⟨fun x => by cases x <;> decide, fun x => by cases x <;> rfl, rfl⟩

theorem onOff_code : ChoiceCode (fun x : Bool => (!x).toNat) onOffOf :=
  ⟨fun x => by cases x <;> decide, fun x => by cases x <;> rfl, rfl⟩

theorem flag_code : ChoiceCode Bool.toNat flagOf :=
  ⟨fun x => by cases x <;> decide, fun x => by cases x <;> rfl, rfl⟩

section
variable {α : Type} {num : α → Nat} {of : Nat → Option α} {rest : List Byte} {k len : Nat}

theorem ChoiceCode.byte_lt (h : ChoiceCode num of) (o : Option α) : (o.map num).getD 255 < 256 := by
  cases o with
  | none => exact (by decide : 255 < 256)
  | some x => exact Nat.lt_trans (h.small x) (by decide)

theorem ChoiceCode.of_byte (h : ChoiceCode num of) (o : Option α) : of ((o.map num).getD 255) = o := by
  cases o with
  | none => exact h.unknown
  | some x => exact h.known x

theorem ChoiceCode.read (h : ChoiceCode num of) (o : Option α) :
    of (field (choiceByte (o.map num) ++ rest) 0 1) = o := by
  rw [choiceByte, field_u8 (h.byte_lt o), h.of_byte]

theorem ChoiceCode.read_last (h : ChoiceCode num of) (o : Option α) : of (field (choiceByte (o.map num)) 0 1) = o := by
  rw [choiceByte, field_u8_last (h.byte_lt o), h.of_byte]

@[simp] theorem field_choice_skip {o : Option Nat} : field (choiceByte o ++ rest) (k + 1) len = field rest k len :=
  field_u8_skip

/-- An optional field begins where its presence byte does. -/
theorem optField_append_right {a b : List Byte} {off : Nat} (h : off = a.length + k) :
    optField (a ++ b) off len = optField b k len := by
  unfold optField
  rw [field_append_right h, field_append_right (k := k + 1) (by omega)]

theorem optField_skip {o : OptArg} : optField (optFieldBytes o ++ rest) (k + 3) len = optField rest k len :=
  optField_append_right (by rw [Laws.LinkFrame.length_optFieldBytes, Nat.add_comm])

/-- An optional field is read back (R192). -/
theorem optField_read {o : OptArg} (h : o.wf 2 = true) : optField (optFieldBytes o ++ rest) 0 2 = o := by
  cases o with
  | absent => rfl
  | badPresence => rfl
  | present n =>
    have hn : n < 65536 := by simpa [OptArg.wf, fits] using h
    have hvalue : field (u8 1 ++ u16 n ++ rest) 1 2 = n := by
      rw [List.append_assoc, field_append_right (off := 1) (k := 0) rfl, field_u16 hn]
    show OptArg.present (field (u8 1 ++ u16 n ++ rest) 1 2) = _
    rw [hvalue]

theorem optField_read_last {o : OptArg} (h : o.wf 2 = true) : optField (optFieldBytes o) 0 2 = o := by
  simpa using optField_read (rest := []) h

end

/-! ### Each command's body is read back -/

theorem fits_one {n : Nat} : fits 1 n = true ↔ n < 256 := by simp [fits]

theorem fits_two {n : Nat} : fits 2 n = true ↔ n < 65536 := by simp [fits]

theorem fits_four {n : Nat} : fits 4 n = true ↔ n < 4294967296 := by simp [fits]

/-- A body of its command's length is read as that command (R190). -/
theorem fixedBody_eq {n : Nat} {b : List Byte} {i j : Instr} (hlen : b.length = n) (h : i = j) :
    fixedBody n b i = .command j := by
  rw [fixedBody, if_pos hlen, h]

/-- A signed number is read back from its four bytes (R192). -/
theorem toInt_field_i32 {d : Int} {rest : List Byte} (hlow : -2147483648 ≤ d) (hhigh : d ≤ 2147483647) :
    (BitVec.ofNat 32 (field (i32 d ++ rest) 0 4)).toInt = d := by
  rw [i32, field_u32 (BitVec.isLt _), BitVec.ofNat_toNat, BitVec.setWidth_eq, BitVec.toInt_ofInt]
  exact Int.bmod_eq_of_le (by omega) (by omega)

/-- The levels are read back from their bytes. -/
theorem map_levelOf (ls : List (Option NoticeLevel)) :
    (ls.flatMap fun l => choiceByte (l.map NoticeLevel.ctorIdx)).map (fun x => levelOf x.toNat) = ls := by
  induction ls with
  | nil => rfl
  | cons l rest ih =>
    have hbyte : (BitVec.ofNat 8 ((l.map NoticeLevel.ctorIdx).getD 255)).toNat = (l.map NoticeLevel.ctorIdx).getD 255 :=
      Nat.mod_eq_of_lt (level_code.byte_lt l)
    rw [List.flatMap_cons, List.map_append, ih, choiceByte, u8, List.map_singleton, hbyte, level_code.of_byte]
    rfl

section
open Sys2Proof.Laws.LinkFrame

theorem decode_setTension {t : Byte} {a : TensionArgs} {k tag : Byte} {b : List Byte}
    (hw : (Instr.setTension t a).wf = true) (h : encodeCommand (.setTension t a) = some (k, tag, b)) :
    decodeFrame k tag b = .command (.setTension t a) := by
  cases h
  simp only [Instr.wf, Bool.and_eq_true, fits_one, fits_two] at hw
  obtain ⟨⟨⟨⟨⟨hgain, hscale⟩, htarget⟩, hlimit⟩, hslack⟩, hfilter⟩ := hw
  refine fixedBody_eq (by simp) ?_
  simp only [decodeSetTension, List.append_assoc, field_u8_skip, field_u16_skip, field_u8 hgain, field_u16 hscale,
    field_u16 htarget, field_u16 hlimit, field_u8 hslack, field_u8 hfilter, tripAction_code.read_last]

/-- A field that stands after a label (R192). -/
theorem field_past_label {before l after : List Byte} {off k len : Nat} (h : off = before.length + 1 + l.length + k) :
    field (before ++ (wireLabel l ++ after)) off len = field after k len := by
  rw [← List.append_assoc]
  exact field_append_right (by rw [h, List.length_append, length_wireLabel, Nat.add_assoc before.length])

/-- A label's length byte is read back, and its bytes after it. -/
theorem field_label {before l after : List Byte} {off : Nat} (h : off = before.length) (hl : l.length < 256) :
    field (before ++ (wireLabel l ++ after)) off 1 = l.length := by
  rw [field_append_right (k := 0) h, wireLabel, List.append_assoc, field_u8 hl]

theorem take_label {before l after : List Byte} {off : Nat} (h : off = before.length + 1) :
    ((before ++ (wireLabel l ++ after)).drop off).take l.length = l := by
  subst h
  simp [wireLabel, u8, List.drop_append, List.drop_eq_nil_of_le]

theorem decode_assignRoll {t : Byte} {a : AssignArgs} {k tag : Byte} {b : List Byte}
    (hw : (Instr.assignRoll t a).wf = true) (h : encodeCommand (.assignRoll t a) = some (k, tag, b)) :
    decodeFrame k tag b = .command (.assignRoll t a) := by
  cases h
  simp only [Instr.wf, Bool.and_eq_true, fits_one, fits_two, fits_four, isWireLabel, decide_eq_true_eq] at hw
  obtain ⟨⟨⟨hslot, hlabel⟩, hq⟩, hlamp⟩ := hw
  simp only [List.append_assoc]
  refine fixedBody_eq ?_ ?_
  · rw [field_label (off := 1) (before := u8 a.slot) rfl hlabel]
    simp
    omega
  · simp only [decodeAssignRoll]
    rw [field_label (off := 1) (before := u8 a.slot) rfl hlabel, take_label (off := 2) (before := u8 a.slot) rfl, field_past_label (before := u8 a.slot) (off := 2 + _) (k := 0) (by simp),
      field_past_label (before := u8 a.slot) (off := 3 + _) (k := 1) (by simp; omega),
      field_past_label (before := u8 a.slot) (off := 4 + _) (k := 2) (by simp; omega),
      field_past_label (before := u8 a.slot) (off := 8 + _) (k := 6) (by simp; omega)]
    simp only [field_choice_skip, field_u32_skip, field_u8 hslot, gauge_code.read, base_code.read, field_u32 hq,
      field_u16_last hlamp]

theorem decode_loadWindow {t : Byte} {a : WindowArgs} {k tag : Byte} {b : List Byte}
    (hw : (Instr.loadWindow t a).wf = true) (h : encodeCommand (.loadWindow t a) = some (k, tag, b)) :
    decodeFrame k tag b = .command (.loadWindow t a) := by
  cases h
  simp only [Instr.wf, Bool.and_eq_true, fits_one, fits_two, fits_four, isWireLabel, decide_eq_true_eq] at hw
  obtain ⟨⟨⟨⟨⟨⟨hid, hbase⟩, hlimit⟩, hlabel⟩, hfirst⟩, hstride⟩, horigins⟩ := hw
  let numbers := u8 a.id ++ (u32 a.base ++ u32 a.limit)
  have hnine : numbers.length = 9 := rfl
  have hbody : u8 a.id ++ u32 a.base ++ u32 a.limit ++ wireLabel a.label ++ u16 a.firstFrame ++ u8 a.stride
      ++ choiceByte (a.access.map AccessClass.ctorIdx) ++ u16 a.originMask
      = numbers ++ (wireLabel a.label ++ (u16 a.firstFrame ++ (u8 a.stride
      ++ (choiceByte (a.access.map AccessClass.ctorIdx) ++ u16 a.originMask)))) := by
    simp only [numbers, List.append_assoc]
  rw [hbody]
  refine fixedBody_eq ?_ ?_
  · rw [field_label (off := 9) (before := numbers) rfl hlabel]
    simp [hnine]
    omega
  · simp only [decodeLoadWindow]
    rw [field_label (off := 9) (before := numbers) rfl hlabel, take_label (off := 10) (before := numbers) rfl, field_past_label (before := numbers) (off := 10 + _) (k := 0) (by simp [hnine]),
      field_past_label (before := numbers) (off := 12 + _) (k := 2) (by simp [hnine]; omega),
      field_past_label (before := numbers) (off := 13 + _) (k := 3) (by simp [hnine]; omega),
      field_past_label (before := numbers) (off := 14 + _) (k := 4) (by simp [hnine]; omega)]
    simp only [numbers, List.append_assoc, field_u8_skip, field_u16_skip, field_choice_skip, field_u32_skip, field_u8 hid,
      field_u32 hbase, field_u32 hlimit, field_u16 hfirst, field_u8 hstride, access_code.read, field_u16_last horigins]

theorem decode_setNoticeLevels {t : Byte} {ls : List (Option NoticeLevel)} {k tag : Byte} {b : List Byte}
    (hw : (Instr.setNoticeLevels t ls).wf = true) (h : encodeCommand (.setNoticeLevels t ls) = some (k, tag, b)) :
    decodeFrame k tag b = .command (.setNoticeLevels t ls) := by
  cases h
  refine fixedBody_eq ?_ (by rw [map_levelOf])
  rw [length_choices (fun l : Option NoticeLevel => l.map NoticeLevel.ctorIdx)]
  simpa [Instr.wf] using hw

end

/-- Every well-formed host command is read back from its frame's body (R190, R192). -/
theorem decodeFrame_encodeCommand {i : Instr} {kind tag : Byte} {body : List Byte} (hw : i.wf = true)
    (h : encodeCommand i = some (kind, tag, body)) : decodeFrame kind tag body = .command i := by
  cases i with
  | setMotion t a =>
    cases h
    simp only [Instr.wf, Bool.and_eq_true, fits_two] at hw
    obtain ⟨⟨⟨⟨hseek, hindex⟩, hscan⟩, haccel⟩, hdwell⟩ := hw
    refine fixedBody_eq rfl ?_
    simp only [decodeSetMotion, List.append_assoc, field_u16_skip, field_u16 hseek, field_u16 hindex, field_u16 hscan,
      field_u16 haccel, field_u16_last hdwell]
  | seekPosition t p =>
    cases h
    exact fixedBody_eq rfl (by rw [field_u32_last (fits_four.mp hw)])
  | jog t d sp =>
    cases h
    simp only [Instr.wf, Bool.and_eq_true, decide_eq_true_eq] at hw
    refine fixedBody_eq rfl ?_
    rw [toInt_field_i32 hw.1 hw.2, field_append_right (off := 4) (k := 0) rfl, jogSpeed_code.read_last]
  | setTension t a => exact decode_setTension hw h
  | assignRoll t a => exact decode_assignRoll hw h
  | setMarkClasses t a b c =>
    cases h
    simp only [Instr.wf, Bool.and_eq_true, fits_two] at hw
    obtain ⟨⟨ha, hb⟩, hc⟩ := hw
    refine fixedBody_eq rfl ?_
    simp only [List.append_assoc, field_u16_skip, field_u16 ha, field_u16 hb, field_u16_last hc]
  | forgetIndex t n | mountRoll t n | setPitchLearning t n | dropWindow t n | cancelRequest t n =>
    cases h
    exact fixedBody_eq rfl (by rw [field_u8_last (fits_one.mp hw)])
  | indexRoll t c f =>
    cases h
    refine fixedBody_eq (by simp) ?_
    rw [indexChoice_code.read, optField_append_right (off := 1) (k := 0) rfl, optField_read_last hw]
  | locateFrame t f =>
    cases h
    exact fixedBody_eq rfl (by rw [field_u16_last (fits_two.mp hw)])
  | frameAt t p =>
    cases h
    exact fixedBody_eq rfl (by rw [field_u32_last (fits_four.mp hw)])
  | focusProbe t c hs st =>
    cases h
    simp only [Instr.wf, Bool.and_eq_true] at hw
    obtain ⟨⟨hc, hh⟩, hst⟩ := hw
    refine fixedBody_eq (by simp) ?_
    simp only [List.append_assoc, optField_skip, optField_read hc, optField_read hh, optField_read_last hst]
  | setFocus t a =>
    cases h
    simp only [Instr.wf, Bool.and_eq_true, fits_one, fits_two, fits_four] at hw
    obtain ⟨⟨⟨⟨⟨⟨hmin, hmax⟩, hnominal⟩, hmerge⟩, hstale⟩, hspan⟩, hstep⟩ := hw
    refine fixedBody_eq rfl ?_
    simp only [decodeSetFocus, List.append_assoc, field_u8_skip, field_u16_skip, field_u32_skip, field_u16 hmin,
      field_u16 hmax, field_u16 hnominal, field_u32 hmerge, field_u8 hstale, field_u16 hspan, field_u16_last hstep]
  | setCapture t a =>
    cases h
    simp only [Instr.wf, Bool.and_eq_true, fits_one, fits_two] at hw
    obtain ⟨⟨⟨⟨⟨⟨hpitch, hmargin⟩, hrate⟩, hfirst16⟩, hcount16⟩, hfirst35⟩, hcount35⟩ := hw
    refine fixedBody_eq rfl ?_
    simp only [decodeSetCapture, List.append_assoc, field_u8_skip, field_u16_skip, field_u8 hpitch, field_u16 hmargin,
      field_u16 hrate, field_u16 hfirst16, field_u16 hcount16, field_u16 hfirst35, field_u16_last hcount35]
  | loadWindow t a => exact decode_loadWindow hw h
  | listWindows t c | readLink t c =>
    cases h
    exact fixedBody_eq rfl (by rw [flag_code.read_last])
  | submitRequest t i o p =>
    cases h
    simp only [Instr.wf, Bool.and_eq_true, fits_one, fits_four] at hw
    refine fixedBody_eq rfl ?_
    simp only [List.append_assoc, field_u8_skip, field_u32_skip, field_u32 hw.1, field_u8 hw.2, priority_code.read_last]
  | setMode t m =>
    cases h
    exact fixedBody_eq rfl (by rw [mode_code.read_last])
  | setPlanning t d o =>
    cases h
    refine fixedBody_eq rfl ?_
    simp only [field_u32_skip, field_u32 (fits_four.mp hw), onOff_code.read_last]
  | configureChannel t c m n =>
    cases h
    refine fixedBody_eq rfl ?_
    simp only [List.append_assoc, field_choice_skip, channel_code.read, channelMode_code.read,
      field_u16_last (fits_two.mp hw)]
  | setNoticeLevels t ls => exact decode_setNoticeLevels hw h
  | clearFaults t sc =>
    cases h
    exact fixedBody_eq rfl (by rw [scope_code.read_last])
  | raiseFault t c n =>
    cases h
    refine fixedBody_eq rfl ?_
    simp only [field_choice_skip, raiseClass_code.read, field_u8_last (fits_one.mp hw)]
  | setLogMode t m =>
    cases h
    exact fixedBody_eq rfl (by rw [logMode_code.read_last])
  | stopTransport t | readTransport t | zeroTension t | readTension t | readDirectory t | unmountRoll t | readIndex t
  | clearFocusMap t | readFocusMap t | readFrameStore t | queryQueue t | readChannels t | identify t | reset t
  | readFaults t | readFaultLog t | clearLog t =>
    cases h
    rfl
  | _ => cases h

theorem field_one_lt (b : List Byte) (off : Nat) : field b off 1 < 256 := by
  unfold field
  cases b.drop off with
  | nil => decide
  | cons x rest => simpa [beNat] using x.isLt

theorem length_of_fixedBody {n : Nat} {b : List Byte} {i j : Instr} (h : fixedBody n b i = .command j) : b.length = n := by
  unfold fixedBody at h
  split at h
  · assumption
  · cases h

/-- No command's body is longer than a frame's (R188): LOAD_WINDOW's and ASSIGN_ROLL's are bounded by their label's length byte. -/
theorem length_of_decodeFrame {kind tag : Byte} {b : List Byte} {i : Instr} (h : decodeFrame kind tag b = .command i) :
    b.length ≤ 4200 := by
  have hassign := field_one_lt b 1
  have hload := field_one_lt b 9
  unfold decodeFrame at h
  split at h
  case h_46 => cases h
  all_goals
    have hlen := length_of_fixedBody h
    omega

/-! ### The receiver (R189) -/

/-- The receiver holds the bytes of a frame begun. -/
def collecting (s : State) (f : List Byte) : State := s.modLi fun l => { l with rx := f }

theorem collecting_nil {s : State} (h : s.li.rx = []) : collecting s [] = s := by
  unfold collecting State.modLi
  rw [← h]

theorem hunt_of_idle {s : State} (h : s.li.rx = []) : s.hunt = s := collecting_nil h

theorem rxByte_noise {s : State} {b : Byte} (h : s.li.rx = []) (hb : b ≠ 0xC3) : s.rxByte b = s := by
  rw [State.rxByte, h]
  exact if_neg hb

theorem rxByte_sync {s : State} (h : s.li.rx = []) : s.rxByte 0xC3 = collecting s [0xC3] := by
  simp [State.rxByte, h, collecting]

theorem rxByte_collecting (s : State) {f : List Byte} (hf : f ≠ []) (b : Byte) :
    (collecting s f).rxByte b = (collecting s f).collect (f ++ [b]) := by
  have hne : (collecting s f).li.rx.isEmpty = false := by simpa [collecting] using hf
  simp only [State.rxByte, hne]
  rfl

/-- A frame's header is collected, and its body and CRC up to the last byte. -/
theorem collect_incomplete (s : State) {f g : List Byte}
    (h : g.length < 5 ∨ (field g 3 2 ≤ 4200 ∧ g.length < field g 3 2 + 7)) :
    (collecting s f).collect g = collecting s g := by
  unfold State.collect
  rcases h with hshort | ⟨hlimit, hpartial⟩
  · rw [if_pos hshort]
    rfl
  · rw [if_neg (show ¬ bodyLimit < field g 3 2 from Nat.not_lt.mpr hlimit), if_pos hpartial]
    split <;> rfl

theorem collect_whole (s : State) {g : List Byte} (hlimit : field g 3 2 ≤ 4200) (h : g.length = field g 3 2 + 7) :
    s.collect g = s.wholeFrame g := by
  unfold State.collect
  rw [if_neg (by omega), if_neg (show ¬ bodyLimit < field g 3 2 from Nat.not_lt.mpr hlimit), if_neg (by omega)]

theorem collect_overlong (s : State) {g : List Byte} (hlen : 5 ≤ g.length) (hlimit : 4200 < field g 3 2) :
    s.collect g = s.hunt.linkError .framing := by
  unfold State.collect
  rw [if_neg (Nat.not_lt.mpr hlen)]
  exact if_pos hlimit

/-- The bytes of a frame with any check value (R188). -/
def framed (kind tag : Byte) (body : List Byte) (crc : BitVec 16) : List Byte :=
  0xC3 :: kind :: tag :: (u16 body.length ++ body ++ u16 crc.toNat)

theorem framed_length (kind tag : Byte) (body : List Byte) (crc : BitVec 16) :
    (framed kind tag body crc).length = body.length + 7 := by
  simp [framed, u16]

theorem frameBytes_eq (kind tag : Byte) (body : List Byte) :
    frameBytes kind tag body = framed kind tag body (crc16 (kind :: tag :: (u16 body.length ++ body))) := rfl

theorem framed_inj {kind tag : Byte} {body : List Byte} {a b : BitVec 16}
    (h : framed kind tag body a = framed kind tag body b) : a = b := by
  have htail : u16 a.toNat = u16 b.toNat := by
    simp only [framed, List.cons.injEq, true_and] at h
    exact List.append_cancel_left h
  exact BitVec.eq_of_toNat_eq (by rw [← beNat_u16 a.isLt, htail, beNat_u16 b.isLt])

section
variable {kind tag : Byte} {body : List Byte} {crc : BitVec 16}

/-- The length field of a frame, as soon as it has come (R188). -/
theorem field_length_framed (hbody : body.length ≤ 4200) {k : Nat} (hk : 5 ≤ k) :
    field ((framed kind tag body crc).take k) 3 2 = body.length := by
  obtain ⟨j, rfl⟩ := Nat.exists_eq_add_of_le hk
  have hsplit : (framed kind tag body crc).take (5 + j)
      = [0xC3, kind, tag] ++ (u16 body.length ++ (body ++ u16 crc.toNat).take j) := by
    rw [Nat.add_comm]
    rfl
  rw [hsplit, field_append_right (off := 3) (k := 0) rfl, field_u16 (by omega)]

/-- All bytes of a frame but the last are collected. -/
theorem each_rxByte_take {s : State} (hrx : s.li.rx = []) (hbody : body.length ≤ 4200) {k : Nat}
    (hk : k < (framed kind tag body crc).length) :
    s.each ((framed kind tag body crc).take k) State.rxByte = collecting s ((framed kind tag body crc).take k) := by
  induction k with
  | zero => exact (collecting_nil hrx).symm
  | succ k ih =>
    have hlt : k < (framed kind tag body crc).length := by omega
    rw [List.take_succ_eq_append_getElem hlt, State.each, List.foldl_append]
    show ((s.each _ State.rxByte).rxByte _) = _
    rw [ih hlt]
    cases k with
    | zero =>
      show (collecting s []).rxByte 0xC3 = _
      rw [collecting_nil hrx, rxByte_sync hrx]
      rfl
    | succ k =>
      rw [rxByte_collecting s (by simp [framed]), ← List.take_succ_eq_append_getElem hlt]
      refine collect_incomplete s ?_
      rw [List.length_take_of_le (by omega)]
      rcases Nat.lt_or_ge (k + 1 + 1) 5 with hshort | hlong
      · exact .inl hshort
      · rw [field_length_framed hbody hlong]
        exact .inr ⟨hbody, by rw [framed_length] at hk; omega⟩

/-- A collected frame is good when its check value is that of its bytes (R189). -/
theorem wholeFrame_framed (s : State) (hbody : body.length ≤ 4200) :
    s.wholeFrame (framed kind tag body crc) =
      if crc = crc16 (kind :: tag :: (u16 body.length ++ body)) then s.hunt.goodFrame kind tag body
      else s.hunt.linkError .crc := by
  have hlength : field (framed kind tag body crc) 3 2 = body.length := by
    have h := field_length_framed (kind := kind) (tag := tag) (crc := crc) hbody (k := body.length + 7) (by omega)
    rwa [← framed_length kind tag body crc, List.take_length] at h
  have hrest : ((framed kind tag body crc).drop 5).take body.length = body := by
    show (body ++ u16 crc.toNat).take body.length = body
    exact List.take_left
  unfold State.wholeFrame
  simp only [hlength, hrest]
  show (if framed kind tag body crc = frameBytes kind tag body then _ else _) = _
  rw [frameBytes_eq]
  by_cases hcrc : crc = crc16 (kind :: tag :: (u16 body.length ++ body))
  · rw [if_pos (by rw [hcrc]), if_pos hcrc]
    rfl
  · rw [if_neg (fun h => hcrc (framed_inj h)), if_neg hcrc]

/-- A frame received while the receiver hunts (R189). -/
theorem each_rxByte_framed {s : State} (hrx : s.li.rx = []) (hbody : body.length ≤ 4200) :
    s.each (framed kind tag body crc) State.rxByte =
      if crc = crc16 (kind :: tag :: (u16 body.length ++ body)) then s.goodFrame kind tag body else s.linkError .crc := by
  have hlen := framed_length kind tag body crc
  have hlast : body.length + 6 < (framed kind tag body crc).length := by omega
  have hsplit : framed kind tag body crc
      = (framed kind tag body crc).take (body.length + 6) ++ [(framed kind tag body crc)[body.length + 6]] := by
    rw [← List.take_succ_eq_append_getElem hlast, List.take_of_length_le (by omega)]
  have hfirst := each_rxByte_take (s := s) hrx hbody hlast
  have hlength : field (framed kind tag body crc) 3 2 = body.length := by
    have h := field_length_framed (kind := kind) (tag := tag) (crc := crc) hbody (k := body.length + 7) (by omega)
    rwa [← hlen, List.take_length] at h
  calc s.each (framed kind tag body crc) State.rxByte
      = (s.each ((framed kind tag body crc).take (body.length + 6)) State.rxByte).rxByte
          ((framed kind tag body crc)[body.length + 6]) := by
        conv =>
          lhs
          rw [hsplit, State.each, List.foldl_append]
        rfl
    _ = (collecting s ((framed kind tag body crc).take (body.length + 6))).collect (framed kind tag body crc) := by
        rw [hfirst, rxByte_collecting s (by simp [framed]), ← hsplit]
    _ = (collecting s ((framed kind tag body crc).take (body.length + 6))).wholeFrame (framed kind tag body crc) :=
        collect_whole _ (by rw [hlength]; exact hbody) (by rw [hlength, hlen])
    _ = _ := by
        rw [wholeFrame_framed _ hbody]
        show (if _ then s.hunt.goodFrame kind tag body else s.hunt.linkError .crc) = _
        rw [hunt_of_idle hrx]

end

/-- Noise between frames is discarded (R189). -/
theorem each_rxByte_noise {s : State} (hrx : s.li.rx = []) {bytes : List Byte} (h : ∀ b ∈ bytes, b ≠ 0xC3) :
    s.each bytes State.rxByte = s := by
  induction bytes with
  | nil => rfl
  | cons b rest ih =>
    rw [State.each, List.foldl_cons, rxByte_noise hrx (h b List.mem_cons_self)]
    exact ih fun x hx => h x (List.mem_cons_of_mem b hx)

/-- A length above 4,200 ends the frame at its length bytes (R189). -/
theorem each_rxByte_overlong {s : State} (hrx : s.li.rx = []) {kind tag hi lo : Byte}
    (h : 4200 < hi.toNat * 256 + lo.toNat) :
    s.each [0xC3, kind, tag, hi, lo] State.rxByte = s.linkError .framing := by
  have hlength : field [0xC3, kind, tag, hi, lo] 3 2 = hi.toNat * 256 + lo.toNat := by simp [field, beNat]
  have hheader : s.each [0xC3, kind, tag, hi] State.rxByte = collecting s [0xC3, kind, tag, hi] := by
    have next (f : List Byte) (b : Byte) (hf : f ≠ []) (hlen : (f ++ [b]).length < 5) :
        (collecting s f).rxByte b = collecting s (f ++ [b]) := by
      rw [rxByte_collecting s hf, collect_incomplete s (.inl hlen)]
    simp only [State.each, List.foldl_cons, List.foldl_nil, rxByte_sync hrx]
    rw [next [0xC3] kind (by simp) (by simp), next _ tag (by simp) (by simp), next _ hi (by simp) (by simp)]
    rfl
  show (s.each [0xC3, kind, tag, hi] State.rxByte).rxByte lo = _
  rw [hheader, rxByte_collecting s (List.cons_ne_nil _ _)]
  show (collecting s _).collect [0xC3, kind, tag, hi, lo] = _
  rw [collect_overlong _ (by simp) (by rw [hlength]; exact h)]
  show s.hunt.linkError .framing = _
  rw [hunt_of_idle hrx]

theorem exec_linkFrameReceived {s : State} (h : s.resetHeld = false) (bytes : List Byte) :
    exec (.linkFrameReceived bytes) s = .next (s.each bytes State.rxByte) := by
  show execLinkFrameReceived bytes s = _
  rw [execLinkFrameReceived, whenRunning_running h]

/-- The frame of a well-formed host command does what its row does (R190). -/
theorem exec_commandFrame {i : Instr} {s : State} (hw : i.wf = true) (hi : (encodeCommand i).isSome) (hrx : s.li.rx = []) :
    exec (.linkFrameReceived (commandFrame i)) s = exec i s := by
  obtain ⟨⟨kind, tag, body⟩, hframe⟩ := Option.isSome_iff_exists.mp hi
  have hbody := length_of_decodeFrame (decodeFrame_encodeCommand hw hframe)
  have hgood : s.each (commandFrame i) State.rxByte = s.takeCommand tag kind (ownerOf i) := by
    rw [commandFrame, hframe]
    show s.each (framed _ _ _ _) State.rxByte = _
    rw [each_rxByte_framed hrx hbody, if_pos rfl, State.goodFrame, frameOwner, decodeFrame_encodeCommand hw hframe]
  rw [exec_hostCommand hframe]
  cases hs : s.resetHeld with
  | true => rw [exec_held rfl hs, whenRunning_held hs]
  | false => rw [exec_linkFrameReceived hs, whenRunning_running hs, hgood]

end Sys2Proof.Machine

namespace Sys2Proof.Proofs.Link

open Sys2Proof.Machine Sys2Proof.Expect

theorem heldInResetNothingHappens : HeldInResetNothingHappens := by
  intro i s hs
  cases i with
  | powerOn | resetnRelease | resetnAssert | holdAssert | holdRelease => trivial
  | _ => exact exec_held rfl hs

theorem fullCommandBufferOverruns : FullCommandBufferOverruns := by
  intro i s hi hrun hfull
  obtain ⟨⟨kind, tag, body⟩, hframe⟩ := Option.isSome_iff_exists.mp hi
  rw [exec_hostCommand hframe, whenRunning_running hrun, takeCommand_full hfull, linkError_overrun]

/-- Settles O4. -/
theorem commandsThatAreNotTaken : Obligations.CommandsThatAreNotTaken :=
  ⟨heldInResetNothingHappens, fullCommandBufferOverruns⟩

/-- Settles O5. -/
theorem frameBodiesRoundTrip : Obligations.FrameBodiesRoundTrip := fun _ _ _ _ hw h => decodeFrame_encodeCommand hw h

/-- Settles O6. -/
theorem commandFrameActsAsItsRow : Obligations.CommandFrameActsAsItsRow := fun _ _ hw hi hrx => exec_commandFrame hw hi hrx

theorem exec_frameByteTimeout {s : State} (hs : s.resetHeld = false) :
    exec .frameByteTimeout s =
      .next
        (if s.li.rx = [] then s
         else
          State.post { s with li := { s.li with rx := [], framingErrors := min (s.li.framingErrors + 1) 65535 } } .linkError
            (.linkError .framing s.li.crcErrors (min (s.li.framingErrors + 1) 65535) s.li.overruns)) := by
  show execFrameByteTimeout s = _
  rw [execFrameByteTimeout, whenRunning_running hs]
  by_cases hrx : s.li.rx = []
  · simp [hrx]
  · simp only [List.isEmpty_iff, hrx, if_false]
    rfl

/-- Settles O7: the check value, noise, a length out of range, a check value that does not match, and silence. -/
theorem receiverDiscardsBadFrames : Obligations.ReceiverDiscardsBadFrames := by
  refine ⟨by decide +kernel, fun bytes s hrx hnoise => ?_, fun kind tag hi lo s hs hrx hlimit => ?_,
    fun kind tag body crc s hs hrx hbody hcrc => ?_, fun s hs => exec_frameByteTimeout hs⟩
  · cases hs : s.resetHeld with
    | true => exact exec_held rfl hs
    | false => rw [exec_linkFrameReceived hs, each_rxByte_noise hrx hnoise]
  · rw [exec_linkFrameReceived hs, each_rxByte_overlong hrx hlimit, linkError_framing]
  · rw [exec_linkFrameReceived hs, ← linkError_crc]
    exact congrArg _ ((each_rxByte_framed hrx hbody).trans (if_neg hcrc))

end Sys2Proof.Proofs.Link

/-! The arbiter, the end of a message, the notices and the reading commands (O8, O9, O11 to O13). -/

namespace Sys2Proof.Machine

open Expect

/-! ### The arbiter (R196) -/

/-- The notice begun is the first of its level in source order, HIGH before MID before LOW. -/
theorem nextNotice_eq (s : State) : s.nextNotice = firstNotice s := by
  unfold firstNotice State.nextNotice State.noticeAt
  simp only [List.head?_append, List.head?_filter]
  cases s.li.notices.find? (fun n => decide (s.level n.source = .high)) <;>
    cases s.li.notices.find? (fun n => decide (s.level n.source = .mid)) <;> rfl

theorem arbitrate_blocked {s : State} (h : s.hold = true ∨ s.li.tx ≠ none) : s.arbitrate = s := by
  refine if_pos ?_
  simpa [Option.isSome_iff_ne_none] using h

/-- Between messages the arbiter begins its choice (R196). -/
theorem arbitrate_free {s : State} (hhold : s.hold = false) (htx : s.li.tx = none) : s.arbitrate = arbitrated s := by
  have hopen : ¬ (s.hold || s.li.tx.isSome) = true := by simp [hhold, htx]
  unfold State.arbitrate arbitrated
  rw [if_neg hopen, nextNotice_eq]
  cases hr : s.li.replies with
  | cons r rest =>
    simp only [State.beginReply, State.transmit, State.modLi, hr]
    rfl
  | nil =>
    cases firstNotice s with
    | some n => rfl
    | none =>
      cases s.dc.snapshot with
      | some b => rfl
      | none =>
        unfold State.nextBlock
        cases s.dc.a.waiting with
        | none => cases s.dc.b.waiting <;> rfl
        | some x =>
          cases s.dc.b.waiting with
          | none => rfl
          | some y => cases s.li.lastChannel <;> rfl

/-! ### The end of a message (R179, R180, R196) -/

theorem exec_messageSent {s : State} {m : TxMessage} (hs : s.resetHeld = false) (hm : s.li.tx = some m) :
    exec .messageSent s = .next ((s.modLi fun l => { l with tx := none }).sentReport m.source) := by
  show execMessageSent s = _
  rw [execMessageSent, whenRunning_running hs, hm]
  rfl

theorem modChannel_eq (s : State) (id : ChannelId) (f : Channel → Channel) :
    s.modChannel id f = withChannel s id (f (s.dc.channel id)) := by
  cases id <;> rfl

theorem channel_withChannel (s : State) (id : ChannelId) (c : Channel) : (withChannel s id c).dc.channel id = c := by
  cases id <;> rfl

theorem withChannel_withChannel (s : State) (id : ChannelId) (c d : Channel) :
    withChannel (withChannel s id c) id d = withChannel s id d := by
  cases id <;> rfl

/-- A slot freed is no matter of the channels. -/
theorem freeSlot_withChannel (s : State) (id : ChannelId) (c : Channel) (n : Nat) :
    (withChannel s id c).freeSlot n = withChannel (s.freeSlot n) id c := by
  unfold State.freeSlot
  rw [offerPlanning_eq, offerPlanning_eq]
  cases id <;> rfl

theorem freeSlot_channel (s : State) (n : Nat) (id : ChannelId) : (s.freeSlot n).dc.channel id = s.dc.channel id := by
  unfold State.freeSlot
  rw [offerPlanning_eq]
  cases id <;> rfl

/-- A block sent that is not the last: the channel offers the next (R179). -/
theorem blockSent_next {s : State} {id : ChannelId} {d : Sending} (hd : (s.dc.channel id).sending = some d)
    (hmore : d.nextBlock + 1 < d.blockCount) :
    s.blockSent id =
      withChannel s id
        { s.dc.channel id with
          sending := some { d with nextBlock := d.nextBlock + 1 },
          waiting := some (blockBody id (s.slotContent d.slot) { d with nextBlock := d.nextBlock + 1 }),
          inTransmission := false } := by
  unfold State.blockSent
  simp only [hd, State.withSome, if_pos hmore, State.offerBlock]
  rw [modChannel_eq, modChannel_eq, channel_withChannel, withChannel_withChannel]
  cases id <;> rfl

/-- The last block sent: the delivery ends (R180). -/
theorem blockSent_last {s : State} {id : ChannelId} {d : Sending} (hd : (s.dc.channel id).sending = some d)
    (hlast : d.blockCount ≤ d.nextBlock + 1) :
    s.blockSent id =
      (withChannel (s.freeSlot d.slot) id
        { s.dc.channel id with
          sending := none, waiting := none, inTransmission := false,
          imagesSent := min ((s.dc.channel id).imagesSent + 1) 65535 }).takeHead id := by
  unfold State.blockSent
  simp only [hd, State.withSome, if_neg (Nat.not_lt.mpr hlast), State.deliveryEnd]
  rw [modChannel_eq, modChannel_eq, freeSlot_withChannel, channel_withChannel, withChannel_withChannel]
  rfl

/-! ### Notices (R193) -/

theorem noticeAdd_find_same (n : Notice) (l : List Notice)
    (h : Ascending (fun n : Notice => n.source.ctorIdx) l) :
    (noticeAdd n l).find? (fun x => decide (x.source = n.source)) =
      some
        { n with
          count := match l.find? (fun x => decide (x.source = n.source)) with
            | some x => min (x.count + 1) 255
            | none => n.count } := by
  induction l with
  | nil => simp [noticeAdd]
  | cons x rest ih =>
    obtain ⟨hx, hrest⟩ := List.pairwise_cons.mp h
    unfold noticeAdd
    by_cases hsame : x.source = n.source
    · simp [hsame, saturate]
    · rw [if_neg hsame, List.find?_cons_of_neg (by simpa using hsame)]
      split
      · rename_i hlt
        have hnone : rest.find? (fun x => decide (x.source = n.source)) = none := by
          refine List.find?_eq_none.mpr fun y hy hyn => ?_
          have hlater : x.source.ctorIdx < y.source.ctorIdx := hx y hy
          rw [of_decide_eq_true hyn] at hlater
          exact absurd hlater (Nat.lt_asymm hlt)
        rw [hnone]
        simp
      · rw [List.find?_cons_of_neg (by simpa using hsame)]
        exact ih hrest

theorem noticeAdd_filter_other (n : Notice) (l : List Notice) :
    (noticeAdd n l).filter (fun x => decide (x.source ≠ n.source)) =
      l.filter (fun x => decide (x.source ≠ n.source)) := by
  induction l with
  | nil => simp [noticeAdd]
  | cons x rest ih =>
    unfold noticeAdd
    split
    · rename_i hsame
      simp [hsame]
    · split
      · simp
      · rw [List.filter_cons, ih, List.filter_cons]

theorem post_off {s : State} {src : Source} (h : s.level src = .off) (d : NoticeDetail) : s.post src d = s := if_pos h

theorem post_on {s : State} {src : Source} (h : s.level src ≠ .off) (d : NoticeDetail) :
    s.post src d =
      { s with
        li :=
          { s.li with
            notices := noticeAdd { source := src, count := 1, detail := d, uptime := s.li.uptime } s.li.notices } } :=
  if_neg h

end Sys2Proof.Machine

namespace Sys2Proof.Proofs.Link

open Sys2Proof.Machine Sys2Proof.Expect

/-- Settles O8. -/
theorem arbiterBeginsTheFirstMessage : Obligations.ArbiterBeginsTheFirstMessage := by
  intro s hs
  refine ⟨?_, rfl, ?_⟩
  · show execMessageBegin s = _
    rw [execMessageBegin, whenRunning_running hs]
    split
    · rw [arbitrate_blocked ‹_›]
    · rename_i h
      simp only [not_or, Bool.not_eq_true, ne_eq, Decidable.not_not] at h
      rw [arbitrate_free h.1 h.2]
  · show execHoldRelease s = _
    rw [execHoldRelease, whenRunning_running (s := { s with hold := false }) hs]
    split
    · rename_i h
      rw [arbitrate_blocked (s := { s with hold := false }) (.inr h)]
    · rename_i h
      rw [arbitrate_free (s := { s with hold := false }) rfl (Decidable.not_not.mp h)]

/-- Settles O9: the three that no channel waits for by their reports, a block by whether it is the last. -/
theorem sentMessageIsReported : Obligations.SentMessageIsReported := by
  refine ⟨fun s m hs hm => ⟨fun hreply => ?_, fun hother => ?_⟩, fun s m id d hs hm hblock hd => ⟨fun hmore => ?_, fun hlast => ?_⟩⟩
  · rw [exec_messageSent hs hm, hreply]
    rfl
  · rw [exec_messageSent hs hm]
    rcases hother with h | h | h <;> rw [h] <;> rfl
  · rw [exec_messageSent hs hm, hblock]
    exact congrArg _ (blockSent_next (s := s.modLi fun l => { l with tx := none }) hd hmore)
  · rw [exec_messageSent hs hm, hblock]
    exact congrArg _ (blockSent_last (s := s.modLi fun l => { l with tx := none }) hd hlast)

/-- Settles O11. -/
theorem noticesCoalesce : Obligations.NoticesCoalesce := by
  intro s src d hwf
  dsimp only
  by_cases hoff : s.level src = .off
  · rw [post_off hoff]
    exact ⟨fun _ => rfl, fun h => absurd hoff h, rfl, rfl⟩
  · rw [post_on hoff]
    exact ⟨fun h => absurd h hoff,
      fun _ => noticeAdd_find_same { source := src, count := 1, detail := d, uptime := s.li.uptime } _ hwf.sources,
      noticeAdd_filter_other { source := src, count := 1, detail := d, uptime := s.li.uptime } _, rfl⟩

/-- With every level named, a source is set to OFF exactly where its byte said so. -/
theorem level_off_iff {ls : List (Option NoticeLevel)} (hlen : ls.length = 16) (hknown : none ∉ ls) (src : Source) :
    (ls.map fun x => x.getD .off).getD src.ctorIdx .off = .off ↔ ls.getD src.ctorIdx none = some .off := by
  have hsrc : src.ctorIdx < ls.length := by
    rw [hlen]
    cases src <;> decide
  simp only [List.getD_eq_getElem?_getD, List.getElem?_map, List.getElem?_eq_getElem hsrc, Option.map_some, Option.getD_some]
  cases hx : ls[src.ctorIdx] with
  | none => exact absurd (hx ▸ List.getElem_mem hsrc) hknown
  | some v => simp

/-- Settles O12. -/
theorem noticeLevelsAreReplaced : Obligations.NoticeLevelsAreReplaced := by
  intro tag ls s hs hlen
  by_cases hbad : none ∈ ls
  · rw [if_pos hbad]
    refine exec_of_answer rfl hs ?_
    have hrefused : (ls.any Option.isNone || decide (ls.length ≠ 16)) = true := by
      rw [List.any_eq_true.mpr ⟨none, hbad, rfl⟩]
      rfl
    show ownSetNoticeLevels ls _ = _
    rw [ownSetNoticeLevels, checked_cons, if_pos hrefused]
    rfl
  · rw [if_neg hbad]
    refine exec_of_answer rfl hs ?_
    have htaken : ¬ (ls.any Option.isNone || decide (ls.length ≠ 16)) = true := by
      simp only [hlen, Bool.or_eq_true, List.any_eq_true, Option.isNone_iff_eq_none]
      simpa using hbad
    show ownSetNoticeLevels ls _ = _
    rw [ownSetNoticeLevels, checked_cons, checked_nil, if_neg htaken]
    simp only [State.done, State.modLi, setLevels, placed, ne_eq, level_off_iff hlen hbad]

/-- The reading commands with no option answer their data on the state with the place taken, of which the data say nothing. -/
theorem readsChangeNothing : ReadsChangeNothing := fun _ _ hs =>
  ⟨exec_of_answer rfl hs rfl, exec_of_answer rfl hs rfl, exec_of_answer rfl hs rfl, exec_of_answer rfl hs rfl,
    exec_of_answer rfl hs rfl, exec_of_answer rfl hs rfl, exec_of_answer rfl hs rfl, exec_of_answer rfl hs rfl,
    exec_of_answer rfl hs rfl, exec_of_answer rfl hs rfl, exec_of_answer rfl hs rfl⟩

theorem readsWithClear : ReadsWithClear := by
  intro tag clear s hs
  match clear with
  | none => exact ⟨exec_of_answer rfl hs rfl, exec_of_answer rfl hs rfl⟩
  | some true => exact ⟨exec_of_answer rfl hs rfl, exec_of_answer rfl hs rfl⟩
  | some false => exact ⟨exec_of_answer rfl hs rfl, exec_of_answer rfl hs rfl⟩

/-- Settles O13. -/
theorem readingCommands : Obligations.ReadingCommands := ⟨readsChangeNothing, readsWithClear⟩

end Sys2Proof.Proofs.Link

/-! TC entering a state, and what TU and RS make of it; then start-up, the reset pin and the soft reset (O10, O14). -/

namespace Sys2Proof.Machine

open Expect

/-! ### TC enters a state in which the loop is on -/

theorem offerPlanning_eq_offered (s : State) : s.offerPlanning = offered s := by
  rw [offerPlanning_eq, mayPlan_eq]
  rfl

/-- A planning opportunity out of AUTO is none. -/
theorem offered_of_manual {s : State} (h : s.rs.mode ≠ .auto) : offered s = s := by
  simp [offered, h]

/-- The states that TC travels or stands in with the loop on (R30). -/
def TransportState.looped : TransportState → Bool
  | .stopped | .seeking | .scanning | .rewinding => true
  | _ => false

/-- A calibration short of its 64th sample is abandoned out of UNLOADED (R27). -/
theorem calibrationFollow_loaded {s : State} (h : s.tc.state ≠ .unloaded) :
    s.calibrationFollow =
      { s with
        tu :=
          if s.tu.calStatus = .inProgress ∧ s.tu.calCount < 64 then
            { s.tu with calStatus := .abandoned, calSum := 0, calCount := 0 }
          else s.tu } := by
  unfold State.calibrationFollow
  by_cases hcal : s.tu.calStatus = .inProgress ∧ s.tu.calCount < 64
  · rw [if_pos ⟨hcal.1, hcal.2, h⟩, if_pos hcal]
    rfl
  · rw [if_neg (fun hc => hcal ⟨hc.1, hc.2.1⟩), if_neg hcal]

/-- Slack detection and calibration follow TC from any values of TU. -/
theorem slackFollow_calibrationFollow {s : State} (h : s.tc.state ≠ .unloaded) (u : Tu) :
    ({ s with tu := u } : State).slackFollow.calibrationFollow =
      { s with
        tu :=
          let c := if u.calStatus = .inProgress ∧ u.calCount < 64 then
              { u with calStatus := .abandoned, calSum := 0, calCount := 0 } else u
          if s.filmMoving then c else slackOff c } := by
  cases hmoving : s.filmMoving with
  | true =>
    have hslack : ({ s with tu := u } : State).slackFollow = { s with tu := u } := slackFollow_moving hmoving
    exact (congrArg State.calibrationFollow hslack).trans (calibrationFollow_loaded (s := { s with tu := u }) h)
  | false =>
    have hslack : ({ s with tu := u } : State).slackFollow = { s with tu := slackOff u } := slackFollow_still hmoving
    have hcal := calibrationFollow_loaded (s := { s with tu := slackOff u }) h
    rw [hslack, hcal]
    simp only [Bool.false_eq_true, if_false]
    rw [apply_ite slackOff]
    rfl

/-- TU follows TC into a state with the loop on: a calibration is abandoned, and slack detection is armed only while the film
moves (R27, R30, R31, R35). -/
theorem tensionFollow_looped {s : State} (h : TransportState.looped s.tc.state = true) :
    s.tensionFollow =
      { s with
        tu := if s.filmMoving then inLoop s.reportedTension s.tu else slackOff (inLoop s.reportedTension s.tu) } := by
  have hwanted : s.loopWanted = true := by
    unfold State.loopWanted
    cases hs : s.tc.state <;> simp_all [TransportState.looped]
  have hstate : s.tc.state ≠ .unloaded := fun hu => by simp [hu, TransportState.looped] at h
  rw [State.tensionFollow, loopFollow_on hwanted]
  exact slackFollow_calibrationFollow hstate _

theorem tensionFollow_still {s : State} (h : TransportState.looped s.tc.state = true) (hm : s.filmMoving = false) :
    s.tensionFollow = { s with tu := slackOff (inLoop s.reportedTension s.tu) } := by
  rw [tensionFollow_looped h, hm]
  rfl

/-- TC enters STOPPED (R3), which is a planning opportunity (R159). -/
theorem enter_stopped (s : State) :
    s.enter .stopped =
      offered { s with tc := { s.tc with state := .stopped }, tu := slackOff (inLoop s.reportedTension s.tu) } := by
  have hfollow := tensionFollow_still (s := s.modTc fun c => { c with state := .stopped }) rfl rfl
  show ((s.modTc fun c => { c with state := .stopped }).tensionFollow).offerPlanning = _
  rw [hfollow, offerPlanning_eq_offered]
  rfl

/-- TC enters SEEKING (R3). -/
theorem enter_seeking (s : State) :
    s.enter .seeking =
      { s with
        tc := { s.tc with state := .seeking },
        tu :=
          if s.tc.direction = .none then slackOff (inLoop s.reportedTension s.tu) else inLoop s.reportedTension s.tu } := by
  show (s.modTc fun c => { c with state := .seeking }).tensionFollow = _
  rw [tensionFollow_looped rfl]
  by_cases hd : s.tc.direction = .none
  · simp [State.filmMoving, State.modTc, hd, State.reportedTension]
  · simp [State.filmMoving, State.modTc, hd, State.reportedTension]

/-- TC stops with no motion left, where it stands (R7, R12, R20). -/
theorem noMotion_enter_stopped (s : State) :
    (s.modTc Tc.noMotion).enter .stopped =
      offered { s with tc := stopped s.tc, tu := slackOff (inLoop s.reportedTension s.tu) } := enter_stopped _

/-! ### Film that comes to rest -/

theorem atRest_eq_resting (s : State) : s.atRest = resting s.tc := (Bool.decide_or _ _).symm

theorem endZeroDwell_of_no_motion {s : State} (h : s.tc.motion = none) : s.endZeroDwell = s := by
  simp [State.endZeroDwell, h]

theorem settleMotion_moving {s : State} (hm : s.tc.motion = none) (hr : resting s.tc = false) : s.settleMotion = s := by
  rw [State.settleMotion, atRest_eq_resting, hr]
  exact endZeroDwell_of_no_motion hm

/-- A stop at rest with no run end owed (R12): STOPPED, reported to nobody. -/
theorem settleMotion_stop {s : State} (hr : resting s.tc = true)
    (hp : s.tc.phase = .controlledStop ∨ s.tc.phase = .emergencyStop) (ho : s.tc.endedRun = none) :
    s.settleMotion =
      offered { s with tc := stopped s.tc, tu := slackOff (inLoop s.reportedTension s.tu) } := by
  have hstop : s.filmAtRest = s.restFromStop := by rcases hp with h | h <;> simp [State.filmAtRest, h]
  have hrest : s.restFromStop =
      offered { s with tc := stopped s.tc, tu := slackOff (inLoop s.reportedTension s.tu) } := by
    rw [State.restFromStop, ho, enter_stopped]
    simp only [State.withSome, State.modTc, Tc.noMotion, stopped, ← ho]
    rfl
  rw [State.settleMotion, atRest_eq_resting, hr, State.onlyIf, if_pos rfl, hstop, hrest]
  exact endZeroDwell_of_no_motion rfl

/-! ### The soft reset (R201), block by block -/

/-- IX at a soft reset writes the mounted roll's entry as an ABORTED pass leaves it (R80, R83). -/
theorem settleIndex_aborted (s : State) (p : IndexPass) (q : PassOutcome) (h : s.ix.pass = some p) :
    (s.settleIndex p (.aborted q)).1 = { s with cu := { s.cu with entries := resetEntries s } } := by
  unfold State.settleIndex resetEntries
  simp only [h, State.writeIndex, State.modMounted, State.withSome, IndexPass.reached]
  by_cases hext : p.kind = .extension ∧ p.frontier = false
  · rw [if_pos hext]
    cases s.mountedSlot with
    | none => rfl
    | some n => simp only [if_pos hext]
  · cases hm : s.mountedSlot with
    | none =>
      simp only [hext, if_false]
      split <;> rfl
    | some n =>
      simp only [hext, if_false, List.isEmpty_iff]
      by_cases hsegs : s.ix.segments = []
      · simp only [hsegs, if_true]
        rfl
      · simp only [hsegs, if_false]
        cases p.lastAtStart <;> rfl

theorem resetIndex_eq (s : State) :
    s.resetIndex =
      { s with
        cu := { s.cu with entries := resetEntries s },
        ix :=
          { s.ix with
            pass := none,
            tracker :=
              { s.ix.tracker with
                state := .none, frame := none, segment := none,
                leaderArmed := s.ix.tracker.leaderArmed || decide (s.tc.position = 0) } } } := by
  unfold State.resetIndex
  cases h : s.ix.pass with
  | none =>
    have hentries : resetEntries s = s.cu.entries := by simp [resetEntries, h]
    rw [hentries]
    rfl
  | some p =>
    simp only [State.withSome, settleIndex_aborted s p _ h]
    rfl

/-- A stop that leaves no motion and owes no report, taken in MANUAL: STOPPED at once where the film rests (R23). -/
theorem settleMotion_reset {s : State} (h : s.rs.mode ≠ .auto) (hm : s.tc.motion = none) (ho : s.tc.endedRun = none)
    (hp : s.tc.phase = .controlledStop) :
    s.settleMotion =
      if resting s.tc = true then { s with tc := stopped s.tc, tu := slackOff (inLoop s.reportedTension s.tu) } else s := by
  by_cases hr : resting s.tc = true
  · rw [if_pos hr, settleMotion_stop hr (.inl hp) ho]
    exact offered_of_manual h
  · rw [if_neg hr, settleMotion_moving hm (Bool.not_eq_true _ ▸ hr)]

/-! TC's values after a soft reset, by what is in progress (R23). -/

theorem resetTc_seek {c : Tc} {m : Seek} (hstate : c.state = .seeking) (hmotion : c.motion = some (.seek m)) :
    resetTc c =
      if c.phase = .dwell ∨ resting c = true then stopped c
      else { c with motion := none, phase := .controlledStop, stopRate := m.accel } := by
  rw [resetTc, hstate, hmotion]

theorem resetTc_run {c : Tc} {r : Run} (hstate : c.state = .scanning) (hmotion : c.motion = some (.run r)) :
    resetTc c =
      if resting c = true then { stopped c with endedRun := none, stopRate := r.accel }
      else { c with motion := none, endedRun := none, phase := .controlledStop, stopRate := r.accel } := by
  rw [resetTc, hstate, hmotion]

theorem resetTc_scanning {c : Tc} (hstate : c.state = .scanning) (hrun : ∀ r, c.motion = some (.run r) → False) :
    resetTc c = { c with endedRun := none } := by
  unfold resetTc
  split
  · rename_i h _
    rw [hstate] at h
    exact (nomatch h)
  · rename_i hmotion
    exact (hrun _ hmotion).elim
  · rfl
  · rename_i hscan _ _
    exact (hscan hstate).elim

theorem resetTc_other {c : Tc} (hseek : ∀ m, c.state = .seeking → c.motion = some (.seek m) → False)
    (hscan : c.state = .scanning → False) : resetTc c = c := by
  unfold resetTc
  split
  · rename_i hstate hmotion
    exact (hseek _ hstate hmotion).elim
  · rename_i hstate _
    exact (hscan hstate).elim
  · rename_i hstate _
    exact (hscan hstate).elim
  · rfl

/-- TC at a soft reset (R23). In MANUAL the STOPPED it may enter is no planning opportunity. -/
theorem resetTransport_eq {s : State} (h : s.rs.mode ≠ .auto) :
    s.resetTransport =
      { s with
        tc := resetTc s.tc,
        tu :=
          if (resetTc s.tc).state = .stopped ∧ s.tc.state ≠ .stopped then slackOff (inLoop s.reportedTension s.tu)
          else s.tu } := by
  unfold State.resetTransport
  split
  · rename_i m hstate hmotion
    rw [resetTc_seek hstate hmotion, State.stopSeek, atRest_eq_resting]
    split
    · rw [noMotion_enter_stopped]
      simp only [stopped, hstate, ne_eq, reduceCtorEq, not_false_eq_true, and_self, if_true]
      exact offered_of_manual h
    · simp only [State.modTc, hstate, reduceCtorEq, false_and, if_false]
  · rename_i r hstate hmotion
    rw [resetTc_run hstate hmotion]
    refine Eq.trans (settleMotion_reset ?_ ?_ ?_ ?_) ?_
    · exact h
    · rfl
    · rfl
    · rfl
    by_cases hr : resting s.tc = true
    · refine Eq.trans (if_pos hr) ?_
      rw [if_pos hr, if_pos ⟨rfl, by rw [hstate]; decide⟩]
      rfl
    · refine Eq.trans (if_neg hr) ?_
      rw [if_neg hr, if_neg (by simp [hstate])]
      rfl
  · rename_i hstate hmotion
    rw [resetTc_scanning hstate hmotion]
    simp [hstate, State.modTc]
  · rename_i hscan hseek _
    rw [resetTc_other hseek hscan]
    simp

/-- START is posted to an empty pending set (R199, R201). -/
theorem postStart_of_no_notices {s : State} (h : s.li.notices = []) (c : ResetCause) :
    s.postStart c =
      { s with
        li :=
          { s.li with
            notices :=
              if s.level .start = .off then []
              else [{ source := .start, count := 1, uptime := s.li.uptime, detail := .start c s.tc.threaded s.occupied }] } } := by
  unfold State.postStart
  by_cases hoff : s.level .start = .off
  · rw [post_off hoff, if_pos hoff, ← h]
  · rw [post_on hoff, if_neg hoff, h]
    rfl

/-! ### Start-up (R56, R199) -/

/-- The directory as the presence sensors show it. -/
theorem rebuiltCu_entries {x : Sensors} (h : x.presence.length = 12) :
    (rebuiltCu x).entries =
      x.presence.map fun p => if p then { Entry.empty with state := .stored } else Entry.empty := by
  refine List.ext_getElem (by simp [rebuiltCu, h]) fun n hn hn' => ?_
  rw [List.length_map] at hn'
  simp [rebuiltCu, List.getElem?_eq_getElem hn', Entry.inserted]

theorem occupied_rebuilt (l : List Bool) :
    ((l.map fun p => if p then { Entry.empty with state := .stored } else Entry.empty).filter
        fun e => decide (e.state ≠ .empty)).length = (l.filter fun p => p).length := by
  induction l with
  | nil => rfl
  | cons p rest ih => cases p <;> simpa [Entry.empty] using ih

/-- Start-up with no film in the gate (R56, R199). -/
theorem startUp_no_film {x : Sensors} (hlen : x.presence.length = 12) (hgate : x.gateFilm = false) (s : State)
    (c : ResetCause) : s.startUp c x = started s c x := by
  have hcu : rebuiltCu x = { Cu.reset with
      station := x.station, atPosition := x.atPosition,
      entries := x.presence.map fun p => if p then { Entry.empty with state := .stored } else Entry.empty } := by
    rw [← rebuiltCu_entries hlen]
    rfl
  have hoccupied : (s.powerUp x).occupied = (x.presence.filter fun p => p).length := by
    rw [← occupied_rebuilt, ← rebuiltCu_entries hlen]
    rfl
  unfold State.startUp
  rw [hgate]
  show (s.powerUp x).postStart c = _
  rw [postStart_of_no_notices rfl, hoccupied]
  unfold State.powerUp started
  rw [hcu, hgate]
  rfl

/-- The MAJOR halt of a part with nothing in progress: the lens, the lamp and the carousel stop (R205). -/
theorem majorHalt_of_quiet {s : State} (h : s.Quiet) :
    s.majorHalt =
      { s with
        cp := { s.cp with jobs := none, lamp := .off, probeHolds := false, listHolds := false },
        fu := { s.fu with target := s.fu.lens, tracking := false },
        cu := { s.cu with rotation := none, rotationTimer := false, threadingTimer := false } } := by
  unfold State.majorHalt
  rw [haltCapture_of_no_jobs h.jobs, haltFocus_of_no_probe (s := s.modCp _) h.probe,
    haltTransport_of_halted (s := (s.modCp _).stopLens.endTracking) h.halted, haltScheduler_of_no_pass]
  · rfl
  · exact h.pass

theorem rebuilt_not_inPath {x : Sensors} {e : Entry} (h : e ∈ (rebuiltCu x).entries) : e.inPath = false := by
  obtain ⟨n, _, rfl⟩ := List.mem_map.mp h
  split <;> rfl

/-- The only entry in the path is the mounted roll's (R42). -/
theorem findIdx_inPath_set {l : List Entry} {n : Nat} {e : Entry} (hn : n < l.length) (he : e.inPath = true)
    (hl : ∀ a ∈ l, a.inPath = false) : (l.set n e).findIdx? Entry.inPath = some n := by
  refine List.findIdx?_eq_some_iff_getElem.mpr ⟨by simpa using hn, by simpa using he, fun j hj => ?_⟩
  rw [List.getElem_set_ne (by omega)]
  simpa using hl _ (List.getElem_mem _)

/-- The part with a roll found in the gate, before the fault is raised (R56). -/
def strandedPart (s : State) (x : Sensors) : State :=
  { s.powerUp x with
    tc := { Tc.reset with state := .halted, threaded := true },
    cu :=
      { rebuiltCu x with
        entries := (rebuiltCu x).entries.set x.station { Entry.empty with state := .mounted }, lock := some x.station } }

theorem rebuilt_length (x : Sensors) : (rebuiltCu x).entries.length = 12 := by simp [rebuiltCu]

theorem strandedPart_mountedSlot (s : State) {x : Sensors} (h : x.station < 12) :
    (strandedPart s x).mountedSlot = some x.station :=
  findIdx_inPath_set (by rw [rebuilt_length]; exact h) rfl fun _ => rebuilt_not_inPath

theorem strandedPart_faultSlot (s : State) {x : Sensors} (h : x.station < 12) :
    (strandedPart s x).faultSlot = some x.station := strandedPart_mountedSlot s h

/-- FILM_STRANDED occurs in a part whose active set and log are empty (R204, R209). -/
theorem strandedPart_faultOccur (s : State) {x : Sensors} (h : x.station < 12) :
    (strandedPart s x).faultOccur .filmStranded .major (.stranded x.station x.atPosition) =
      { strandedPart s x with
        fm :=
          { Fm.reset with
            active :=
              [{ code := .filmStranded, cls := .major, firstSeen := 0, count := 1,
                 detail := .stranded x.station x.atPosition, position := 0, slot := some x.station }],
            log :=
              [{ cls := .major, code := .filmStranded, detail := .stranded x.station x.atPosition, position := 0,
                 slot := some x.station, uptime := 0 }] },
        li :=
          { Li.reset with
            notices :=
              [{ source := .faultMajor, count := 1, uptime := 0,
                 detail := .fault .filmStranded .major 1 (.stranded x.station x.atPosition) 0 (some x.station) }] } } := by
  rw [← strandedPart_faultSlot s h]
  rfl

end Sys2Proof.Machine

namespace Sys2Proof.Proofs.Link

open Sys2Proof.Machine Sys2Proof.Expect

/-- The directory's entries keep their slot states at a soft reset. -/
theorem resetEntries_states (s : State) : (resetEntries s).map Entry.state = s.cu.entries.map Entry.state := by
  unfold resetEntries
  split
  · rename_i n _ hn
    split
    · rfl
    · obtain ⟨hlt, -, -⟩ := List.findIdx?_eq_some_iff_getElem.mp hn
      have hentry : (s.entry n).state = (s.cu.entries.map Entry.state)[n]'(by simpa using hlt) := by
        simp [State.entry, hlt]
      rw [List.map_set]
      exact (congrArg _ hentry).trans (List.set_getElem_self _)
  · rfl

/-- The number of occupied slots is that of the entries' states. -/
theorem occupied_eq (s : State) :
    s.occupied = ((s.cu.entries.map Entry.state).filter fun st => decide (st ≠ .empty)).length := by
  rw [List.filter_map, List.length_map]
  rfl

theorem softReset_eq (s : State) :
    s.softReset =
      { s with
        tc := resetTc s.tc,
        tu :=
          if (resetTc s.tc).state = .stopped ∧ s.tc.state ≠ .stopped then slackOff (inLoop s.reportedTension s.tu) else s.tu,
        cu := { s.cu with entries := resetEntries s },
        ix :=
          { s.ix with
            pass := none,
            tracker :=
              { s.ix.tracker with
                state := .none, frame := none, segment := none,
                leaderArmed := s.ix.tracker.leaderArmed || decide (s.tc.position = 0) } },
        fu := { s.fu with target := s.fu.lens, probe := none, tracking := false, lagReported := false },
        cp :=
          { s.cp with
            lamp := .off, probeHolds := false, listHolds := false, slots := List.replicate 16 none, ready := [],
            jobs := none },
        rs :=
          { s.rs with
            mode := .manual, queue := [], items := [], pass := none, captureCount := 0, countedSlot := none,
            planningDue := false },
        dc :=
          { s.dc with
            a := { s.dc.a with sending := none, waiting := none, inTransmission := false },
            b := { s.dc.b with sending := none, waiting := none, inTransmission := false }, snapshot := none },
        li :=
          { s.li with
            rx := [],
            notices :=
              if s.level .start = .off then []
              else
                [{ source := .start, count := 1, detail := .start .command (resetTc s.tc).threaded s.occupied,
                   uptime := s.li.uptime }],
            tx := s.li.tx.map fun m => { m with source := m.source.orphaned } },
        fm := { s.fm with active := s.fm.active.filter isMajor } } := by
  have hidx := resetIndex_eq s.resetScheduler
  have hmanual : s.resetScheduler.resetIndex.resetFocus.resetCapture.resetDelivery.rs.mode ≠ .auto := by
    rw [hidx]
    exact fun h => nomatch h
  rw [State.softReset, resetTransport_eq hmanual, hidx]
  refine (postStart_of_no_notices rfl _).trans ?_
  have hoccupied (t : State) (ht : t.cu.entries = resetEntries s) : t.occupied = s.occupied := by
    rw [occupied_eq, occupied_eq, ht, resetEntries_states]
  rw [hoccupied _ rfl]
  rfl

/-- Settles O14: the soft reset block by block; in MANUAL, which RS takes first, the stop of TC is no planning opportunity. -/
theorem softResetDropsWorkAndKeepsTables : Obligations.SoftResetDropsWorkAndKeepsTables := by
  intro tag s hs
  refine (exec_listening rfl hs).trans ?_
  show Host.Outcome.next (replied (placed s).softReset tag 0x4B .ok []) = _
  have hthreaded : (resetTc s.tc).threaded = s.tc.threaded := by
    unfold resetTc
    (repeat' split) <;> rfl
  rw [softReset_eq, ← hthreaded]
  rfl

/-- Settles O10's part without film: start-up, the reset pin and the uptime. -/
theorem startUpAndResetPin : StartUpAndResetPin := by
  refine ⟨fun x s hx hgate => ?_, fun s => rfl, fun s hs => ?_⟩
  · have hlen : x.presence.length = 12 := by
      simp only [Sensors.wf, Bool.and_eq_true, beq_iff_eq] at hx
      exact hx.1
    rw [exec_powerOn, exec_resetnRelease, execResetnRelease, startUp_no_film hlen hgate, startUp_no_film hlen hgate]
    exact ⟨rfl, rfl⟩
  · show execUptimeTick s = _
    rw [execUptimeTick, whenRunning_running hs]
    rfl

/-- Start-up with film in the gate, whatever started it. -/
theorem startUp_stranded {x : Sensors} (_ : x.presence.length = 12) (hstation : x.station < 12)
    (hgate : x.gateFilm = true) (s : State) (c : ResetCause) :
    let t := s.startUp c x
    let strandedEntry : FaultEntry :=
      { code := .filmStranded, cls := .major, firstSeen := 0, count := 1, detail := .stranded x.station x.atPosition,
        position := 0, slot := some x.station }
    t.tc.state = .halted ∧ t.tc.threaded = true ∧ t.tc.position = 0 ∧ t.tc.underrun = 0 ∧ t.tc.motion = none
      ∧ t.cu.lock = some x.station ∧ t.cu.station = x.station ∧ t.cu.atPosition = x.atPosition
      ∧ t.entry x.station = { Entry.empty with state := .mounted }
      ∧ (∀ n, n < 12 → n ≠ x.station →
          t.entry n = if x.presence.getD n false then { Entry.empty with state := .stored } else Entry.empty)
      ∧ t.ix = Ix.reset ∧ t.fu.map = [] ∧ t.fm.active = [strandedEntry]
      ∧ t.fm.log.map (fun r => (r.code, r.position, r.slot)) = [(.filmStranded, 0, some x.station)]
      ∧ t.li.notices.map (fun n => n.source) = [.faultMajor, .start] := by
  have hraised : (s.powerUp x).strand
      = ((strandedPart s x).faultOccur .filmStranded .major (.stranded x.station x.atPosition)).majorHalt := rfl
  have hquiet : ((strandedPart s x).faultOccur .filmStranded .major (.stranded x.station x.atPosition)).Quiet := by
    rw [strandedPart_faultOccur s hstation]
    exact ⟨rfl, rfl, rfl, rfl⟩
  have hstart : s.startUp c x = ((s.powerUp x).strand).postStart c := by
    unfold State.startUp
    rw [hgate]
    rfl
  have hentries : ((rebuiltCu x).entries.set x.station { Entry.empty with state := .mounted }).length = 12 := by
    rw [List.length_set, rebuilt_length]
  rw [hstart, hraised, majorHalt_of_quiet hquiet, strandedPart_faultOccur s hstation, State.postStart, post_on]
  · refine ⟨rfl, rfl, rfl, rfl, rfl, rfl, rfl, rfl, ?_, fun n hn hne => ?_, rfl, rfl, rfl, rfl, rfl⟩
    · simp [State.entry, strandedPart, hentries, hstation]
    · show ((rebuiltCu x).entries.set x.station _).getD n Entry.empty = _
      rw [List.getD_eq_getElem?_getD, List.getElem?_set_ne (Ne.symm hne)]
      simp [rebuiltCu, hn, Entry.inserted]
  · exact fun h => nomatch h

theorem filmFoundInTheGateStrands : FilmFoundInTheGateStrands := by
  intro i x s hi hx hgate
  have hsensors : x.presence.length = 12 ∧ x.station < 12 := by
    simpa [Sensors.wf] using hx
  have hstarted : ∃ c, exec i s = .next (s.startUp c x) := by
    rcases hi with rfl | ⟨rfl, hheld⟩
    · exact ⟨.powerOn, rfl⟩
    · exact ⟨.pin, by rw [exec_resetnRelease, execResetnRelease, if_pos hheld]⟩
  obtain ⟨c, hc⟩ := hstarted
  exact ⟨_, hc, startUp_stranded hsensors.1 hsensors.2 hgate s c⟩

/-- Settles O10. -/
theorem startUpAndTheResetPin : Obligations.StartUpAndTheResetPin := ⟨startUpAndResetPin, filmFoundInTheGateStrands⟩

end Sys2Proof.Proofs.Link

/-! Tension (O23 to O25) and the run-up (O22). -/

namespace Sys2Proof.Machine

open Expect

/-! ### Commands behind checks -/

/-- The status of the first check that fails (every refusal table). -/
def firstRefusal : List (Bool × Status) → Option Status
  | [] => none
  | c :: rest => if c.1 then some c.2 else firstRefusal rest

theorem checked_eq (s : State) (cs : List (Bool × Status)) (act : State → Answer) :
    checked s cs act = match firstRefusal cs with | some r => s.refuse r | none => act s := by
  induction cs with
  | nil => rfl
  | cons c rest ih =>
    obtain ⟨b, r⟩ := c
    rw [checked_cons, ih]
    cases b <;> rfl

/-- A host command whose owner checks first ends refused by the first check that fails, or with the owner's action. -/
theorem exec_checked {i : Instr} {kind tag : Byte} {body : List Byte} (h : encodeCommand i = some (kind, tag, body))
    {s : State} (hs : Listening s) {cs : List (Bool × Status)} {act : State → Answer}
    (hown : ownerOf i (placed s) = checked (placed s) cs act) {refusal : Option Status}
    (hrefusal : refusal = firstRefusal cs) {t : State} {st : Status} {data : List Byte}
    (hact : refusal = none → act (placed s) = ⟨t, st, data⟩) :
    exec i s = .next (answered s tag kind refusal t st data) := by
  refine exec_answered h hs (fun r hr => ?_) fun hn => ?_
  · rw [hown, checked_eq, ← hrefusal, hr]
  · rw [hown, checked_eq, ← hrefusal, hn]
    exact hact hn

/-! ### The run-up (R13) -/

/-- The least number whose multiple reaches n. -/
theorem le_ceilDiv_mul {n d : Nat} (hd : 0 < d) : n ≤ ceilDiv n d * d := by
  have h := Nat.div_add_mod (n + d - 1) d
  have hm := Nat.mod_lt (n + d - 1) hd
  unfold ceilDiv
  rw [Nat.mul_comm]
  omega

theorem ceilDiv_le {n d k : Nat} (hd : 0 < d) (h : n ≤ k * d) : ceilDiv n d ≤ k := by
  unfold ceilDiv
  refine Nat.lt_succ_iff.mp ((Nat.div_lt_iff_lt_mul hd).mpr ?_)
  rw [Nat.succ_mul]
  omega

theorem runUp_mono {a u v : Nat} (ha : 0 < a) (h : u ≤ v) : runUp a u ≤ runUp a v :=
  Nat.add_le_add_right
    (ceilDiv_le (by omega) (Nat.le_trans (Nat.mul_le_mul_left 100 (Nat.pow_le_pow_left h 2)) (le_ceilDiv_mul (by omega)))) 100

/-- The search from v downward finds the greatest speed that fits. -/
theorem fittingSpeed_some {a room : Nat} : ∀ {v : Nat}, 5 ≤ v → runUp a 5 ≤ room →
    ∃ u, fittingSpeed a room v = some u ∧ 5 ≤ u ∧ u ≤ v ∧ runUp a u ≤ room
      ∧ ∀ w, 5 ≤ w → w ≤ v → runUp a w ≤ room → w ≤ u
  | 0, h, _ => absurd h (by decide)
  | v + 1, h, hroom => by
    have hfast : ¬ v + 1 < creepSpeed := Nat.not_lt.mpr h
    rw [fittingSpeed, if_neg hfast]
    by_cases hfits : runUp a (v + 1) ≤ room
    · exact ⟨v + 1, if_pos hfits, h, Nat.le_refl _, hfits, fun _ _ hw _ => hw⟩
    · rw [if_neg hfits]
      have hv : 5 ≤ v := by
        rcases Nat.lt_or_ge v 5 with hlt | hge
        · have hfive : v + 1 = 5 := by omega
          exact absurd (hfive ▸ hroom) hfits
        · exact hge
      obtain ⟨u, hu, hlow, hhigh, hroom', hmax⟩ := fittingSpeed_some hv hroom
      refine ⟨u, hu, hlow, Nat.le_succ_of_le hhigh, hroom', fun w hw hwv hwroom => ?_⟩
      rcases Nat.lt_or_ge v w with hlast | hbelow
      · have htop : w = v + 1 := by omega
        exact absurd (htop ▸ hwroom) hfits
      · exact hmax w hw hbelow hwroom

theorem fittingSpeed_none {a room v : Nat} (ha : 0 < a) (h : room < runUp a 5) : fittingSpeed a room v = none := by
  induction v with
  | zero => rfl
  | succ v ih =>
    rw [fittingSpeed, ih]
    split
    · rfl
    · rename_i hfast
      exact if_neg (Nat.not_le.mpr (Nat.lt_of_lt_of_le h (runUp_mono ha (Nat.not_lt.mp hfast))))

/-! ### Samples (R24 to R36): each stage, by the fields it sets -/

theorem exec_tensionSample {s : State} (hs : s.resetHeld = false) (code : Nat) :
    exec (.tensionSample code) s = .next (s.sample code) := by
  show execTensionSample code s = _
  rw [execTensionSample, whenRunning_running hs]

theorem calibrationSample_eq (code : Nat) (u : Tu) :
    calibrationSample code u =
      { u with
        calSum := if u.calStatus = .inProgress ∧ u.calCount < 64 then u.calSum + code else u.calSum,
        calCount := if u.calStatus = .inProgress ∧ u.calCount < 64 then u.calCount + 1 else u.calCount } := by
  unfold calibrationSample
  split <;> rfl

theorem comparatorSample_eq (code : Nat) (u : Tu) :
    comparatorSample code u =
      { u with
        overCount := if overSample u code then saturate 16 u.overCount else 0,
        withinCount := if overSample u code then 0 else saturate 16 u.withinCount,
        overLimit := overSample u code,
        detectionDue :=
          u.detectionDue
            || (overSample u code && u.loopOn
              && decide (u.overCount < u.settings.filterCount ∧ u.settings.filterCount ≤ saturate 16 u.overCount)) } := by
  unfold comparatorSample
  cases overSample u code <;> simp [Bool.decide_and, Bool.and_assoc]

theorem loopSample_eq (reported : Nat) (u : Tu) :
    loopSample reported u =
      { u with
        torque :=
          if u.loopOn then
            clampInt (-Config.fullOutput) Config.fullOutput (Config.torqueDemand (u.setpoint - reported) u.runningSum)
          else u.torque,
        runningSum := if u.loopOn then u.runningSum + (u.setpoint - reported) else u.runningSum } := by
  unfold loopSample
  split <;> rfl

theorem onTargetSample_eq (reported : Nat) (u : Tu) :
    onTargetSample reported u =
      { u with
        onTargetCount := if onTargetNow reported u then saturate 100 u.onTargetCount else 0,
        onTarget := onTargetNow reported u && u.onTarget } := by
  unfold onTargetSample
  cases onTargetNow reported u <;> rfl

theorem slackSample_eq (moving : Bool) (u : Tu) :
    slackSample moving u =
      { u with
        slackCount :=
          if !moving then u.slackCount else if u.tRaw < u.settings.slackLevel then saturate 16 u.slackCount else 0,
        breakCount :=
          if !moving then u.breakCount else if u.tRaw < u.settings.slackLevel then saturate 500 u.breakCount else 0,
        recoveryCount :=
          if !moving then u.recoveryCount else if u.tRaw < u.settings.slackLevel then 0 else saturate 16 u.recoveryCount } := by
  unfold slackSample
  (repeat' split) <;> rfl

theorem slackSample_counts (moving : Bool) (u : Tu) :
    ((slackSample moving u).slackCount, (slackSample moving u).breakCount, (slackSample moving u).recoveryCount) =
      if moving = false then (u.slackCount, u.breakCount, u.recoveryCount)
      else if u.tRaw < u.settings.slackLevel then (saturate 16 u.slackCount, saturate 500 u.breakCount, 0)
      else (0, 0, saturate 16 u.recoveryCount) := by
  unfold slackSample
  cases moving
  · rfl
  · by_cases hslack : u.tRaw < u.settings.slackLevel
    · simp [hslack]
    · simp [hslack]

/-- The reported tension of a sample (R25). -/
def reportedOf (u : Tu) (code : Nat) : Nat := (clampInt 0 4000 (rawTension u code)).toNat

/-- TU after a sample. -/
def sampledTu (s : State) (code : Nat) : Tu :=
  slackSample s.filmMoving
    (onTargetSample (reportedOf s.tu code)
      (loopSample (reportedOf s.tu code) (comparatorSample code (convertSample code (calibrationSample code s.tu)))))

theorem sample_eq (s : State) (code : Nat) : s.sample code = { s with tu := sampledTu s code } := by
  have hraw : rawTension (calibrationSample code s.tu) code = rawTension s.tu code := by
    rw [calibrationSample_eq]
    rfl
  unfold sampledTu reportedOf
  rw [← hraw]
  rfl

theorem filmMoving_eq (s : State) :
    s.filmMoving =
      decide ((s.tc.state = .seeking ∨ s.tc.state = .scanning ∨ s.tc.state = .rewinding) ∧ s.tc.direction ≠ .none) := by
  unfold State.filmMoving
  cases s.tc.state <;> simp

theorem sampledTu_eq (s : State) (code : Nat) :
    sampledTu s code =
      slackSample s.filmMoving
        (onTargetSample (reportedOf s.tu code)
          (loopSample (reportedOf s.tu code)
            (comparatorSample code
              { s.tu with
                calSum := (calibrationSample code s.tu).calSum, calCount := (calibrationSample code s.tu).calCount,
                code := code, tRaw := rawTension s.tu code }))) := by
  have hcal := calibrationSample_eq code s.tu
  unfold sampledTu convertSample
  rw [hcal]
  rfl

/-- What a sample reads, and what it leaves as it was. -/
theorem sampledTu_fields (s : State) (code : Nat) :
    (sampledTu s code).code = code ∧ (sampledTu s code).tRaw = rawTension s.tu code
      ∧ (sampledTu s code).settings = s.tu.settings ∧ (sampledTu s code).zeroCode = s.tu.zeroCode
      ∧ (sampledTu s code).limitCode = s.tu.limitCode ∧ (sampledTu s code).loopOn = s.tu.loopOn
      ∧ (sampledTu s code).setpoint = s.tu.setpoint ∧ (sampledTu s code).capInForce = s.tu.capInForce
      ∧ (sampledTu s code).driveInhibit = s.tu.driveInhibit ∧ (sampledTu s code).slackEpisode = s.tu.slackEpisode
      ∧ (sampledTu s code).calStatus = s.tu.calStatus := by
  rw [sampledTu_eq, slackSample_eq, onTargetSample_eq, loopSample_eq, comparatorSample_eq]
  exact ⟨rfl, rfl, rfl, rfl, rfl, rfl, rfl, rfl, rfl, rfl, rfl⟩

/-! ### Settings and calibration (R26 to R29, R32) -/

theorem limitCodeOf_isLimitCode {base limit gain scale : Nat} (h : 1 ≤ scale) :
    IsLimitCode base limit gain scale (limitCodeOf base limit gain scale) := by
  have hcode : limitCodeOf base limit gain scale - base = ceilDiv (limit * gain * 256) scale := Nat.add_sub_cancel_left _ _
  refine ⟨Nat.le_add_right _ _, ?_, fun k hk => ?_⟩
  · rw [hcode]
    exact le_ceilDiv_mul h
  · rw [hcode]
    exact ceilDiv_le h hk

/-- The values of SET_TENSION are in their ranges (R28). -/
theorem tensionOutOfRange_eq (a : TensionArgs) :
    tensionOutOfRange a =
      !decide ((a.gain = 1 ∨ a.gain = 2 ∨ a.gain = 4 ∨ a.gain = 8) ∧ (1 ≤ a.scale ∧ a.scale ≤ 65535)
        ∧ (50 ≤ a.target ∧ a.target ≤ 800) ∧ (100 ≤ a.limit ∧ a.limit ≤ 1500) ∧ a.slackLevel ≤ 200
        ∧ (a.filterCount = 1 ∨ a.filterCount = 4 ∨ a.filterCount = 8 ∨ a.filterCount = 16) ∧ a.action ≠ none) := by
  unfold tensionOutOfRange
  have haction : a.action.isSome = decide (a.action ≠ none) := by cases a.action <;> rfl
  simp only [haction, List.mem_cons, List.not_mem_nil, or_false, Bool.decide_and, Bool.and_assoc]

/-- With an action named, a restricted setting differs exactly where the command's value does (R28). -/
theorem restrictedDiffers_eq {a : TensionArgs} (h : a.action ≠ none) (g : TensionSettings) :
    restrictedDiffers (settingsOf a) g =
      decide (a.gain ≠ g.gain ∨ a.scale ≠ g.scale ∨ a.limit ≠ g.limit ∨ a.filterCount ≠ g.filterCount
        ∨ a.action ≠ some g.action) := by
  obtain ⟨action, haction⟩ := Option.ne_none_iff_exists'.mp h
  simp [restrictedDiffers, settingsOf, haction, Bool.decide_or, Bool.or_assoc]

/-! ### The steps that follow from samples -/

theorem onlyIf_modTu (s : State) (c : Prop) [Decidable c] (f : Tu → Tu) :
    (if c then s.modTu f else s) = { s with tu := if c then f s.tu else s.tu } := by
  split <;> rfl

theorem next_tu {s : State} {u v : Tu} (h : u = v) :
    (Host.Outcome.next { s with tu := u } : Result) = .next { s with tu := v } := by rw [h]

theorem rampStep_eq (u : Tu) :
    rampStep u =
      { u with
        setpoint :=
          if u.setpoint < u.settings.target then u.setpoint + 1
          else if u.settings.target < u.setpoint then u.setpoint - 1 else u.setpoint } := by
  unfold rampStep
  (repeat' split) <;> rfl

end Sys2Proof.Machine

namespace Sys2Proof.Proofs.Tension

open Sys2Proof.Machine Sys2Proof.Expect

/-- Settles O22: the run-up as a rounded-up quotient, and the search for the greatest speed that fits. -/
theorem runUpIsComputed : Obligations.RunUpIsComputed := by
  intro a v first ha hv
  have hpos : 0 < 2 * a := by omega
  have hceil : runUp a v - 100 = ceilDiv (100 * v ^ 2) (2 * a) := Nat.add_sub_cancel _ _
  refine ⟨⟨?_, fun k hk => ?_⟩, Nat.le_add_left _ _, fun hroom => ?_, fun hroom => ?_⟩
  · rw [hceil]
    exact le_ceilDiv_mul hpos
  · rw [hceil]
    exact ceilDiv_le hpos hk
  · obtain ⟨u, hu, hlow, hhigh, hfits, hmax⟩ := fittingSpeed_some hv hroom
    have hstart : runStart a v first = (u, first - runUp a u) := by rw [runStart, hu]
    rw [hstart]
    exact ⟨hlow, hhigh, hfits, rfl, hmax⟩
  · rw [runStart, fittingSpeed_none ha hroom]
    rfl

theorem sampleIsConverted : SampleIsConverted := by
  intro code s hs hgain
  have hpos : (0 : Int) < (s.tu.settings.gain : Int) * 256 := by omega
  obtain ⟨hcode, hraw, -⟩ := sampledTu_fields s code
  have hquotient : rawTension s.tu code
      = (((code : Int) - s.tu.zeroCode) * s.tu.settings.scale) / ((s.tu.settings.gain : Int) * 256) := by
    rw [rawTension, Int.natCast_mul]
    rfl
  refine ⟨_, exec_tensionSample hs code, ?_⟩
  rw [sample_eq]
  refine ⟨hcode, ?_, ?_, ?_⟩
  · show (sampledTu s code).tRaw * _ ≤ _
    rw [hraw, hquotient]
    exact Int.ediv_mul_le _ (Int.ne_of_gt hpos)
  · show _ < ((sampledTu s code).tRaw + 1) * _
    rw [hraw, hquotient]
    exact Int.lt_ediv_add_one_mul_self _ hpos
  · exact congrArg Int.toNat (clampInt_eq_min_max (by decide) _)

theorem sampleIsCounted : SampleIsCounted := by
  intro code s hs
  refine ⟨sampledTu s code, by rw [exec_tensionSample hs, sample_eq], ?_⟩
  obtain ⟨-, hraw, hsame⟩ := sampledTu_fields s code
  have hreported : State.reportedTension { s with tu := sampledTu s code } = reportedOf s.tu code :=
    congrArg (fun z => (clampInt 0 4000 z).toNat) hraw
  have hover : overSample s.tu code = decide (s.tu.limitCode < code ∨ code = 4095) := (Bool.decide_or ..).symm
  have hnear : onTargetNow (reportedOf s.tu code) s.tu
      = (s.tu.loopOn && decide (s.tu.setpoint = s.tu.settings.target)
        && decide (distance (reportedOf s.tu code) s.tu.settings.target ≤ 10)) := rfl
  rw [hreported, hraw, ← hover, ← hnear, ← filmMoving_eq]
  refine ⟨?_, ?_, ?_, ?_, ?_, ?hslack, hsame⟩
  case hslack =>
    rw [sampledTu_eq]
    refine (slackSample_counts _ _).trans ?_
    rw [onTargetSample_eq, loopSample_eq, comparatorSample_eq]
    rfl
  all_goals rw [sampledTu_eq, slackSample_eq, onTargetSample_eq, loopSample_eq, comparatorSample_eq]
  · show (if overSample s.tu code = true then _ else _, if overSample s.tu code = true then _ else _, overSample s.tu code) = _
    cases overSample s.tu code <;> rfl
  · rfl
  · show ((calibrationSample code s.tu).calSum, (calibrationSample code s.tu).calCount) = _
    unfold calibrationSample
    split <;> rfl
  · show (if s.tu.loopOn = true then s.tu.runningSum + ((s.tu.setpoint : Int) - reportedOf s.tu code)
      else s.tu.runningSum) = _
    rw [← Int.add_sub_assoc]
  · show (if onTargetNow (reportedOf s.tu code) s.tu = true then _ else 0, onTargetNow (reportedOf s.tu code) s.tu && s.tu.onTarget) = _
    cases onTargetNow (reportedOf s.tu code) s.tu
    · rfl
    · rfl

/-- Settles O23. -/
theorem sampleIsTaken : Obligations.SampleIsTaken := ⟨sampleIsConverted, sampleIsCounted⟩

theorem tensionSettingsAreSet : TensionSettingsAreSet := by
  intro tag a s hs g inRange limitCode restricted v w
  have hrange : tensionOutOfRange a = !inRange := tensionOutOfRange_eq a
  have haction (h : inRange = true) : a.action ≠ none := (of_decide_eq_true h).2.2.2.2.2.2
  have hrestricted (h : inRange = true) : restrictedDiffers (settingsOf a) (placed s).tu.settings = restricted :=
    restrictedDiffers_eq (haction h) g
  refine ⟨exec_checked (i := .setTension tag a) rfl hs (show ownSetTension a (placed s) = _ from rfl) ?_ fun hnone => ?_,
    fun h => ?_⟩
  · simp only [firstRefusal, hrange]
    cases hin : inRange with
    | false => rfl
    | true =>
      simp only [hrestricted hin, decide_eq_true_eq, Bool.and_eq_true, and_assoc]
      rfl
  · have hin : inRange = true := by
      refine Classical.byContradiction fun h => ?_
      rw [Bool.not_eq_true] at h
      rw [if_pos h] at hnone
      exact nomatch hnone
    have haccept : acceptTension (settingsOf a) (placed s).tu = w := by
      unfold acceptTension
      rw [hrestricted hin]
      rfl
    show Answer.mk { placed s with tu := acceptTension (settingsOf a) (placed s).tu } _ (u16 (acceptTension (settingsOf a) (placed s).tu).limitCode) = _
    rw [haccept]
  · exact limitCodeOf_isLimitCode (of_decide_eq_true h).2.1.1

theorem zeroCalibration : ZeroCalibration := by
  intro tag s hs
  refine ⟨fun hplaces => ?_, fun h => ?_, fun h hcount => ?_⟩
  · refine exec_checked (i := .zeroTension tag) rfl ⟨hs, hplaces⟩ (show ownZeroTension (placed s) = _ from rfl) ?_ fun _ => rfl
    simp only [firstRefusal, decide_eq_true_eq]
    show _ = if s.tc.state ≠ .unloaded then _ else if s.tu.calStatus = .inProgress then _ else _
    by_cases hstate : s.tc.state = .unloaded
    · simp [hstate]
    · simp [hstate]
  · show execCalibrationComplete s = _
    rw [execCalibrationComplete, whenRunning_running hs, if_neg h]
  · show execCalibrationComplete s = _
    rw [execCalibrationComplete, whenRunning_running hs, if_pos ⟨h, hcount⟩]
    rfl

/-- Settles O24. -/
theorem tensionIsSetAndCalibrated : Obligations.TensionIsSetAndCalibrated := ⟨tensionSettingsAreSet, zeroCalibration⟩

theorem tensionStepsFollowTheirCounts : TensionStepsFollowTheirCounts := by
  intro s hs
  refine ⟨?_, ?_, ?_, ?_⟩
  · show execSetpointRampStep s = _
    rw [execSetpointRampStep, whenRunning_running hs, onlyIf_modTu]
    refine next_tu ?_
    by_cases hon : s.tu.loopOn = true
    · rw [if_pos hon, rampStep_eq]
      simp [hon]
    · rw [if_neg hon, if_pos (Bool.not_eq_true _ ▸ hon)]
  · show execOnTargetSet s = _
    rw [execOnTargetSet, whenRunning_running hs, onlyIf_modTu]
    refine next_tu ?_
    by_cases hheld : s.tu.loopOn = true ∧ 100 ≤ s.tu.onTargetCount
    · rw [if_pos hheld, decide_eq_true hheld, Bool.or_true]
    · rw [if_neg hheld, decide_eq_false hheld, Bool.or_false]
  · show execSpeedCapLift s = _
    rw [execSpeedCapLift, whenRunning_running hs, onlyIf_modTu]
    refine next_tu ?_
    by_cases hcount : s.tu.settings.filterCount ≤ s.tu.withinCount
    · rw [decide_eq_false (Nat.not_lt.mpr hcount), Bool.and_false]
      cases hcap : s.tu.capInForce
      · simp [← hcap]
      · simp [hcount]
    · rw [if_neg fun h => hcount h.2, decide_eq_true (Nat.not_le.mp hcount), Bool.and_true]
  · show execSlackEpisodeEnd s = _
    rw [execSlackEpisodeEnd, whenRunning_running hs, onlyIf_modTu]
    refine next_tu ?_
    by_cases hcount : s.tu.settings.filterCount ≤ s.tu.recoveryCount
    · rw [decide_eq_false (Nat.not_lt.mpr hcount), Bool.and_false]
      cases hepisode : s.tu.slackEpisode
      · simp [← hepisode]
      · simp [hcount]
    · rw [if_neg fun h => hcount h.2, decide_eq_true (Nat.not_le.mp hcount), Bool.and_true]

theorem tensionFaultsAreReported : TensionFaultsAreReported := by
  intro s hs moving trip
  refine ⟨?_, ?_, ?_⟩
  · show execOverTensionDetection s = _
    rw [execOverTensionDetection, whenRunning_running hs]
    cases hdue : s.tu.detectionDue with
    | false => rfl
    | true =>
      simp only [if_true, Bool.true_eq_false, if_false, modTu_tu]
      cases s.tu.settings.action <;> rfl
  · show execSlackEpisodeBegin s = _
    rw [execSlackEpisodeBegin, whenRunning_running hs, filmMoving_eq]
    rfl
  · show execFilmBreakDetection s = _
    rw [execFilmBreakDetection, whenRunning_running hs, filmMoving_eq]

/-- Settles O25. -/
theorem tensionStepsAndDetections : Obligations.TensionStepsAndDetections :=
  ⟨tensionStepsFollowTheirCounts, tensionFaultsAreReported⟩

end Sys2Proof.Proofs.Tension

/-! Host seeks (O15). -/

namespace Sys2Proof.Machine

open Expect

/-! ### TU follows TC once -/

theorem inLoop_eq (r : Nat) (u : Tu) :
    inLoop r u =
      { u with
        loopOn := true,
        setpoint := if u.loopOn then u.setpoint else r,
        calStatus := if u.calStatus = .inProgress ∧ u.calCount < 64 then .abandoned else u.calStatus,
        calSum := if u.calStatus = .inProgress ∧ u.calCount < 64 then 0 else u.calSum,
        calCount := if u.calStatus = .inProgress ∧ u.calCount < 64 then 0 else u.calCount } := by
  have hon : (if u.loopOn then u else { u with loopOn := true, setpoint := r }) =
      { u with loopOn := true, setpoint := if u.loopOn then u.setpoint else r } := by
    cases u with
    | mk => split <;> simp_all
  unfold inLoop
  rw [hon]
  by_cases hcal : u.calStatus = .inProgress ∧ u.calCount < 64
  · simp only [if_pos hcal]
  · simp only [if_neg hcal]

theorem slackOff_inLoop_slackOff (r : Nat) (u : Tu) : slackOff (inLoop r (slackOff u)) = slackOff (inLoop r u) := by
  rw [inLoop_eq, inLoop_eq]
  rfl

theorem inLoop_inLoop (r : Nat) (u : Tu) : inLoop r (inLoop r u) = inLoop r u := by
  rw [inLoop_eq r u, inLoop_eq]
  by_cases hcal : u.calStatus = .inProgress ∧ u.calCount < 64
  · simp [hcal]
  · simp [hcal]

theorem reportSeek_host {m : Seek} (h : m.requester = .host) (s : State) (o : SeekOutcome) :
    s.reportSeek m o = s.post .seekDone (.seekDone o m.target s.tc.position m.corrections m.clamped) := by
  simp [State.reportSeek, h]

/-! ### Arrival (R7) -/

theorem arrive_eq (s : State) :
    s.arrive =
      { s with
        tc := { s.tc with phase := .dwell, travel := .none, direction := .none }, tu := slackOff s.tu } := by
  have hstill : (s.modTc fun c => { c with phase := .dwell, travel := .none, direction := .none }).filmMoving = false := by
    simp [State.filmMoving]
  exact slackFollow_still hstill

/-- A host seek that stands still ends in STOPPED (R7). -/
theorem endSeek_host {m : Seek} (h : m.requester = .host) (s : State) (o : SeekOutcome) :
    s.endSeek m o =
      State.post (offered { s with tc := stopped s.tc, tu := slackOff (inLoop s.reportedTension s.tu) })
        .seekDone (.seekDone o m.target s.tc.position m.corrections m.clamped) := by
  rw [State.endSeek, noMotion_enter_stopped, reportSeek_host h]
  rfl

/-- Nothing follows from rest in the dwell, in travel and in creep. -/
theorem settleMotion_on {s : State} {m : Seek} (hm : s.tc.motion = some (.seek m))
    (hp : s.tc.phase.underway = true ∨ s.tc.phase = .dwell ∧ m.dwell ≠ 0) : s.settleMotion = s := by
  have hrest : s.filmAtRest = s := by
    unfold State.filmAtRest
    cases hphase : s.tc.phase <;> simp_all [Phase.underway]
  have hzero : s.endZeroDwell = s := by
    unfold State.endZeroDwell
    rw [hm]
    refine if_neg fun h => ?_
    rcases hp with hu | ⟨-, hd⟩
    · rw [h.1] at hu
      exact nomatch hu
    · exact hd h.2
  unfold State.settleMotion State.onlyIf
  rw [hrest, ite_self, hzero]

/-- A host's seek arrives: the dwell, which ends at once where it is 0 ms long. -/
theorem arrive_settleMotion {s : State} {m : Seek} (hm : s.tc.motion = some (.seek m)) (h : m.requester = .host) :
    s.arrive.settleMotion =
      if m.dwell = 0 then
        State.post
          (offered
            { s with
              tc := { stopped s.tc with direction := .none }, tu := slackOff (inLoop s.reportedTension s.tu) })
          .seekDone (.seekDone .arrived m.target s.tc.position m.corrections m.clamped)
      else
        { s with tc := { s.tc with phase := .dwell, travel := .none, direction := .none }, tu := slackOff s.tu } := by
  rw [arrive_eq]
  by_cases hd : m.dwell = 0
  · have hend : State.settleMotion
          { s with tc := { s.tc with phase := .dwell, travel := .none, direction := .none }, tu := slackOff s.tu } =
        State.endSeek
          { s with tc := { s.tc with phase := .dwell, travel := .none, direction := .none }, tu := slackOff s.tu } m
          .arrived := by
      simp [State.settleMotion, State.onlyIf, State.filmAtRest, State.endZeroDwell, hm, hd]
    rw [if_pos hd, hend, endSeek_host h]
    show State.post (offered { s with
      tc := { stopped s.tc with direction := .none }, tu := slackOff (inLoop s.reportedTension (slackOff s.tu)) }) _ _ = _
    rw [slackOff_inLoop_slackOff]
  · rw [if_neg hd]
    exact settleMotion_on hm (.inr ⟨rfl, hd⟩)

/-! ### Taking a host seek (R5 to R7) -/

/-- TC enters SEEKING for a motion of which RS is told. -/
def seekEntered (s : State) (m : Seek) : State :=
  { s with
    tc := { s.tc with state := .seeking, motion := some (.seek m) },
    tu := if s.tc.direction = .none then slackOff (inLoop s.reportedTension s.tu) else inLoop s.reportedTension s.tu,
    rs := motionNoted s.rs }

theorem noteMotion_eq (s : State) : s.noteMotion = { s with rs := motionNoted s.rs } := rfl

theorem noteMotion_enter_seeking (s : State) (m : Seek) :
    (s.noteMotion.enter .seeking).modTc (fun c => { c with motion := some (.seek m) }) = seekEntered s m := by
  rw [noteMotion_eq, enter_seeking]
  rfl

theorem slackOff_seekEntered (s : State) (m : Seek) :
    slackOff (seekEntered s m).tu = slackOff (inLoop s.reportedTension s.tu) := by
  show slackOff (if s.tc.direction = .none then _ else _) = _
  split <;> rfl

theorem slackOff_inLoop_seekEntered (s : State) (m : Seek) :
    slackOff (inLoop (seekEntered s m).reportedTension (seekEntered s m).tu) = slackOff (inLoop s.reportedTension s.tu) := by
  have hreported : (seekEntered s m).reportedTension = s.reportedTension := by
    have htRaw : (seekEntered s m).tu.tRaw = s.tu.tRaw := by
      show (if s.tc.direction = .none then _ else _ : Tu).tRaw = _
      rw [inLoop_eq]
      split <;> rfl
    rw [State.reportedTension, htRaw]
    rfl
  rw [hreported]
  show slackOff (inLoop s.reportedTension (if s.tc.direction = .none then _ else _)) = _
  split
  · rw [slackOff_inLoop_slackOff, inLoop_inLoop]
  · rw [inLoop_inLoop]

/-- A host seek that arrives as it is taken. -/
theorem seekEntered_arrive {s : State} {m : Seek} (h : m.requester = .host) (hc : m.corrections = 0)
    (hmode : s.rs.mode ≠ .auto) : (seekEntered (placed s) m).arrive.settleMotion = atOnce s m := by
  rw [arrive_settleMotion rfl h, atOnce, slackOff_seekEntered, hc]
  by_cases hd : m.dwell = 0
  · rw [if_pos hd, if_pos hd, offered_of_manual (by exact hmode), slackOff_inLoop_seekEntered (s := placed s)]
    rfl
  · rw [if_neg hd, if_neg hd]
    rfl

theorem enter_depart (s : State) (m : Seek) :
    (s.noteMotion.enter .seeking).depart m =
      if distance s.tc.position m.target ≤ 4 ∧ s.tc.underrun = 0 then (seekEntered s m).arrive
      else
        (seekEntered s m).modTc fun c =>
          { c with phase := if m.correcting then .creep else .travel, travel := s.toward m.target } := by
  rw [noteMotion_eq, enter_seeking]
  rfl

theorem distance_le_iff (a b n : Nat) : distance a b ≤ n ↔ b ≤ a + n ∧ a ≤ b + n := by
  unfold distance
  omega

theorem toward_eq (s : State) (target : Nat) :
    s.toward target = if target + s.tc.underrun < s.tc.position then .reverse else .forward := by
  unfold State.toward State.filmPlace
  have hplace : (target : Int) < s.tc.position - s.tc.underrun ↔ target + s.tc.underrun < s.tc.position := by omega
  simp only [hplace]

theorem startSeek_fromRest {s : State} (hmode : s.rs.mode ≠ .auto) (hr : resting s.tc = true) (target : Nat)
    (clamped : Bool) (limit : Nat) :
    ((placed s).startSeek .host target clamped limit).settleMotion = fromRest s target clamped limit := by
  have hstart : (placed s).startSeek .host target clamped limit =
      ((placed s).noteMotion.enter .seeking).depart (hostSeek s.tc.settings target clamped limit) := by
    unfold State.startSeek
    rw [atRest_eq_resting, show resting (placed s).tc = true from hr, if_pos rfl]
    rfl
  rw [hstart, enter_depart, fromRest, toward_eq]
  by_cases hnear : s.tc.underrun = 0 ∧ target ≤ s.tc.position + 4 ∧ s.tc.position ≤ target + 4
  · rw [if_pos hnear, if_pos ⟨(distance_le_iff ..).mpr hnear.2, hnear.1⟩]
    exact seekEntered_arrive rfl rfl hmode
  · rw [if_neg hnear, if_neg fun h => hnear ⟨h.2, (distance_le_iff ..).mp h.1⟩, settleMotion_on rfl (.inl rfl)]
    rfl

/-- A seek in travel onward is tested for its arrival and its deceleration as it is taken. -/
theorem motionTests_onward {s : State} {m : Seek} (hm : s.tc.motion = some (.seek m)) (hp : s.tc.phase = .travel)
    (hover : s.overshot m.target = false) :
    s.motionTests =
      if s.arrived m.target = true then s.arrive
      else
        { s with
          tc :=
            { s.tc with
              phase :=
                if s.decelerates m.target m.accel = true then (if s.tc.speed ≤ 5 then .creep else .decelerate)
                else .travel } } := by
  unfold State.motionTests
  rw [hm]
  show (if s.tc.phase.underway = true then
    (if s.arrived m.target = true then s.arrive
     else if s.overshot m.target = true then s.overshoot m
     else { s with tc := { s.tc with phase := nextPhase s.tc.phase (s.decelerates m.target m.accel) s.tc.speed } })
    else s) = _
  rw [hp, hover]
  rfl

/-- Nothing follows at once while the film moves outside the dwell. -/
theorem settleMotion_running {s : State} (hr : resting s.tc = false) (hp : s.tc.phase ≠ .dwell) : s.settleMotion = s := by
  rw [State.settleMotion, atRest_eq_resting, hr]
  show s.endZeroDwell = s
  unfold State.endZeroDwell
  split
  · exact if_neg fun h => hp h.1
  · rfl

/-- How far the target lies ahead in the direction of travel. -/
def aheadOf (s : State) (target : Nat) : Int :=
  if s.tc.direction = .forward then target - s.filmPlace else s.filmPlace - target

/-- The target lies in the direction of travel, at or beyond the stopping point. -/
def goesOn (s : State) (target : Nat) : Bool :=
  decide
    (0 ≤ aheadOf s target ∧ (100 * s.tc.speed ^ 2 : Int) ≤ aheadOf s target * (2 * s.tc.settings.acceleration))

theorem beyondStop_eq {s : State} (hd : s.tc.direction ≠ .none) (target : Nat) :
    s.beyondStop target s.tc.settings.acceleration = goesOn s target := by
  unfold State.beyondStop goesOn aheadOf
  rw [Bool.decide_and]
  cases hdir : s.tc.direction with
  | none => exact absurd hdir hd
  | forward => rfl
  | reverse => rfl

theorem overshot_of_ahead {s : State} {target : Nat} (ht : s.tc.travel = s.tc.direction) (h : 0 ≤ aheadOf s target) :
    s.overshot target = false := by
  unfold State.overshot
  unfold aheadOf at h
  rw [ht]
  cases hdir : s.tc.direction with
  | none => rfl
  | forward =>
    rw [hdir, if_pos rfl] at h
    exact decide_eq_false (by unfold arrivalWindow; omega)
  | reverse =>
    rw [hdir, if_neg (by decide)] at h
    exact decide_eq_false (by unfold arrivalWindow; omega)

theorem arrived_iff_of_ahead {s : State} {target : Nat} (h : 0 ≤ aheadOf s target) :
    s.arrived target = true ↔ s.tc.underrun = 0 ∧ aheadOf s target ≤ 4 ∧ s.tc.speed ≤ 5 := by
  have hdistance : s.tc.underrun = 0 → (distance s.tc.position target ≤ 4 ↔ aheadOf s target ≤ 4) := by
    unfold aheadOf State.filmPlace distance at *
    split at h <;> simp only [*, if_true, if_false] <;> omega
  unfold State.arrived
  simp only [Bool.and_eq_true, decide_eq_true_eq]
  constructor
  · rintro ⟨⟨hnear, hzero⟩, hslow⟩
    exact ⟨hzero, (hdistance hzero).mp hnear, hslow⟩
  · rintro ⟨hzero, hnear, hslow⟩
    exact ⟨⟨(hdistance hzero).mpr hnear, hzero⟩, hslow⟩

theorem abs_place (s : State) (target : Nat) (h : 0 ≤ aheadOf s target) :
    ((s.filmPlace - target).natAbs : Int) = aheadOf s target := by
  unfold aheadOf at *
  split at h
  · rw [if_pos ‹_›]
    omega
  · rw [if_neg ‹_›]
    omega

/-- At or short of the stopping point the film slows down only where that point is the target. -/
theorem decelerates_iff_of_ahead {s : State} {target a : Nat} (h : 0 ≤ aheadOf s target)
    (hstop : (100 * s.tc.speed ^ 2 : Int) ≤ aheadOf s target * (2 * a)) :
    s.decelerates target a = true ↔ (100 * s.tc.speed ^ 2 : Int) = aheadOf s target * (2 * a) := by
  unfold State.decelerates
  rw [decide_eq_true_eq, ← Int.ofNat_le, Int.natCast_mul, abs_place s target h, Int.natCast_mul, Int.natCast_mul, Int.natCast_pow]
  exact ⟨fun hle => Int.le_antisymm hstop hle, fun heq => Int.le_of_eq heq.symm⟩

theorem onTheMove_eq (s : State) (target : Nat) (clamped : Bool) (limit : Nat) :
    onTheMove s target clamped limit =
      if goesOn s target = true ∧ s.tc.underrun = 0 ∧ aheadOf s target ≤ 4 ∧ s.tc.speed ≤ 5 then
        atOnce s (hostSeek s.tc.settings target clamped limit)
      else
        { placed s with
          tc :=
            { s.tc with
              state := .seeking, motion := some (.seek (hostSeek s.tc.settings target clamped limit)),
              phase :=
                if goesOn s target = false then .reversal
                else if (100 * s.tc.speed ^ 2 : Int) = aheadOf s target * (2 * s.tc.settings.acceleration) then
                  (if s.tc.speed ≤ 5 then .creep else .decelerate)
                else .travel,
              travel := s.tc.direction,
              stopRate := if goesOn s target then s.tc.stopRate else s.tc.settings.acceleration },
          tu := inLoop s.reportedTension s.tu, rs := motionNoted s.rs } := rfl

/-- A host seek taken on the move, under way in the direction of travel. -/
def travelling (s : State) (m : Seek) : State :=
  (seekEntered (placed s) m).modTc fun c => { c with phase := .travel, travel := s.tc.direction }

/-- A host seek taken on the move, the film coming to rest before it turns. -/
def turning (s : State) (m : Seek) : State :=
  (seekEntered (placed s) m).modTc fun c =>
    { c with phase := .reversal, travel := s.tc.direction, stopRate := s.tc.settings.acceleration }

theorem startSeek_moving {s : State} (hr : resting s.tc = false) (hd : s.tc.direction ≠ .none) (target : Nat)
    (clamped : Bool) (limit : Nat) :
    (placed s).startSeek .host target clamped limit =
      if goesOn s target = true then (travelling s (hostSeek s.tc.settings target clamped limit)).motionTests
      else turning s (hostSeek s.tc.settings target clamped limit) := by
  have hrest : (placed s).atRest = false := by rw [atRest_eq_resting]; exact hr
  have hbeyond : (placed s).beyondStop target (placed s).tc.settings.acceleration = goesOn s target :=
    beyondStop_eq (s := placed s) hd target
  unfold State.startSeek
  rw [hrest, noteMotion_eq, enter_seeking]
  show (if (placed s).beyondStop target (placed s).tc.settings.acceleration = true then _ else _) = _
  rw [hbeyond]
  rfl

theorem seekEntered_tu {s : State} (hd : s.tc.direction ≠ .none) (m : Seek) :
    (seekEntered (placed s) m).tu = inLoop s.reportedTension s.tu := if_neg hd

/-- A host seek taken on the move that must come to rest first (R6). -/
theorem turning_settleMotion {s : State} (hr : resting s.tc = false) (hd : s.tc.direction ≠ .none) {target : Nat}
    (hon : goesOn s target = false) (clamped : Bool) (limit : Nat) :
    (turning s (hostSeek s.tc.settings target clamped limit)).settleMotion = onTheMove s target clamped limit := by
  have hphase : (turning s (hostSeek s.tc.settings target clamped limit)).tc.phase ≠ .dwell :=
    show Phase.reversal ≠ .dwell by decide
  have hrest : resting (turning s (hostSeek s.tc.settings target clamped limit)).tc = false := hr
  rw [settleMotion_running hrest hphase, onTheMove_eq, hon, if_neg (fun h => Bool.false_ne_true h.1),
    ← seekEntered_tu hd (hostSeek s.tc.settings target clamped limit)]
  rfl

/-- A host seek taken on the move that goes on (R5, R7). -/
theorem travelling_settleMotion {s : State} (hmode : s.rs.mode ≠ .auto) (hd : s.tc.direction ≠ .none) {target : Nat}
    (hon : goesOn s target = true) (clamped : Bool) (limit : Nat) :
    (travelling s (hostSeek s.tc.settings target clamped limit)).motionTests.settleMotion =
      onTheMove s target clamped limit := by
  obtain ⟨hahead, hstop⟩ := of_decide_eq_true hon
  generalize hm : hostSeek s.tc.settings target clamped limit = m
  have htarget : m.target = target := by rw [← hm]; rfl
  have haccel : m.accel = s.tc.settings.acceleration := by rw [← hm]; rfl
  have hhost : m.requester = .host := by rw [← hm]; rfl
  have hcount : m.corrections = 0 := by rw [← hm]; rfl
  have harrived : (travelling s m).arrived m.target = true ↔
      s.tc.underrun = 0 ∧ aheadOf s target ≤ 4 ∧ s.tc.speed ≤ 5 := by
    rw [htarget]
    exact arrived_iff_of_ahead (s := travelling s m) hahead
  have hslows : (travelling s m).decelerates m.target m.accel = true ↔
      (100 * s.tc.speed ^ 2 : Int) = aheadOf s target * (2 * s.tc.settings.acceleration) := by
    rw [htarget, haccel]
    exact decelerates_iff_of_ahead (s := travelling s m) hahead hstop
  have hover : (travelling s m).overshot m.target = false := by
    rw [htarget]
    exact overshot_of_ahead (s := travelling s m) rfl hahead
  rw [motionTests_onward rfl rfl hover, onTheMove_eq, hon, hm]
  by_cases hnear : s.tc.underrun = 0 ∧ aheadOf s target ≤ 4 ∧ s.tc.speed ≤ 5
  · have harrive : (travelling s m).arrive = (seekEntered (placed s) m).arrive := by
      rw [arrive_eq, arrive_eq]
      rfl
    rw [if_pos (harrived.mpr hnear), if_pos ⟨rfl, hnear⟩, harrive]
    exact seekEntered_arrive hhost hcount hmode
  · rw [if_neg (fun h => hnear (harrived.mp h)), if_neg (not_and_of_not_right _ hnear), ← seekEntered_tu hd m]
    simp only [hslows]
    rw [settleMotion_on (m := m)]
    · rfl
    · rfl
    refine .inl ?_
    show Phase.underway (if _ then (if _ then _ else _) else _) = true
    (repeat' split) <;> rfl

theorem startSeek_host {s : State} (hmode : s.rs.mode ≠ .auto) (target : Nat) (clamped : Bool) (limit : Nat) :
    ((placed s).startSeek .host target clamped limit).settleMotion = seekTaken s target clamped limit := by
  rw [seekTaken]
  by_cases hr : resting s.tc = true
  · rw [if_pos hr]
    exact startSeek_fromRest hmode hr target clamped limit
  · rw [if_neg hr]
    rw [Bool.not_eq_true] at hr
    have hd : s.tc.direction ≠ .none := fun h => by simp [resting, h] at hr
    cases hon : goesOn s target with
    | false =>
      rw [startSeek_moving hr hd, hon]
      exact turning_settleMotion hr hd hon clamped limit
    | true =>
      rw [startSeek_moving hr hd, hon]
      exact travelling_settleMotion hmode hd hon clamped limit

/-! ### The commands -/

theorem firstRefusal_seekChecks (s : State) (b : Bool) : firstRefusal (seekChecks s b) = seekRefusal s b := by
  unfold seekChecks seekRefusal
  have hprobe : s.fu.probe.isSome = decide (s.fu.probe ≠ none) := by cases s.fu.probe <;> rfl
  simp only [firstRefusal, hprobe, Bool.or_eq_true, decide_eq_true_eq, or_assoc]

theorem seekBound_eq (s : State) : s.seekBound = highestTarget s := by
  unfold State.seekBound State.guardEnd highestTarget
  cases s.mountedEntry.rollLength <;> rfl

theorem seekReplaced_alone {s : State} (h : ∀ m, s.tc.motion = some (.seek m) → m.requester = .host) :
    s.seekReplaced = s := by
  unfold State.seekReplaced
  split
  · rename_i m hm
    rw [h m hm]
  · rfl

theorem seekRefusal_manual {s : State} {b : Bool} (h : seekRefusal s b = none) : s.rs.mode ≠ .auto := by
  intro hauto
  rw [seekRefusal, if_pos hauto] at h
  exact nomatch h

/-- A host seek that nothing refuses and that takes no other requester's seek away (R6, R10). -/
theorem hostSeek_taken {s : State} (hmode : s.rs.mode ≠ .auto)
    (halone : ∀ m, s.tc.motion = some (.seek m) → m.requester = .host) {dest : Int} {target : Nat} {flag : Bool}
    (hclamp : s.clampTarget dest = (target, flag)) (limit : Nat) :
    (placed s).hostSeek dest limit =
      ⟨seekTaken s target flag limit, .accepted, u32 target ++ [if flag then 1 else 0]⟩ := by
  have hflag : encFlag flag = [if flag then 1 else 0] := by cases flag <;> rfl
  have hplaced : (placed s).clampTarget dest = (target, flag) := hclamp
  unfold State.hostSeek
  rw [hplaced, seekReplaced_alone (s := placed s) halone, ← hflag]
  exact congrArg (fun t => Answer.mk t _ _) (startSeek_host hmode target flag limit)

theorem clampTarget_position (s : State) (p : Nat) :
    s.clampTarget p = (min p (highestTarget s), decide (highestTarget s < p)) := by
  unfold State.clampTarget
  rw [seekBound_eq, if_neg (by omega)]
  by_cases hbeyond : highestTarget s < p
  · rw [if_pos (by omega), decide_eq_true hbeyond, Nat.min_eq_right (by omega)]
  · rw [if_neg (by omega), decide_eq_false hbeyond, Nat.min_eq_left (by omega)]
    rfl

theorem clampTarget_eq (s : State) (dest : Int) :
    s.clampTarget dest =
      (if dest < 0 then 0 else if (highestTarget s : Int) < dest then highestTarget s else dest.toNat,
        decide (dest < 0 ∨ (highestTarget s : Int) < dest)) := by
  unfold State.clampTarget
  rw [seekBound_eq]
  by_cases hlow : dest < 0
  · simp [hlow]
  · by_cases hhigh : (highestTarget s : Int) < dest
    · simp [hlow, hhigh]
    · simp [hlow, hhigh]

/-- JOG's range check (R19, log 13). -/
theorem jogRange_eq (d : Int) (sp : Option JogSpeed) :
    (decide (maxPosition < d.natAbs) || decide (d = 0) || sp.isNone) =
      decide (d = 0 ∨ d < -16777215 ∨ 16777215 < d ∨ sp = none) := by
  have hnone : sp.isNone = decide (sp = none) := by cases sp <;> rfl
  rw [hnone, ← Bool.decide_or, ← Bool.decide_or, decide_eq_decide]
  have hfar : maxPosition < d.natAbs ↔ d < -16777215 ∨ 16777215 < d := by
    unfold maxPosition
    omega
  rw [hfar]
  constructor
  · rintro ((h | h) | h)
    · exact .inr (h.imp_right .inl)
    · exact .inl h
    · exact .inr (.inr (.inr h))
  · rintro (h | h | h | h)
    · exact .inl (.inr h)
    · exact .inl (.inl (.inl h))
    · exact .inl (.inl (.inr h))
    · exact .inr h

end Sys2Proof.Machine

namespace Sys2Proof.Proofs.Seeks

open Sys2Proof.Machine Sys2Proof.Expect

/-- Settles O15: the seek is followed from rest and on the move to the states that `fromRest` and `onTheMove` write out. -/
theorem hostSeeksAreTaken : Obligations.HostSeeksAreTaken := by
  intro tag s hs alone
  refine ⟨fun p => ?_, fun d sp => ?_⟩
  · intro refusal
    have howner : ownerOf (.seekPosition tag p) (placed s) =
        match refusal with
        | some r => (placed s).refuse r
        | none => (placed s).hostSeek p s.tc.settings.seekSpeed := by
      show ownSeekPosition p (placed s) = _
      rw [ownSeekPosition, checked_eq, firstRefusal_seekChecks]
      rfl
    refine ⟨fun r hr => exec_of_answer rfl hs ?_, fun hnone halone => exec_of_answer rfl hs ?_⟩
    · rw [howner, hr]
      rfl
    · rw [howner, hnone]
      exact hostSeek_taken (seekRefusal_manual hnone) halone (clampTarget_position s p) _
  · intro refusal
    have howner : ownerOf (.jog tag d sp) (placed s) =
        match refusal with
        | some r => (placed s).refuse r
        | none => (placed s).hostSeek (s.tc.position + d) (jogLimit s (sp.getD .creep)) := by
      show ownJog d sp (placed s) = _
      rw [ownJog, checked_eq, firstRefusal_seekChecks, jogRange_eq]
      rfl
    refine ⟨fun r hr => exec_of_answer rfl hs ?_, fun hnone halone => exec_of_answer rfl hs ?_⟩
    · rw [howner, hr]
      rfl
    · have hlimit : jogLimit s (sp.getD .creep) = if sp = some .index then s.tc.settings.indexSpeed else 5 := by
        rcases sp with _ | _ | _ <;> rfl
      rw [howner, hnone, ← hlimit]
      exact hostSeek_taken (seekRefusal_manual hnone) halone (clampTarget_eq s _) _

end Sys2Proof.Proofs.Seeks

/-! What moves the film and what does not: the operations that leave TC and the gate sensor as they are, and those that leave
P, the leader underrun and THREADED as they are. Only ENCODER_TICK's own count and the end of a rewind change these. -/

namespace Sys2Proof.Machine

/-- TC's state and the gate sensor's level. -/
def State.film (s : State) : Tc × Bool := (s.tc, s.gateFilm)

theorem film_eq_iff {s t : State} : t.film = s.film ↔ t.tc = s.tc ∧ t.gateFilm = s.gateFilm := Prod.mk.injEq .. ▸ Iff.rfl

/-- Where the film stands: P, the leader underrun, THREADED, and the gate sensor's level. -/
def State.stand (s : State) : Nat × Nat × Bool × Bool := (s.tc.position, s.tc.underrun, s.tc.threaded, s.gateFilm)

theorem stand_of_film {s t : State} (h : t.film = s.film) : t.stand = s.stand := by
  obtain ⟨htc, hgate⟩ := film_eq_iff.mp h
  rw [State.stand, State.stand, htc, hgate]

/-! ### Blocks other than TC -/

@[simp] theorem modTu_film (s : State) (f : Tu → Tu) : (s.modTu f).film = s.film := (rfl)
@[simp] theorem modCu_film (s : State) (f : Cu → Cu) : (s.modCu f).film = s.film := (rfl)
@[simp] theorem modIx_film (s : State) (f : Ix → Ix) : (s.modIx f).film = s.film := (rfl)
@[simp] theorem modFu_film (s : State) (f : Fu → Fu) : (s.modFu f).film = s.film := (rfl)
@[simp] theorem modCp_film (s : State) (f : Cp → Cp) : (s.modCp f).film = s.film := (rfl)
@[simp] theorem modRs_film (s : State) (f : Rs → Rs) : (s.modRs f).film = s.film := (rfl)
@[simp] theorem modDc_film (s : State) (f : Dc → Dc) : (s.modDc f).film = s.film := (rfl)
@[simp] theorem modLi_film (s : State) (f : Li → Li) : (s.modLi f).film = s.film := (rfl)
@[simp] theorem modFm_film (s : State) (f : Fm → Fm) : (s.modFm f).film = s.film := (rfl)
@[simp] theorem spendFree_film (s : State) : s.spendFree.film = s.film := (rfl)

@[simp] theorem onlyIf_film {s : State} {c : Bool} {f : State → State} (hf : ∀ t, (f t).film = t.film) :
    (s.onlyIf c f).film = s.film := by
  unfold State.onlyIf
  split
  · exact hf s
  · rfl

@[simp] theorem withSome_film {α : Type} {s : State} {x : Option α} {f : State → α → State}
    (hf : ∀ t a, (f t a).film = t.film) : (s.withSome x f).film = s.film := by
  cases x with
  | none => rfl
  | some a => exact hf s a

@[simp] theorem each_film {α : Type} {s : State} {xs : List α} {f : State → α → State}
    (hf : ∀ t a, (f t a).film = t.film) : (s.each xs f).film = s.film := by
  unfold State.each
  induction xs generalizing s with
  | nil => rfl
  | cons x rest ih => exact ih.trans (hf s x)

/-! ### Notices, faults, the directory, TU -/

@[simp] theorem post_film (s : State) (src : Source) (d : NoticeDetail) : (s.post src d).film = s.film := by
  unfold State.post
  (repeat' split) <;> simp

@[simp] theorem offerLog_film (s : State) (r : LogRecord) : (s.offerLog r).film = s.film := by
  unfold State.offerLog
  (repeat' split) <;> simp

@[simp] theorem postFault_film (s : State) (c : FaultCode) (k : FaultClass) (d : FaultDetail) : (s.postFault c k d).film = s.film := by
  unfold State.postFault
  (repeat' split) <;> simp

@[simp] theorem faultOccur_film (s : State) (c : FaultCode) (k : FaultClass) (d : FaultDetail) : (s.faultOccur c k d).film = s.film := by simp [State.faultOccur]

@[simp] theorem modEntry_film (s : State) (n : Nat) (f : Entry → Entry) : (s.modEntry n f).film = s.film := (rfl)

@[simp] theorem modMounted_film (s : State) (f : Entry → Entry) : (s.modMounted f).film = s.film := by simp [State.modMounted]

@[simp] theorem setSlotState_film (s : State) (n : Nat) (st : SlotState) : (s.setSlotState n st).film = s.film := by simp [State.setSlotState]

@[simp] theorem loopFollow_film (s : State) : (s.loopFollow).film = s.film := by
  unfold State.loopFollow
  (repeat' split) <;> simp

@[simp] theorem slackFollow_film (s : State) : (s.slackFollow).film = s.film := by
  unfold State.slackFollow
  (repeat' split) <;> simp

@[simp] theorem calibrationFollow_film (s : State) : (s.calibrationFollow).film = s.film := by
  unfold State.calibrationFollow
  (repeat' split) <;> simp

@[simp] theorem tensionFollow_film (s : State) : (s.tensionFollow).film = s.film := by simp [State.tensionFollow]

@[simp] theorem offerPlanning_film (s : State) : (s.offerPlanning).film = s.film := by
  unfold State.offerPlanning
  (repeat' split) <;> simp

/-! ### RS's queue and work list -/

@[simp] theorem modRequest_film (s : State) (n : Nat) (f : Request → Request) : (s.modRequest n f).film = s.film := (rfl)

@[simp] theorem removeRequest_film (s : State) (n : Nat) : (s.removeRequest n).film = s.film := (rfl)

@[simp] theorem failRequest_film (s : State) (r : Request) (w : FailReason) : (s.failRequest r w).film = s.film := by simp [State.failRequest]

@[simp] theorem placeAgain_film (s : State) (r : Request) : (s.placeAgain r).film = s.film := by
  unfold State.placeAgain
  (repeat' split) <;> simp

@[simp] theorem postRollWanted_film (s : State) (l : Label) : (s.postRollWanted l).film = s.film := by simp [State.postRollWanted]

@[simp] theorem rollGone_film (s : State) (n : Nat) (l : Label) : (s.rollGone n l).film = s.film := by simp [State.rollGone]

@[simp] theorem modPass_film (s : State) (f : RsPass → RsPass) : (s.modPass f).film = s.film := (rfl)

@[simp] theorem passEnd_film (s : State) (o : PassOutcome) : (s.passEnd o).film = s.film := by
  unfold State.passEnd
  refine withSome_film fun t p => ?_
  dsimp only
  split <;> simp

@[simp] theorem jobReport_film (s : State) (n : Nat) (r : JobReport) : (s.jobReport n r).film = s.film := by
  unfold State.jobReport
  refine (withSome_film fun t q => ?_).trans (modPass_film s _)
  cases r with
  | misframe => dsimp only; split <;> simp
  | capturing => simp
  | captured => simp
  | dropped => simp

@[simp] theorem freeSlot_film (s : State) (n : Nat) : (s.freeSlot n).film = s.film := by simp [State.freeSlot]

@[simp] theorem placeItem_film (s : State) (p : Nat) : (s.placeItem p).film = s.film := by
  unfold State.placeItem
  (repeat' split) <;> simp

@[simp] theorem itemLeft_film (s : State) : (s.itemLeft).film = s.film := by simp [State.itemLeft]

@[simp] theorem removeItem_film (s : State) (p : Nat) : (s.removeItem p).film = s.film := by
  unfold State.removeItem
  (repeat' split) <;> simp

@[simp] theorem withdraw_film (s : State) (p : Nat) : (s.withdraw p).film = s.film := by
  unfold State.withdraw
  (repeat' split) <;> simp

@[simp] theorem removeIndexItem_film (s : State) : (s.removeIndexItem).film = s.film := (rfl)

@[simp] theorem placeSlotAgain_film (s : State) (n : Nat) : (s.placeSlotAgain n).film = s.film := by simp [State.placeSlotAgain]

/-! ### Focus -/

@[simp] theorem commandLens_film (s : State) (l : Nat) : (s.commandLens l).film = s.film := (rfl)

@[simp] theorem stopLens_film (s : State) : (s.stopLens).film = s.film := (rfl)

@[simp] theorem emptyMap_film (s : State) : (s.emptyMap).film = s.film := by simp [State.emptyMap]

@[simp] theorem reportLag_film (s : State) (w : Nat) : (s.reportLag w).film = s.film := by
  unfold State.reportLag
  (repeat' split) <;> simp

@[simp] theorem frameScored_film (s : State) (p score : Nat) (b : Bool) : (s.frameScored p score b).film = s.film := by
  unfold State.frameScored
  split
  · rfl
  · refine withSome_film fun t e => ?_
    split <;> simp

@[simp] theorem trackLens_film (s : State) : (s.trackLens).film = s.film := by
  unfold State.trackLens
  (repeat' split) <;> simp

@[simp] theorem endTracking_film (s : State) : (s.endTracking).film = s.film := (rfl)

@[simp] theorem commandPoint_film (s : State) : (s.commandPoint).film = s.film := by simp [State.commandPoint]

@[simp] theorem probeLit_film (s : State) : (s.probeLit).film = s.film := by
  unfold State.probeLit
  (repeat' split) <;> simp

/-! ### Capture -/

@[simp] theorem lampForProbe_film (s : State) : (s.lampForProbe).film = s.film := by
  unfold State.lampForProbe
  dsimp only
  (repeat' split) <;> simp

@[simp] theorem releaseListLamp_film (s : State) : (s.releaseListLamp).film = s.film := (rfl)

@[simp] theorem modSlot_film (s : State) (n : Nat) (f : StoreSlot → StoreSlot) : (s.modSlot n f).film = s.film := (rfl)

@[simp] theorem modJob_film (s : State) (n : Nat) (f : Job → Job) : (s.modJob n f).film = s.film := (rfl)

@[simp] theorem dropJobs_film (s : State) : (s.dropJobs).film = s.film := by simp [State.dropJobs]

@[simp] theorem endList_film (s : State) : (s.endList).film = s.film := by
  unfold State.endList
  (repeat' split) <;> simp

@[simp] theorem startWindow_film (s : State) (j : Job) : (s.startWindow j).film = s.film := by simp [State.startWindow]

@[simp] theorem endWindow_film (s : State) (j : Job) : (s.endWindow j).film = s.film := by simp [State.endWindow]

@[simp] theorem takeLine_film (s : State) (j : Job) (l : List Byte) : (s.takeLine j l).film = s.film := by
  unfold State.takeLine
  dsimp only
  split <;> simp

/-! ### Index -/

@[simp] theorem modTracker_film (s : State) (f : Tracker → Tracker) : (s.modTracker f).film = s.film := (rfl)

@[simp] theorem modIndexPass_film (s : State) (f : IndexPass → IndexPass) : (s.modIndexPass f).film = s.film := (rfl)

@[simp] theorem modSegment_film (s : State) (n : Nat) (f : Segment → Segment) : (s.modSegment n f).film = s.film := (rfl)

@[simp] theorem loseTrack_film (s : State) : (s.loseTrack).film = s.film := (rfl)

@[simp] theorem reckon_film (s : State) : (s.reckon).film = s.film := by
  unfold State.reckon
  (repeat' split) <;> simp

@[simp] theorem returnToZero_film (s : State) : (s.returnToZero).film = s.film := (rfl)

@[simp] theorem gapTest_film (s : State) : (s.gapTest).film = s.film := by
  unfold State.gapTest
  (repeat' split) <;> simp

@[simp] theorem installIndex_film (s : State) (g : List Segment) (l : List Landmark) (q : Option Nat) : (s.installIndex g l q).film = s.film := (rfl)

@[simp] theorem writeIndex_film (s : State) (st : IndexState) (n : Option Nat) : (s.writeIndex st n).film = s.film := by simp [State.writeIndex]

@[simp] theorem closeAtTrailer_film (s : State) (p : Nat) : (s.closeAtTrailer p).film = s.film := by
  unfold State.closeAtTrailer
  (repeat' split) <;> simp

@[simp] theorem postIndexDone_film (s : State) (o : IndexOutcome) : (s.postIndexDone o).film = s.film := by simp [State.postIndexDone]

@[simp] theorem ixTrailer_film (s : State) : (s.ixTrailer).film = s.film := (rfl)

/-! ### Cartridges and probes -/

@[simp] theorem removeCartridge_film (s : State) (n : Nat) : (s.removeCartridge n).film = s.film := by simp [State.removeCartridge]

@[simp] theorem presenceCheck_film (s : State) (n : Nat) : (s.presenceCheck n).film = s.film := by
  unfold State.presenceCheck
  (repeat' split) <;> simp

@[simp] theorem postUnmountDone_film (s : State) (n : Nat) (o : UnmountOutcome) : (s.postUnmountDone n o).film = s.film := by simp [State.postUnmountDone]

@[simp] theorem beginProbe_film (s : State) (r : Requester) (a b c : Nat) : (s.beginProbe r a b c).film = s.film := by simp [State.beginProbe]

@[simp] theorem orderProbe_film (s : State) (p : Nat) : (s.orderProbe p).film = s.film := by simp [State.orderProbe]

/-! ### Reports that RS takes -/

@[simp] theorem rsSeekOutcome_film (s : State) (o : SeekOutcome) : (s.rsSeekOutcome o).film = s.film := by
  unfold State.rsSeekOutcome
  refine withSome_film fun t p => ?_
  (repeat' split) <;> simp

@[simp] theorem rsRunEnd_film (s : State) (w : RunEnd) : (s.rsRunEnd w).film = s.film := by
  unfold State.rsRunEnd
  (repeat' split) <;> simp

@[simp] theorem rsIndexEnd_film (s : State) (r : IndexReport) : (s.rsIndexEnd r).film = s.film := by
  unfold State.rsIndexEnd
  refine withSome_film fun t p => ?_
  dsimp only
  split
  · simp
  · rfl

@[simp] theorem settleIndex_film (s : State) (p : IndexPass) (how : IndexEnd) : (s.settleIndex p how).1.film = s.film := by
  unfold State.settleIndex
  dsimp only
  (repeat' split) <;> simp

@[simp] theorem endIndexPass_film (s : State) (how : IndexEnd) : (s.endIndexPass how).film = s.film := by
  unfold State.endIndexPass
  refine withSome_film fun t p => ?_
  dsimp only
  split <;> simp

/-! ### TC's motions: where the film stands -/

@[simp] theorem onlyIf_stand {s : State} {c : Bool} {f : State → State} (hf : ∀ t, (f t).stand = t.stand) :
    (s.onlyIf c f).stand = s.stand := by
  unfold State.onlyIf
  split
  · exact hf s
  · rfl

@[simp] theorem withSome_stand {α : Type} {s : State} {x : Option α} {f : State → α → State}
    (hf : ∀ t a, (f t a).stand = t.stand) : (s.withSome x f).stand = s.stand := by
  cases x with
  | none => rfl
  | some a => exact hf s a

@[simp] theorem each_stand {α : Type} {s : State} {xs : List α} {f : State → α → State}
    (hf : ∀ t a, (f t a).stand = t.stand) : (s.each xs f).stand = s.stand := by
  unfold State.each
  induction xs generalizing s with
  | nil => rfl
  | cons x rest ih => exact ih.trans (hf s x)

/-- A change of TC that leaves P, the underrun and THREADED alone. -/
theorem modTc_stand {s : State} {f : Tc → Tc}
    (h : (f s.tc).position = s.tc.position ∧ (f s.tc).underrun = s.tc.underrun ∧ (f s.tc).threaded = s.tc.threaded) :
    (s.modTc f).stand = s.stand := by
  obtain ⟨hp, hu, ht⟩ := h
  show ((f s.tc).position, (f s.tc).underrun, (f s.tc).threaded, s.gateFilm) = _
  rw [hp, hu, ht]
  rfl

theorem enter_stand (s : State) (st : TransportState) : (s.enter st).stand = s.stand := by
  have hfollow : ((s.modTc fun c => { c with state := st }).tensionFollow).stand = s.stand :=
    (stand_of_film (tensionFollow_film _)).trans (modTc_stand ⟨rfl, rfl, rfl⟩)
  unfold State.enter
  dsimp only
  split
  · exact (stand_of_film ((offerPlanning_film _).trans (modCp_film _ _))).trans hfollow
  · exact (stand_of_film (offerPlanning_film _)).trans hfollow
  · exact hfollow

theorem noteMotion_enter_stand (s : State) (st : TransportState) : (s.noteMotion.enter st).stand = s.stand :=
  (enter_stand _ _).trans (stand_of_film (modPass_film _ _))

theorem noMotion_enter_stand (s : State) (st : TransportState) : ((s.modTc Tc.noMotion).enter st).stand = s.stand :=
  (enter_stand _ _).trans (modTc_stand ⟨rfl, rfl, rfl⟩)

theorem arrive_stand (s : State) : s.arrive.stand = s.stand :=
  (stand_of_film (slackFollow_film _)).trans (modTc_stand ⟨rfl, rfl, rfl⟩)

theorem depart_stand (s : State) (m : Seek) : (s.depart m).stand = s.stand := by
  unfold State.depart
  dsimp only
  split
  · exact (arrive_stand _).trans (modTc_stand ⟨rfl, rfl, rfl⟩)
  · exact (modTc_stand ⟨rfl, rfl, rfl⟩).trans (modTc_stand ⟨rfl, rfl, rfl⟩)

theorem startRun_stand (s : State) (req : Requester) (purpose : RunPurpose) (speed : Nat) (e : Option Nat) :
    (s.startRun req purpose speed e).stand = s.stand :=
  (modTc_stand ⟨rfl, rfl, rfl⟩).trans (noteMotion_enter_stand _ _)

theorem endRun_stand (s : State) (r : Run) (why : RunEnd) (ph : Phase) (rate : Nat) :
    (s.endRun r why ph rate).stand = s.stand := modTc_stand ⟨rfl, rfl, rfl⟩

theorem finishRun_stand (s : State) : s.finishRun.stand = s.stand := by
  unfold State.finishRun
  split
  · exact endRun_stand s _ _ _ _
  · rfl

theorem startThreading_stand (s : State) : s.startThreading.stand = s.stand :=
  (modTc_stand ⟨rfl, rfl, rfl⟩).trans (noteMotion_enter_stand _ _)

theorem overshoot_stand (s : State) (m : Seek) : (s.overshoot m).stand = s.stand := modTc_stand ⟨rfl, rfl, rfl⟩

theorem motionTests_stand (s : State) : s.motionTests.stand = s.stand := by
  unfold State.motionTests
  split
  · split
    · split
      · exact arrive_stand s
      · split
        · exact overshoot_stand s _
        · exact modTc_stand ⟨rfl, rfl, rfl⟩
    · rfl
  · split
    · split
      · exact endRun_stand s _ _ _ _
      · rfl
    · rfl
  · exact modTc_stand ⟨rfl, rfl, rfl⟩
  · rfl

theorem startSeek_stand (s : State) (req : Requester) (target : Nat) (b : Bool) (limit : Nat) :
    (s.startSeek req target b limit).stand = s.stand := by
  unfold State.startSeek
  dsimp only
  split
  · exact (depart_stand _ _).trans (noteMotion_enter_stand _ _)
  · split
    · exact ((motionTests_stand _).trans (modTc_stand ⟨rfl, rfl, rfl⟩)).trans (noteMotion_enter_stand _ _)
    · exact (modTc_stand ⟨rfl, rfl, rfl⟩).trans (noteMotion_enter_stand _ _)

theorem orderSeek_stand (s : State) (req : Requester) (target : Nat) : (s.orderSeek req target).stand = s.stand :=
  startSeek_stand _ _ _ _ _

/-! ### IX and CP as the film moves -/

theorem failExtension_stand (s : State) : s.failExtension.stand = s.stand := by
  unfold State.failExtension
  split
  · split
    · exact (finishRun_stand _).trans (stand_of_film (modIndexPass_film _ _))
    · rfl
  · rfl

theorem extensionTest_stand (s : State) : s.extensionTest.stand = s.stand := by
  unfold State.extensionTest
  split
  · split
    · refine withSome_stand fun t g => ?_
      split
      · exact (failExtension_stand _).trans (stand_of_film (loseTrack_film _))
      · rfl
    · rfl
  · rfl

theorem indexTick_stand (s : State) (moved zero : Bool) : (s.indexTick moved zero).stand = s.stand := by
  unfold State.indexTick
  refine (extensionTest_stand _).trans (stand_of_film ?_)
  simp

theorem jobAt_film (s : State) (l : List Byte) (n : Nat) : (s.jobAt l n).film = s.film := by
  unfold State.jobAt
  refine withSome_film fun t j => ?_
  split
  · exact (withSome_film fun u k => takeLine_film _ _ _).trans (startWindow_film _ _)
  · split
    · exact takeLine_film _ _ _
    · rfl

theorem captureLine_film (s : State) (px : List Byte) : (s.captureLine px).film = s.film := by
  unfold State.captureLine
  split
  · exact each_film fun t n => jobAt_film _ _ _
  · rfl

/-! ### Mounts and index passes -/

theorem startThreader_stand (s : State) : s.startThreader.stand = s.stand :=
  (stand_of_film (tensionFollow_film _)).trans ((modTc_stand ⟨rfl, rfl, rfl⟩).trans (stand_of_film (modCu_film _ _)))

theorem beginMount_stand (s : State) (req : Requester) (n : Nat) : (s.beginMount req n).stand = s.stand := by
  have hthreading : ((s.setSlotState n .mounting).modCu fun c =>
      { c with lock := some n, opRequester := some req, gateReported := false }).startThreading.stand = s.stand :=
    (startThreading_stand _).trans (stand_of_film ((modCu_film _ _).trans (setSlotState_film _ _ _)))
  unfold State.beginMount
  dsimp only
  split
  · exact (startThreader_stand _).trans hthreading
  · exact (stand_of_film (modCu_film _ _)).trans hthreading

theorem orderIndexRun_stand (s : State) : s.orderIndexRun.stand = s.stand := by
  unfold State.orderIndexRun
  refine withSome_stand fun t p => ?_
  split
  · exact stand_of_film (endIndexPass_film _ _)
  · refine (startRun_stand _ _ _ _ _).trans (stand_of_film ?_)
    (repeat' split) <;> simp

theorem beginFresh_stand (s : State) (req : Requester) (target : Option Nat) : (s.beginFresh req target).stand = s.stand := by
  unfold State.beginFresh
  dsimp only
  split
  · exact (orderIndexRun_stand _).trans (stand_of_film (by simp))
  · exact (orderSeek_stand _ _ _).trans (stand_of_film (by simp))

theorem ixSeekOutcome_stand (s : State) (o : SeekOutcome) : (s.ixSeekOutcome o).stand = s.stand := by
  unfold State.ixSeekOutcome
  refine withSome_stand fun t p => ?_
  split
  · rfl
  · cases o with
    | arrived => exact orderIndexRun_stand _
    | missed => exact orderIndexRun_stand _
    | stopped => exact stand_of_film (endIndexPass_film _ _)
    | endOfFilm => exact stand_of_film (endIndexPass_film _ _)
    | halted => exact stand_of_film (endIndexPass_film _ _)

theorem ixRunEnd_stand (s : State) (w : RunEnd) : (s.ixRunEnd w).stand = s.stand := by
  have hend (t : State) (h : IndexEnd) : (t.endIndexPass h).stand = t.stand := stand_of_film (endIndexPass_film _ _)
  unfold State.ixRunEnd
  refine withSome_stand fun t p => ?_
  split
  · rfl
  · split
    · exact hend _ _
    · exact hend _ _
    · split
      · split
        · exact beginFresh_stand _ _ _
        · exact hend _ _
      · exact hend _ _

/-! ### The reports that end motions -/

theorem reportSeek_stand (s : State) (m : Seek) (o : SeekOutcome) : (s.reportSeek m o).stand = s.stand := by
  unfold State.reportSeek
  split
  · exact stand_of_film (rsSeekOutcome_film _ _)
  · exact ixSeekOutcome_stand _ _
  · exact stand_of_film (post_film _ _ _)

theorem reportRun_stand (s : State) (e : EndedRun) : (s.reportRun e).stand = s.stand := by
  have hcapture : (if e.purpose = .capture then s.endTracking.endList else s).stand = s.stand := by
    split
    · exact stand_of_film ((endList_film _).trans (endTracking_film _))
    · rfl
  unfold State.reportRun
  dsimp only
  split
  · exact (ixRunEnd_stand _ _).trans hcapture
  · exact (stand_of_film (rsRunEnd_film _ _)).trans hcapture

theorem rsOrderMount_stand (s : State) (n : Nat) : (s.rsOrderMount n).stand = s.stand := by
  unfold State.rsOrderMount
  split
  · exact stand_of_film (passEnd_film _ _)
  · exact (beginMount_stand _ _ _).trans (stand_of_film (modPass_film _ _))

theorem rsUnmountOutcome_stand (s : State) (o : UnmountOutcome) : (s.rsUnmountOutcome o).stand = s.stand := by
  unfold State.rsUnmountOutcome
  split
  · refine withSome_stand fun t p => ?_
    cases o with
    | halted => exact stand_of_film (passEnd_film _ _)
    | stored =>
      dsimp only
      split
      · exact rsOrderMount_stand _ _
      · exact stand_of_film (passEnd_film _ _)
  · rfl

theorem trailerStop_stand (s : State) : s.trailerStop.stand = s.stand := by
  unfold State.trailerStop
  split
  · split
    · exact (reportSeek_stand _ _ _).trans (modTc_stand ⟨rfl, rfl, rfl⟩)
    · exact modTc_stand ⟨rfl, rfl, rfl⟩
  · split
    · exact endRun_stand _ _ _ _ _
    · exact modTc_stand ⟨rfl, rfl, rfl⟩
  · rfl

theorem trailerEffect_stand (s : State) : s.trailerEffect.stand = s.stand := by
  unfold State.trailerEffect
  refine (trailerStop_stand _).trans (stand_of_film ((ixTrailer_film _).trans ?_))
  split <;> simp

theorem trailer_stand (s : State) : s.trailer.stand = s.stand := by
  unfold State.trailer
  split
  · rfl
  · rfl
  · exact trailerEffect_stand s

/-! ### Film that comes to rest -/

theorem endSeek_stand (s : State) (m : Seek) (o : SeekOutcome) : (s.endSeek m o).stand = s.stand :=
  (reportSeek_stand _ _ _).trans (noMotion_enter_stand _ _)

theorem missSeek_stand (s : State) (m : Seek) : (s.missSeek m).stand = s.stand :=
  (reportSeek_stand _ _ _).trans ((stand_of_film (faultOccur_film _ _ _ _)).trans (noMotion_enter_stand _ _))

theorem restFromStop_stand (s : State) : s.restFromStop.stand = s.stand :=
  (withSome_stand reportRun_stand).trans ((enter_stand _ _).trans (modTc_stand ⟨rfl, rfl, rfl⟩))

theorem filmAtRest_stand (s : State) : s.filmAtRest.stand = s.stand := by
  unfold State.filmAtRest
  split
  · exact restFromStop_stand s
  · exact restFromStop_stand s
  · split
    · exact depart_stand _ _
    · rfl
  · split
    · split
      · exact missSeek_stand _ _
      · exact depart_stand _ _
    · rfl
  · rfl

theorem endZeroDwell_stand (s : State) : s.endZeroDwell.stand = s.stand := by
  unfold State.endZeroDwell
  split
  · split
    · exact endSeek_stand _ _ _
    · rfl
  · rfl

theorem settleMotion_stand (s : State) : s.settleMotion.stand = s.stand :=
  (endZeroDwell_stand _).trans (onlyIf_stand filmAtRest_stand)

theorem settleSince_stand (t s : State) : (t.settleSince s).stand = t.stand := onlyIf_stand settleMotion_stand

/-- The end of a rewind leaves P and the underrun 0, and no film threaded (R1, R14). -/
theorem endRewind_stand (s : State) : s.endRewind.stand = (0, 0, false, s.gateFilm) := by
  unfold State.endRewind
  refine (withSome_stand fun t n => ?_).trans ((enter_stand _ _).trans rfl)
  refine (stand_of_film (presenceCheck_film _ _)).trans ?_
  have hreported (u : State) (hu : u.film = t.film) : (u.rsUnmountOutcome .stored).stand = t.stand :=
    (rsUnmountOutcome_stand _ _).trans (stand_of_film hu)
  split
  · exact (stand_of_film (modCu_film _ _)).trans (hreported _ (by simp))
  · exact hreported _ (by simp)

/-! ### A tick (R1) -/

theorem movePosition_forward (c : Tc) :
    ((movePosition .forward (countTick .forward c)).position, (movePosition .forward (countTick .forward c)).underrun) =
      if 0 < c.underrun then (c.position, c.underrun - 1)
      else (if c.position < 16777215 then c.position + 1 else c.position, c.underrun) := by
  by_cases hunder : 0 < c.underrun
  · simp [movePosition, countTick, hunder]
  · by_cases hroom : c.position < 16777215
    · simp [movePosition, countTick, hunder, hroom, maxPosition]
    · simp [movePosition, countTick, hunder, hroom, maxPosition]

theorem movePosition_reverse (c : Tc) :
    ((movePosition .reverse (countTick .reverse c)).position, (movePosition .reverse (countTick .reverse c)).underrun) =
      if 0 < c.position then (c.position - 1, c.underrun) else (c.position, min (c.underrun + 1) 16777215) := by
  by_cases hpos : 0 < c.position
  · simp [movePosition, countTick, hpos]
  · simp [movePosition, countTick, hpos, saturate, maxPosition]

theorem rewinds_of_film {s t : State} (h : t.film = s.film) : Expect.rewinds t = Expect.rewinds s := by
  rw [Expect.rewinds, Expect.rewinds, (film_eq_iff.mp h).1]

theorem rewinds_modTc {s : State} {f : Tc → Tc} (h : (f s.tc).motion = s.tc.motion) :
    Expect.rewinds (s.modTc f) = Expect.rewinds s := by
  rw [Expect.rewinds, Expect.rewinds, modTc_tc, h]

theorem rewinds_finishRun (s : State) : Expect.rewinds s.finishRun = Expect.rewinds s := by
  unfold State.finishRun
  split
  · rename_i r hm
    rw [Expect.rewinds, Expect.rewinds, hm]
    rfl
  · rfl

theorem rewinds_indexTick (s : State) (moved zero : Bool) :
    Expect.rewinds (s.indexTick moved zero) = Expect.rewinds s := by
  have hfail (t : State) : Expect.rewinds t.failExtension = Expect.rewinds t := by
    unfold State.failExtension
    split
    · split
      · exact (rewinds_finishRun _).trans (rewinds_of_film (modIndexPass_film _ _))
      · rfl
    · rfl
  have htest (t : State) : Expect.rewinds t.extensionTest = Expect.rewinds t := by
    unfold State.extensionTest State.withSome
    split
    · split
      · split
        · dsimp only
          split
          · exact (hfail _).trans (rewinds_of_film (loseTrack_film _))
          · rfl
        · rfl
      · rfl
    · rfl
  unfold State.indexTick
  refine (htest _).trans (rewinds_of_film ?_)
  simp

theorem rewinds_motionTests (s : State) : Expect.rewinds s.motionTests = Expect.rewinds s := by
  unfold State.motionTests
  split
  · rename_i m hm
    split
    · split
      · exact (rewinds_of_film (slackFollow_film _)).trans (rewinds_modTc rfl)
      · split
        · simp [Expect.rewinds, State.overshoot, hm]
        · exact rewinds_modTc rfl
    · rfl
  · rename_i r hm
    split
    · split
      · simp [Expect.rewinds, State.endRun, hm]
      · rfl
    · rfl
  · exact rewinds_modTc rfl
  · rfl

theorem rewindAtZero_stand (s : State) :
    s.rewindAtZero.stand =
      if Expect.rewinds s = true ∧ s.tc.position = 0 ∧ s.gateFilm = false then (0, 0, false, s.gateFilm) else s.stand := by
  unfold State.rewindAtZero
  split
  · rename_i m hm
    have hrewinds : Expect.rewinds s = true := by rw [Expect.rewinds, hm]
    rw [hrewinds]
    simp only [true_and]
    split
    · exact endRewind_stand s
    · rfl
  · rename_i hm
    have hrewinds : ¬ Expect.rewinds s = true := by
      unfold Expect.rewinds
      split
      · rename_i m h
        exact (hm m h).elim
      · exact Bool.false_ne_true
    rw [if_neg fun h => hrewinds h.1]

/-- The state of a tick once IX and FU have taken it. -/
def ticked (s : State) (d : TickDirection) : State :=
  let a := s.modTc fun c => movePosition d (countTick d c)
  let moved := decide (a.tc.position ≠ s.tc.position)
  let b := a.onlyIf (saturates d s.tc) State.trailer
  (b.indexTick moved (decide (d = .reverse) && decide (b.tc.position = 0))).onlyIf moved State.trackLens

theorem ticked_stand (s : State) (d : TickDirection) :
    (ticked s d).stand = (s.modTc fun c => movePosition d (countTick d c)).stand :=
  (stand_of_film (onlyIf_film trackLens_film)).trans ((indexTick_stand _ _ _).trans (onlyIf_stand trailer_stand))

theorem tick_forward (s : State) (px : List Byte) :
    s.tick .forward px = ((ticked s .forward).captureLine px).motionTests.settleSince s := rfl

theorem tick_reverse (s : State) (px : List Byte) :
    s.tick .reverse px = (ticked s .reverse).motionTests.rewindAtZero.settleSince s := rfl

theorem rewinds_ticked_reverse (s : State) : Expect.rewinds (ticked s .reverse) = Expect.rewinds s := by
  refine (rewinds_of_film (onlyIf_film trackLens_film)).trans ((rewinds_indexTick _ _ _).trans (rewinds_modTc ?_))
  unfold movePosition
  dsimp only
  split <;> rfl

end Sys2Proof.Machine

namespace Sys2Proof.Proofs.Ticks

open Sys2Proof.Machine Sys2Proof.Expect

/-- Settles O17: after TC's own count only the end of a rewind moves the place. -/
theorem everyTickIsCounted : Obligations.EveryTickIsCounted := by
  intro d pixels s hs p u
  refine ⟨s.tick d pixels, ?_, ?_⟩
  · show execEncoderTick d pixels s = _
    rw [execEncoderTick, whenRunning_running hs]
  have hplace (t : State) (x : Nat × Nat × Bool × Bool) (h : t.stand = x) :
      (t.tc.position, t.tc.underrun) = (x.1, x.2.1) := by
    rw [← h]
    rfl
  cases d with
  | forward =>
    rw [tick_forward]
    refine (hplace _ (s.modTc fun c => movePosition .forward (countTick .forward c)).stand ?_).trans
      (movePosition_forward s.tc)
    rw [settleSince_stand, motionTests_stand, stand_of_film (captureLine_film _ _), ticked_stand]
  | reverse =>
    have hticked := (motionTests_stand (ticked s .reverse)).trans (ticked_stand s .reverse)
    have hgate : (ticked s .reverse).motionTests.gateFilm = s.gateFilm := congrArg (fun x => x.2.2.2) hticked
    have hmoved := (hplace _ _ hticked).trans (movePosition_reverse s.tc)
    have hzero : (ticked s .reverse).motionTests.tc.position = 0 ↔ p ≤ 1 := by
      by_cases hpos : 0 < s.tc.position
      · rw [if_pos hpos] at hmoved
        rw [(Prod.mk.inj hmoved).1]
        omega
      · rw [if_neg hpos] at hmoved
        rw [(Prod.mk.inj hmoved).1]
        omega
    rw [tick_reverse, hplace _ _ ((settleSince_stand _ _).trans (rewindAtZero_stand _)), rewinds_motionTests,
      rewinds_ticked_reverse, hgate]
    by_cases hend : s.gateFilm = false ∧ p ≤ 1 ∧ rewinds s = true
    · rw [if_pos ⟨hend.2.2, hzero.mpr hend.2.1, hend.1⟩]
      exact (if_pos hend).symm
    · rw [if_neg fun h => hend ⟨h.2.2, hzero.mp h.2.1, h.1⟩]
      exact hmoved.trans (if_neg hend).symm

end Sys2Proof.Proofs.Ticks

/-! Film without a motion, the stops, and the ends of seeks (O16, O18, O19, O20). -/

namespace Sys2Proof.Machine

open Expect

/-! ### A tick of idle film (R1, R62) -/

theorem gapTest_of_no_pass {s : State} (h : s.ix.pass = none) : s.gapTest = s := by
  have hfrontier : s.atFrontier = false := by rw [State.atFrontier, h]
  unfold State.gapTest
  split
  · exact if_neg fun hc => by simp [hfrontier] at hc
  · rfl

theorem extensionTest_of_no_pass {s : State} (h : s.ix.pass = none) : s.extensionTest = s := by
  rw [State.extensionTest, h]

/-- IX at a tick without a pass: only the return to the leader start acts. -/
theorem indexTick_idle {s : State} (hpass : s.ix.pass = none) (htrack : s.ix.tracker.state ≠ .reckoning) (moved zero : Bool) :
    s.indexTick moved zero = s.onlyIf zero State.returnToZero := by
  have hpass' : (s.onlyIf zero State.returnToZero).ix.pass = none := by cases zero <;> exact hpass
  have htrack' : decide ((s.onlyIf zero State.returnToZero).ix.tracker.state = .reckoning) = false := by
    cases zero
    · exact decide_eq_false htrack
    · rfl
  unfold State.indexTick
  dsimp only
  rw [htrack', Bool.and_false]
  show ((s.onlyIf zero State.returnToZero).gapTest).extensionTest = _
  rw [gapTest_of_no_pass hpass', extensionTest_of_no_pass hpass']

theorem trackLens_of_not_tracking {s : State} (h : s.fu.tracking = false) : s.trackLens = s := by
  simp [State.trackLens, h]

theorem ticked_idle {s : State} {d : TickDirection} (hpass : s.ix.pass = none) (htrack : s.ix.tracker.state ≠ .reckoning)
    (hlens : s.fu.tracking = false) (hsat : saturates d s.tc = false) :
    ticked s d =
      (s.modTc fun c => movePosition d (countTick d c)).onlyIf
        (decide (d = .reverse) && decide ((movePosition d (countTick d s.tc)).position = 0)) State.returnToZero := by
  unfold ticked
  dsimp only
  rw [hsat]
  show ((s.modTc fun c => movePosition d (countTick d c)).indexTick _ _).onlyIf _ State.trackLens = _
  rw [indexTick_idle (s := s.modTc fun c => movePosition d (countTick d c)) hpass htrack]
  have hstill : ((s.modTc fun c => movePosition d (countTick d c)).onlyIf
      (decide (d = .reverse) && decide ((movePosition d (countTick d s.tc)).position = 0)) State.returnToZero).fu.tracking
        = false := by
    cases (decide (d = .reverse) && decide ((movePosition d (countTick d s.tc)).position = 0)) <;> exact hlens
  unfold State.onlyIf at hstill ⊢
  split
  · exact trackLens_of_not_tracking hstill
  · rfl

theorem motionTests_of_no_motion {s : State} (h : s.tc.motion = none) : s.motionTests = s := by
  rw [State.motionTests, h]

theorem rewindAtZero_of_no_motion {s : State} (h : s.tc.motion = none) : s.rewindAtZero = s := by
  rw [State.rewindAtZero, h]

theorem captureLine_of_not_scanning {s : State} (h : s.tc.state ≠ .scanning) (px : List Byte) : s.captureLine px = s := by
  simp [State.captureLine, State.capturing, h]

theorem movePosition_forward_eq {c : Tc} (h : 0 < c.underrun ∨ c.position < 16777215) :
    movePosition .forward c =
      { c with
        position := if 0 < c.underrun then c.position else c.position + 1, underrun := c.underrun - 1 } := by
  unfold movePosition
  by_cases hunder : 0 < c.underrun
  · simp only [if_pos hunder]
  · have hzero : c.underrun - 1 = c.underrun := by omega
    simp only [if_neg hunder, hzero]
    exact if_pos (h.resolve_left hunder)

theorem movePosition_reverse_eq (c : Tc) :
    movePosition .reverse c =
      { c with
        position := c.position - 1,
        underrun := if 0 < c.position then c.underrun else min (c.underrun + 1) 16777215 } := by
  unfold movePosition
  by_cases hpos : 0 < c.position
  · simp only [if_pos hpos]
  · have hzero : c.position - 1 = c.position := by omega
    simp only [if_neg hpos, hzero]
    rfl

/-! ### The end of a 10 ms (R1) -/

theorem exec_speedWindow {s : State} (hs : s.resetHeld = false) :
    exec .speedWindow s = .next s.newSpeed.slackFollow.speedForTracker.motionTests.settleMotion := by
  show execSpeedWindow s = _
  rw [execSpeedWindow, whenRunning_running hs]

/-- The speed and the direction of the 10 ms that ends. -/
theorem newSpeed_eq (s : State) :
    s.newSpeed =
      { s with
        tc :=
          { s.tc with
            speed := s.tc.windowTicks, direction := if s.tc.phase = .dwell then .none else s.windowDirection,
            windowTicks := 0, windowForward := false, windowReverse := false,
            idleWindows := if s.tc.windowTicks = 0 then min (s.tc.idleWindows + 1) 20 else 0 },
        free := if s.tc.windowForward && s.tc.windowReverse then s.free + 1 else s.free } := by
  unfold State.newSpeed State.onlyIf
  dsimp only
  cases (s.tc.windowForward && s.tc.windowReverse) <;> rfl

theorem slackFollow_eq_ite (s : State) :
    s.slackFollow = { s with tu := if s.filmMoving then s.tu else slackOff s.tu } := by
  cases h : s.filmMoving with
  | false => exact slackFollow_still h
  | true => exact slackFollow_moving h

theorem speedForTracker_of_not_counting {s : State} (h : s.ix.tracker.state ≠ .counting) : s.speedForTracker = s :=
  if_neg fun hc => h hc.1

theorem speedForTracker_of_slow {s : State} (h : s.tc.speed ≤ 1500) : s.speedForTracker = s :=
  if_neg fun hc => absurd hc.2 (Nat.not_lt.mpr h)

theorem settleMotion_of_idle {s : State} (hm : s.tc.motion = none) (hp : s.tc.phase = .idle) : s.settleMotion = s := by
  have hrest : s.filmAtRest = s := by rw [State.filmAtRest, hp]
  unfold State.settleMotion State.onlyIf
  rw [hrest, ite_self, endZeroDwell_of_no_motion hm]

theorem windowDirection_of_no_ticks {s : State} (h : s.tc.windowTicks = 0) : s.windowDirection = .none := if_pos h

theorem windowDirection_of_ticks {s : State} (h : 0 < s.tc.windowTicks) :
    s.windowDirection = .forward ∨ s.windowDirection = .reverse := by
  unfold State.windowDirection
  rw [if_neg (by omega)]
  (repeat' split) <;> simp

theorem windowDirection_one_way {s : State} (h : 0 < s.tc.windowTicks)
    (hone : (s.tc.windowForward && s.tc.windowReverse) = false) :
    s.windowDirection = .forward ↔ s.tc.windowForward = true := by
  unfold State.windowDirection
  rw [if_neg (by omega), hone]
  cases s.tc.windowForward <;> simp

end Sys2Proof.Machine

namespace Sys2Proof.Proofs.Ticks

open Sys2Proof.Machine Sys2Proof.Expect

/-- Settles O18: with nothing in progress a tick is its count and, at P = 0, the armed leader start. -/
theorem tickOfIdleFilm : Obligations.TickOfIdleFilm := by
  intro d pixels s hs hmotion hpass htrack hlens hstate hroom
  show execEncoderTick d pixels s = _
  rw [execEncoderTick, whenRunning_running hs]
  refine congrArg Host.Outcome.next ?_
  cases d with
  | forward =>
    have hsat : saturates .forward s.tc = false := by
      rcases hroom rfl with h | h
      · simp [saturates, Nat.ne_of_gt h]
      · simp [saturates, maxPosition, Nat.not_le.mpr h]
    have hcount := movePosition_forward_eq (c := countTick .forward s.tc) (hroom rfl)
    have hticked : ticked s .forward = s.modTc fun c => movePosition .forward (countTick .forward c) :=
      ticked_idle hpass htrack hlens hsat
    have htc : (s.modTc fun c => movePosition .forward (countTick .forward c)).tc = _ := hcount
    rw [tick_forward, hticked, captureLine_of_not_scanning (by rw [htc]; exact hstate),
      motionTests_of_no_motion (by rw [htc]; exact hmotion), settleSince_same (by rw [htc]; rfl)]
    exact congrArg (fun c => ({ s with tc := c } : State)) hcount
  | reverse =>
    have hcount := movePosition_reverse_eq (countTick .reverse s.tc)
    have hticked := ticked_idle (d := .reverse) hpass htrack hlens rfl
    have htc : (ticked s .reverse).tc = movePosition .reverse (countTick .reverse s.tc) := by
      rw [hticked]
      unfold State.onlyIf
      split <;> rfl
    rw [tick_reverse, motionTests_of_no_motion (by rw [htc, hcount]; exact hmotion),
      rewindAtZero_of_no_motion (by rw [htc, hcount]; exact hmotion), settleSince_same (by rw [htc, hcount]; rfl), hticked,
      hcount]
    have hcounted : (s.modTc fun c => movePosition .reverse (countTick .reverse c)) =
        { s with tc := movePosition .reverse (countTick .reverse s.tc) } := rfl
    rw [hcounted, hcount]
    show State.onlyIf _ (decide (s.tc.position - 1 = 0)) _ = _
    by_cases hzero : s.tc.position ≤ 1
    · rw [decide_eq_true (by omega : s.tc.position - 1 = 0), if_pos hzero]
      rfl
    · rw [decide_eq_false (by omega : s.tc.position - 1 ≠ 0), if_neg hzero]
      rfl

theorem speedIsTheTicksOfTenMilliseconds : SpeedIsTheTicksOfTenMilliseconds := by
  intro s hs hmotion hphase htrack both
  refine ⟨s.windowDirection, ?_, windowDirection_of_no_ticks, windowDirection_of_ticks, windowDirection_one_way⟩
  rw [exec_speedWindow hs, newSpeed_eq, slackFollow_eq_ite, speedForTracker_of_not_counting (by exact htrack),
    motionTests_of_no_motion (by exact hmotion), settleMotion_of_idle (by exact hmotion) (by exact hphase), filmMoving_eq,
    if_neg (by rw [hphase]; decide)]
  simp only [decide_eq_true_eq]
  rfl

theorem filmAtRestIsStopped : FilmAtRestIsStopped := by
  intro s hs hmotion hticks hphase howed hforward hreverse hstate
  let stopping : Tc :=
    { s.tc with
      speed := 0, direction := .none, idleWindows := min (s.tc.idleWindows + 1) 20 }
  have hdirection : (if s.tc.phase = .dwell then Direction.none else s.windowDirection) = .none := by
    rw [windowDirection_of_no_ticks hticks, ite_self]
  have hnew : s.newSpeed.slackFollow = { s with tc := stopping, tu := slackOff s.tu } := by
    rw [newSpeed_eq, hdirection, slackFollow_eq_ite, filmMoving_eq]
    simp [stopping, hticks, hforward, hreverse]
  rw [exec_speedWindow hs, hnew, speedForTracker_of_slow (Nat.zero_le _), motionTests_of_no_motion (by exact hmotion),
    settleMotion_stop rfl (by exact hphase) (by exact howed)]
  refine congrArg Host.Outcome.next ?_
  have htu := slackOff_inLoop_slackOff s.reportedTension s.tu
  show offered { s with tc := stopped stopping, tu := slackOff (inLoop s.reportedTension (slackOff s.tu)) } =
    offered { s with
      tc := { stopped stopping with motion := s.tc.motion }, tu := slackOff (inLoop s.reportedTension s.tu) }
  rw [htu, hmotion]
  rfl

/-- Settles O19. -/
theorem speedWindowWithoutMotion : Obligations.SpeedWindowWithoutMotion :=
  ⟨speedIsTheTicksOfTenMilliseconds, filmAtRestIsStopped⟩

end Sys2Proof.Proofs.Ticks

/-! The ends of seeks, STOP_TRANSPORT and the sensors of the film (O16, O20, O21). -/

namespace Sys2Proof.Machine

open Expect

/-! ### The end of a 10 ms in a seek (R7, R8) -/

/-- The state in which a 10 ms ends, once TU has followed. -/
theorem newSpeed_slackFollow_eq (s : State) (d : Direction)
    (hd : (if s.tc.phase = .dwell then .none else s.windowDirection) = d)
    (hboth : (s.tc.windowForward && s.tc.windowReverse) = false) :
    s.newSpeed.slackFollow =
      { s with
        tc :=
          { s.tc with
            speed := s.tc.windowTicks, direction := d, windowTicks := 0, windowForward := false, windowReverse := false,
            idleWindows := if s.tc.windowTicks = 0 then min (s.tc.idleWindows + 1) 20 else 0 },
        tu :=
          if (s.tc.state = .seeking ∨ s.tc.state = .scanning ∨ s.tc.state = .rewinding) ∧ d ≠ .none then s.tu
          else slackOff s.tu } := by
  rw [newSpeed_eq, hd, hboth, slackFollow_eq_ite, filmMoving_eq]
  simp only [decide_eq_true_eq]
  rfl

theorem slackOff_slackOff (u : Tu) : slackOff (slackOff u) = slackOff u := rfl

/-- Slack detection disarmed after a step in which it may have been. -/
theorem slackOff_ite (c : Prop) [Decidable c] (u : Tu) : slackOff (if c then u else slackOff u) = slackOff u := by
  split <;> rfl

theorem slackOff_inLoop_ite (c : Prop) [Decidable c] (r : Nat) (u : Tu) :
    slackOff (inLoop r (if c then u else slackOff u)) = slackOff (inLoop r u) := by
  split
  · rfl
  · exact slackOff_inLoop_slackOff r u

theorem motionTests_arrived {s : State} {m : Seek} (hm : s.tc.motion = some (.seek m)) (hp : s.tc.phase.underway = true)
    (ha : s.arrived m.target = true) : s.motionTests = s.arrive := by
  unfold State.motionTests
  rw [hm]
  simp only [hp, ha, if_true]

theorem motionTests_not_underway {s : State} {m : Seek} (hm : s.tc.motion = some (.seek m))
    (hp : s.tc.phase.underway = false) : s.motionTests = s := by
  unfold State.motionTests
  rw [hm]
  simp [hp]

theorem reportedTension_ite {s t : State} {c : Prop} [Decidable c] (h : t.tu = if c then s.tu else slackOff s.tu) :
    t.reportedTension = s.reportedTension := by
  unfold State.reportedTension
  rw [h]
  split <;> rfl

/-- The second failed correction has come to rest: MISSED (R8). -/
theorem settleMotion_missed {s : State} {m : Seek} (hm : s.tc.motion = some (.seek m)) (h : m.requester = .host)
    (hr : resting s.tc = true) (hp : s.tc.phase = .overshoot) (hc : 2 ≤ m.corrections) :
    s.settleMotion =
      State.post
        (State.faultOccur
          (offered { s with tc := stopped s.tc, tu := slackOff (inLoop s.reportedTension s.tu) })
          .seekMissed .minor (.seekMissed m.target s.tc.position))
        .seekDone (.seekDone .missed m.target s.tc.position m.corrections m.clamped) := by
  have hrest : s.filmAtRest = s.missSeek m := by
    unfold State.filmAtRest
    rw [hp, hm]
    exact if_pos hc
  have htc : ((State.faultOccur
      (offered { s with tc := stopped s.tc, tu := slackOff (inLoop s.reportedTension s.tu) })
      .seekMissed .minor (.seekMissed m.target s.tc.position))).tc = stopped s.tc :=
    (film_eq_iff.mp (faultOccur_film _ _ _ _)).1
  have hpost (d : NoticeDetail) : (State.post (State.faultOccur
      (offered { s with tc := stopped s.tc, tu := slackOff (inLoop s.reportedTension s.tu) })
      .seekMissed .minor (.seekMissed m.target s.tc.position)) .seekDone d).tc.motion = none := by
    rw [(film_eq_iff.mp (post_film _ _ _)).1, htc]
    rfl
  rw [State.settleMotion, atRest_eq_resting, hr, State.onlyIf, if_pos rfl, hrest, State.missSeek, noMotion_enter_stopped,
    reportSeek_host h, endZeroDwell_of_no_motion (hpost _), htc]
  rfl

end Sys2Proof.Machine

namespace Sys2Proof.Proofs.Seeks

open Sys2Proof.Machine Sys2Proof.Expect

theorem seekArrivesOrMisses : SeekArrivesOrMisses := by
  intro s m hs hmotion hhost htrack hboth
  refine ⟨?_, fun hphase hcount hticks => ?_⟩
  · intro hphase hunder hlow hhigh hslow held
    have hunderway : s.tc.phase.underway = true := by rcases hphase with h | h | h <;> rw [h] <;> rfl
    have hnew := newSpeed_slackFollow_eq s _ rfl hboth
    have htu : s.newSpeed.slackFollow.tu = _ := congrArg State.tu hnew
    have hmotion' : s.newSpeed.slackFollow.tc.motion = some (.seek m) := by rw [hnew]; exact hmotion
    have hunderway' : s.newSpeed.slackFollow.tc.phase.underway = true := by rw [hnew]; exact hunderway
    have harrived : s.newSpeed.slackFollow.arrived m.target = true := by
      rw [hnew]
      simp only [State.arrived, Bool.and_eq_true, decide_eq_true_eq]
      exact ⟨⟨(distance_le_iff ..).mpr ⟨hlow, hhigh⟩, hunder⟩, hslow⟩
    rw [exec_speedWindow hs, speedForTracker_of_not_counting (by rw [hnew]; exact htrack),
      motionTests_arrived hmotion' hunderway' harrived, arrive_settleMotion hmotion' hhost, reportedTension_ite htu, htu,
      slackOff_inLoop_ite, slackOff_ite, hnew]
    rfl
  · have hd : (if s.tc.phase = .dwell then .none else s.windowDirection) = .none := by
      rw [windowDirection_of_no_ticks hticks, ite_self]
    have hstill : s.tc.phase.underway = false := by rw [hphase]; rfl
    let resting : Tc :=
      { s.tc with
        speed := 0, direction := .none, windowForward := false, windowReverse := false,
        idleWindows := min (s.tc.idleWindows + 1) 20 }
    have hnew : s.newSpeed.slackFollow = { s with tc := resting, tu := slackOff s.tu } := by
      rw [newSpeed_slackFollow_eq s _ hd hboth]
      simp [resting, hticks]
    rw [exec_speedWindow hs, hnew, speedForTracker_of_slow (Nat.zero_le _),
      motionTests_not_underway (by exact hmotion) (by exact hstill),
      settleMotion_missed (by exact hmotion) hhost rfl (by exact hphase) hcount]
    have htu := slackOff_inLoop_slackOff s.reportedTension s.tu
    refine (congrArg (fun u => (Host.Outcome.next (State.post (State.faultOccur
      (offered { s with tc := stopped resting, tu := u }) .seekMissed .minor (.seekMissed m.target s.tc.position))
      .seekDone (.seekDone .missed m.target s.tc.position m.corrections m.clamped)) : Result)) htu).trans rfl

theorem dwellEndsTheSeekAndTheEncoderIsWatched : DwellEndsTheSeekAndTheEncoderIsWatched := by
  intro s hs
  refine ⟨fun m hmotion hhost hphase => ?_, fun hphase => ?_, ?_⟩
  · show execSettleDwellExpiry s = _
    rw [execSettleDwellExpiry, whenRunning_running hs, hmotion]
    show Host.Outcome.next (if s.tc.phase = .dwell then s.endSeek m .arrived else s) = _
    rw [if_pos hphase, endSeek_host hhost]
    rfl
  · show execSettleDwellExpiry s = _
    rw [execSettleDwellExpiry, whenRunning_running hs]
    split
    · rw [if_neg hphase]
    · rfl
  · show execEncoderTimeout s = _
    have htimer : s.encoderTimerOn =
        decide ((s.tc.state = .seeking ∨ s.tc.state = .scanning ∨ s.tc.state = .rewinding) ∧ 0 < s.commandedSpeed) := by
      unfold State.encoderTimerOn
      cases s.tc.state <;> simp
    rw [execEncoderTimeout, whenRunning_running hs, htimer]
    simp only [decide_eq_true_eq]

/-- Settles O20. -/
theorem seeksEnd : Obligations.SeeksEnd := ⟨seekArrivesOrMisses, dwellEndsTheSeekAndTheEncoderIsWatched⟩

end Sys2Proof.Proofs.Seeks

/-! STOP_TRANSPORT and the sensors of the film (O16, O21), and what RS's and CP's bookkeeping can change. -/

namespace Sys2Proof.Machine

open Expect

/-! ### The bookkeeping of RS and CP

Placing, failing and dropping requests, freeing slots and keeping the work list change RS, CP and the pending notices, and
begin no pass. -/

/-- RS, CP and LI alone differ, and no pass has begun. -/
def Booked (s t : State) : Prop :=
  ∃ r c l, t = { s with rs := r, cp := c, li := l } ∧ (s.rs.pass = none → r.pass = none)

theorem Booked.refl (s : State) : Booked s s := ⟨s.rs, s.cp, s.li, rfl, id⟩

theorem Booked.trans {a b c : State} (h : Booked a b) (k : Booked b c) : Booked a c := by
  obtain ⟨_, _, _, rfl, hp⟩ := h
  obtain ⟨r, p, l, rfl, hq⟩ := k
  exact ⟨r, p, l, rfl, fun hn => hq (hp hn)⟩

theorem booked_of_cp (s : State) (f : Cp → Cp) : Booked s (s.modCp f) := ⟨s.rs, f s.cp, s.li, rfl, id⟩

theorem booked_of_rs {s : State} {f : Rs → Rs} (h : s.rs.pass = none → (f s.rs).pass = none) : Booked s (s.modRs f) :=
  ⟨f s.rs, s.cp, s.li, rfl, h⟩

theorem post_booked (s : State) (src : Source) (d : NoticeDetail) : Booked s (s.post src d) := by
  obtain ⟨l, hl⟩ := post_eq s src d
  exact ⟨s.rs, s.cp, l, hl, id⟩

theorem offerPlanning_booked (s : State) : Booked s s.offerPlanning := by
  rw [offerPlanning_eq]
  exact booked_of_rs (f := fun r => { r with planningDue := s.rs.planningDue || s.mayPlan }) id

theorem onlyIf_booked {s t : State} (h : Booked s t) {c : Bool} {f : State → State} (hf : ∀ u, Booked u (f u)) :
    Booked s (t.onlyIf c f) := by
  unfold State.onlyIf
  split
  · exact h.trans (hf t)
  · exact h

theorem withSome_booked {α : Type} {s t : State} (h : Booked s t) {x : Option α} {f : State → α → State}
    (hf : ∀ u a, Booked u (f u a)) : Booked s (t.withSome x f) := by
  cases x with
  | none => exact h
  | some a => exact h.trans (hf t a)

theorem each_booked {α : Type} {s t : State} (h : Booked s t) {xs : List α} {f : State → α → State}
    (hf : ∀ u a, Booked u (f u a)) : Booked s (t.each xs f) := by
  unfold State.each
  induction xs generalizing t with
  | nil => exact h
  | cons x rest ih => exact ih (h.trans (hf t x))

theorem modRequest_booked (s : State) (n : Nat) (f : Request → Request) : Booked s (s.modRequest n f) := booked_of_rs id

theorem failRequest_booked (s : State) (r : Request) (w : FailReason) : Booked s (s.failRequest r w) :=
  (booked_of_rs (f := fun q => { q with queue := q.queue.filter fun x => decide (x.id ≠ r.id) }) id).trans
    (post_booked _ _ _)

theorem placeAgain_booked (s : State) (r : Request) : Booked s (s.placeAgain r) := by
  unfold State.placeAgain
  split
  · exact failRequest_booked _ _ _
  · exact modRequest_booked _ _ _

theorem modPass_booked (s : State) (f : RsPass → RsPass) : Booked s (s.modPass f) :=
  booked_of_rs (f := fun r => { r with pass := r.pass.map f }) fun h => by simp [h]

theorem passEnd_booked (s : State) (o : PassOutcome) : Booked s (s.passEnd o) := by
  unfold State.passEnd
  refine withSome_booked (Booked.refl s) fun t p => ?_
  have hended : Booked t ((t.modRs fun r => { r with pass := none }).post .passDone
      (.passDone p.kind o p.slot p.capturedJobs p.misframeJobs p.droppedJobs)) :=
    (booked_of_rs (f := fun r => { r with pass := none }) fun _ => rfl).trans (post_booked _ _ _)
  dsimp only
  split
  · exact hended
  · exact hended.trans (offerPlanning_booked _)

theorem jobReport_booked (s : State) (n : Nat) (r : JobReport) : Booked s (s.jobReport n r) := by
  unfold State.jobReport
  refine withSome_booked (modPass_booked s _) fun t q => ?_
  cases r with
  | capturing => exact modRequest_booked _ _ _
  | captured =>
    refine (modRequest_booked t n _).trans (booked_of_rs (f := fun k => countCapture k q.slot) fun h => ?_)
    unfold countCapture
    split <;> exact h
  | misframe =>
    dsimp only
    split
    · exact modRequest_booked _ _ _
    · exact failRequest_booked _ _ _
  | dropped => exact modRequest_booked _ _ _

theorem freeSlot_booked (s : State) (n : Nat) : Booked s (s.freeSlot n) := by
  unfold State.freeSlot
  exact ((booked_of_cp s _).trans (booked_of_rs id)).trans (offerPlanning_booked _)

theorem dropJobs_booked (s : State) : Booked s s.dropJobs :=
  each_booked (Booked.refl s) fun u _ => (freeSlot_booked u _).trans (jobReport_booked _ _ _)

theorem endList_booked (s : State) : Booked s s.endList := by
  unfold State.endList
  split
  · exact ((dropJobs_booked s).trans (booked_of_cp _ _)).trans (booked_of_cp _ _)
  · exact Booked.refl s

theorem endList_jobs (s : State) : s.endList.cp.jobs = none := by
  unfold State.endList
  split
  · show (lampSettled _).jobs = none
    unfold lampSettled
    split <;> rfl
  · rename_i h
    exact Option.not_isSome_iff_eq_none.mp h

theorem placeItem_booked (s : State) (p : Nat) : Booked s (s.placeItem p) := by
  unfold State.placeItem
  split
  · exact Booked.refl s
  · exact (booked_of_rs id).trans (offerPlanning_booked _)

theorem itemLeft_booked (s : State) : Booked s s.itemLeft :=
  (withSome_booked (Booked.refl s) placeItem_booked).trans (offerPlanning_booked _)

theorem removeItem_booked (s : State) (p : Nat) : Booked s (s.removeItem p) := by
  unfold State.removeItem
  split
  · exact (booked_of_rs id).trans (itemLeft_booked _)
  · exact Booked.refl s

theorem withdraw_booked (s : State) (p : Nat) : Booked s (s.withdraw p) := by
  unfold State.withdraw
  split
  · exact Booked.refl s
  · exact (modPass_booked s _).trans (removeItem_booked _ _)

theorem rollGone_booked (s : State) (n : Nat) (l : Label) : Booked s (s.rollGone n l) := by
  unfold State.rollGone
  dsimp only
  exact (onlyIf_booked (booked_of_rs id) fun _ => post_booked _ _ _).trans (offerPlanning_booked _)

theorem labelArrival_booked (s : State) (l : Label) : Booked s (s.labelArrival l) :=
  (each_booked (Booked.refl s) placeAgain_booked).trans (offerPlanning_booked _)

theorem indexForgotten_booked (s : State) (n : Nat) : Booked s (s.indexForgotten n) :=
  (booked_of_rs id).trans (offerPlanning_booked _)

theorem removeIndexItem_booked (s : State) : Booked s s.removeIndexItem := booked_of_rs id

/-! ### Nobody waits for the motion's end -/

theorem rsRunEnd_of_no_pass {s : State} (h : s.rs.pass = none) (w : RunEnd) : s.rsRunEnd w = s := by
  simp [State.rsRunEnd, State.passIs, h]

theorem ixRunEnd_of_no_pass {s : State} (h : s.ix.pass = none) (w : RunEnd) : s.ixRunEnd w = s := by
  simp [State.ixRunEnd, State.withSome, h]

theorem rsStopReport_of_no_pass {s : State} (h : s.rs.pass = none) : s.rsStopReport = s := by
  simp [State.rsStopReport, h]

/-- A run's end that no pass waits for: a capture run's list is dropped and tracking is over. -/
theorem reportRun_of_no_pass {s : State} (hr : s.rs.pass = none) (hi : s.ix.pass = none) (e : EndedRun) :
    s.reportRun e = if e.purpose = .capture then s.endTracking.endList else s := by
  have hended : (if e.purpose = .capture then s.endTracking.endList else s).rs.pass = none
      ∧ (if e.purpose = .capture then s.endTracking.endList else s).ix.pass = none := by
    split
    · obtain ⟨r, c, l, heq, hpass⟩ := endList_booked s.endTracking
      rw [heq]
      exact ⟨hpass hr, hi⟩
    · exact ⟨hr, hi⟩
  unfold State.reportRun
  dsimp only
  split
  · exact ixRunEnd_of_no_pass hended.2 _
  · exact rsRunEnd_of_no_pass hended.1 _

/-! ### STOP_TRANSPORT (R20) -/

theorem ownStopTransport_busy {s : State} (h : s.tc.state = .threading ∨ s.tc.state = .rewinding) :
    ownStopTransport s = s.refuse .busy := by
  have hbusy : (decide (s.tc.state = .threading) || decide (s.tc.state = .rewinding)) = true := by simpa using h
  rw [ownStopTransport, checked_cons, hbusy, if_pos rfl]

theorem ownStopTransport_taken {s : State} (h : ¬ (s.tc.state = .threading ∨ s.tc.state = .rewinding)) {t : State}
    (hstop : s.stopMotion = t) (hpass : t.rs.pass = none) : ownStopTransport s = t.done := by
  have hfree : (decide (s.tc.state = .threading) || decide (s.tc.state = .rewinding)) = false := by simpa using h
  rw [ownStopTransport, checked_cons, hfree]
  show s.stopMotion.rsStopReport.done = _
  rw [hstop, rsStopReport_of_no_pass hpass]

theorem stopMotion_of_nothing {s : State}
    (h : s.tc.state = .unloaded ∨ s.tc.state = .halted ∨ (s.tc.state = .stopped ∧ s.fu.probe = none)
      ∨ ((s.tc.state = .seeking ∨ s.tc.state = .scanning) ∧ s.tc.motion = none)) : s.stopMotion = s := by
  unfold State.stopMotion
  rcases h with h | h | ⟨h, hprobe⟩ | ⟨h | h, hm⟩
  · rw [h]
  · rw [h]
  · rw [h]
    simp [State.abortProbe, State.withSome, hprobe]
  · rw [h, hm]
  · rw [h, hm]

/-- A run stopped at rest: STOPPED, and the end of the run is reported. -/
theorem stopRun_atRest {s : State} (hr : s.rs.pass = none) (hi : s.ix.pass = none) (hrest : resting s.tc = true) (r : Run) :
    (s.endRun r .stopped .controlledStop r.accel).settleMotion =
      let t := offered { s with
        tc := { stopped s.tc with stopRate := r.accel, endedRun := none },
        tu := slackOff (inLoop s.reportedTension s.tu) }
      if r.purpose = .capture then t.endTracking.endList else t := by
  let stop := s.endRun r .stopped .controlledStop r.accel
  have hstopped : (stop.modTc fun c => { c.noMotion with endedRun := none }).enter .stopped =
      offered { s with
        tc := { stopped s.tc with stopRate := r.accel, endedRun := none },
        tu := slackOff (inLoop s.reportedTension s.tu) } := enter_stopped _
  have hreported : stop.restFromStop = ((stop.modTc fun c => { c.noMotion with endedRun := none }).enter .stopped).reportRun
      { requester := r.requester, purpose := r.purpose, reason := .stopped } := rfl
  have hfollows : stop.filmAtRest = stop.restFromStop := rfl
  have hmotion (t : State) (h : t.tc.motion = none) :
      (if r.purpose = .capture then t.endTracking.endList else t).tc.motion = none := by
    split
    · rw [(film_eq_iff.mp (endList_film _)).1]
      exact h
    · exact h
  unfold State.settleMotion
  rw [atRest_eq_resting, show resting stop.tc = true from hrest, State.onlyIf, if_pos rfl, hfollows, hreported, hstopped,
    reportRun_of_no_pass (by exact hr) (by exact hi)]
  exact endZeroDwell_of_no_motion (hmotion _ rfl)

theorem stopMotion_run {s : State} {r : Run} (hstate : s.tc.state = .scanning) (hm : s.tc.motion = some (.run r)) :
    s.stopMotion = (s.endRun r .stopped .controlledStop r.accel).settleMotion := by
  unfold State.stopMotion
  rw [hstate, hm]

theorem stopMotion_seek {s : State} {m : Seek} (hstate : s.tc.state = .seeking) (hm : s.tc.motion = some (.seek m)) :
    s.stopMotion = (s.stopSeek m).reportSeek m .stopped := by
  unfold State.stopMotion
  rw [hstate, hm]

theorem stopSeek_eq (s : State) (m : Seek) :
    s.stopSeek m =
      if s.tc.phase = .dwell ∨ resting s.tc = true then
        offered { s with tc := stopped s.tc, tu := slackOff (inLoop s.reportedTension s.tu) }
      else { s with tc := { s.tc with motion := none, phase := .controlledStop, stopRate := m.accel } } := by
  rw [State.stopSeek, atRest_eq_resting, noMotion_enter_stopped]
  rfl

end Sys2Proof.Machine

namespace Sys2Proof.Proofs.Seeks

open Sys2Proof.Machine Sys2Proof.Expect

/-- Settles O16, state by state. -/
theorem stopTransportByState : Obligations.StopTransportByState := by
  intro tag s hs hrs hix
  refine ⟨fun h => ?_, fun h => ?_, fun r hstate hmotion => ⟨fun hrest => ?_, fun hrest => ?_⟩, ?_⟩
  · exact exec_of_answer rfl hs (ownStopTransport_busy (s := placed s) h)
  · refine exec_of_answer rfl hs (ownStopTransport_taken (s := placed s) ?_ (stopMotion_of_nothing h) hrs)
    rintro (hb | hb)
    · rw [show s.tc.state = .threading from hb] at h
      simp at h
    · rw [show s.tc.state = .rewinding from hb] at h
      simp at h
  · have hfree : ¬ ((placed s).tc.state = .threading ∨ (placed s).tc.state = .rewinding) := by simp [placed, hstate]
    have hstop := (stopMotion_run (s := placed s) hstate hmotion).trans (settleMotion_moving rfl hrest)
    exact exec_of_answer rfl hs (ownStopTransport_taken hfree hstop hrs)
  · have hfree : ¬ ((placed s).tc.state = .threading ∨ (placed s).tc.state = .rewinding) := by simp [placed, hstate]
    have hstop := (stopMotion_run (s := placed s) hstate hmotion).trans (stopRun_atRest (s := placed s) hrs hix hrest r)
    by_cases hcapture : r.purpose = .capture
    · have hstop' := hstop.trans (if_pos hcapture)
      have hjobs := endList_jobs (offered { placed s with
        tc := { stopped s.tc with stopRate := r.accel, endedRun := none },
        tu := slackOff (inLoop s.reportedTension s.tu) }).endTracking
      obtain ⟨q, c, l, heq, hpass⟩ := endList_booked (offered { placed s with
        tc := { stopped s.tc with stopRate := r.accel, endedRun := none },
        tu := slackOff (inLoop s.reportedTension s.tu) }).endTracking
      rw [heq] at hjobs
      refine ⟨_, exec_of_answer rfl hs (ownStopTransport_taken hfree (hstop'.trans heq) (hpass hrs)), rfl, fun _ => ?_⟩
      exact ⟨rfl, hjobs⟩
    · have hstop' := hstop.trans (if_neg hcapture)
      exact ⟨_, exec_of_answer rfl hs (ownStopTransport_taken hfree hstop' hrs), rfl, fun h => absurd h hcapture⟩
  · intro m hstate hmotion hhost halted
    have hfree : ¬ ((placed s).tc.state = .threading ∨ (placed s).tc.state = .rewinding) := by simp [placed, hstate]
    have hstop : (placed s).stopMotion =
        halted.post .seekDone (.seekDone .stopped m.target s.tc.position m.corrections m.clamped) := by
      rw [stopMotion_seek (s := placed s) hstate hmotion, stopSeek_eq, reportSeek_host hhost]
      have hposition : halted.tc.position = s.tc.position := by
        show (if _ then _ else _ : State).tc.position = _
        split <;> rfl
      rw [← hposition]
      rfl
    refine exec_of_answer rfl hs (ownStopTransport_taken hfree hstop ?_)
    rw [post_rs]
    show (if _ then _ else _ : State).rs.pass = none
    split <;> exact hrs

end Sys2Proof.Proofs.Seeks

/-! The trailer and the gate sensor (O21). -/

namespace Sys2Proof.Machine

open Expect

/-! ### The trailer (R11) -/

theorem exec_trailerEvent {s : State} (hs : s.resetHeld = false) :
    exec .trailerEvent s = .next (if s.tc.direction = .forward then s.trailer.settleSince s else s) := by
  show execTrailerEvent s = _
  rw [execTrailerEvent, whenRunning_running hs]

theorem trailer_of_not_acted {s : State} (h : s.tc.state = .rewinding ∨ s.tc.state = .unloaded) : s.trailer = s := by
  unfold State.trailer
  rcases h with h | h <;> rw [h]

theorem modMounted_eq {s : State} {n : Nat} (h : s.mountedSlot = some n) (f : Entry → Entry) :
    s.modMounted f = { s with cu := { s.cu with entries := s.cu.entries.set n (f (s.entry n)) } } := by
  unfold State.modMounted
  rw [h]
  rfl

/-- The stop that a trailer event makes of a host's seek. -/
theorem trailerStop_seek {s : State} {m : Seek} (hstate : s.tc.state = .seeking) (hm : s.tc.motion = some (.seek m))
    (hhost : m.requester = .host) :
    s.trailerStop =
      State.post { s with tc := { s.tc with motion := none, phase := .emergencyStop, stopRate := 4000 } }
        .seekDone (.seekDone .endOfFilm m.target s.tc.position m.corrections m.clamped) := by
  unfold State.trailerStop
  rw [hstate, hm]
  exact reportSeek_host hhost _ _

theorem faultOccur_tc (s : State) (c : FaultCode) (k : FaultClass) (d : FaultDetail) : (s.faultOccur c k d).tc = s.tc :=
  (film_eq_iff.mp (faultOccur_film s c k d)).1

/-- The roll length after a trailer event at P (R11). -/
def learnLength (p : Nat) (e : Entry) : Entry :=
  { e with rollLength := some (match e.rollLength with | some l => min l p | none => p) }

/-- What a trailer event makes of a host's seek: the roll length, the fault, the stop and the outcome. -/
theorem trailer_seek {s : State} {m : Seek} {n : Nat} (hstate : s.tc.state = .seeking)
    (hm : s.tc.motion = some (.seek m)) (hhost : m.requester = .host) (hslot : s.mountedSlot = some n)
    (hpass : s.ix.pass = none) :
    s.trailer =
      State.post
        { State.faultOccur
            { s with cu := { s.cu with entries := s.cu.entries.set n (learnLength s.tc.position (s.entry n)) } }
            .endOfFilm .minor (.endOfFilm s.tc.position) with
          tc := { s.tc with motion := none, phase := .emergencyStop, stopRate := 4000 } }
        .seekDone (.seekDone .endOfFilm m.target s.tc.position m.corrections m.clamped) := by
  have hnotRun : s.indexRunMoving = false := by simp [State.indexRunMoving, hstate]
  have hacts : s.trailer =
      ((s.modMounted (learnLength s.tc.position)).faultOccur .endOfFilm .minor (.endOfFilm s.tc.position)).ixTrailer.trailerStop := by
    unfold State.trailer
    rw [hstate]
    show s.trailerEffect = _
    unfold State.trailerEffect
    simp only [hnotRun, Bool.false_eq_true, if_false]
    rfl
  have htc : ((s.modMounted (learnLength s.tc.position)).faultOccur .endOfFilm .minor (.endOfFilm s.tc.position)).tc = s.tc := by
    rw [faultOccur_tc, modMounted_eq hslot]
  have hix : ((s.modMounted (learnLength s.tc.position)).faultOccur .endOfFilm .minor (.endOfFilm s.tc.position)).ix.pass
      = none := by
    rw [faultOccur_ix, modMounted_ix]
    exact hpass
  rw [hacts, State.ixTrailer, modIndexPass_of_none hix, trailerStop_seek (by rw [htc]; exact hstate)
    (by rw [htc]; exact hm) hhost, htc, modMounted_eq hslot]

/-! ### The end of a rewind (R14, R55) -/

theorem rsUnmountOutcome_of_no_pass {s : State} (h : s.rs.pass = none) (o : UnmountOutcome) : s.rsUnmountOutcome o = s := by
  simp [State.rsUnmountOutcome, State.passIs, h]

theorem presenceCheck_present {s : State} {n : Nat} (h : s.presence.getD n false = true) : s.presenceCheck n = s := by
  unfold State.presenceCheck
  split
  · rw [if_pos h]
  · rw [if_pos h]
  · rfl

/-- TC enters UNLOADED: TU follows, CP's gauge and lamp level are cleared, and RS may plan (R3, R121, R159). -/
theorem enter_unloaded_eq (s : State) :
    ∃ u, s.enter .unloaded =
      offered { s with
        tc := { s.tc with state := .unloaded }, tu := u, cp := { s.cp with gauge := none, lampLevel := none } } := by
  obtain ⟨u, hu⟩ := tensionFollow_eq (s.modTc fun c => { c with state := .unloaded })
  refine ⟨u, ?_⟩
  show (((s.modTc fun c => { c with state := .unloaded }).tensionFollow).modCp fun c =>
    { c with gauge := none, lampLevel := none }).offerPlanning = _
  rw [hu, offerPlanning_eq_offered]
  rfl

theorem mountedSlot_of_entries {s t : State} (h : t.cu.entries = s.cu.entries) : t.mountedSlot = s.mountedSlot := by
  rw [State.mountedSlot, State.mountedSlot, h]

/-- The part as a rewind's end leaves it, but for TU's following, the queue, the store and the notices. -/
def storedAway (s : State) (n : Nat) (u : Tu) : State :=
  { s with
    tc := { s.tc.noMotion.atZero with threaded := false, state := .unloaded }, tu := u,
    cu := { s.cu with entries := s.cu.entries.set n { s.entry n with state := .stored }, lock := none },
    ix := { s.ix with segments := [], landmarks := [], tracker := Tracker.reset, invalidMarks := 0, q0 := none },
    fu := { s.fu with map := [] } }

theorem setSlotState_eq (s : State) (n : Nat) (st : SlotState) :
    ∃ l, s.setSlotState n st =
      { s with cu := { s.cu with entries := s.cu.entries.set n { s.entry n with state := st } }, li := l } :=
  post_eq (s.modEntry n fun e => { e with state := st }) _ _

/-- A rewind's end up to CU's report to RS. -/
theorem endRewind_reports {s : State} {n : Nat} (hslot : s.mountedSlot = some n) :
    ∃ u t, Booked (storedAway s n u) t ∧
      s.endRewind =
        (if (t.rsUnmountOutcome .stored).tc.state = .unloaded then
          (t.rsUnmountOutcome .stored).modCu fun c => { c with opRequester := none }
         else t.rsUnmountOutcome .stored).presenceCheck n := by
  obtain ⟨u, hu⟩ := enter_unloaded_eq (s.modTc fun c => { c.noMotion.atZero with threaded := false })
  generalize hb : (s.modTc fun c => { c.noMotion.atZero with threaded := false }).enter .unloaded = b at hu
  obtain ⟨l, hl⟩ := setSlotState_eq b n .stored
  refine ⟨u, ((((b.setSlotState n .stored).modCu fun x => { x with lock := none }).installIndex [] [] none).emptyMap).postUnmountDone n
    .stored, ?_, ?_⟩
  · have hstart : Booked (storedAway s n u)
        ((((b.setSlotState n .stored).modCu fun x => { x with lock := none }).installIndex [] [] none).modFu
          fun f => { f with map := [] }) := by
      rw [hl, hu]
      exact ⟨_, { s.cp with gauge := none, lampLevel := none }, l, rfl, id⟩
    exact (hstart.trans (each_booked (Booked.refl _) fun _ _ => withdraw_booked _ _)).trans (post_booked _ _ _)
  · unfold State.endRewind
    rw [hslot]
    dsimp only [State.withSome]
    rw [hb]

/-- A rewind's end with no pass of RS and the cartridge in its slot (R55). -/
theorem endRewind_putAway {s : State} {n : Nat} (h : s.rs.pass = none) (hslot : s.mountedSlot = some n)
    (hpresent : s.presence.getD n false = true) :
    s.endRewind.cu.entries = s.cu.entries.set n { s.entry n with state := .stored } ∧ s.endRewind.cu.lock = none
      ∧ s.endRewind.cu.opRequester = none ∧ s.endRewind.ix.segments = [] ∧ s.endRewind.ix.landmarks = []
      ∧ s.endRewind.fu.map = [] := by
  obtain ⟨u, t, ⟨r, c, l, rfl, hpass⟩, hend⟩ := endRewind_reports hslot
  rw [rsUnmountOutcome_of_no_pass (hpass h)] at hend
  rw [hend.trans (presenceCheck_present hpresent)]
  exact ⟨rfl, rfl, rfl, rfl, rfl, rfl⟩

/-- A rewind's end with no pass of RS: TC is UNLOADED with no motion. -/
theorem endRewind_tc {s : State} (h : s.rs.pass = none) :
    s.endRewind.tc.state = .unloaded ∧ s.endRewind.tc.motion = none := by
  cases hslot : s.mountedSlot with
  | none =>
    obtain ⟨u, hu⟩ := enter_unloaded_eq (s.modTc fun c => { c.noMotion.atZero with threaded := false })
    have hend : s.endRewind = (s.modTc fun c => { c.noMotion.atZero with threaded := false }).enter .unloaded := by
      unfold State.endRewind
      rw [hslot]
      rfl
    rw [hend, hu]
    exact ⟨rfl, rfl⟩
  | some n =>
    obtain ⟨u, t, ⟨r, c, l, rfl, hpass⟩, hend⟩ := endRewind_reports hslot
    rw [rsUnmountOutcome_of_no_pass (hpass h)] at hend
    rw [hend, (film_eq_iff.mp (presenceCheck_film _ _)).1]
    exact ⟨rfl, rfl⟩

end Sys2Proof.Machine

namespace Sys2Proof.Proofs.Seeks

open Sys2Proof.Machine Sys2Proof.Expect

theorem trailerEndsTheSeek : TrailerEndsTheSeek := by
  intro s hs
  refine ⟨fun h => ?_, ?_⟩
  · rw [exec_trailerEvent hs]
    by_cases hforward : s.tc.direction = .forward
    · have hstate : s.tc.state = .rewinding ∨ s.tc.state = .unloaded := h.resolve_left (not_not_intro hforward)
      rw [if_pos hforward, trailer_of_not_acted hstate, settleSince_same rfl]
    · rw [if_neg hforward]
  · intro m n hforward hspeed hstate hmotion hhost hslot hpass p e learned raised
    have htrailer := trailer_seek hstate hmotion hhost hslot hpass
    have hstopped : s.trailer.tc = { s.tc with motion := none, phase := .emergencyStop, stopRate := 4000 } := by
      rw [htrailer, (film_eq_iff.mp (post_film _ _ _)).1]
    have hmoving : resting s.trailer.tc = false := by
      rw [hstopped]
      simp [resting, hforward, Nat.ne_of_gt hspeed]
    have hsettled : s.trailer.settleSince s = s.trailer := by
      unfold State.settleSince State.onlyIf
      rw [settleMotion_moving (by rw [hstopped]) hmoving, ite_self]
    rw [exec_trailerEvent hs, if_pos hforward, hsettled, htrailer]
    rfl

theorem gateSensorEvents : GateSensorEvents := by
  intro s hs lost
  have hexec : exec .gateLoss s = .next
      (if !s.tc.threaded then lost
       else
        match s.tc.state with
        | .rewinding => lost.endRewind
        | .stopped | .seeking | .scanning | .halted => lost.raise .filmBreak .major (.breakGate s.tc.position)
        | .unloaded | .threading => lost) := by
    show execGateLoss s = _
    rw [execGateLoss, whenRunning_running hs] <;> rfl
  refine ⟨fun hthreaded => ?_, fun hthreaded hstate => ?_, fun hthreaded hstate => ?_, ?_⟩
  · rw [hexec, hthreaded]
    rfl
  · rw [hexec, hthreaded]
    rcases hstate with h | h | h | h <;> rw [h] <;> rfl
  · refine ⟨lost.endRewind, by rw [hexec, hthreaded, hstate]; rfl, ?_⟩
    have hstand := endRewind_stand lost
    simp only [State.stand, Prod.mk.injEq] at hstand
    obtain ⟨hp, hu, ht, hg⟩ := hstand
    exact ⟨hp, hu, ht, hg, endRewind_tc (s := lost), fun n => endRewind_putAway (s := lost) (n := n)⟩
  · show execGateFilmSeen s = _
    rw [execGateFilmSeen, whenRunning_running hs]
    by_cases hthreading : s.tc.state = .threading ∧ s.cu.threader = .engaged
    · rw [if_pos (by exact hthreading), decide_eq_true hthreading, Bool.or_true]
      rfl
    · rw [if_neg (by exact hthreading), decide_eq_false hthreading, Bool.or_false]

/-- Settles O21. -/
theorem trailerAndGateSensorsAct : Obligations.TrailerAndGateSensorsAct := ⟨trailerEndsTheSeek, gateSensorEvents⟩

end Sys2Proof.Proofs.Seeks

/-! The Roll Directory's commands and the presence sensors (O26, O30). -/

namespace Sys2Proof.Machine

open Expect

/-! ### The two ends of a command behind checks -/

section
variable {i : Instr} {kind tag : Byte} {body : List Byte} {s : State} {cs : List (Bool × Status)} {act : State → Answer}
  {refusal : Option Status}

theorem exec_refused (h : encodeCommand i = some (kind, tag, body)) (hs : Listening s)
    (hown : ownerOf i (placed s) = checked (placed s) cs act) (hrefusal : refusal = firstRefusal cs) (r : Status)
    (hr : refusal = some r) : exec i s = .next (replied (placed s) tag kind r []) := by
  refine exec_of_answer h hs ?_
  rw [hown, checked_eq, ← hrefusal, hr]
  rfl

theorem exec_taken (h : encodeCommand i = some (kind, tag, body)) (hs : Listening s)
    (hown : ownerOf i (placed s) = checked (placed s) cs act) (hrefusal : refusal = firstRefusal cs)
    (hnone : refusal = none) {t : State} {st : Status} {data : List Byte} (hact : act (placed s) = ⟨t, st, data⟩) :
    exec i s = .next (replied t tag kind st data) := by
  refine exec_of_answer h hs ?_
  rw [hown, checked_eq, ← hrefusal, hnone]
  exact hact

end

/-! ### An entry written (R42) -/

theorem modEntry_eq (s : State) (n : Nat) (f : Entry → Entry) : s.modEntry n f = withEntry s n (f (s.entry n)) := rfl

theorem entry_withEntry {s : State} {n : Nat} (h : n < s.cu.entries.length) (e : Entry) : (withEntry s n e).entry n = e := by
  simp [State.entry, withEntry, h]

theorem withEntry_withEntry (s : State) (n : Nat) (e f : Entry) : withEntry (withEntry s n e) n f = withEntry s n f := by
  simp [withEntry, List.set_set]

theorem entry_of_cu {s t : State} (h : t.cu = s.cu) (n : Nat) : t.entry n = s.entry n := by
  rw [State.entry, State.entry, h]

theorem inPath_iff (e : Entry) :
    e.inPath = true ↔ e.state = .mounting ∨ e.state = .mounted ∨ e.state = .unmounting := by
  unfold Entry.inPath
  cases e.state <;> simp

/-- A removal (R44): the entry is EMPTY, and a labelled roll is gone. -/
theorem removeCartridge_eq (s : State) (n : Nat) :
    s.removeCartridge n =
      if (s.entry n).label = [] then (withEntry s n Entry.empty).post .slotChange (.slotChange n .empty)
      else
        ((withEntry s n Entry.empty).post .slotChange (.slotChange n .empty)).rollGone n (s.entry n).label := by
  unfold State.removeCartridge State.onlyIf
  rw [modEntry_eq]
  cases (s.entry n).label with
  | nil => rfl
  | cons b rest => rfl

/-! ### ASSIGN_ROLL (R45) -/

theorem labelBad_eq (l : Label) :
    labelBad l = !decide (l.length ≤ 16 ∧ ∀ b ∈ l, 0x20 ≤ b.toNat ∧ b.toNat ≤ 0x7E) := by
  rw [Bool.eq_iff_iff]
  simp only [labelBad, printable, Bool.or_eq_true, decide_eq_true_eq, List.any_eq_true, Bool.not_eq_true', decide_eq_false_iff_not,
    Classical.not_and_iff_not_or_not, Classical.not_forall, Nat.not_le]
  constructor
  · rintro (h | ⟨b, hb, hbad⟩)
    · exact .inl h
    · exact .inr ⟨b, hb, by omega⟩
  · rintro (h | ⟨b, hb, hbad⟩)
    · exact .inl h
    · exact .inr ⟨b, hb, by omega⟩

theorem assignOutOfRange_eq (a : AssignArgs) :
    assignOutOfRange a =
      !decide (a.slot ≤ 11 ∧ a.gauge ≠ none ∧ a.base ≠ none ∧ 51200 ≤ a.q0 ∧ a.q0 ≤ 1536000 ∧ a.lampLevel ≤ 1023
        ∧ a.label.length ≤ 16 ∧ ∀ b ∈ a.label, 0x20 ≤ b.toNat ∧ b.toNat ≤ 0x7E) := by
  have hgauge : a.gauge.isNone = decide (a.gauge = none) := by cases a.gauge <;> rfl
  have hbase : a.base.isNone = decide (a.base = none) := by cases a.base <;> rfl
  unfold assignOutOfRange
  rw [hgauge, hbase, labelBad_eq, Bool.eq_iff_iff]
  simp only [Bool.or_eq_true, decide_eq_true_eq, Bool.not_eq_true', decide_eq_false_iff_not, Classical.not_and_iff_not_or_not, Nat.not_le, Classical.not_not, ne_eq,
    or_assoc]

theorem labelTaken_eq (s : State) (n : Nat) (l : Label) :
    labelTaken s n l =
      decide (l ≠ [] ∧ (List.range 12).any fun m => decide (m ≠ n ∧ (s.entry m).label = l)) := by
  unfold labelTaken
  cases l with
  | nil => rfl
  | cons b rest => simp only [Bool.decide_and, Bool.decide_eq_true, List.isEmpty_cons, ne_eq, reduceCtorEq, not_false_eq_true, decide_true, Bool.not_false]

theorem describe_eq {s : State} {n : Nat} (hn : n < s.cu.entries.length) (d : Description)
    (h : (s.entry n).state = .stored ∨ (s.entry n).state = .rejected) :
    s.describe n d =
      if (s.entry n).state = .rejected then
        (withEntry s n { s.entry n with description := some d, state := .stored }).post .slotChange (.slotChange n .stored)
      else withEntry s n { s.entry n with description := some d, state := .stored } := by
  unfold State.describe State.setSlotState
  rw [modEntry_eq]
  dsimp only
  rw [modEntry_eq, entry_withEntry hn, withEntry_withEntry]
  rcases h with h | h
  · simp only [h, reduceCtorEq, if_false]
  · simp only [h, if_true]

/-- The entry that a description leaves. -/
theorem describe_entry {s : State} {n : Nat} (hn : n < s.cu.entries.length) (d : Description)
    (h : (s.entry n).state = .stored ∨ (s.entry n).state = .rejected) :
    (s.describe n d).entry n = { s.entry n with description := some d, state := .stored } := by
  rw [describe_eq hn d h]
  split
  · exact (entry_of_cu (post_cu _ _ _) n).trans (entry_withEntry hn _)
  · exact entry_withEntry hn _

theorem relabel_eq (s : State) (n : Nat) (l : Label) :
    s.relabel n l =
      if (s.entry n).label = l then s
      else if (s.entry n).label = [] then (withEntry s n { s.entry n with label := l }).labelArrival l
      else if l = [] then (withEntry s n { s.entry n with label := [] }).rollGone n (s.entry n).label
      else
        ((withEntry s n
          { Entry.empty with
            state := (s.entry n).state, label := l, description := (s.entry n).description }).rollGone n
              (s.entry n).label).labelArrival l := by
  unfold State.relabel
  simp only [List.isEmpty_iff]
  rfl

end Sys2Proof.Machine

namespace Sys2Proof.Proofs.Carousel

open Sys2Proof.Machine Sys2Proof.Expect

theorem rollIsDescribed : RollIsDescribed := by
  intro tag a s hs hlen e inRange refusal d described
  have hown : ownerOf (.assignRoll tag a) (placed s) = _ := show ownAssignRoll a (placed s) = _ from rfl
  have hrefusal : refusal = firstRefusal
      [(assignOutOfRange a, .range), (decide (((placed s).entry a.slot).state = .empty), .noRoll),
        (((placed s).entry a.slot).inPath, .busy), (labelTaken (placed s) a.slot a.label, .duplicateLabel)] := by
    have hpath : ((placed s).entry a.slot).inPath = true ↔ _ := inPath_iff (s.entry a.slot)
    have hrange : assignOutOfRange a = !inRange := assignOutOfRange_eq a
    simp only [firstRefusal, hrange, labelTaken_eq, decide_eq_true_eq, hpath, Bool.not_eq_true']
    rfl
  refine ⟨exec_refused (i := .assignRoll tag a) rfl hs hown hrefusal, fun hnone => ?_⟩
  have hin : inRange = true := by
    refine Classical.byContradiction fun h => ?_
    rw [Bool.not_eq_true] at h
    simp [refusal, h] at hnone
  obtain ⟨hslot, hgauge, hbase, -⟩ := of_decide_eq_true hin
  have hstate : e.state = .stored ∨ e.state = .rejected := by
    simp only [refusal, hin, Bool.true_eq_false, if_false] at hnone
    cases hst : e.state <;> simp [hst] at hnone ⊢
  have hn : a.slot < (placed s).cu.entries.length := by
    show a.slot < s.cu.entries.length
    omega
  obtain ⟨gauge, hg⟩ := Option.ne_none_iff_exists'.mp hgauge
  obtain ⟨base, hb⟩ := Option.ne_none_iff_exists'.mp hbase
  have hdescription : (⟨gauge, base, a.q0, a.lampLevel⟩ : Description) = d := by simp only [d, hg, hb, Option.getD_some]
  refine exec_taken (i := .assignRoll tag a) rfl hs hown hrefusal hnone ?_
  have hdescribed : (placed s).describe a.slot d = described := describe_eq hn d hstate
  have hentry : described.entry a.slot = { e with description := some d, state := .stored } := by
    rw [← hdescribed]
    exact describe_entry hn d hstate
  simp only [hg, hb, hdescription]
  rw [hdescribed, relabel_eq, hentry]
  rfl

theorem indexIsForgotten : IndexIsForgotten := by
  intro tag n s hs e t
  refine exec_checked (i := .forgetIndex tag n) rfl hs (show ownForgetIndex n (placed s) = _ from rfl) ?_ fun _ => ?_
  · have hpath : ((placed s).entry n).inPath = true ↔ _ := inPath_iff (s.entry n)
    simp only [firstRefusal, decide_eq_true_eq, Bool.or_eq_true, hpath]
    rfl
  · by_cases hlabel : e.label = []
    · have hempty : (!((placed s).entry n).label.isEmpty) = false := by
        rw [show ((placed s).entry n).label = [] from hlabel]
        rfl
      rw [if_pos hlabel]
      dsimp only
      rw [hempty]
      rfl
    · have hheld : (!((placed s).entry n).label.isEmpty) = true := by
        rw [Bool.not_eq_true', List.isEmpty_eq_false_iff]
        exact hlabel
      rw [if_neg hlabel]
      dsimp only
      rw [hheld]
      exact congrArg (fun u => Answer.mk u _ _) (offerPlanning_eq_offered _)

/-- Settles O26. -/
theorem directoryIsWritten : Obligations.DirectoryIsWritten := ⟨rollIsDescribed, indexIsForgotten⟩

theorem presenceIsTakenWhenStable : Obligations.PresenceIsTakenWhenStable := by
  intro n s hs hn hlen present e waited
  refine ⟨fun b => ?_, ?_⟩
  · have hsensor : s.presence.getD n b = present := by
      simp [present, List.getD_eq_getElem?_getD, hlen, hn]
    show execSlotPresenceChange n b s = _
    rw [execSlotPresenceChange, whenRunning_running hs]
    simp only [hsensor]
    rfl
  · show execPresenceStable n s = _
    rw [execPresenceStable, whenRunning_running hs]
    cases hsettling : s.cu.settling.getD n false with
    | false => rfl
    | true =>
      simp only [if_true, Bool.true_eq_false, if_false]
      refine congrArg Host.Outcome.next ?_
      have hentry : (s.modCu fun c => { c with settling := c.settling.set n false }).entry n = e := rfl
      have hpresent : (s.modCu fun c => { c with settling := c.settling.set n false }).presence.getD n false = present := rfl
      by_cases hinserted : present = true ∧ e.state = .empty
      · rw [if_pos hinserted, State.takePresence, hentry, hpresent, hinserted.1, hinserted.2]
        rfl
      · rw [if_neg hinserted]
        by_cases hremoved : present = false ∧ (e.state = .stored ∨ e.state = .rejected)
        · have htaken : (s.modCu fun c => { c with settling := c.settling.set n false }).takePresence n =
              (s.modCu fun c => { c with settling := c.settling.set n false }).removeCartridge n := by
            rw [State.takePresence, hentry, hpresent, hremoved.1]
            rcases hremoved.2 with h | h <;> rw [h]
          rw [if_pos hremoved, htaken]
          exact removeCartridge_eq _ _
        · rw [if_neg hremoved, State.takePresence, hentry, hpresent]
          split
          · exact absurd ⟨‹_›, ‹_›⟩ hinserted
          · exact absurd ⟨‹_›, .inl ‹_›⟩ hremoved
          · exact absurd ⟨‹_›, .inr ‹_›⟩ hremoved
          · rfl

end Sys2Proof.Proofs.Carousel

/-! Mounts, unmounts, threading and the carousel's timers (O27, O28, O29). -/

namespace Sys2Proof.Machine

open Expect

/-! ### TU follows TC (R27, R30, R35) -/

/-- What TU's following of TC out of UNLOADED keeps: a calibration short of its 64th sample is abandoned, and the codes stay. -/
structure Followed (u v : Tu) : Prop where
  status : v.calStatus = if u.calStatus = .inProgress ∧ u.calCount < 64 then .abandoned else u.calStatus
  count : v.calCount = if u.calStatus = .inProgress ∧ u.calCount < 64 then 0 else u.calCount
  zero : v.zeroCode = u.zeroCode
  limit : v.limitCode = u.limitCode

/-- The loop's and slack detection's fields differ alone. -/
structure SameCalibration (u v : Tu) : Prop where
  status : v.calStatus = u.calStatus
  count : v.calCount = u.calCount
  zero : v.zeroCode = u.zeroCode
  limit : v.limitCode = u.limitCode

theorem loopFollow_sameCalibration (s : State) : SameCalibration s.tu s.loopFollow.tu := by
  unfold State.loopFollow
  (repeat' split) <;> exact ⟨rfl, rfl, rfl, rfl⟩

theorem slackFollow_sameCalibration (s : State) : SameCalibration s.tu s.slackFollow.tu := by
  unfold State.slackFollow
  split <;> exact ⟨rfl, rfl, rfl, rfl⟩

theorem tensionFollow_followed {s : State} (h : s.tc.state ≠ .unloaded) : Followed s.tu s.tensionFollow.tu := by
  have hloop := loopFollow_sameCalibration s
  have hslack := slackFollow_sameCalibration s.loopFollow
  have hstate : s.loopFollow.slackFollow.tc.state ≠ .unloaded := by
    rw [(film_eq_iff.mp (slackFollow_film _)).1, (film_eq_iff.mp (loopFollow_film _)).1]
    exact h
  have hstatus := hslack.status.trans hloop.status
  have hcount := hslack.count.trans hloop.count
  have hzero := hslack.zero.trans hloop.zero
  have hlimit := hslack.limit.trans hloop.limit
  rw [State.tensionFollow, calibrationFollow_loaded hstate]
  by_cases hcal : s.tu.calStatus = .inProgress ∧ s.tu.calCount < 64
  · have hcal' : s.loopFollow.slackFollow.tu.calStatus = .inProgress ∧ s.loopFollow.slackFollow.tu.calCount < 64 := by
      rw [hstatus, hcount]
      exact hcal
    simp only [if_pos hcal']
    exact ⟨(if_pos hcal).symm, (if_pos hcal).symm, hzero, hlimit⟩
  · have hcal' : ¬ (s.loopFollow.slackFollow.tu.calStatus = .inProgress ∧ s.loopFollow.slackFollow.tu.calCount < 64) := by
      rw [hstatus, hcount]
      exact hcal
    simp only [if_neg hcal']
    exact ⟨hstatus.trans (if_neg hcal).symm, hcount.trans (if_neg hcal).symm, hzero, hlimit⟩

theorem Followed.trans {u v w : Tu} (h : Followed u v) (k : Followed v w) : Followed u w := by
  by_cases hcal : u.calStatus = .inProgress ∧ u.calCount < 64
  · have hstatus := h.status.trans (if_pos hcal)
    have hdone : ¬ (v.calStatus = .inProgress ∧ v.calCount < 64) := by simp [hstatus]
    exact ⟨((k.status.trans (if_neg hdone)).trans h.status), (k.count.trans (if_neg hdone)).trans h.count,
      k.zero.trans h.zero, k.limit.trans h.limit⟩
  · have hdone : ¬ (v.calStatus = .inProgress ∧ v.calCount < 64) := by
      rw [h.status, h.count, if_neg hcal, if_neg hcal]
      exact hcal
    exact ⟨((k.status.trans (if_neg hdone)).trans h.status), (k.count.trans (if_neg hdone)).trans h.count,
      k.zero.trans h.zero, k.limit.trans h.limit⟩

theorem tensionFollow_loopOn {s : State} (h : s.loopWanted = true) : s.tensionFollow.tu.loopOn = true := by
  have hloop : s.loopFollow.tu.loopOn = true := by
    rw [loopFollow_on h]
    show (if s.tu.loopOn = true then _ else _ : Tu).loopOn = true
    split
    · assumption
    · rfl
  unfold State.tensionFollow State.calibrationFollow State.slackFollow
  (repeat' split) <;> exact hloop

theorem tensionFollow_loopOff {s : State} (h : s.loopWanted = false) : s.tensionFollow.tu.loopOn = false := by
  have hloop : s.loopFollow.tu.loopOn = false := by
    unfold State.loopFollow
    rw [h]
    cases hon : s.tu.loopOn
    · exact hon
    · rfl
  unfold State.tensionFollow State.calibrationFollow State.slackFollow
  (repeat' split) <;> exact hloop

/-! ### Threading begins (R49, R50) -/

/-- TC enters THREADING before the carousel turns (R14, R49). -/
theorem startThreading_eq (s : State) :
    ∃ u, Followed s.tu u ∧
      s.startThreading =
        { s with
          tc :=
            { s.tc with
              state := .threading, motion := some (.threading { speedLimit := 5, accel := s.tc.settings.acceleration }),
              phase := .idle, travel := .none },
          tu := u, rs := motionNoted s.rs } := by
  obtain ⟨u, hu⟩ := tensionFollow_eq (s.noteMotion.modTc fun c => { c with state := .threading })
  refine ⟨u, ?_, ?_⟩
  · have hfollowed := tensionFollow_followed (s := s.noteMotion.modTc fun c => { c with state := .threading })
      (fun h => nomatch h)
    rw [hu] at hfollowed
    exact hfollowed
  · have henter : s.noteMotion.enter .threading = (s.noteMotion.modTc fun c => { c with state := .threading }).tensionFollow :=
      rfl
    unfold State.startThreading
    rw [henter, hu]
    rfl

/-- The threader is engaged (R14, R50). -/
theorem startThreader_eq {s : State} (h : s.tc.state = .threading) :
    ∃ u, Followed s.tu u ∧ u.loopOn = true ∧
      s.startThreader =
        { s with
          tc := { s.tc with phase := .creep, travel := .forward }, tu := u,
          cu :=
            { s.cu with
              rotation := none, rotationTimer := false, threader := .engaged, threadingTimer := true,
              gateReported := s.gateFilm } } := by
  let t : State :=
    { s with
      tc := { s.tc with phase := .creep, travel := .forward },
      cu :=
        { s.cu with
          rotation := none, rotationTimer := false, threader := .engaged, threadingTimer := true,
          gateReported := s.gateFilm } }
  have hstart : s.startThreader = t.tensionFollow := rfl
  obtain ⟨u, hu⟩ := tensionFollow_eq t
  have hfollowed : Followed s.tu t.tensionFollow.tu := tensionFollow_followed (s := t) fun hn => by
    rw [show t.tc.state = .threading from h] at hn
    exact nomatch hn
  have hwanted : t.loopWanted = true := by
    unfold State.loopWanted
    rw [show t.tc.state = .threading from h]
    rfl
  have hon := tensionFollow_loopOn hwanted
  rw [hu] at hfollowed hon
  exact ⟨u, hfollowed, hon, hstart.trans hu⟩

/-- A change of slot state (R42), its notice apart. -/
theorem post_li {s t : State} (h : t.li = s.li) (src : Source) (d : NoticeDetail) : (t.post src d).li = (s.post src d).li := by
  have hlevel : t.level src = s.level src := by rw [State.level, State.level, h]
  unfold State.post
  rw [hlevel]
  split
  · exact h
  · simp only [modLi_li, h]

theorem setSlotState_li (s : State) (n : Nat) (st : SlotState) :
    (s.setSlotState n st).li = (s.post .slotChange (.slotChange n st)).li :=
  post_li (s := s) (t := s.modEntry n fun e => { e with state := st }) rfl _ _

/-- A mount as it begins (R49): what the row writes, TU's following apart. -/
def mounting (s : State) (req : Requester) (n : Nat) : State :=
  { withEntry s n { s.entry n with state := .mounting } with
    tc :=
      { s.tc with
        state := .threading, motion := some (.threading { speedLimit := 5, accel := s.tc.settings.acceleration }),
        phase := .idle, travel := .none },
    cu :=
      { s.cu with
        entries := s.cu.entries.set n { s.entry n with state := .mounting }, lock := some n, opRequester := some req,
        gateReported := false },
    rs := motionNoted s.rs, li := (s.post .slotChange (.slotChange n .mounting)).li }

theorem beginMount_eq (s : State) (req : Requester) (n : Nat) :
    ∃ u, Followed s.tu u ∧
      s.beginMount req n =
        if s.cu.station = n ∧ s.cu.atPosition = true then ({ mounting s req n with tu := u } : State).startThreader
        else
          ({ mounting s req n with tu := u } : State).modCu fun c =>
            { c with rotation := some { target := n, ascending := turnsAscending c.station n }, rotationTimer := true } := by
  obtain ⟨l, hl⟩ := setSlotState_eq s n .mounting
  have hli := setSlotState_li s n .mounting
  rw [hl] at hli
  obtain ⟨u, hu, hstart⟩ := startThreading_eq ((s.setSlotState n .mounting).modCu fun c =>
    { c with lock := some n, opRequester := some req, gateReported := false })
  have hbegun : ((s.setSlotState n .mounting).modCu fun c =>
      { c with lock := some n, opRequester := some req, gateReported := false }).startThreading
        = { mounting s req n with tu := u } := by
    rw [hstart, hl]
    unfold mounting
    rw [← hli]
    rfl
  refine ⟨u, ?_, ?_⟩
  · rw [hl] at hu
    exact hu
  · unfold State.beginMount
    dsimp only
    rw [hbegun]

/-! ### An unmount begins (R54) -/

/-- TC takes a rewind (R14). -/
theorem startRewind_eq (s : State) (recovery : Bool) :
    ∃ u, s.startRewind recovery =
      { s with
        tc :=
          { s.tc with
            state := .rewinding,
            motion :=
              some (.rewind
                { recovery := recovery, speedLimit := if recovery then 5 else 4000, accel := s.tc.settings.acceleration,
                  capSpeed := s.tc.settings.scanSpeed }),
            phase :=
              nextPhase (if recovery then .creep else .travel) (s.rewindSlows s.tc.settings.acceleration) s.tc.speed,
            travel := .reverse },
        tu := u, rs := motionNoted s.rs } := by
  obtain ⟨u, hu⟩ := tensionFollow_eq (s.noteMotion.modTc fun c => { c with state := .rewinding })
  have henter : s.noteMotion.enter .rewinding = (s.noteMotion.modTc fun c => { c with state := .rewinding }).tensionFollow :=
    rfl
  refine ⟨u, ?_⟩
  unfold State.startRewind
  rw [henter, hu]
  rfl

theorem nextPhase_rewind (s : State) (a : Nat) :
    nextPhase .travel (s.rewindSlows a) s.tc.speed =
      if 100 * s.tc.speed ^ 2 < s.tc.position * (2 * a) then .travel
      else if s.tc.speed ≤ 5 then .creep
      else .decelerate := by
  have hslows : s.rewindSlows a = !decide (100 * s.tc.speed ^ 2 < s.tc.position * (2 * a)) := by
    rw [State.rewindSlows, ← decide_not]
    exact decide_eq_decide.mpr Nat.not_lt.symm
  rw [hslows]
  by_cases hfar : 100 * s.tc.speed ^ 2 < s.tc.position * (2 * a)
  · rw [decide_eq_true hfar, if_pos hfar]
    rfl
  · rw [decide_eq_false hfar, if_neg hfar]
    rfl

theorem removeIndexItem_eq (s : State) :
    s.removeIndexItem = { s with rs := { s.rs with items := s.rs.items.filter fun i => !isIndexItem i } } := by
  unfold State.removeIndexItem
  have hkept : (fun i : WorkItem => match i with | .indexPass _ _ => false | .focusProbe _ => true) =
      fun i => !isIndexItem i := by
    funext i
    cases i <;> rfl
  rw [← hkept]
  rfl

/-- An unmount as it begins: what the row writes, TU's following apart. -/
theorem beginUnmount_eq {s : State} {n : Nat} (hn : n < s.cu.entries.length) (req : Requester) :
    ∃ u, s.beginUnmount req n =
      { s with
        tc :=
          { s.tc with
            state := .rewinding,
            motion :=
              some (.rewind
                { recovery := false, speedLimit := 4000, accel := s.tc.settings.acceleration,
                  capSpeed := s.tc.settings.scanSpeed }),
            phase := nextPhase .travel (s.rewindSlows s.tc.settings.acceleration) s.tc.speed, travel := .reverse },
        tu := u,
        cu :=
          { s.cu with
            entries :=
              s.cu.entries.set n
                { s.entry n with
                  state := .unmounting, segments := s.ix.segments, landmarks := s.ix.landmarks, focusMap := s.fu.map },
            opRequester := some req },
        rs := { motionNoted s.rs with items := s.rs.items.filter (fun i => !isIndexItem i) },
        li := (s.post .slotChange (.slotChange n .unmounting)).li } := by
  obtain ⟨l, hl⟩ := setSlotState_eq (s.saveTables n) n .unmounting
  have hli := (setSlotState_li (s.saveTables n) n .unmounting).trans (post_li (s := s) (t := s.saveTables n) rfl _ _)
  have hentry : (s.saveTables n).entry n =
      { s.entry n with segments := s.ix.segments, landmarks := s.ix.landmarks, focusMap := s.fu.map } :=
    entry_withEntry hn _
  have hentries : (s.saveTables n).cu.entries.set n { (s.saveTables n).entry n with state := .unmounting } =
      s.cu.entries.set n
        { s.entry n with
          state := .unmounting, segments := s.ix.segments, landmarks := s.ix.landmarks, focusMap := s.fu.map } := by
    rw [hentry]
    exact List.set_set ..
  rw [hl] at hli
  obtain ⟨u, hu⟩ := startRewind_eq (((s.saveTables n).setSlotState n .unmounting).modCu fun c =>
    { c with opRequester := some req }) false
  refine ⟨u, ?_⟩
  unfold State.beginUnmount
  rw [hu, removeIndexItem_eq, hl, ← hli, ← hentries]
  rfl

end Sys2Proof.Machine

namespace Sys2Proof.Proofs.Carousel

open Sys2Proof.Machine Sys2Proof.Expect

theorem mountBegins : MountBegins := by
  intro tag n s hs hlen e refusal
  have hown : ownerOf (.mountRoll tag n) (placed s) = _ := show ownMountRoll n (placed s) = _ from rfl
  have hrefusal : refusal = firstRefusal
      [(decide ((placed s).rs.mode = .auto), .mode), (decide (11 < n), .range), ((placed s).latched, .halted),
        (decide ((placed s).tc.state ≠ .unloaded) || decide ((placed s).cu.threader = .retracting), .occupied),
        (decide (((placed s).entry n).state ≠ .stored) || ((placed s).entry n).description.isNone, .noRoll)] := by
    have hnone : ((placed s).entry n).description.isNone = true ↔ e.description = none := Option.isNone_iff_eq_none
    simp only [firstRefusal, decide_eq_true_eq, Bool.or_eq_true, hnone]
    rfl
  refine ⟨exec_refused (i := .mountRoll tag n) rfl hs hown hrefusal, fun hnone => ?_⟩
  obtain ⟨u, hu, hbegin⟩ := beginMount_eq (placed s) .host n
  have htaken (t : State) (ht : (placed s).beginMount .host n = t) :
      exec (.mountRoll tag n) s = .next (replied t tag 0x13 .accepted []) :=
    exec_taken (i := .mountRoll tag n) rfl hs hown hrefusal hnone (congrArg (fun t => Answer.mk t _ _) ht)
  by_cases hthere : s.cu.station = n ∧ s.cu.atPosition = true
  · obtain ⟨v, hv, hon, hthread⟩ := startThreader_eq (s := { mounting (placed s) .host n with tu := u }) rfl
    have hcal := hu.trans hv
    refine ⟨_, htaken _ ((hbegin.trans (if_pos hthere)).trans hthread), rfl, rfl, rfl, rfl, rfl, rfl, rfl, rfl, rfl, rfl,
      hcal.status, hcal.zero, hcal.limit, rfl, rfl, rfl, rfl, rfl, rfl, ?_⟩
    rw [if_pos hthere]
    exact ⟨rfl, rfl, rfl, hon, rfl, rfl⟩
  · refine ⟨_, htaken _ (hbegin.trans (if_neg hthere)), rfl, rfl, rfl, rfl, rfl, rfl, rfl, rfl, rfl, rfl,
      hu.status, hu.zero, hu.limit, rfl, rfl, rfl, rfl, rfl, rfl, ?_⟩
    rw [if_neg hthere]
    exact ⟨rfl, rfl, rfl⟩

theorem unmountBegins : UnmountBegins := by
  intro tag s hs hlen refusal
  have hown : ownerOf (.unmountRoll tag) (placed s) = _ := show ownUnmountRoll (placed s) = _ from rfl
  have hrefusal : refusal = firstRefusal
      [(decide ((placed s).rs.mode = .auto), .mode), ((placed s).latched, .halted),
        (decide ((placed s).tc.state = .unloaded), .noRoll),
        (decide ((placed s).tc.state ≠ .stopped) || (placed s).fu.probe.isSome, .busy)] := by
    have hprobe : (placed s).fu.probe.isSome = true ↔ s.fu.probe ≠ none := Option.isSome_iff_ne_none
    simp only [firstRefusal, decide_eq_true_eq, Bool.or_eq_true, hprobe]
    rfl
  refine ⟨exec_refused (i := .unmountRoll tag) rfl hs hown hrefusal, fun n hnone hslot => ?_⟩
  have hn : n < (placed s).cu.entries.length := (List.findIdx?_eq_some_iff_getElem.mp hslot).1
  obtain ⟨u, hu⟩ := beginUnmount_eq hn .host
  have hact : (placed s).withSome (placed s).mountedSlot (fun t n => t.beginUnmount .host n) =
      (placed s).beginUnmount .host n := by
    rw [show (placed s).mountedSlot = some n from hslot]
    rfl
  refine ⟨_, exec_taken (i := .unmountRoll tag) rfl hs hown hrefusal hnone (congrArg (fun t => Answer.mk t _ _) (hact.trans hu)), rfl,
    rfl, rfl, rfl, nextPhase_rewind s _, rfl, rfl, rfl, rfl, rfl, rfl, rfl, rfl, rfl, rfl, rfl, rfl⟩

/-- Settles O27. -/
theorem mountAndUnmountBegin : Obligations.MountAndUnmountBegin := ⟨mountBegins, unmountBegins⟩

end Sys2Proof.Proofs.Carousel

/-! Threading and the carousel's timers (O28, O29). -/

namespace Sys2Proof.Machine

open Expect

theorem passEnd_eq (s : State) (o : PassOutcome) : ∃ r l, s.passEnd o = { s with rs := r, li := l } := by
  unfold State.passEnd State.withSome
  split
  · rename_i p _
    obtain ⟨l, hl⟩ := post_eq (s.modRs fun r => { r with pass := none }) .passDone
      (.passDone p.kind o p.slot p.capturedJobs p.misframeJobs p.droppedJobs)
    dsimp only
    rw [hl]
    split
    · exact ⟨_, l, rfl⟩
    · rw [offerPlanning_eq]
      exact ⟨_, l, rfl⟩
  · exact ⟨s.rs, s.li, rfl⟩

theorem rsMountOutcome_eq (s : State) (n : Nat) (o : MountOutcome) :
    ∃ r l, s.rsMountOutcome n o = { s with rs := r, li := l } := by
  unfold State.rsMountOutcome
  split
  · cases o with
    | mounted =>
      obtain ⟨r, l, h⟩ := passEnd_eq (s.modRs fun r => { r with captureCount := 0, countedSlot := some n }) .completed
      exact ⟨r, l, h⟩
    | failed => exact passEnd_eq s .failed
    | halted => exact passEnd_eq s .halted
  · exact ⟨s.rs, s.li, rfl⟩

/-- CU's report of a mount's outcome: MOUNT_DONE, and RS's pass ends with it (R50, R51, R163). -/
theorem mountReport_eq (s : State) (n : Nat) (o : MountOutcome) :
    ∃ r l, (s.postMountDone n o).rsMountOutcome n o = { s with rs := r, li := l } := by
  obtain ⟨l, hl⟩ := post_eq s .mountDone (.mountDone n (s.entry n).label (s.entry n).description o)
  obtain ⟨r, l', h⟩ := rsMountOutcome_eq (s.postMountDone n o) n o
  refine ⟨r, l', h.trans ?_⟩
  rw [State.postMountDone, hl]

theorem installMap_booked (s : State) (m : List MapEntry) : Booked { s with fu := { s.fu with map := m } } (s.installMap m) :=
  each_booked (Booked.refl _) placeItem_booked

/-! ### A roll is threaded (R50) -/

/-- The part as completed threading leaves it, but for the queue and the notices. -/
def threadedRoll (s : State) (n : Nat) (u : Tu) (c : Cp) : State :=
  let e := s.entry n
  { s with
    tc := { s.tc.noMotion.atZero with threaded := true, state := .stopped }, tu := u,
    cu :=
      { s.cu with
        threadingTimer := false, threader := .retracted, opRequester := none,
        entries := s.cu.entries.set n { e with state := .mounted } },
    ix :=
      { s.ix with
        segments := e.segments, landmarks := e.landmarks, tracker := Tracker.reset, invalidMarks := 0,
        q0 := e.description.map (fun d => d.q0) },
    fu := { s.fu with map := e.focusMap },
    cp := { c with gauge := e.description.map (fun d => d.gauge), lampLevel := e.description.map (fun d => d.lampLevel) } }

theorem completeThreading_eq {s : State} {n : Nat} (hslot : s.mountedSlot = some n) :
    ∃ u c r l, s.completeThreading = { threadedRoll s n u c with rs := r, li := l } := by
  generalize hb : ((s.modCu fun c => { c with threadingTimer := false, threader := .retracted }).modTc fun c =>
    { c.noMotion.atZero with threaded := true }).enter .stopped = b
  have henter := hb.symm.trans (enter_stopped _)
  obtain ⟨l, hl⟩ := setSlotState_eq b n .mounted
  let e := s.entry n
  obtain ⟨q, c, l', hmap, -⟩ := installMap_booked
    ((b.setSlotState n .mounted).installIndex e.segments e.landmarks (e.description.map (fun d => d.q0))) e.focusMap
  have hcomplete : s.completeThreading =
      ((((((b.setSlotState n .mounted).installIndex e.segments e.landmarks (e.description.map (fun d => d.q0))).installMap
        e.focusMap).modCp fun x =>
          { x with
            gauge := e.description.map (fun d => d.gauge),
            lampLevel := e.description.map (fun d => d.lampLevel) }).postMountDone n .mounted).rsMountOutcome n
              .mounted).modCu fun x => { x with opRequester := none } := by
    unfold State.completeThreading
    rw [hslot, ← hb]
    rfl
  obtain ⟨r, l'', hreport⟩ := mountReport_eq
    ((((b.setSlotState n .mounted).installIndex e.segments e.landmarks (e.description.map (fun d => d.q0))).installMap
      e.focusMap).modCp fun x =>
        { x with
          gauge := e.description.map (fun d => d.gauge), lampLevel := e.description.map (fun d => d.lampLevel) }) n .mounted
  refine ⟨slackOff (inLoop s.reportedTension s.tu), c, r, l'', ?_⟩
  rw [hcomplete, hreport, hmap, hl, henter]
  rfl

/-! ### Threading fails (R51) -/

/-- An occurrence stands in the active set under its code, with its detail (R204). -/
theorem mem_faultAdd (e : FaultEntry) (l : List FaultEntry) : ∃ x ∈ faultAdd e l, x.code = e.code ∧ x.detail = e.detail := by
  induction l with
  | nil => exact ⟨e, List.mem_singleton_self e, rfl, rfl⟩
  | cons y rest ih =>
    unfold faultAdd
    split
    · exact ⟨_, List.mem_cons_self, rfl, rfl⟩
    · split
      · exact ⟨e, List.mem_cons_self, rfl, rfl⟩
      · obtain ⟨x, hx, hsame⟩ := ih
        exact ⟨x, List.mem_cons_of_mem _ hx, hsame⟩

theorem post_fm (s : State) (src : Source) (d : NoticeDetail) : (s.post src d).fm = s.fm := by
  obtain ⟨l, hl⟩ := post_eq s src d
  rw [hl]

theorem offerLog_active (s : State) (r : LogRecord) : (s.offerLog r).fm.active = s.fm.active := by
  unfold State.offerLog
  split
  · rfl
  · rfl
  · split
    · rfl
    · dsimp only
      split
      · rfl
      · rw [post_fm]
        rfl

theorem postFault_fm (s : State) (c : FaultCode) (k : FaultClass) (d : FaultDetail) : (s.postFault c k d).fm = s.fm := by
  obtain ⟨l, hl⟩ := postFault_eq s c k d
  rw [hl]

theorem faultOccur_mem (s : State) (c : FaultCode) (k : FaultClass) (d : FaultDetail) :
    ∃ e ∈ (s.faultOccur c k d).fm.active, e.code = c ∧ e.detail = d := by
  unfold State.faultOccur
  dsimp only
  rw [postFault_fm, offerLog_active]
  exact mem_faultAdd _ _

theorem enter_unloaded_loopOff (s : State) : (s.enter .unloaded).tu.loopOn = false := by
  have hfollow : ((s.modTc fun c => { c with state := .unloaded }).tensionFollow).tu.loopOn = false :=
    tensionFollow_loopOff rfl
  show (State.offerPlanning _).tu.loopOn = false
  rw [offerPlanning_eq]
  exact hfollow

/-- The part as failed threading leaves it, but for CP, the queue, the faults and the notices. -/
def unthreadedRoll (s : State) (n : Nat) (u : Tu) : State :=
  { s with
    tc := { s.tc.noMotion with state := .unloaded }, tu := u,
    cu :=
      { s.cu with
        threadingTimer := false, threader := .retracting, retractionTimer := true, opRequester := none,
        entries := s.cu.entries.set n { s.entry n with state := .rejected } } }

theorem failThreading_eq {s : State} {n : Nat} (hslot : s.mountedSlot = some n) (hpresent : s.presence.getD n false = true) :
    ∃ u c r l m, u.loopOn = false ∧ (∃ e ∈ m.active, e.code = .threadFailed ∧ e.detail = .threadFailed n s.cu.gateReported) ∧
      s.failThreading = { unthreadedRoll s n u with cp := c, rs := r, li := l, fm := m } := by
  generalize ha : (((s.modCu fun c => { c with threadingTimer := false }).modTc Tc.noMotion).enter .unloaded) = a
  obtain ⟨u, hu⟩ := enter_unloaded_eq ((s.modCu fun c => { c with threadingTimer := false }).modTc Tc.noMotion)
  have hloop : a.tu.loopOn = false := ha ▸ enter_unloaded_loopOff _
  rw [ha] at hu
  obtain ⟨l, hl⟩ := setSlotState_eq a n .rejected
  obtain ⟨m, l', hfault⟩ := faultOccur_eq (a.setSlotState n .rejected) .threadFailed .minor
    (.threadFailed n s.cu.gateReported)
  have hmem := faultOccur_mem (a.setSlotState n .rejected) .threadFailed .minor (.threadFailed n s.cu.gateReported)
  obtain ⟨r, l'', hreport⟩ := mountReport_eq
    ((a.setSlotState n .rejected).faultOccur .threadFailed .minor (.threadFailed n s.cu.gateReported)) n .failed
  have hfail : s.failThreading =
      ((((((a.setSlotState n .rejected).faultOccur .threadFailed .minor (.threadFailed n s.cu.gateReported)).postMountDone n
        .failed).rsMountOutcome n .failed).startRetraction).modCu fun x => { x with opRequester := none }).presenceCheck n := by
    unfold State.failThreading
    rw [hslot]
    dsimp only [State.withSome]
    rw [ha]
  rw [hfault] at hmem
  rw [hreport, hfault, hl] at hfail
  refine ⟨u, { s.cp with gauge := none, lampLevel := none }, r, l'', m, ?_, hmem, hfail.trans ((presenceCheck_present ?_).trans ?_)⟩
  · rw [hu] at hloop
    exact hloop
  · rw [hu]
    exact hpresent
  · rw [hu]
    rfl

end Sys2Proof.Machine

namespace Sys2Proof.Proofs.Carousel

open Sys2Proof.Machine Sys2Proof.Expect

/-- Settles O28. -/
theorem rollIsThreaded : Obligations.RollIsThreaded := by
  intro s hs hlen
  refine ⟨fun station at_ => ?_, fun hnot => ?_, fun n hstate hthreader hgate htension hslot => ?_⟩
  · intro read
    have hexec : exec (.carouselPositionChange station at_) s = .next (read.onlyIf read.rotationEnded State.startThreader) := by
      show execCarouselPositionChange station at_ s = _
      rw [execCarouselPositionChange, whenRunning_running hs]
      rfl
    have hended : read.rotationEnded = true ↔ ∃ r, s.cu.rotation = some r ∧ r.target = station ∧ at_ = true := by
      show (match s.cu.rotation with
        | some r => decide (r.target = station) && at_
        | none => false) = true ↔ _
      cases s.cu.rotation <;> simp
    refine ⟨fun hnot => ?_, fun r hr htarget hat hstate => ?_⟩
    · rw [hexec, State.onlyIf, if_neg fun h => hnot (hended.mp h)]
    · obtain ⟨u, -, hon, hthread⟩ := startThreader_eq (s := read) hstate
      refine ⟨read.startThreader, ?_, ?_⟩
      · rw [hexec, State.onlyIf, if_pos (hended.mpr ⟨r, hr, htarget, hat⟩)]
      · rw [hthread]
        exact ⟨rfl, rfl, hon, rfl, rfl, rfl, rfl⟩
  · show execThreadingComplete s = _
    rw [execThreadingComplete, whenRunning_running hs, if_neg hnot]
  · obtain ⟨u, c, r, l, hcomplete⟩ := completeThreading_eq hslot
    refine ⟨{ threadedRoll s n u c with rs := r, li := l }, ?_, rfl, rfl, rfl, rfl, rfl, rfl, rfl, rfl, rfl, rfl, rfl, rfl,
      rfl, rfl, rfl, rfl, rfl, rfl, rfl⟩
    show execThreadingComplete s = _
    rw [execThreadingComplete, whenRunning_running hs, if_pos ⟨hstate, hthreader, hgate, htension⟩, hcomplete]

/-- Settles O29. -/
theorem carouselTimersAct : Obligations.CarouselTimersAct := by
  intro s hs hlen
  refine ⟨fun hoff => ?_, fun r hr hon => ?_, ?_, fun hoff => ?_, fun n hon hslot hpresent => ?_, fun hnot => ?_,
    fun n hretracting hlock hpresent => ?_⟩
  · show execRotationTimeout s = _
    rw [execRotationTimeout, whenRunning_running hs, hoff]
    split <;> rfl
  · show execRotationTimeout s = _
    rw [execRotationTimeout, whenRunning_running hs, hr, hon]
    rfl
  · show execRetractionTimeout s = _
    rw [execRetractionTimeout, whenRunning_running hs]
    rfl
  · show execThreadingTimeout s = _
    rw [execThreadingTimeout, whenRunning_running hs, hoff]
    rfl
  · obtain ⟨u, c, r, l, m, hloop, hfault, hfail⟩ := failThreading_eq hslot hpresent
    refine ⟨{ unthreadedRoll s n u with cp := c, rs := r, li := l, fm := m }, ?_, rfl, rfl, hloop, rfl, rfl, rfl, rfl, rfl,
      hfault, rfl, rfl, rfl, rfl⟩
    show execThreadingTimeout s = _
    rw [execThreadingTimeout, whenRunning_running hs, hon, if_pos rfl, hfail]
  · show execLeaderRetracted s = _
    rw [execLeaderRetracted, whenRunning_running hs, if_neg hnot]
  · show execLeaderRetracted s = _
    rw [execLeaderRetracted, whenRunning_running hs, if_pos hretracting, hlock]
    show Host.Outcome.next
      ((s.modCu fun c => { c with threader := .retracted, retractionTimer := false, lock := none }).presenceCheck
        n).offerPlanning = _
    rw [presenceCheck_present (by exact hpresent), offerPlanning_eq_offered]
    rfl

end Sys2Proof.Proofs.Carousel

/-! The index as marks are read and frames looked up (O33 to O37, O39). -/

namespace Sys2Proof.Machine

open Expect

/-- Checks before an action that refuses too. -/
theorem checked_then_refused {s : State} {cs : List (Bool × Status)} {act : State → Answer} {r : Status}
    (h : act s = s.refuse r) : checked s cs act = s.refuse ((firstRefusal cs).getD r) := by
  rw [checked_eq, h]
  cases firstRefusal cs <;> rfl

theorem placed_tc (s : State) : (placed s).tc = s.tc := rfl

/-! ### The marks (R59, R60, R63) -/

theorem edgeReadable_iff {s : State} : s.edgeReadable = true ↔ s.tc.speed ≤ 1500 ∧ s.tc.underrun = 0 := by
  rw [State.edgeReadable, Bool.and_eq_true, decide_eq_true_eq, decide_eq_true_eq]
  rfl

theorem exec_first_edge (p : Nat) {s : State} (hr : s.resetHeld = false) :
    exec (.edgeMark .first p) s =
      .next
        (s.modIx fun x =>
          { x with
            firstEdge := if s.edgeReadable then some { position := p, direction := s.tc.direction } else none }) := by
  rw [exec_edgeMark, execEdgeMark, whenRunning_running hr]

/-- A second edge without a first one is not a mark (R59). -/
theorem exec_second_edge_alone (p : Nat) {s : State} (hr : s.resetHeld = false) (he : s.ix.firstEdge = none) :
    exec (.edgeMark .second p) s = .next s := by
  have hsame : (s.modIx fun x => { x with firstEdge := none }) = s := by
    rw [← he]
    rfl
  rw [exec_edgeMark, execEdgeMark, whenRunning_running hr]
  dsimp only
  rw [he, hsame]
  rfl

/-- Where an edge is not readable, or the direction changed, the second edge only lifts the first (R59). -/
theorem exec_second_edge_unread (p : Nat) {e : FirstEdge} {s : State} (hr : s.resetHeld = false)
    (he : s.ix.firstEdge = some e) (h : ¬ (s.edgeReadable = true ∧ s.tc.direction = e.direction)) :
    exec (.edgeMark .second p) s = .next (s.modIx fun x => { x with firstEdge := none }) := by
  rw [exec_edgeMark, execEdgeMark, whenRunning_running hr]
  dsimp only
  rw [he]
  exact congrArg Host.Outcome.next (if_neg h)

/-- A mark shorter than 20 ticks is noise (R60). -/
theorem readMark_of_short_length {s : State} {e : FirstEdge} {p : Nat} (h : distance e.position p < 20) :
    s.readMark e p = s := by
  have hc : classify s.ix.classes (distance e.position p) = .noise := if_pos h
  simp [State.readMark, hc]

/-- At rest a mark is read as the position of the second edge says (R59). -/
theorem readMark_at_rest {s : State} {e : FirstEdge} {p : Nat} {c : MarkClass} (hd : e.direction = .none)
    (hc : classify s.ix.classes (distance e.position p) = .mark c) :
    s.readMark e p = s.trackMark (decide (e.position ≤ p)) (min e.position p) c := by
  simp [State.readMark, hc, hd, markPosition]

/-- With no job in the list IX's report of a mark reaches nobody (R132). -/
theorem markReported_of_no_jobs {s : State} (h : s.cp.jobs = none) (g m : Nat) : s.markReported g m = s := by
  have hlist : s.jobList = [] := by simp [State.jobList, h]
  rw [State.markReported, hlist]
  rfl

/-- A SHORT mark is no landmark (R73). -/
theorem offerLandmark_short (s : State) (f m : Nat) : s.offerLandmark f m .short = s := rfl

theorem atFrontier_of_no_pass {s : State} (h : s.ix.pass = none) : s.atFrontier = false := by
  simp [State.atFrontier, h]

theorem indexRun_of_no_pass {s : State} (h : s.ix.pass = none) : s.indexRun = false := by
  simp [State.indexRun, h]

theorem frontierCount_of_no_pass {s : State} (h : s.ix.pass = none) (g : Segment) (f m n : Nat) :
    s.frontierCount g f m n = s := by
  rw [State.frontierCount, State.reachFrontier, modIndexPass_of_none h, atFrontier_of_no_pass h]
  rfl

theorem plainRun_of_no_pass {s : State} (h : s.ix.pass = none) : s.plainRun = decide (s.tc.state = .scanning) := by
  simp [State.plainRun, indexRun_of_no_pass h]

theorem observe_tc (s : State) (g : Segment) (f m : Nat) : (s.observe g f m).tc = s.tc := by
  rw [observe_eq]
  dsimp only
  split
  · exact faultOccur_tc _ _ _ _
  · rfl

theorem observe_cp (s : State) (g : Segment) (f m : Nat) : (s.observe g f m).cp = s.cp := by
  rw [observe_eq]
  dsimp only
  split
  · rename_i h
    obtain ⟨r, l, heq⟩ := faultOccur_eq (s.modSegment g.number fun x => observed s.ix.shift x f m) .pitchDrift .minor
      (.pitchDrift s.rollSlot g.number f (residual g f m) g.pitch)
    rw [heq]
    rfl
  · rfl

/-- Outside a pass and a capture a counted SHORT mark moves the tracker and is observed (R63, R90). -/
theorem countMark_plain {s : State} (hp : s.ix.pass = none) (hj : s.cp.jobs = none) (g : Segment) (f m n : Nat) :
    s.countMark g f m n .short =
      (let t := s.modTracker fun k => k.toCounting f g.number m .short
       if s.tc.state = .scanning ∧ s.lastIndexed < f then t else t.observe g f m) := by
  unfold State.countMark
  rw [frontierCount_of_no_pass (by exact hp)]
  dsimp only
  rw [plainRun_of_no_pass (by exact hp)]
  have hcond : (decide ((s.modTracker fun k => k.toCounting f g.number m .short).tc.state = .scanning)
        && decide ((s.modTracker fun k => k.toCounting f g.number m .short).lastIndexed < f)) =
      decide (s.tc.state = .scanning ∧ s.lastIndexed < f) := (Bool.decide_and _ _).symm
  rw [hcond, offerLandmark_short]
  by_cases h : s.tc.state = .scanning ∧ s.lastIndexed < f
  · rw [decide_eq_true h, if_pos h, if_pos rfl]
    exact markReported_of_no_jobs (s := s.modTracker _) hj f m
  · rw [decide_eq_false h, if_neg h, if_neg (by decide)]
    exact markReported_of_no_jobs
      ((congrArg Cp.jobs (observe_cp (s.modTracker fun k => k.toCounting f g.number m .short) g f m)).trans hj) f m

/-- A forward mark's step is the rounded number of pitches from the last one (R63). -/
theorem markStep_bounds {g : Segment} (hq : 0 < g.pitch) (l m : Nat) :
    let n := markStep g true l m
    n * g.pitch ≤ ((m : Int) - l) * 256 + (g.pitch / 2 : Nat)
      ∧ ((m : Int) - l) * 256 + (g.pitch / 2 : Nat) < (n + 1) * g.pitch :=
  have hpos : (0 : Int) < g.pitch := Int.natCast_pos.mpr hq
  ⟨Int.ediv_mul_le _ (Int.ne_of_gt hpos), Int.lt_ediv_add_one_mul_self _ hpos⟩

/-- A forward mark in COUNTING in an open segment, by its step (R63). -/
theorem stepMark_forward {s : State} {g : Segment} {f m : Nat} {l : LastMark} (hg : s.currentSegment = some g)
    (hf : s.ix.tracker.frame = some f) (hl : s.ix.tracker.lastMark = some l) (hopen : g.lastFrame = none)
    (hfirst : g.firstFrame ≤ f) (c : MarkClass) :
    let n := markStep g true l.position m
    (n ≤ 0 → s.stepMark true m c = s.strayMark)
      ∧ (0 < n → f + n ≤ 65535 → s.stepMark true m c = s.countMark g (f + n.toNat) m n.toNat c) := by
  intro n
  have hstep : s.stepMark true m c =
      if n ≤ 0 then s.strayMark
      else if 65535 < (f : Int) + n then s.frameLimit g f l.position m
      else if decide ((g.firstFrame : Int) ≤ f + n) && true then s.countMark g ((f : Int) + n).toNat m n.toNat c
      else s.leaveSegment g true m c := by
    unfold State.stepMark
    rw [hg, hf, hl]
    dsimp only
    rw [hopen]
    rfl
  refine ⟨fun hn => hstep.trans (if_pos hn), fun hn hlim => ?_⟩
  have hsum : ((f : Int) + n).toNat = f + n.toNat := by omega
  rw [hstep, if_neg (by omega), if_neg (by omega), if_pos (by simp; omega), hsum]

/-- Without a pass a mark in COUNTING goes to the step rule (R63). -/
theorem trackMark_counting {s : State} (hp : s.ix.pass = none) (hc : s.ix.tracker.state = .counting) (forward : Bool)
    (m : Nat) (c : MarkClass) : s.trackMark forward m c = s.stepMark forward m c := by
  unfold State.trackMark
  rw [modIndexPass_of_none hp, hc]

/-! ### The splice (R69) -/

theorem exec_spliceEvent (p : Nat) {s : State} (hr : s.resetHeld = false) : exec (.spliceEvent p) s = .next (s.splice p) := by
  show execSpliceEvent p s = _
  rw [execSpliceEvent, whenRunning_running hr]

/-! ### The formulas (R86 to R89) -/

/-- A rounded quotient by 256. -/
theorem rounded_div_256 (x : Int) : (x + 128) / 256 * 256 ≤ x + 128 ∧ x + 128 < ((x + 128) / 256 + 1) * 256 := by
  omega

theorem toNat_clampInt {lo : Nat} {hi z : Int} (h : (lo : Int) ≤ hi) : ((clampInt lo hi z).toNat : Int) = clampInt lo hi z := by
  unfold clampInt
  split
  · omega
  · split <;> omega

theorem captureWindow_provisional {g : Segment} (h : g.learning = .provisional) :
    captureWindow g = max 8 (g.pitch / 1024) := by
  rw [captureWindow, h]

theorem captureWindow_learned {g : Segment} (h : g.learning = .learned ∨ g.learning = .drifted) :
    captureWindow g = max 8 (g.pitch / 2048) := by
  rcases h with h | h <;> rw [captureWindow, h]

/-! ### Placed positions (R87) -/

/-- The raw prediction within the segment's bounds (R87). -/
def boundedPrediction (g : Segment) (f : Nat) : Nat := (clampInt g.startPos (upperBound g) (predict g f)).toNat

theorem boundedPrediction_cases {g : Segment} (h : g.startPos ≤ upperBound g) (f : Nat) :
    g.startPos ≤ boundedPrediction g f ∧ boundedPrediction g f ≤ upperBound g
      ∧ ((boundedPrediction g f : Int) = predict g f
        ∨ boundedPrediction g f = g.startPos ∧ predict g f < g.startPos
        ∨ boundedPrediction g f = upperBound g ∧ (upperBound g : Int) < predict g f) := by
  unfold boundedPrediction clampInt
  split
  · omega
  · split <;> omega

theorem placeIn_without_length (g : Segment) (f : Nat) :
    placeIn g none f =
      .placed
        { segment := g.number, position := boundedPrediction g f,
          clamped := decide ((boundedPrediction g f : Int) ≠ predict g f) } := rfl

theorem placeIn_with_length (g : Segment) (l f : Nat) :
    placeIn g (some l) f =
      if l - 2000 < g.startPos then .beyondGuard
      else
        .placed
          { segment := g.number, position := min (boundedPrediction g f) (l - 2000),
            clamped :=
              decide ((boundedPrediction g f : Int) ≠ predict g f) || decide (l - 2000 < boundedPrediction g f) } := rfl

/-- What R87 says of an answer of `placeIn`. -/
def PlacedWithin (g : Segment) (length : Option Nat) (f : Nat) : PlaceAnswer → Prop
  | .placed p =>
    p.segment = g.number ∧ g.startPos ≤ p.position ∧ p.position ≤ upperBound g
      ∧ (∀ l, length = some l → p.position ≤ l - 2000)
      ∧ (p.clamped = true ↔ (p.position : Int) ≠ predict g f)
  | .beyondGuard => ∃ l, length = some l ∧ l - 2000 < g.startPos
  | .notPlaced => False

theorem placeIn_within {g : Segment} (h : g.startPos ≤ upperBound g) (length : Option Nat) (f : Nat) :
    PlacedWithin g length f (placeIn g length f) := by
  obtain ⟨hlow, hhigh, hraw⟩ := boundedPrediction_cases h f
  cases length with
  | none =>
    rw [placeIn_without_length]
    exact ⟨rfl, hlow, hhigh, fun _ hl => (nomatch hl), decide_eq_true_iff⟩
  | some l =>
    rw [placeIn_with_length]
    by_cases hguard : l - 2000 < g.startPos
    · rw [if_pos hguard]
      exact ⟨l, rfl, hguard⟩
    · rw [if_neg hguard]
      refine ⟨rfl, by dsimp only; omega, by dsimp only; omega, fun k hk => ?_, ?_⟩
      · obtain rfl : l = k := Option.some.inj hk
        exact Nat.min_le_right _ _
      · simp only [Bool.or_eq_true, decide_eq_true_eq]
        omega

end Sys2Proof.Machine

namespace Sys2Proof.Proofs.Marks

open Sys2Proof.Machine Sys2Proof.Expect

/-- Settles O33: the second edge by whether it is readable, and the mark by its length. -/
theorem markIsReadFromItsEdges : Obligations.MarkIsReadFromItsEdges := by
  intro p s hr readable lifted
  have hreadable : readable = s.edgeReadable := (Bool.decide_and _ _)
  refine ⟨?_, fun he => exec_second_edge_alone p hr he, fun e he => ?_⟩
  · rw [exec_first_edge p hr, hreadable]
    rfl
  intro long
  refine ⟨fun h => ?_, fun hread hdir => ?_⟩
  · refine exec_second_edge_unread p hr he fun ⟨hread, hdir⟩ => ?_
    rcases h with h | h
    · exact absurd (hreadable.trans hread) (by rw [h]; decide)
    · exact h hdir
  have hedge : exec (.edgeMark .second p) s = .next ((lifted.readMark e p).settleSince lifted) :=
    exec_second_edge hr he (hreadable.symm.trans hread) hdir
  refine ⟨fun hnoise => ?_, fun hlong hshort hmedium hmax => ?_, fun hrest hlong hshort => ?_⟩
  · rw [hedge, readMark_of_short_length hnoise, settleSince_same (by rfl)]
  · have hc : classify lifted.ix.classes long = .invalid := by
      rw [classify_of_long hlong]
      exact (if_neg (Nat.not_le.mpr hshort)).trans
        ((if_neg (Nat.not_le.mpr hmedium)).trans (if_neg (Nat.not_le.mpr hmax)))
    rw [hedge, readMark_of_invalid hc, settleSince_same (by rfl)]
    rfl
  · have hc : classify lifted.ix.classes long = .mark .short := (classify_of_long hlong _).trans (if_pos hshort)
    rw [hedge, readMark_at_rest hrest hc]

/-- Settles O34: the mark is SHORT and goes to the step rule; a counted one is observed, which moves no film. -/
theorem markIsCounted : Obligations.MarkIsCounted := by
  intro m p f g l s hr hspeed hunder hdir hpass hjobs hedge hlong hshort hcount hseg hframe hlast hopen hfirst hpitch n lifted
    counted
  have hdist : distance m p = p - m := by
    unfold distance
    omega
  have hread : s.edgeReadable = true := edgeReadable_iff.mpr ⟨hspeed, hunder⟩
  have hc : classify lifted.ix.classes (distance m p) = .mark .short := by
    rw [hdist, classify_of_long (by omega)]
    exact if_pos (by show p - m ≤ s.ix.classes.shortMax; omega)
  have htrack : exec (.edgeMark .second p) s = .next ((lifted.stepMark true m .short).settleSince lifted) := by
    rw [exec_second_edge hr hedge hread hdir]
    refine congrArg (fun t => Host.Outcome.next (State.settleSince t lifted)) ?_
    rw [readMark_of_mark (by simp) hc]
    exact trackMark_counting (s := lifted) hpass hcount true m .short
  obtain ⟨hstray, hcounted⟩ := stepMark_forward (s := lifted) (m := m) hseg hframe hlast hopen hfirst .short
  refine ⟨markStep_bounds hpitch l.position m, fun hn => ?_, fun hn hlim => ?_⟩
  · rw [htrack, hstray hn, settleSince_same (by rfl)]
    rfl
  · rw [htrack, hcounted hn hlim, countMark_plain (s := lifted) hpass hjobs]
    have hmoved : (lifted.modTracker fun k => k.toCounting (f + n.toNat) g.number m .short) = counted := rfl
    dsimp only
    rw [hmoved]
    by_cases h : s.tc.state = .scanning ∧ s.lastIndexed < f + n.toNat
    · rw [if_pos h, if_pos (by exact h), settleSince_same (by rfl)]
    · rw [if_neg h, if_neg (by exact h), settleSince_same]
      exact congrArg Tc.phase (observe_tc counted g (f + n.toNat) m)

/-- Settles O35: the splice rule by its condition, and by whether the last segment is open. -/
theorem spliceClosesTheSegment : Obligations.SpliceClosesTheSegment := by
  intro p s hr
  refine ⟨fun h => ?_, fun g q f hfront hcount hdir hlast hpass hframe => ?_⟩
  · rw [exec_spliceEvent p hr, State.splice, if_neg h]
  · rw [exec_spliceEvent p hr, State.splice, if_pos ⟨hfront, hcount, hdir⟩, hlast]
    dsimp only
    rw [hframe]
    cases hclosed : g.lastFrame with
    | none =>
      rw [if_pos rfl]
      simp only [State.modIndexPass, State.modSegment, State.modIx, hpass]
      rfl
    | some e =>
      rw [if_neg (by simp)]
      simp only [State.modIndexPass, State.modIx, hpass]
      rfl

/-! ### Formulas and lookups -/

theorem rawPrediction : RawPrediction := by
  intro g f d moved
  have hmoved : moved = (d * g.pitch + 128) / 256 := by
    rw [show moved = predict g f - g.anchorPos from rfl, predict, Int.add_comm]
    exact Int.add_sub_cancel _ _
  rw [hmoved]
  exact rounded_div_256 _

theorem inverseOfAPosition : InverseOfAPosition := by
  intro g highest p hq last hle
  have hpos : (0 : Int) < g.pitch := Int.natCast_pos.mpr hq
  have hlast : last = lastPlaced highest g := by
    unfold lastPlaced
    cases h : g.lastFrame <;> simp [last, h]
  refine ⟨_, Int.ediv_mul_le _ (Int.ne_of_gt hpos), Int.lt_ediv_add_one_mul_self _ hpos, ?_⟩
  rw [inverse, toNat_clampInt (by exact_mod_cast hlast ▸ hle), hlast]
  rfl

theorem captureWindowOfASegment : CaptureWindowOfASegment := by
  refine fun g => ⟨captureWindow_provisional, captureWindow_learned, fun hlow hhigh => ?_⟩
  cases h : g.learning with
  | provisional =>
    rw [captureWindow_provisional h]
    omega
  | learned =>
    rw [captureWindow_learned (.inl h)]
    omega
  | drifted =>
    rw [captureWindow_learned (.inr h)]
    omega

/-- Settles O36: the two rounded quotients, and the window by the learning state. -/
theorem indexFormulas : Obligations.IndexFormulas := ⟨rawPrediction, inverseOfAPosition, captureWindowOfASegment⟩

/-- Settles O37: the prediction within the bounds, with and without a roll length. -/
theorem placedPositionsAreBounded : Obligations.PlacedPositionsAreBounded := by
  intro g length f h
  have hwithin := placeIn_within h length f
  cases hp : placeIn g length f with
  | placed p =>
    rw [hp] at hwithin
    exact hwithin
  | beyondGuard =>
    rw [hp] at hwithin
    exact hwithin
  | notPlaced =>
    rw [hp] at hwithin
    exact hwithin

theorem exec_locateFrame_answered (tag : Byte) (f : Nat) {s : State} (h : Listening s) :
    (∀ p g, s.placeLive f = .placed p → findFrame s.ix.segments s.highestPlaced f = some g →
      exec (.locateFrame tag f) s =
        .next
          (answered s tag 0x1C
            (if f = 0 then some .range else if s.tc.state = .unloaded then some .noRoll else none) (placed s) .ok
            (locateData s f g p)))
      ∧ ((∀ p g, s.placeLive f = .placed p → findFrame s.ix.segments s.highestPlaced f ≠ some g) →
        exec (.locateFrame tag f) s =
          .next
            (replied (placed s) tag 0x1C
              (if f = 0 then .range else if s.tc.state = .unloaded then .noRoll else .notInRoll) [])) := by
  refine ⟨fun p g hp hg => ?_, fun hnone => ?_⟩
  · refine exec_checked (i := .locateFrame tag f) rfl h (show ownLocateFrame f (placed s) = _ from rfl) ?_ fun _ => ?_
    · simp only [firstRefusal, decide_eq_true_eq]
      rfl
    · have hp' : (placed s).placeLive f = .placed p := hp
      have hg' : findFrame (placed s).ix.segments (placed s).highestPlaced f = some g := hg
      simp only [hp', hg']
      rfl
  · refine exec_of_answer (i := .locateFrame tag f) rfl h ?_
    show ownLocateFrame f (placed s) = _
    unfold ownLocateFrame
    rw [checked_then_refused (r := .notInRoll)]
    · by_cases hzero : f = 0
      · simp [firstRefusal, State.refuse, hzero]
      · rw [placed_tc]
        by_cases hstate : s.tc.state = .unloaded <;> simp [firstRefusal, State.refuse, hzero, hstate]
    · split
      · rename_i p g hp hg
        exact absurd hg (hnone p g hp)
      · rfl

theorem exec_frameAt_answered (tag : Byte) (p : Nat) {s : State} (h : Listening s) :
    (∀ g, segmentAt s.ix.segments p = some g →
      exec (.frameAt tag p) s =
        .next
          (answered s tag 0x1D
            (if 16777215 < p then some .range else if s.tc.state = .unloaded then some .noRoll else none) (placed s) .ok
            (u8 g.number ++ u16 (inverse g s.highestPlaced p) ++ i32 (predict g (inverse g s.highestPlaced p)))))
      ∧ (segmentAt s.ix.segments p = none →
        exec (.frameAt tag p) s =
          .next
            (replied (placed s) tag 0x1D
              (if 16777215 < p then .range else if s.tc.state = .unloaded then .noRoll else .notInRoll) [])) := by
  refine ⟨fun g hg => ?_, fun hnone => ?_⟩
  · refine exec_checked (i := .frameAt tag p) rfl h (show ownFrameAt p (placed s) = _ from rfl) ?_ fun _ => ?_
    · simp only [firstRefusal, decide_eq_true_eq]
      rfl
    · have hg' : segmentAt (placed s).ix.segments p = some g := hg
      simp only [hg']
      rfl
  · refine exec_of_answer (i := .frameAt tag p) rfl h ?_
    show ownFrameAt p (placed s) = _
    unfold ownFrameAt
    rw [checked_then_refused (r := .notInRoll)]
    · by_cases hrange : 16777215 < p
      · simp [firstRefusal, State.refuse, maxPosition, hrange]
      · rw [placed_tc]
        by_cases hstate : s.tc.state = .unloaded <;> simp [firstRefusal, State.refuse, maxPosition, hrange, hstate]
    · have hnone' : segmentAt (placed s).ix.segments p = none := hnone
      rw [hnone']

/-- Settles O39: the two checks of each lookup, then what the index places. -/
theorem frameLookups : Obligations.FrameLookups := by
  intro tag f p s h
  refine ⟨?_, ?_⟩
  · obtain ⟨hfound, hmissing⟩ := exec_locateFrame_answered tag f h
    split
    · rename_i at_ g hp hg
      exact hfound at_ g hp hg
    · rename_i hnone
      exact hmissing fun q g hp hg => hnone q g hp hg
  · obtain ⟨hfound, hmissing⟩ := exec_frameAt_answered tag p h
    split
    · rename_i g hg
      exact hfound g hg
    · rename_i hg
      exact hmissing hg

end Sys2Proof.Proofs.Marks

/-! The index pass as it is ordered (O40). -/

namespace Sys2Proof.Machine

open Expect

/-- Where nothing is refused every check has passed. -/
theorem firstRefusal_passed {cs : List (Bool × Status)} (h : firstRefusal cs = none) {b : Bool} {r : Status}
    (hc : (b, r) ∈ cs) : b = false := by
  induction cs with
  | nil => exact (List.not_mem_nil hc).elim
  | cons c rest ih =>
    obtain ⟨b', r'⟩ := c
    cases b' with
    | true => exact (nomatch h)
    | false =>
      rcases List.mem_cons.mp hc with hc | hc
      · exact congrArg Prod.fst hc
      · exact ih h hc

/-! ### A fresh pass at P = 0 (R75) -/

/-- The record of a FRESH pass whose run is in progress. -/
def freshPass (req : Requester) (target : Option Nat) : IndexPass :=
  { kind := .fresh, target := target, requester := req, phase := .run, frontier := true, countedTo := 0,
    pending := none, lastAtStart := none, startedLost := false, firstMarkDue := false, failed := false,
    limitHit := false, trailer := none }

/-- The index run that IX orders. -/
def indexRunOf (s : State) : Run :=
  { requester := .ix, purpose := .index, speed := s.tc.settings.indexSpeed, accel := s.tc.settings.acceleration,
    endPosition := none }

/-- The part with a FRESH pass's run taken at P = 0, TU's values being u. -/
def freshRunning (s : State) (n : Nat) (req : Requester) (target : Option Nat) (u : Tu) : State :=
  { s with
    tc := { s.tc with state := .scanning, motion := some (.run (indexRunOf s)), phase := .travel, travel := .forward },
    tu := u,
    cu :=
      { s.cu with
        entries :=
          s.cu.entries.set n { s.entry n with indexState := .unindexed, lastIndexed := none, landmarksDropped := false } },
    ix :=
      { s.ix with
        segments := [], landmarks := [], tracker := { s.ix.tracker.toNone with leaderArmed := true },
        pass := some (freshPass req target) },
    rs := motionNoted s.rs }

theorem startRun_open (s : State) (req : Requester) (purpose : RunPurpose) (speed : Nat) :
    ∃ u, s.startRun req purpose speed none =
      { s with
        tc :=
          { s.tc with
            state := .scanning, phase := .travel, travel := .forward,
            motion :=
              some
                (.run
                  { requester := req, purpose := purpose, speed := speed, accel := s.tc.settings.acceleration,
                    endPosition := none }) },
        tu := u, rs := motionNoted s.rs } := by
  obtain ⟨u, hu⟩ := tensionFollow_eq (s.noteMotion.modTc fun c => { c with state := .scanning })
  refine ⟨u, ?_⟩
  have henter : s.noteMotion.enter .scanning =
      { s with tc := { s.tc with state := .scanning }, tu := u, rs := motionNoted s.rs } := hu
  unfold State.startRun
  rw [henter]
  cases s.guardEnd <;> rfl

theorem beginFresh_at_zero {s : State} {n : Nat} (hslot : s.mountedSlot = some n) (hzero : s.tc.position = 0)
    (hstop : s.tc.state = .stopped) (req : Requester) (target : Option Nat) :
    ∃ u, s.beginFresh req target = freshRunning s n req target u := by
  unfold State.beginFresh
  dsimp only
  rw [modMounted_eq (by exact hslot), if_pos (by exact hzero)]
  unfold State.orderIndexRun State.withSome
  dsimp only [State.modIx]
  rw [if_neg (not_not_intro hstop)]
  obtain ⟨u, hu⟩ := startRun_open
    { s with
      cu :=
        { s.cu with
          entries :=
            s.cu.entries.set n { s.entry n with indexState := .unindexed, lastIndexed := none, landmarksDropped := false } },
      ix :=
        { s.ix with
          segments := [], landmarks := [], tracker := { s.ix.tracker.toNone with leaderArmed := true },
          pass := some (freshPass req target) } }
    .ix .index s.tc.settings.indexSpeed
  exact ⟨u, hu⟩

/-- A run moves on at the end of its event, at rest or not. -/
theorem settleMotion_run {s : State} {r : Run} (hm : s.tc.motion = some (.run r)) (hp : s.tc.phase = .travel) :
    s.settleMotion = s := by
  have hrest : s.filmAtRest = s := by rw [State.filmAtRest, hp]
  have hzero : s.endZeroDwell = s := by rw [State.endZeroDwell, hm]
  rw [State.settleMotion, State.onlyIf, hrest, ite_self, hzero]

theorem settleSince_run {s t : State} {r : Run} (hm : t.tc.motion = some (.run r)) (hp : t.tc.phase = .travel) :
    t.settleSince s = t := by
  rw [State.settleSince, State.onlyIf, settleMotion_run hm hp, ite_self]

/-! ### How the index state answers (R74) -/

theorem indexAnswer_none {s : State} {f : Option Nat}
    (h : s.mountedEntry.indexState = .indexed
      ∨ s.mountedEntry.indexState = .partial_ ∧ ∃ n, f = some n ∧ n ≤ s.mountedEntry.lastIndexed.getD 0) :
    s.indexAnswer f = none := by
  unfold State.indexAnswer
  rcases h with h | ⟨h, n, hf, hn⟩
  · simp only [h]
  · simp only [h, hf]
    exact if_pos hn

theorem indexAnswer_unindexed {s : State} (h : s.mountedEntry.indexState = .unindexed) (f : Option Nat) :
    s.indexAnswer f = some .fresh := by
  unfold State.indexAnswer
  simp only [h]

end Sys2Proof.Machine

namespace Sys2Proof.Proofs.IndexPasses

open Sys2Proof.Machine Sys2Proof.Expect

/-- Settles O40: the checks in their order, the answer of the index state, and a FRESH pass at P = 0. -/
theorem indexPassIsOrdered : Obligations.IndexPassIsOrdered := by
  intro tag c x s hs e f refusal
  have hf : f = indexTarget c x := rfl
  have hown : ownerOf (.indexRoll tag c x) (placed s) = _ := show ownIndexRoll c x (placed s) = _ from rfl
  have hrefusal : refusal = firstRefusal
      [(decide (s.rs.mode = .auto), .mode), (indexOutOfRange c x, .range), (s.latched, .halted),
        (decide (s.tc.state = .unloaded), .noRoll),
        (decide (s.tc.state ≠ .stopped) || s.fu.probe.isSome || s.ix.pass.isSome, .busy)] := by
    simp only [firstRefusal, indexOutOfRange, decide_eq_true_eq, Bool.or_eq_true, Bool.and_eq_true, Option.isNone_iff_eq_none,
      Option.isSome_iff_ne_none, or_assoc]
    rfl
  refine ⟨exec_refused (i := .indexRoll tag c x) rfl hs hown hrefusal,
    fun hnone hc h => exec_taken (i := .indexRoll tag c x) rfl hs hown hrefusal hnone ?_,
    fun n hnone hc hzero hslot hlen => ?_⟩
  · have hanswer : (placed s).indexAnswer (indexTarget c x) = none := by
      refine indexAnswer_none (s := placed s) (h.imp_right fun ⟨hpart, n, hn, hle⟩ => ⟨hpart, n, hn, ?_⟩)
      cases hlast : e.lastIndexed with
      | none =>
        rw [hlast] at hle
        exact Nat.le_trans hle (Nat.zero_le _)
      | some k =>
        rw [hlast] at hle
        exact Nat.le_trans hle (by rw [show (placed s).mountedEntry.lastIndexed = some k from hlast]; exact Nat.le_refl k)
    dsimp only
    rw [if_neg hc, hanswer]
    rfl
  · have hstop : s.tc.state = .stopped := by
      have hbusy := firstRefusal_passed (hrefusal.symm.trans hnone) (.tail _ (.tail _ (.tail _ (.tail _ (.head _)))))
      simp only [Bool.or_eq_false_iff, decide_eq_false_iff_not, Classical.not_not] at hbusy
      exact hbusy.1.1
    have hkind : (if c = some .fresh then some IndexKind.fresh else (placed s).indexAnswer (indexTarget c x)) = some .fresh := by
      rcases hc with hc | hun
      · exact if_pos hc
      · rw [indexAnswer_unindexed (s := placed s) hun, ite_self]
    obtain ⟨u, hu⟩ := beginFresh_at_zero (s := placed s) hslot hzero hstop .host (indexTarget c x)
    refine ⟨freshRunning (placed s) n .host (indexTarget c x) u, exec_taken (i := .indexRoll tag c x) rfl hs hown hrefusal hnone ?_,
      rfl, rfl, rfl, rfl, rfl, rfl, rfl, rfl, rfl, rfl, rfl, rfl, rfl, rfl, rfl, rfl⟩
    dsimp only
    rw [hkind]
    show (((placed s).beginFresh .host (indexTarget c x)).settleSince (placed s)).acceptedWith [] = _
    rw [hu, settleSince_run (by rfl) (by rfl)]
    rfl

end Sys2Proof.Proofs.IndexPasses

/-! The Focus Map, the sweep's formulas, and the commands of the focus unit (O41, O42, O43, O45). -/

namespace Sys2Proof.Machine

open Expect

/-! ### The first of the least (R111) -/

/-- Of several least items `leastBy` takes the first. -/
theorem leastBy_first {α : Type} {f : α → Nat} {R : α → α → Prop} {l : List α} (hl : l.Pairwise R) {a : α}
    (h : leastBy f l = some a) : ∀ x ∈ l, f x = f a → x = a ∨ R a x := by
  induction l generalizing a with
  | nil => exact fun x hx => (List.not_mem_nil hx).elim
  | cons y rest ih =>
    obtain ⟨hy, hrest⟩ := List.pairwise_cons.mp hl
    intro x hx heq
    unfold leastBy at h
    split at h
    · rename_i hnone
      obtain rfl : y = a := Option.some.inj h
      rw [leastBy_none hnone] at hx
      exact .inl (List.mem_singleton.mp hx)
    · rename_i b hb
      split at h
      · obtain rfl : y = a := Option.some.inj h
        exact (List.mem_cons.mp hx).imp_right (hy x)
      · rename_i hlt
        obtain rfl : b = a := Option.some.inj h
        rcases List.mem_cons.mp hx with rfl | hx
        · omega
        · exact ih hrest hb x hx heq

/-- An entry goes where one is near, or the map is full (R111). -/
theorem displacedEntry_some {merge p : Nat} {m : List MapEntry} {x : MapEntry} (h : displacedEntry merge p m = some x) :
    nearestEntry p m = some x ∧ (distance x.position p ≤ merge ∨ 32 ≤ m.length) := by
  unfold displacedEntry at h
  cases hn : nearestEntry p m with
  | none => simp [hn] at h
  | some y =>
    simp only [hn, Option.ite_none_right_eq_some] at h
    obtain ⟨hc, hxy⟩ := h
    cases hxy
    exact ⟨rfl, hc⟩

theorem displacedEntry_none {merge p : Nat} {m : List MapEntry} (h : displacedEntry merge p m = none) :
    (∀ x ∈ m, merge < distance x.position p) ∧ (m = [] ∨ m.length < 32) := by
  unfold displacedEntry at h
  cases hn : nearestEntry p m with
  | none =>
    have hempty : m = [] := leastBy_none hn
    exact ⟨by simp [hempty], .inl hempty⟩
  | some y =>
    simp only [hn, ite_eq_right_iff, reduceCtorEq, imp_false, not_or, Nat.not_le] at h
    exact ⟨fun x hx => Nat.lt_of_lt_of_le h.1 (leastBy_le hn x hx), .inr h.2⟩

/-- In an ascending map a position names its entry. -/
theorem position_eq_iff {m : List MapEntry} (h : Ascending MapEntry.position m) {x y : MapEntry} (hx : x ∈ m) (hy : y ∈ m) :
    y.position = x.position ↔ y = x := by
  refine ⟨fun heq => ?_, fun heq => congrArg _ heq⟩
  induction m with
  | nil => exact (List.not_mem_nil hx).elim
  | cons z rest ih =>
    obtain ⟨hfirst, hrest⟩ := List.pairwise_cons.mp h
    rcases List.mem_cons.mp hx with hxz | hxr
    · rcases List.mem_cons.mp hy with hyz | hyr
      · exact hyz.trans hxz.symm
      · exact absurd (hxz ▸ heq.symm) (Nat.ne_of_lt (hfirst y hyr))
    · rcases List.mem_cons.mp hy with hyz | hyr
      · exact absurd (hyz ▸ heq) (Nat.ne_of_lt (hfirst x hxr))
      · exact ih hrest hxr hyr

/-! ### The scores of a sweep (R103, R107, R108) -/

theorem lineScore_eq (line : List Byte) :
    lineScore line = ((line.zip line.tail).map fun (x, y) => ((y.toNat : Int) - x.toNat).natAbs ^ 2).sum := by
  induction line with
  | nil => rfl
  | cons a rest ih =>
    cases rest with
    | nil => rfl
    | cons b rest =>
      have hd : distance a.toNat b.toNat = ((b.toNat : Int) - a.toNat).natAbs := by
        unfold distance
        omega
      rw [lineScore, ih, hd]
      rfl

/-- The highest score of a sweep. -/
def bestMark (ps : List ProbePoint) : Nat := (ps.map ProbePoint.mark).foldl max 0

theorem foldl_max_spec (l : List Nat) (a : Nat) :
    a ≤ l.foldl max a ∧ (∀ y ∈ l, y ≤ l.foldl max a) ∧ (l.foldl max a = a ∨ l.foldl max a ∈ l) := by
  induction l generalizing a with
  | nil => exact ⟨Nat.le_refl a, by simp, .inl rfl⟩
  | cons x rest ih =>
    obtain ⟨hle, hall, hmem⟩ := ih (max a x)
    simp only [List.foldl_cons, List.mem_cons, forall_eq_or_imp]
    refine ⟨by omega, ⟨by omega, hall⟩, ?_⟩
    rcases hmem with hmem | hmem
    · rw [hmem]
      omega
    · exact .inr (.inr hmem)

theorem mark_le_bestMark {ps : List ProbePoint} {x : ProbePoint} (h : x ∈ ps) : x.mark ≤ bestMark ps :=
  (foldl_max_spec _ 0).2.1 _ (List.mem_map_of_mem h)

theorem exists_bestMark {ps : List ProbePoint} (h : ps ≠ []) : ∃ x ∈ ps, x.mark = bestMark ps := by
  rcases (foldl_max_spec (ps.map ProbePoint.mark) 0).2.2 with hzero | hmem
  · obtain ⟨x, hx⟩ := List.exists_mem_of_ne_nil ps h
    have hle := mark_le_bestMark hx
    have hbest : bestMark ps = 0 := hzero
    exact ⟨x, hx, by omega⟩
  · obtain ⟨x, hx, hmark⟩ := List.mem_map.mp hmem
    exact ⟨x, hx, hmark⟩

/-- The first point of the highest score is the peak (R107). -/
theorem peakPlace_eq {ps : List ProbePoint} {j : Nat} {x : ProbePoint} (hx : ps[j]? = some x) (hmax : ∀ y ∈ ps, y.mark ≤ x.mark)
    (hfirst : ∀ (i : Nat) (y : ProbePoint), i < j → ps[i]? = some y → y.mark < x.mark) : peakPlace ps = j := by
  have hmem : x ∈ ps := List.mem_of_getElem? hx
  obtain ⟨z, hz, hbest⟩ := exists_bestMark (List.ne_nil_of_mem hmem)
  have hmark : x.mark = bestMark ps := Nat.le_antisymm (mark_le_bestMark hmem) (hbest ▸ hmax z hz)
  obtain ⟨hj, hget⟩ := List.getElem?_eq_some_iff.mp hx
  have hfind : ps.findIdx? (fun y => decide (y.mark = bestMark ps)) = some j := by
    refine List.findIdx?_eq_some_iff_getElem.mpr ⟨hj, by simp [hget, hmark], fun i hi => ?_⟩
    have hlt := hfirst i ps[i] hi (List.getElem?_eq_getElem _)
    simp
    omega
  show (ps.findIdx? fun y => decide (y.mark = bestMark ps)).getD 0 = j
  rw [hfind]
  rfl

theorem exists_peak {ps : List ProbePoint} (h : ps ≠ []) :
    ∃ (j : Nat) (x : ProbePoint), ps[j]? = some x ∧ (∀ y ∈ ps, y.mark ≤ x.mark)
      ∧ ∀ (i : Nat) (y : ProbePoint), i < j → ps[i]? = some y → y.mark < x.mark := by
  obtain ⟨z, hz, hbest⟩ := exists_bestMark h
  have hsome : (ps.findIdx? fun y => decide (y.mark = bestMark ps)).isSome := by
    rw [List.findIdx?_isSome]
    exact List.any_eq_true.mpr ⟨z, hz, decide_eq_true hbest⟩
  obtain ⟨j, hj⟩ := Option.isSome_iff_exists.mp hsome
  obtain ⟨hlt, hmark, hbefore⟩ := List.findIdx?_eq_some_iff_getElem.mp hj
  have hmark' : ps[j].mark = bestMark ps := of_decide_eq_true hmark
  refine ⟨j, ps[j], List.getElem?_eq_getElem hlt, fun y hy => hmark' ▸ mark_le_bestMark hy, fun i y hi hy => ?_⟩
  obtain ⟨hil, hget⟩ := List.getElem?_eq_some_iff.mp hy
  have hne : ¬ ps[i].mark = bestMark ps := by simpa using hbefore i hi
  have hle := mark_le_bestMark (List.getElem_mem hil)
  rw [hmark', ← hget]
  omega

/-! ### The points of a sweep (R105) -/

/-- The centre as taken leaves a sweep that fits the soft limits inside them (R105). -/
theorem shiftCentre_fits {f : FocusSettings} {centre span : Nat} (hfit : f.lensMin + 2 * span ≤ f.lensMax) :
    f.lensMin + span ≤ (shiftCentre f centre span).1 ∧ (shiftCentre f centre span).1 + span ≤ f.lensMax := by
  unfold shiftCentre
  split
  · dsimp only
    omega
  · split
    · dsimp only
      omega
    · dsimp only
      omega

theorem sweepPoints_unscored {f : FocusSettings} {centre span step : Nat} : ∀ x ∈ sweepPoints f centre span step, x.score = none := by
  intro x hx
  obtain ⟨i, -, hi⟩ := List.mem_filterMap.mp hx
  dsimp only at hi
  split at hi
  · rw [← Option.some.inj hi]
  · cases hi

theorem filterMap_congr_mem {α β : Type} {f g : α → Option β} {l : List α} (h : ∀ x ∈ l, f x = g x) :
    l.filterMap f = l.filterMap g := by
  induction l with
  | nil => rfl
  | cons x rest ih =>
    rw [List.filterMap_cons, List.filterMap_cons, h x List.mem_cons_self, ih fun y hy => h y (List.mem_cons_of_mem x hy)]

/-- A sweep inside the soft limits has all its points (R105). -/
theorem sweepPoints_lens {f : FocusSettings} {centre span step : Nat} (hlow : f.lensMin + span ≤ centre)
    (hhigh : centre + span ≤ f.lensMax) :
    (sweepPoints f centre span step).map ProbePoint.lens =
      (List.range (2 * span / step + 1)).map fun i => centre - span + i * step := by
  unfold sweepPoints
  rw [List.map_filterMap, ← List.filterMap_eq_map]
  refine filterMap_congr_mem fun i hi => ?_
  have hi' : i ≤ 2 * span / step := Nat.lt_succ_iff.mp (List.mem_range.mp hi)
  have hstep : i * step ≤ 2 * span := Nat.le_trans (Nat.mul_le_mul_right step hi') (Nat.div_mul_le_self _ _)
  have hcast : ((i * step : Nat) : Int) = (i : Int) * step := Int.natCast_mul i step
  dsimp only
  rw [← hcast, if_pos (by omega)]
  exact congrArg some (by show Int.toNat _ = centre - span + i * step; omega)

/-! ### The commands (R101, R105, R113) -/

theorem sweepBad_iff (f : FocusSettings) (span step : Nat) :
    sweepBad f span step = true ↔
      2 * span % step ≠ 0 ∨ 2 * span / step + 1 < 5 ∨ 33 < 2 * span / step + 1 ∨ f.lensMax - f.lensMin < 2 * span := by
  simp only [sweepBad, Bool.or_eq_true, decide_eq_true_eq, or_assoc]

/-- A probe whose lamp is not lit waits for it (R106, R124). -/
theorem beginProbe_unlit {s : State} (hlatch : s.latched = false) (hlamp : s.cp.lamp ≠ .lit) (req : Requester)
    (centre span step : Nat) :
    s.beginProbe req centre span step =
      { s with
        fu :=
          { s.fu with
            probe :=
              some
                { requester := req, position := s.tc.position, centre := (shiftCentre s.fu.settings centre span).1,
                  halfSpan := span, step := step, shifted := (shiftCentre s.fu.settings centre span).2, sweep := 1,
                  phase := .lamp,
                  points := sweepPoints s.fu.settings (shiftCentre s.fu.settings centre span).1 span step } },
        cp := { s.cp with probeHolds := true, lamp := .warming } } := by
  have hrequested : s.cp.lamp.requested = .warming := by
    cases h : s.cp.lamp with
    | off => rfl
    | warming => rfl
    | lit => exact absurd h hlamp
  unfold State.beginProbe State.lampForProbe
  rw [if_neg (ne_true_of_eq_false (by exact hlatch))]
  dsimp only [State.modFu, State.modCp]
  rw [hrequested]
  exact if_neg hlamp

/-- With an empty list and no pass of RS a withdrawn entry is nobody's matter. -/
theorem withdraw_of_idle {s : State} (hitems : s.rs.items = []) (hpass : s.rs.pass = none) (p : Nat) : s.withdraw p = s := by
  have hprobing : s.probing p = false := by simp [State.probing, hpass]
  have hmod : ∀ f : RsPass → RsPass, s.modPass f = s := fun f => by
    have hsame : { s.rs with pass := s.rs.pass.map f } = s.rs := by rw [hpass]; exact congrArg (fun x => { s.rs with pass := x }) hpass.symm
    exact congrArg (fun r => { s with rs := r }) hsame
  have hlist : s.probeItems = [] := by simp [State.probeItems, hitems]
  rw [State.withdraw, hprobing, hmod]
  show s.removeItem p = s
  rw [State.removeItem, hlist]
  exact if_neg List.not_mem_nil

theorem emptyMap_of_idle {s : State} (hitems : s.rs.items = []) (hpass : s.rs.pass = none) :
    s.emptyMap = { s with fu := { s.fu with map := [] } } := by
  unfold State.emptyMap State.each
  generalize s.fu.map = m
  induction m with
  | nil => rfl
  | cons e rest ih =>
    rw [List.foldl_cons, withdraw_of_idle (by exact hitems) (by exact hpass)]
    exact ih

/-- Settings taken: a target outside changed limits is commanded at the limit (R101). -/
theorem applyFocus_eq (s : State) (a : FocusSettings) :
    s.applyFocus a =
      { s with
        fu :=
          { s.fu with
            settings := a,
            target :=
              if a.lensMin = s.fu.settings.lensMin ∧ a.lensMax = s.fu.settings.lensMax then s.fu.target
              else clampNat a.lensMin a.lensMax s.fu.target } } := by
  unfold State.applyFocus State.onlyIf
  by_cases h : a.lensMin = s.fu.settings.lensMin ∧ a.lensMax = s.fu.settings.lensMax
  · have hc : limitsChange a s.fu.settings = false := by simp [limitsChange, h.1, h.2]
    rw [hc, if_pos h]
    rfl
  · have hc : limitsChange a s.fu.settings = true := by
      simp only [limitsChange, Bool.or_eq_true, decide_eq_true_eq]
      exact Classical.not_and_iff_not_or_not.mp h
    rw [hc, if_neg h]
    rfl

end Sys2Proof.Machine

namespace Sys2Proof.Proofs.Focus

open Sys2Proof.Machine Sys2Proof.Expect

/-- Settles O45: the entry that goes is the first of the nearest, and its position names it. -/
theorem mapInsertion : Obligations.MapInsertion := by
  intro merge e m hm after away crowded
  refine ⟨mapAfter_law hm, fun hcrowded => ?_, fun hfree => ?_⟩
  · cases hd : displacedEntry merge e.position m with
    | none =>
      obtain ⟨hfar, hroom⟩ := displacedEntry_none hd
      rcases hcrowded with ⟨x, hx, hnear⟩ | hfull
      · exact absurd (hfar x hx) (Nat.not_lt.mpr hnear)
      · rcases hroom with rfl | hroom
        · cases hfull
        · omega
    | some x =>
      obtain ⟨hnearest, -⟩ := displacedEntry_some hd
      have hx : x ∈ m := leastBy_mem hnearest
      refine ⟨x, hx, leastBy_le hnearest, fun y hy hsame => ?_, fun y => ?_⟩
      · rcases leastBy_first hm.2 hnearest y hy hsame with rfl | hlt
        · exact Nat.le_refl _
        · exact Nat.le_of_lt hlt
      · have hafter : after = insertEntry e (m.filter fun y => decide (y.position ≠ x.position)) := by
          show mapAfter merge e m = _
          simp only [mapAfter, hd]
        rw [hafter, insertEntry_mem, List.mem_filter, decide_eq_true_eq]
        refine or_congr_right (and_congr_right fun hy => not_congr (position_eq_iff hm.2 hx hy))
  · have hd : displacedEntry merge e.position m = none := by
      refine Classical.byContradiction fun hsome => ?_
      obtain ⟨x, hx⟩ := Option.ne_none_iff_exists'.mp hsome
      obtain ⟨hnearest, hwhy⟩ := displacedEntry_some hx
      refine hfree (hwhy.imp (fun hnear => ⟨x, leastBy_mem hnearest, hnear⟩) fun hfull => ?_)
      exact Nat.le_antisymm hm.1 hfull
    intro y
    have hafter : after = insertEntry e m := by
      show mapAfter merge e m = _
      simp only [mapAfter, hd]
    rw [hafter, insertEntry_mem]

theorem bandScores : BandScore := fun band => by
  show min ((band.map lineScore).sum) 4294967295 = _
  rw [show lineScore = _ from funext lineScore_eq]

theorem peakIsTheLowestOfTheHighest : PeakIsTheLowestOfTheHighest := by
  intro ps hne
  obtain ⟨j, x, hx, hmax, hfirst⟩ := exists_peak hne
  rw [peakPlace_eq hx hmax hfirst]
  refine ⟨x, hx, hmax, fun i y hy hsame => ?_⟩
  refine Classical.byContradiction fun hlt => ?_
  exact absurd hsame (Nat.ne_of_lt (hfirst i y (Nat.not_le.mp hlt) hy))

theorem peakIsRefinedByAParabola : PeakIsRefinedByAParabola := by
  intro step a b c denom half
  refine ⟨fun h => if_pos h, fun h => (if_neg h).trans ?_⟩
  exact clampInt_eq_min_max (by omega) _

/-- Settles O41. -/
theorem peakOfASweep : Obligations.PeakOfASweep := ⟨bandScores, peakIsTheLowestOfTheHighest, peakIsRefinedByAParabola⟩

theorem optOutside_eq (a : OptArg) (lo hi : Nat) :
    optOutside a lo hi = match a with | .present n => decide (n < lo ∨ hi < n) | .absent => false | .badPresence => true := by
  cases a with
  | present n => exact (Bool.decide_or _ _).symm
  | absent => rfl
  | badPresence => rfl

/-- Settles O42: the checks in their order, and a probe whose lamp has yet to warm. -/
theorem probeBegins : Obligations.ProbeBegins := by
  intro tag c h st s hs f value outside span step centre refusal taken shifted
  have hvalue : ∀ a d, value a d = optValue a d := fun a d => rfl
  have houtside : ∀ a lo hi, outside a lo hi = optOutside a lo hi := fun a lo hi => (optOutside_eq a lo hi).symm
  have hrange : probeOutOfRange f c h st = true ↔
      outside c 0 4095 = true ∨ outside h 2 2048 = true ∨ outside st 1 1024 = true ∨ 2 * span % step ≠ 0
        ∨ 2 * span / step + 1 < 5 ∨ 33 < 2 * span / step + 1 ∨ f.lensMax - f.lensMin < 2 * span := by
    rw [probeOutOfRange, Bool.or_eq_true, Bool.or_eq_true, Bool.or_eq_true, sweepBad_iff, or_assoc, or_assoc, houtside, houtside,
      houtside]
    rfl
  have hown : ownerOf (.focusProbe tag c h st) (placed s) = _ := show ownFocusProbe c h st (placed s) = _ from rfl
  have hrefusal : refusal = firstRefusal
      [(decide (s.rs.mode = .auto), .mode), (probeOutOfRange f c h st, .range), (s.latched, .halted),
        (decide (s.tc.state = .unloaded), .noRoll),
        (decide (s.tc.state ≠ .stopped) || s.fu.probe.isSome || s.ix.pass.isSome, .busy)] := by
    simp only [firstRefusal, decide_eq_true_eq, Bool.or_eq_true, hrange, Option.isSome_iff_ne_none, or_assoc]
    rfl
  refine ⟨exec_refused (i := .focusProbe tag c h st) rfl hs hown hrefusal, fun hnone hlamp hlens hmax hstep => ?_⟩
  have htaken : shiftCentre f centre span = (taken, shifted) := by
    show shiftCentre f centre span =
      (if centre < f.lensMin + span then f.lensMin + span
        else if f.lensMax < centre + span then f.lensMax - span else centre,
        decide (centre < f.lensMin + span ∨ f.lensMax < centre + span))
    unfold shiftCentre
    by_cases hlow : centre < f.lensMin + span
    · simp [hlow]
    · by_cases hhigh : f.lensMax < centre + span <;> simp [hlow, hhigh]
  have hpassed := hrefusal.symm.trans hnone
  have hlatch : s.latched = false := firstRefusal_passed hpassed (.tail _ (.tail _ (.head _)))
  have hinside := mt hrange.mpr (ne_true_of_eq_false (firstRefusal_passed hpassed (.tail _ (.head _))))
  have hfit : f.lensMin + 2 * span ≤ f.lensMax := by
    have hspan : ¬ f.lensMax - f.lensMin < 2 * span := fun hlt =>
      hinside (.inr (.inr (.inr (.inr (.inr (.inr hlt))))))
    omega
  obtain ⟨hlow, hhigh⟩ := shiftCentre_fits (centre := centre) hfit
  rw [htaken] at hlow hhigh
  refine ⟨sweepPoints f taken span step, sweepPoints_lens hlow hhigh, sweepPoints_unscored,
    exec_taken (i := .focusProbe tag c h st) rfl hs hown hrefusal hnone ?_⟩
  have hbegun := beginProbe_unlit (s := placed s) hlatch hlamp .host centre span step
  have hcentre : shiftCentre (placed s).fu.settings centre span = (taken, shifted) := htaken
  rw [hcentre] at hbegun
  show State.acceptedWith ((placed s).beginProbe .host centre span step)
    (u16 (shiftCentre f centre span).1 ++ encFlag (shiftCentre f centre span).2) = _
  rw [hbegun, htaken]
  have hflag : encFlag shifted = [if shifted then 1 else 0] := by cases shifted <;> rfl
  show State.acceptedWith _ (u16 taken ++ encFlag shifted) = _
  rw [hflag]
  rfl

theorem setFocus_taken (tag : Byte) (a : FocusSettings) {s : State} (hs : Listening s) :
    let inRange : Bool :=
      decide (a.lensMin < a.lensMax ∧ a.lensMax ≤ 4095 ∧ a.nominal ≤ 4095 ∧ 100 ≤ a.mergeDistance
        ∧ a.mergeDistance ≤ 1000000 ∧ 8 ≤ a.staleRatio ∧ a.staleRatio ≤ 15 ∧ 2 ≤ a.halfSpan ∧ a.halfSpan ≤ 2048
        ∧ 1 ≤ a.step ∧ a.step ≤ 1024 ∧ 2 * a.halfSpan % a.step = 0 ∧ 5 ≤ 2 * a.halfSpan / a.step + 1
        ∧ 2 * a.halfSpan / a.step + 1 ≤ 33 ∧ 2 * a.halfSpan ≤ a.lensMax - a.lensMin)
    exec (.setFocus tag a) s =
      .next
        (answered s tag 0x21
          (if inRange = false then some .range
           else if s.fu.probe ≠ none then some .busy
           else if a.mergeDistance ≠ s.fu.settings.mergeDistance ∧ s.tc.state ≠ .unloaded then some .busy
           else none)
          ((placed s).applyFocus a) .ok []) := by
  intro inRange
  have hrange : (focusOutOfRange a = true ∨ sweepBad a a.halfSpan a.step = true) ↔ inRange = false := by
    rw [sweepBad_iff, decide_eq_false_iff_not]
    simp only [focusOutOfRange, Bool.not_eq_true', Bool.and_eq_false_iff, decide_eq_false_iff_not]
    omega
  refine exec_checked (i := .setFocus tag a) rfl hs (show ownSetFocus a (placed s) = _ from rfl) ?_ fun _ => rfl
  by_cases hin : inRange = false
  · rw [if_pos hin]
    by_cases hvalues : focusOutOfRange a = true
    · simp only [firstRefusal, hvalues, if_true]
    · have hsweep := (hrange.mpr hin).resolve_left hvalues
      simp only [firstRefusal, hvalues, hsweep, if_true]
      rfl
  · obtain ⟨hvalues, hsweep⟩ := not_or.mp (mt hrange.mp hin)
    rw [if_neg hin]
    simp only [firstRefusal, hvalues, hsweep, decide_eq_true_eq, Bool.and_eq_true, Option.isSome_iff_ne_none]
    rfl

/-- Settles O43: the settings by their checks, and a map cleared while nothing waits for it. -/
theorem focusSettingsAndMapClear : Obligations.FocusSettingsAndMapClear := by
  intro tag a s hs inRange
  refine ⟨?_, fun hprobe => ?_, fun hprobe hitems hpass => ?_⟩
  · rw [setFocus_taken tag a hs, applyFocus_eq]
    rfl
  · refine exec_of_answer (i := .clearFocusMap tag) rfl hs (show ownClearFocusMap (placed s) = _ from ?_)
    have hbusy : (placed s).fu.probe.isSome = true := Option.isSome_iff_ne_none.mpr hprobe
    unfold ownClearFocusMap
    rw [checked_cons, hbusy]
    rfl
  · refine exec_of_answer (i := .clearFocusMap tag) rfl hs (show ownClearFocusMap (placed s) = _ from ?_)
    have hfree : (placed s).fu.probe.isSome = false := by rw [show (placed s).fu.probe = none from hprobe]; rfl
    unfold ownClearFocusMap
    rw [checked_cons, checked_nil, hfree, emptyMap_of_idle (s := placed s) hitems hpass]
    rfl

end Sys2Proof.Proofs.Focus

/-! The lens, the lamp and the points of a sweep (O44). -/

namespace Sys2Proof.Machine

open Expect

/-! ### The lens and the lamp (R101, R106, R124) -/

theorem exec_lensStep {s : State} (hs : s.resetHeld = false) : exec .lensStep s = .next { s with fu := stepLens s.fu } := by
  show execLensStep s = _
  rw [execLensStep, whenRunning_running hs]
  rfl

theorem stepLens_eq (f : Fu) :
    stepLens f =
      { f with lens := if f.lens < f.target then f.lens + 1 else if f.target < f.lens then f.lens - 1 else f.lens } := by
  unfold stepLens
  split
  · rfl
  · split <;> rfl

theorem exec_lampWarmupExpiry {s : State} (hs : s.resetHeld = false) :
    exec .lampWarmupExpiry s = .next (if s.cp.lamp = .warming then s.lampLights else s) := by
  show execLampWarmupExpiry s = _
  rw [execLampWarmupExpiry, whenRunning_running hs]

/-- With points still to score the first of them is the lens's target (R106). -/
theorem commandPoint_eq {s : State} {p : Probe} (hp : s.fu.probe = some p) :
    s.commandPoint = s.withSome (p.points.find? fun x => x.score.isNone) fun u x => u.commandLens x.lens := by
  unfold State.commandPoint State.withSome
  rw [hp]

theorem probeLit_eq {s : State} {p : Probe} (hp : s.fu.probe = some p) (hphase : p.phase = .lamp) :
    s.probeLit =
      ({ s with fu := { s.fu with probe := some { p with phase := .sweep } } } : State).withSome
        (p.points.find? fun x => x.score.isNone) fun u x => u.commandLens x.lens := by
  unfold State.probeLit
  rw [hp]
  dsimp only
  rw [if_pos hphase]
  exact commandPoint_eq (p := { p with phase := .sweep }) rfl

/-! ### A band's score (R103, R106) -/

theorem scorePoint_append {scored : List ProbePoint} (h : ∀ z ∈ scored, z.score ≠ none) {x : ProbePoint} (hx : x.score = none)
    (rest : List ProbePoint) (n : Nat) :
    scorePoint n (scored ++ x :: rest) = scored ++ { x with score := some n } :: rest := by
  induction scored with
  | nil => simp [scorePoint, hx]
  | cons y ys ih =>
    obtain ⟨hy, hys⟩ := List.forall_mem_cons.mp h
    have hsome : y.score.isNone = false := Option.isNone_eq_false_iff.mpr (Option.isSome_iff_ne_none.mpr hy)
    rw [List.cons_append, scorePoint, hsome, ih hys]
    rfl

/-- The first point without a score stands behind the scored ones. -/
theorem find_unscored {scored : List ProbePoint} (h : ∀ z ∈ scored, z.score ≠ none) {x : ProbePoint} (hx : x.score = none)
    (rest : List ProbePoint) : (scored ++ x :: rest).find? (fun y => y.score.isNone) = some x := by
  refine List.find?_eq_some_iff_append.mpr ⟨by simp [hx], scored, rest, rfl, fun z hz => ?_⟩
  rw [Option.isNone_eq_false_iff.mpr (Option.isSome_iff_ne_none.mpr (h z hz))]
  rfl

theorem any_unscored_of_scored {ps : List ProbePoint} (h : ∀ z ∈ ps, z.score ≠ none) : (ps.any fun x => x.score.isNone) = false := by
  rw [List.any_eq_false]
  intro z hz
  simpa using h z hz

/-- The part with a probe's record in place. -/
def withProbe (s : State) (p : Probe) : State := { s with fu := { s.fu with probe := some p } }

/-- A band read for the probe, with the lens at its point (R106, R125). -/
theorem exec_probeBandRead {s : State} {p : Probe} (hs : s.resetHeld = false) (hp : s.fu.probe = some p)
    (hsweep : p.phase = .sweep) (hlens : s.fu.lens = s.fu.target) (ls : List (List Byte)) :
    exec (.probeBandRead ls) s =
      .next (if s.cp.lamp = .lit then s.bandScored p (bandScore (ls.map s.activePixels)) else s.abortProbe .halted) := by
  show execProbeBandRead ls s = _
  rw [execProbeBandRead, whenRunning_running hs]
  unfold State.withSome
  rw [hp]
  exact congrArg Host.Outcome.next (if_pos ⟨hsweep, hlens⟩)

/-- A band that FU has not asked for is not read (log 8). -/
theorem exec_probeBandRead_unasked {s : State} (hs : s.resetHeld = false)
    (h : s.fu.probe = none ∨ (∃ p, s.fu.probe = some p ∧ p.phase = .lamp) ∨ s.fu.lens ≠ s.fu.target) (ls : List (List Byte)) :
    exec (.probeBandRead ls) s = .next s := by
  show execProbeBandRead ls s = _
  rw [execProbeBandRead, whenRunning_running hs]
  unfold State.withSome
  cases hp : s.fu.probe with
  | none => rfl
  | some p =>
    refine congrArg Host.Outcome.next (if_neg fun ⟨hsweep, hlens⟩ => ?_)
    rcases h with h | ⟨q, hq, hlamp⟩ | h
    · rw [hp] at h
      cases h
    · obtain rfl : p = q := Option.some.inj (hp.symm.trans hq)
      rw [hsweep] at hlamp
      cases hlamp
    · exact h hlens

theorem bandScored_more {s : State} {p : Probe} {scored rest : List ProbePoint} {x y : ProbePoint}
    (hpoints : p.points = scored ++ x :: y :: rest) (hscored : ∀ z ∈ scored, z.score ≠ none) (hx : x.score = none)
    (hy : y.score = none) (n : Nat) :
    s.bandScored p n =
      (withProbe s { p with points := scored ++ { x with score := some n } :: y :: rest }).commandLens y.lens := by
  have hlist : scorePoint n p.points = (scored ++ [{ x with score := some n }]) ++ y :: rest := by
    rw [hpoints, scorePoint_append hscored hx, List.append_assoc]
    rfl
  have hfind := find_unscored (scored := scored ++ [{ x with score := some n }]) (x := y)
    (List.forall_mem_append.mpr ⟨hscored, by simp⟩) hy rest
  have hany : ((scored ++ [{ x with score := some n }] ++ y :: rest).any fun z => z.score.isNone) = true := by
    simp [hy]
  unfold State.bandScored
  dsimp only
  rw [hlist, if_pos hany, commandPoint_eq (p := { p with points := scored ++ [{ x with score := some n }] ++ y :: rest }) rfl,
    hfind, List.append_assoc]
  rfl

theorem bandScored_last {s : State} {p : Probe} {scored : List ProbePoint} {z : ProbePoint}
    (hpoints : p.points = scored ++ [z]) (hscored : ∀ y ∈ scored, y.score ≠ none) (hz : z.score = none) (n : Nat) :
    s.bandScored p n =
      (withProbe s { p with points := scored ++ [{ z with score := some n }] }).sweepDone
        { p with points := scored ++ [{ z with score := some n }] } := by
  have hany : ((scored ++ [{ z with score := some n }]).any fun y => y.score.isNone) = false :=
    any_unscored_of_scored (List.forall_mem_append.mpr ⟨hscored, by simp⟩)
  unfold State.bandScored
  dsimp only
  rw [hpoints, scorePoint_append hscored hz, hany]
  rfl

/-! ### The end of a sweep (R107, R108) -/

theorem sweepDone_interior {s : State} {p : Probe} {j : Nat} {a x b : ProbePoint} (hj : peakPlace p.points = j)
    (hx : p.points[j]? = some x) (hpos : 0 < j) (ha : p.points[j - 1]? = some a) (hb : p.points[j + 1]? = some b) :
    s.sweepDone p =
      s.completeProbe p .peak (x.lens + parabolaOffset p.step a.mark x.mark b.mark).toNat x.mark := by
  unfold State.sweepDone
  dsimp only
  rw [hj, hx]
  dsimp only
  rw [if_neg (Nat.ne_of_gt hpos), ha, hb]

theorem sweepDone_edge {s : State} {p : Probe} {j : Nat} {x : ProbePoint} (hj : peakPlace p.points = j)
    (hx : p.points[j]? = some x) (hedge : j = 0 ∨ j + 1 = p.points.length) : s.sweepDone p = s.edgePeak p x := by
  unfold State.sweepDone
  dsimp only
  rw [hj, hx]
  dsimp only
  rcases hedge with hzero | hlast
  · rw [if_pos hzero]
  · have hnone : p.points[j + 1]? = none := List.getElem?_eq_none (Nat.le_of_eq hlast.symm)
    rw [hnone]
    split <;> simp_all

/-- The second sweep's points: those of the whole one within the soft limits (R107). -/
theorem sweepPoints_recentred (f : FocusSettings) (centre span step : Nat) :
    (sweepPoints f centre span step).map ProbePoint.lens =
      (((List.range (2 * span / step + 1)).map (fun i => centre + i * step)).filter (fun k =>
        decide (f.lensMin + span ≤ k ∧ k ≤ f.lensMax + span))).map (fun k => k - span) := by
  unfold sweepPoints
  rw [List.map_filterMap, List.filter_map, List.map_map, ← List.filterMap_eq_map, List.filterMap_filter]
  refine filterMap_congr_mem fun i _ => ?_
  have hcast : ((i * step : Nat) : Int) = (i : Int) * step := Int.natCast_mul i step
  dsimp only [Function.comp]
  rw [← hcast]
  by_cases h : f.lensMin + span ≤ centre + i * step ∧ centre + i * step ≤ f.lensMax + span
  · rw [if_pos (by omega), if_pos (decide_eq_true h)]
    exact congrArg some (by show Int.toNat _ = centre + i * step - span; omega)
  · rw [if_neg (by omega), if_neg (by simpa using h)]
    rfl

theorem find_first_unscored {ps : List ProbePoint} (h : ∀ y ∈ ps, y.score = none) :
    ps.find? (fun y => y.score.isNone) = ps.head? := by
  cases ps with
  | nil => rfl
  | cons y rest => simp [h y List.mem_cons_self]

/-! ### A probe's end (R109, R111) -/

/-- Only RS changed, and its queue not. -/
def OnlyRs (s t : State) : Prop := ∃ r : Rs, t = { s with rs := r } ∧ r.queue = s.rs.queue

theorem OnlyRs.refl (s : State) : OnlyRs s s := ⟨s.rs, rfl, rfl⟩

theorem OnlyRs.trans {s t u : State} : OnlyRs s t → OnlyRs t u → OnlyRs s u := by
  rintro ⟨r, rfl, hr⟩ ⟨q, rfl, hq⟩
  exact ⟨q, rfl, hq.trans hr⟩

theorem offerPlanning_onlyRs (s : State) : OnlyRs s s.offerPlanning := by
  rw [offerPlanning_eq]
  exact ⟨_, rfl, rfl⟩

theorem placeItem_onlyRs (s : State) (p : Nat) : OnlyRs s (s.placeItem p) := by
  unfold State.placeItem
  split
  · exact .refl s
  · exact OnlyRs.trans ⟨_, rfl, rfl⟩ (offerPlanning_onlyRs _)

theorem itemLeft_onlyRs (s : State) : OnlyRs s s.itemLeft := by
  unfold State.itemLeft State.withSome
  split
  · exact (placeItem_onlyRs s _).trans (offerPlanning_onlyRs _)
  · exact offerPlanning_onlyRs s

theorem removeItem_onlyRs (s : State) (p : Nat) : OnlyRs s (s.removeItem p) := by
  unfold State.removeItem
  split
  · exact OnlyRs.trans ⟨_, rfl, rfl⟩ (itemLeft_onlyRs _)
  · exact .refl s

theorem withdraw_onlyRs (s : State) (p : Nat) : OnlyRs s (s.withdraw p) := by
  unfold State.withdraw
  split
  · exact .refl s
  · exact OnlyRs.trans ⟨_, rfl, rfl⟩ (removeItem_onlyRs _ p)

theorem insertMap_onlyRs (s : State) (e : MapEntry) :
    OnlyRs { s with fu := { s.fu with map := mapAfter s.fu.settings.mergeDistance e s.fu.map } } (s.insertMap e) := by
  unfold State.insertMap State.withSome
  dsimp only
  split
  · exact withdraw_onlyRs _ _
  · exact .refl _

/-- A pass's end changes RS, but for its queue, and tells the host (R160). -/
theorem passEnd_queue (s : State) (o : PassOutcome) :
    ∃ r l, s.passEnd o = { s with rs := r, li := l } ∧ r.queue = s.rs.queue := by
  unfold State.passEnd State.withSome
  split
  · rename_i p _
    obtain ⟨l, hl⟩ := post_eq (s.modRs fun r => { r with pass := none }) .passDone
      (.passDone p.kind o p.slot p.capturedJobs p.misframeJobs p.droppedJobs)
    dsimp only
    rw [hl]
    split
    · exact ⟨_, l, rfl, rfl⟩
    · rw [offerPlanning_eq]
      exact ⟨_, l, rfl, rfl⟩
  · exact ⟨s.rs, s.li, rfl, rfl⟩

/-- A probe's end told to RS (R165). -/
theorem rsProbeEnd_queue (s : State) (o : PassOutcome) :
    ∃ r l, s.rsProbeEnd o = { s with rs := r, li := l } ∧ r.queue = s.rs.queue := by
  unfold State.rsProbeEnd State.withSome
  split
  · rename_i p _
    dsimp only
    split
    · have honly : OnlyRs s (s.onlyIf (decide (o = .completed) && p.item.isSome) fun u => u.removeItem p.probePosition) := by
        unfold State.onlyIf
        split
        · exact removeItem_onlyRs s _
        · exact .refl s
      obtain ⟨r, hr, hqueue⟩ := honly
      rw [hr]
      obtain ⟨q, l, hq, hqueue'⟩ := passEnd_queue { s with rs := r } o
      exact ⟨q, l, hq, hqueue'.trans hqueue⟩
    · exact ⟨s.rs, s.li, rfl, rfl⟩
  · exact ⟨s.rs, s.li, rfl, rfl⟩

theorem releaseProbeLamp_eq (s : State) : s.releaseProbeLamp = { s with cp := unlit s.cp } := by
  have hsettled : lampSettled { s.cp with probeHolds := false } = unlit s.cp := by
    unfold lampSettled unlit
    cases hl : s.cp.listHolds <;> simp [hl]
  exact congrArg (fun c => { s with cp := c }) hsettled

/-- The part with a probe's result in place, RS and the notices as given (R109). -/
def withResult (s : State) (m : Fm) (r : Rs) (li : Li) (p : Probe) (lens score : Nat) : State :=
  { s with
    fu :=
      { s.fu with
        probe := none, target := clampNat s.fu.settings.lensMin s.fu.settings.lensMax lens,
        map :=
          mapAfter s.fu.settings.mergeDistance { position := p.position, lens := lens, score := score, stale := false }
            s.fu.map },
    cp := unlit s.cp, rs := r, li := li, fm := m }

/-- What FOCUS_DONE tells of the result (R109). -/
def resultDetail (s : State) (p : Probe) (o : ProbeOutcome) (lens score : Nat) : NoticeDetail :=
  .focusDone p.requester o p.position lens score p.sweep p.shifted
    ((displacedEntry s.fu.settings.mergeDistance p.position s.fu.map).map fun e => e.position)

/-- A notice goes to the list in the same way whatever else changed. -/
theorem post_of_li {s : State} (src : Source) (d : NoticeDetail) {v : State} (hv : v.li = s.li) :
    v.post src d = { v with li := (s.post src d).li } := by
  obtain ⟨l, hl⟩ := post_eq v src d
  rw [hl, ← post_li hv src d, hl]

theorem withResult_ended (s : State) (m : Fm) {r : Rs} {li l : Li} (p : Probe) (o : ProbeOutcome) (lens score : Nat)
    (hqueue : r.queue = s.rs.queue)
    (hli : p.requester = .host →
      l = (State.post { s with li := li } .focusDone (resultDetail s p o lens score)).li) :
    probeEnded s m li p o lens score (withResult s m r l p lens score) :=
  ⟨rfl, rfl, rfl, hqueue, rfl, rfl, rfl, rfl, rfl, rfl, hli⟩

/-- The requester is told of a completed probe (R109). -/
def endTold (p : Probe) (u : State) : State :=
  match p.requester with
  | .rs => u.rsProbeEnd .completed
  | _ => u.offerPlanning

theorem endTold_host {p : Probe} (h : p.requester ≠ .rs) (u : State) : endTold p u = u.offerPlanning := by
  unfold endTold
  cases hreq : p.requester with
  | rs => exact absurd hreq h
  | host => rfl
  | ix => rfl
  | cu => rfl

theorem endTold_rs {p : Probe} (h : p.requester = .rs) (u : State) : endTold p u = u.rsProbeEnd .completed := by
  rw [endTold, h]

theorem completeProbe_result (s : State) (m : Fm) (li : Li) (q p : Probe) (o : ProbeOutcome) (lens score : Nat) :
    ∃ r : Rs, r.queue = s.rs.queue ∧
      ({ withProbe s q with fm := m, li := li } : State).completeProbe p o lens score =
        endTold p
          (withResult s m r (State.post { s with li := li } .focusDone (resultDetail s p o lens score)).li p lens score) := by
  obtain ⟨r, hr, hqueue⟩ := insertMap_onlyRs
    (({ withProbe s q with fm := m, li := li } : State).commandLens lens) ⟨p.position, lens, score, false⟩
  refine ⟨r, hqueue, ?_⟩
  have hlamped : ((({ withProbe s q with fm := m, li := li } : State).commandLens lens).insertMap
      ⟨p.position, lens, score, false⟩).releaseProbeLamp = withProbe (withResult s m r li p lens score) q := by
    rw [hr, releaseProbeLamp_eq]
    rfl
  have hpost : (withProbe (withResult s m r li p lens score) q).post .focusDone (resultDetail s p o lens score) =
      withProbe (withResult s m r (State.post { s with li := li } .focusDone (resultDetail s p o lens score)).li p lens score) q :=
    post_of_li (s := { s with li := li }) .focusDone _ rfl
  unfold State.completeProbe
  dsimp only
  rw [hlamped]
  show endTold p (((withProbe (withResult s m r li p lens score) q).post .focusDone (resultDetail s p o lens score)).modFu _) = _
  rw [hpost]
  rfl

/-- A probe completes with a result (R109). -/
theorem completeProbe_ended (s : State) (m : Fm) (li : Li) (q p : Probe) (o : ProbeOutcome) (lens score : Nat) :
    probeEnded s m li p o lens score (({ withProbe s q with fm := m, li := li } : State).completeProbe p o lens score) := by
  obtain ⟨r, hqueue, hresult⟩ := completeProbe_result s m li q p o lens score
  rw [hresult]
  by_cases hreq : p.requester = .rs
  · obtain ⟨r', l', hend, hqueue'⟩ := rsProbeEnd_queue
      (withResult s m r (State.post { s with li := li } .focusDone (resultDetail s p o lens score)).li p lens score) .completed
    rw [endTold_rs hreq, hend]
    exact withResult_ended s m p o lens score (r := r') (l := l') (hqueue'.trans hqueue) fun h => by rw [hreq] at h; cases h
  · rw [endTold_host hreq, offerPlanning_eq]
    exact withResult_ended s m p o lens score (r := { r with planningDue := _ }) hqueue fun _ => rfl

/-- A host's probe aborted (R110). -/
theorem abortProbe_host {s : State} {p : Probe} (hp : s.fu.probe = some p) (hhost : p.requester = .host) (why : AbortReason) :
    s.abortProbe why =
      offered
        (State.post { s with fu := { s.fu with probe := none, target := s.fu.lens }, cp := unlit s.cp } .focusDone
          (.focusAborted .host why)) := by
  unfold State.abortProbe State.withSome
  rw [hp]
  dsimp only
  rw [hhost, releaseProbeLamp_eq, ← offerPlanning_eq_offered]
  rfl

/-! ### A fault among a probe's matters -/

theorem post_withProbe (s : State) (p : Probe) (src : Source) (d : NoticeDetail) :
    (withProbe s p).post src d = withProbe (s.post src d) p := by
  have hpost : s.post src d = { s with li := (s.post src d).li } := post_of_li src d rfl
  rw [post_of_li (s := s) (v := withProbe s p) src d rfl]
  exact (congrArg (withProbe · p) hpost).symm

theorem offerLog_withProbe (s : State) (p : Probe) (r : LogRecord) :
    (withProbe s p).offerLog r = withProbe (s.offerLog r) p := by
  unfold State.offerLog
  cases hmode : s.fm.logMode with
  | off => simp only [show (withProbe s p).fm = s.fm from rfl, hmode]
  | keepNewest => simp only [show (withProbe s p).fm = s.fm from rfl, hmode]; rfl
  | keepFirst =>
    simp only [show (withProbe s p).fm = s.fm from rfl, hmode]
    split
    · rfl
    split
    · rfl
    · exact post_withProbe (s.modFm fun m => { m with overflow := saturate countMax m.overflow, fullReported := true }) p _ _

theorem postFault_withProbe (s : State) (p : Probe) (c : FaultCode) (k : FaultClass) (d : FaultDetail) :
    (withProbe s p).postFault c k d = withProbe (s.postFault c k d) p := by
  unfold State.postFault
  dsimp only
  split <;> exact post_withProbe s p _ _

theorem faultOccur_withProbe (s : State) (p : Probe) (c : FaultCode) (k : FaultClass) (d : FaultDetail) :
    (withProbe s p).faultOccur c k d = withProbe (s.faultOccur c k d) p := by
  unfold State.faultOccur
  rw [← postFault_withProbe, ← offerLog_withProbe]
  rfl

end Sys2Proof.Machine

namespace Sys2Proof.Proofs.FocusSweeps

open Sys2Proof.Machine Sys2Proof.Expect

theorem lensStepsAndPointsAreScored : LensStepsAndPointsAreScored := by
  intro s hs
  refine ⟨?_, fun hlamp => ?_, fun hlamp hlist hprobe => ?_, fun p x rest hlamp hlist hholds hp hphase hpoints hx => ?_,
    fun ls => ⟨fun h => exec_probeBandRead_unasked hs h ls, fun p scored x y rest hp hsweep hlens hlamp hpoints hscored hx hy => ?_⟩⟩
  · rw [exec_lensStep hs, stepLens_eq]
  · rw [exec_lampWarmupExpiry hs, if_neg hlamp]
  · rw [exec_lampWarmupExpiry hs, if_pos hlamp]
    unfold State.lampLights State.onlyIf
    dsimp only [State.modCp]
    rw [if_pos hlist, hprobe]
    rfl
  · rw [exec_lampWarmupExpiry hs, if_pos hlamp]
    have hlit := probeLit_eq (s := s.modCp fun c => { c with lamp := .lit }) hp hphase
    have hfirst : p.points.find? (fun y => y.score.isNone) = some x := by rw [hpoints]; simp [hx]
    rw [hfirst] at hlit
    unfold State.lampLights State.onlyIf
    dsimp only
    rw [if_pos (by exact hholds), if_neg (ne_true_of_eq_false (by exact hlist)), hlit]
    rfl
  · rw [exec_probeBandRead hs hp hsweep hlens, if_pos hlamp, bandScored_more hpoints hscored hx hy]
    rfl

theorem sweepIsCompleted : SweepIsCompleted := by
  intro ls s p hs hp hsweep hlens
  refine ⟨fun scored z x j hlamp hpoints hscored hz => ?_, fun hlamp hhost => ?_⟩
  · intro ps hx hmax hfirst
    let q : Probe := { p with points := ps }
    have hexec : exec (.probeBandRead ls) s = .next ((withProbe s q).sweepDone q) := by
      rw [exec_probeBandRead hs hp hsweep hlens, if_pos hlamp, bandScored_last hpoints hscored hz]
    have hj : peakPlace ps = j := peakPlace_eq hx hmax hfirst
    refine ⟨fun a b hpos ha hb => ?_, fun hedge hone => ?_, fun hedge htwo => ?_⟩
    · rw [hexec, sweepDone_interior (p := q) hj hx hpos ha hb]
      exact ⟨_, rfl, completeProbe_ended s s.fm s.li q q .peak _ _⟩
    · refine ⟨sweepPoints s.fu.settings x.lens p.halfSpan p.step, sweepPoints_recentred _ _ _ _, sweepPoints_unscored, ?_⟩
      rw [hexec, sweepDone_edge (p := q) hj hx hedge, State.edgePeak, if_pos hone]
      rw [commandPoint_eq rfl]
      dsimp only
      rw [find_first_unscored sweepPoints_unscored]
      show Host.Outcome.next (State.withSome (withProbe s 
          { q with
            centre := x.lens, sweep := 2, points := sweepPoints s.fu.settings x.lens p.halfSpan p.step })
        (sweepPoints s.fu.settings x.lens p.halfSpan p.step).head? _) = _
      cases sweepPoints s.fu.settings x.lens p.halfSpan p.step <;> rfl
    · intro raised
      rw [hexec, sweepDone_edge (p := q) hj hx hedge, State.edgePeak, if_neg htwo]
      refine ⟨_, rfl, ?_⟩
      have hlimit : (decide (x.lens = s.fu.settings.lensMin) || decide (x.lens = s.fu.settings.lensMax)) =
          decide (x.lens = s.fu.settings.lensMin ∨ x.lens = s.fu.settings.lensMax) := (Bool.decide_or _ _).symm
      have hraised : (withProbe s q).faultOccur .focusEdge .minor (.focusEdge p.position x.lens
          (decide (x.lens = s.fu.settings.lensMin) || decide (x.lens = s.fu.settings.lensMax))) =
          { withProbe s q with fm := raised.fm, li := raised.li } := by
        obtain ⟨m, l, heq⟩ := faultOccur_eq s .focusEdge .minor
          (.focusEdge p.position x.lens (decide (x.lens = s.fu.settings.lensMin ∨ x.lens = s.fu.settings.lensMax)))
        rw [faultOccur_withProbe, hlimit, heq, show raised = _ from heq]
        rfl
      show probeEnded s raised.fm raised.li p .edgeLimited x.lens x.mark
        (State.completeProbe ((withProbe s q).faultOccur .focusEdge .minor (.focusEdge p.position x.lens
          (decide (x.lens = s.fu.settings.lensMin) || decide (x.lens = s.fu.settings.lensMax)))) q .edgeLimited x.lens x.mark)
      rw [hraised]
      exact completeProbe_ended s raised.fm raised.li q q .edgeLimited x.lens x.mark
  · rw [exec_probeBandRead hs hp hsweep hlens, if_neg hlamp, abortProbe_host hp hhost]

/-- Settles O44. -/
theorem lensMovesAndBandsAreScored : Obligations.LensMovesAndBandsAreScored := ⟨lensStepsAndPointsAreScored, sweepIsCompleted⟩

end Sys2Proof.Proofs.FocusSweeps

/-! The settings of the blocks (O46) and a window loaded (O47). -/

namespace Sys2Proof.Machine

open Expect

/-! ### SET_CAPTURE (R122) -/

theorem cropBad_iff (first count : Nat) :
    cropBad first count = true ↔ ¬ (first ≤ 8191 ∧ 16 ≤ count ∧ count ≤ 8192 ∧ first + count ≤ 8192) := by
  simp only [cropBad, Bool.or_eq_true, decide_eq_true_eq]
  omega

theorem slotInUse_iff (s : State) :
    s.slotInUse = true ↔ ∃ c, some c ∈ s.cp.slots ∧ (c.state = .reserved ∨ c.state = .filling) := by
  rw [State.slotInUse, List.any_eq_true]
  constructor
  · rintro ⟨c, hc, hstate⟩
    cases c with
    | none => cases hstate
    | some x => exact ⟨x, hc, by simpa using hstate⟩
  · rintro ⟨c, hc, hstate⟩
    exact ⟨some c, hc, by simpa using hstate⟩

/-! ### LOAD_WINDOW (R141) -/

theorem windowOutOfRange_iff (a : WindowArgs) :
    windowOutOfRange a = true ↔
      ¬ (a.id ≤ 63 ∧ a.base ≠ 0 ∧ 1 ≤ a.stride ∧ a.stride ≤ 4 ∧ a.firstFrame ≠ 0 ∧ a.label ≠ [] ∧ printableLabel a.label
        ∧ a.access ≠ none) := by
  have hlabel : labelBad a.label = true ↔ ¬ printableLabel a.label := by
    rw [labelBad_eq, Bool.not_eq_true', decide_eq_false_iff_not]
  simp only [windowOutOfRange, Bool.or_eq_true, decide_eq_true_eq, List.isEmpty_iff, Option.isNone_iff_eq_none, hlabel, ← Nat.not_le,
    Classical.not_and_iff_not_or_not, Classical.not_not, ne_eq, or_assoc]

theorem insertWindow_eq (w : Window) (l : List Window) :
    insertWindow w l =
      l.takeWhile (fun x => decide (x.base ≤ w.base)) ++ w :: l.dropWhile (fun x => decide (x.base ≤ w.base)) := by
  induction l with
  | nil => rfl
  | cons x rest ih =>
    unfold insertWindow
    by_cases h : w.base < x.base
    · simp [h, Nat.not_le.mpr h]
    · simp [h, Nat.not_lt.mp h, ih]

/-- LOAD_WINDOW's checks, in their order (R141). -/
def loadRefusal (a : WindowArgs) (s : State) : Option Status :=
  firstRefusal
    [(windowOutOfRange a, .range), (decide (a.limit < a.base), .range),
      (decide (65535 < highestFrame a.firstFrame a.base a.limit a.stride), .range),
      (s.ct.windows.any (fun w => decide (w.id = a.id)), .duplicate),
      (s.ct.windows.any (fun w => rangesOverlap a.base a.limit w.base w.limit), .overlap)]

theorem loadRefusal_eq (a : WindowArgs) (s : State) :
    loadRefusal a s =
      if windowOutOfRange a = true then some .range
      else if a.limit < a.base then some .range
      else if 65535 < a.firstFrame + (a.limit - a.base) * a.stride then some .range
      else if ∃ w ∈ s.ct.windows, w.id = a.id then some .duplicate
      else if ∃ w ∈ s.ct.windows, a.base ≤ w.limit ∧ w.base ≤ a.limit then some .overlap
      else none := by
  simp only [loadRefusal, firstRefusal, decide_eq_true_eq, List.any_eq_true, rangesOverlap, Bool.and_eq_true]
  rfl

end Sys2Proof.Machine

namespace Sys2Proof.Proofs.Settings

open Sys2Proof.Machine Sys2Proof.Expect

theorem motionSettingsAreSet : MotionSettingsAreSet := by
  intro tag a s hs
  refine exec_checked (i := .setMotion tag a) rfl hs (show ownSetMotion a (placed s) = _ from rfl) ?_ fun _ => rfl
  simp only [firstRefusal, Bool.not_eq_true', ← Bool.not_eq_true, Bool.and_eq_true, decide_eq_true_eq, and_assoc]
  rw [ite_not]

theorem captureSettingsAreSet (tag : Byte) (a : CaptureSettings) {s : State} (hs : Listening s) :
    let crop (first count : Nat) : Prop := first ≤ 8191 ∧ 16 ≤ count ∧ count ≤ 8192 ∧ first + count ≤ 8192
    let inRange : Prop :=
      1 ≤ a.linePitch ∧ a.linePitch ≤ 8 ∧ a.margin ≤ 2000 ∧ 1000 ≤ a.lineRate ∧ a.lineRate ≤ 40000
        ∧ crop a.first16 a.count16 ∧ crop a.first35 a.count35
    let busy : Prop :=
      (∃ c, some c ∈ s.cp.slots ∧ (c.state = .reserved ∨ c.state = .filling)) ∨ s.cp.jobs ≠ none ∨ s.fu.probe ≠ none
    (¬ inRange → exec (.setCapture tag a) s = .next (replied (placed s) tag 0x28 .range []))
      ∧ (inRange → busy → exec (.setCapture tag a) s = .next (replied (placed s) tag 0x28 .busy []))
      ∧ (inRange → ¬ busy →
        exec (.setCapture tag a) s =
          .next (replied { placed s with cp := { s.cp with settings := a } } tag 0x28 .ok [])) := by
  intro crop inRange busy
  have hrange : captureOutOfRange a = true ↔ ¬ inRange := by
    rw [captureOutOfRange, Bool.or_eq_true, Bool.or_eq_true, cropBad_iff, cropBad_iff, Bool.not_eq_true', ← Bool.not_eq_true]
    simp only [Bool.and_eq_true, decide_eq_true_eq, ← Classical.not_and_iff_not_or_not, and_assoc, inRange, crop]
  have hbusy : ((placed s).slotInUse || (placed s).cp.jobs.isSome || (placed s).fu.probe.isSome) = true ↔ busy := by
    rw [Bool.or_eq_true, Bool.or_eq_true, slotInUse_iff, Option.isSome_iff_ne_none, Option.isSome_iff_ne_none, or_assoc]
    exact Iff.rfl
  have hown : ownerOf (.setCapture tag a) (placed s) = _ := show ownSetCapture a (placed s) = _ from rfl
  refine ⟨fun h => exec_refused (i := .setCapture tag a) rfl hs hown rfl _ ?_,
    fun hin hb => exec_refused (i := .setCapture tag a) rfl hs hown rfl _ ?_,
    fun hin hb => exec_taken (i := .setCapture tag a) rfl hs hown rfl ?_ rfl⟩
  · exact if_pos (hrange.mpr h)
  · exact (if_neg (mt hrange.mp (not_not_intro hin))).trans (if_pos (hbusy.mpr hb))
  · exact (if_neg (mt hrange.mp (not_not_intro hin))).trans (if_neg (mt hbusy.mp hb))

theorem planningIsSet (tag : Byte) (d : Nat) (o : Option Bool) {s : State} (hs : Listening s) :
    exec (.setPlanning tag d o) s =
      .next
        (answered s tag 0x3C (if 1000000 < d ∨ o = none then some .range else none)
          { placed s with rs := { s.rs with joinDistance := d, indexOnDemand := o.getD true } } .ok []) := by
  refine exec_checked (i := .setPlanning tag d o) rfl hs (show ownSetPlanning d o (placed s) = _ from rfl) ?_ fun _ => rfl
  simp only [firstRefusal, Bool.or_eq_true, decide_eq_true_eq, Option.isNone_iff_eq_none]

theorem otherSettings : OtherSettings := by
  intro tag s hs
  refine ⟨fun a => captureSettingsAreSet tag a hs, fun d o => planningIsSet tag d o hs,
    exec_of_answer (i := .setMode tag none) rfl hs rfl,
    exec_of_answer (i := .setMode tag (some .manual)) rfl hs ?_,
    exec_of_answer (i := .setMode tag (some .auto)) rfl hs ?_,
    exec_of_answer (i := .setLogMode tag none) rfl hs rfl,
    fun m => exec_of_answer (i := .setLogMode tag (some m)) rfl hs rfl,
    exec_of_answer (i := .clearLog tag) rfl hs rfl⟩
  · show (((placed s).modRs fun r => { r with mode := .manual }).offerPlanning).done = _
    rw [offerPlanning_eq_offered, offered_of_manual (by simp)]
    rfl
  · show (((placed s).modRs fun r => { r with mode := .auto }).offerPlanning).done = _
    rw [offerPlanning_eq_offered]
    rfl

/-- Settles O46. -/
theorem settingsAreSet : Obligations.SettingsAreSet := ⟨motionSettingsAreSet, otherSettings⟩

end Sys2Proof.Proofs.Settings

namespace Sys2Proof.Proofs.LoadWindow

open Sys2Proof.Machine Sys2Proof.Expect

/-- Settles O47: the five checks in their order, then the window at its place. -/
theorem windowIsLoaded : Obligations.WindowIsLoaded := by
  intro tag a s hs inRange highest taken meets answer
  have hown : ownerOf (.loadWindow tag a) (placed s) = _ := show ownLoadWindow a (placed s) = _ from rfl
  have hrange := windowOutOfRange_iff a
  have hrefused : ∀ r, loadRefusal a (placed s) = some r → answer r :=
    exec_refused (i := .loadWindow tag a) rfl hs hown rfl
  have hin : inRange → ¬ windowOutOfRange a = true := fun h => mt hrange.mp (not_not_intro h)
  refine ⟨fun h => hrefused _ ?_, fun h hl => hrefused _ ?_, fun h hl hf => hrefused _ ?_, fun h hl hf ht => hrefused _ ?_,
    fun h hl hf ht hm => hrefused _ ?_, fun k h hl hf ht hm hk => ?_⟩
  · rw [loadRefusal_eq, if_pos (hrange.mpr h)]
  · rw [loadRefusal_eq, if_neg (hin h), if_pos hl]
  · rw [loadRefusal_eq, if_neg (hin h), if_neg (Nat.not_lt.mpr hl), if_pos hf]
  · rw [loadRefusal_eq, if_neg (hin h), if_neg (Nat.not_lt.mpr hl), if_neg (Nat.not_lt.mpr hf), if_pos (by exact ht)]
  · rw [loadRefusal_eq, if_neg (hin h), if_neg (Nat.not_lt.mpr hl), if_neg (Nat.not_lt.mpr hf), if_neg (by exact ht), if_pos (by exact hm)]
  · intro w
    have hnone : loadRefusal a (placed s) = none := by
      rw [loadRefusal_eq, if_neg (hin h), if_neg (Nat.not_lt.mpr hl), if_neg (Nat.not_lt.mpr hf), if_neg (by exact ht), if_neg (by exact hm)]
    refine exec_taken (i := .loadWindow tag a) rfl hs hown rfl hnone ?_
    dsimp only
    rw [hk]
    have hinsert := insertWindow_eq w s.ct.windows
    exact congrArg (fun l => State.done { placed s with ct := { s.ct with windows := l } }) hinsert

end Sys2Proof.Proofs.LoadWindow

/-! The delivery channels: configuration, telemetry, and a slot taken (O54). -/

namespace Sys2Proof.Machine

open Expect

/-! ### Taking the head of the Ready List (R177) -/

theorem Channel.idle_iff {c : Channel} : c.idle = true ↔ c.mode = .image ∧ c.sending = none := by
  rw [Channel.idle, Bool.and_eq_true, decide_eq_true_eq, Option.isNone_iff_eq_none]

theorem takeHead_of_busy {s : State} {id : ChannelId} (h : ¬ ((s.dc.channel id).mode = .image ∧ (s.dc.channel id).sending = none)) :
    s.takeHead id = s := if_neg (mt Channel.idle_iff.mp h)

theorem takeHead_of_empty {s : State} (h : s.cp.ready = []) (id : ChannelId) : s.takeHead id = s := by
  unfold State.takeHead State.withSome
  rw [h]
  split <;> rfl

theorem takeHead_of_ready {s : State} {id : ChannelId} {n : Nat} {rest : List Nat} (hmode : (s.dc.channel id).mode = .image)
    (hsending : (s.dc.channel id).sending = none) (hready : s.cp.ready = n :: rest) : s.takeHead id = s.takeSlot id n := by
  unfold State.takeHead State.withSome
  rw [if_pos (Channel.idle_iff.mpr ⟨hmode, hsending⟩), hready]
  rfl

/-- The delivery that taking a slot begins (R178). -/
def firstSending (n : Nat) (c : StoreSlot) : Sending :=
  { slot := n, reqId := c.reqId, blockCount := blockCountOf c.record, nextBlock := 0 }

theorem takeSlot_eq {s : State} {n : Nat} {c : StoreSlot} (hc : s.cp.slots[n]? = some (some c)) (id : ChannelId) :
    s.takeSlot id n =
      ({ s with
          cp :=
            { s.cp with ready := s.cp.ready.tail, slots := s.cp.slots.set n (some { c with state := .sending }) },
          rs :=
            { s.rs with
              queue := s.rs.queue.map fun r => if r.id = c.reqId then { r with state := .delivering } else r } } : State).modChannel
        id fun x => { x with sending := some (firstSending n c), waiting := some (blockBody id c (firstSending n c)) } := by
  obtain ⟨hlt, -⟩ := List.getElem?_eq_some_iff.mp hc
  have hget : s.cp.slots.getD n none = some c := by rw [List.getD_eq_getElem?_getD, hc]; rfl
  have hset : (s.cp.slots.set n (some { c with state := .sending })).getD n none = some { c with state := .sending } := by
    rw [List.getD_eq_getElem?_getD, List.getElem?_set_self hlt]
    rfl
  have hslot : (s.modCp fun c => { c with ready := c.ready.tail }).modSlot n (fun x => { x with state := .sending }) =
      { s with
        cp :=
          { s.cp with ready := s.cp.ready.tail, slots := s.cp.slots.set n (some { c with state := .sending }) } } := by
    unfold State.modSlot
    dsimp only [State.modCp]
    rw [hget]
    rfl
  unfold State.takeSlot
  dsimp only
  rw [hslot]
  have hcontent : State.slotContent
      { s with
        cp :=
          { s.cp with ready := s.cp.ready.tail, slots := s.cp.slots.set n (some { c with state := .sending }) } } n =
      { c with state := .sending } := by
    unfold State.slotContent
    dsimp only
    rw [hset]
    rfl
  rw [hcontent]
  unfold State.offerBlock
  have hcontent' : ∀ q : List Request, State.slotContent
      { s with
        cp :=
          { s.cp with ready := s.cp.ready.tail, slots := s.cp.slots.set n (some { c with state := .sending }) },
        rs := { s.rs with queue := q } } n = { c with state := .sending } := fun _ => hcontent
  show State.modChannel _ id (fun x => { x with sending := _, waiting := some (blockBody id (State.slotContent _ n) _) }) = _
  erw [hcontent']
  rfl

theorem ceilDiv_block (x : Nat) : ceilDiv x 4096 = (x + 4095) / 4096 := by
  rw [ceilDiv, Nat.add_sub_assoc (by decide)]

/-- The first block carries the frame record and the first pixel bytes (R178). -/
theorem blockBody_first (id : ChannelId) (n : Nat) (c : StoreSlot) :
    blockBody id c (firstSending n c) =
      (let count := (c.record.lines * c.record.pixels + 4095) / 4096
       let pixels := c.lines.flatten.take 4096
       u8 id.ctorIdx ++ u8 (if count = 1 then 3 else 1) ++ u8 n ++ u8 c.reqId ++ u16 0 ++ u16 count
        ++ u16 pixels.length ++ encFrameRecord c.record ++ pixels) := by
  have hcount : blockCountOf c.record = (c.record.lines * c.record.pixels + 4095) / 4096 := ceilDiv_block _
  have hpixels : blockPixels c 0 = c.lines.flatten.take 4096 := by
    rw [blockPixels, Nat.zero_mul, List.drop_zero]
    rfl
  have hflags : ∀ k : Nat, blockFlags 0 k = if k = 1 then 3 else 1 := fun k => by
    by_cases h : k = 1
    · rw [h]; rfl
    · have h' : ¬ 0 + 1 = k := by omega
      rw [blockFlags, decide_eq_false h', if_neg h]
      rfl
  have hfirst : (firstSending n c).nextBlock = 0 := rfl
  have hblocks : (firstSending n c).blockCount = blockCountOf c.record := rfl
  simp only [blockBody, hfirst, hblocks, hpixels, hflags, hcount, if_true]
  rfl

/-! ### The telemetry interval (R183) -/

theorem nextSnapshot_eq (d : Dc) :
    nextSnapshot d =
      { d with
        sequence := (d.sequence + 1) % 65536,
        skipped := if d.snapshot = none then d.skipped else min (d.skipped + 1) 255 } := by
  unfold nextSnapshot
  cases d.snapshot <;> rfl

theorem latched_modDc (s : State) (f : Dc → Dc) : (s.modDc f).latched = s.latched := rfl

/-- A snapshot's bytes, with the number and the skips of its interval (R183). -/
theorem takeSnapshot_eq (s : State) :
    (let t := s.modDc nextSnapshot
     t.modDc fun d => { d with snapshot := some (telemetryBody t) }) =
      (let k := if s.dc.snapshot = none then s.dc.skipped else min (s.dc.skipped + 1) 255
       let q := (s.dc.sequence + 1) % 65536
       { s with
         dc :=
           { s.dc with
             sequence := q, skipped := k,
             snapshot :=
               some
                 (u16 q ++ u32 s.li.uptime ++ u32 s.tc.position ++ u16 s.tc.speed ++ u8 s.tc.direction.ctorIdx
                   ++ u16 s.reportedTension ++ u16 s.fu.lens ++ u8 s.tc.state.ctorIdx ++ u8 s.ix.tracker.state.ctorIdx
                   ++ u16 (match s.ix.tracker.frame with | some f => f | none => 0) ++ u8 s.rs.queue.length
                   ++ u8 (s.cp.slots.filter fun x => x.isNone).length ++ u8 s.cp.ready.length
                   ++ u8 (if s.rs.mode = .auto then 1 else 0)
                   ++ u8 ((if s.latched then 1 else 0) + (if s.tu.capInForce then 2 else 0)) ++ u8 k) } }) := by
  have hframe : s.ix.tracker.frame.getD 0 = match s.ix.tracker.frame with | some f => f | none => 0 := by
    cases s.ix.tracker.frame <;> rfl
  have hmode : s.rs.mode.ctorIdx = if s.rs.mode = .auto then 1 else 0 := by cases s.rs.mode <;> rfl
  have hflags : s.latched.toNat + 2 * s.tu.capInForce.toNat =
      (if s.latched then 1 else 0) + (if s.tu.capInForce then 2 else 0) := by
    cases s.latched <;> cases s.tu.capInForce <;> rfl
  have hnext := nextSnapshot_eq s.dc
  rw [← hframe, ← hmode, ← hflags]
  dsimp only [State.modDc]
  rw [hnext]
  rfl

/-! ### Channel B's mode (R182) -/

theorem configureB_telemetry (s : State) (n : Nat) :
    s.configureB .telemetry n =
      { s with
        dc :=
          { s.dc with
            b := { s.dc.b with mode := .telemetry }, interval := n,
            skipped := if s.dc.b.mode = .image then 0 else s.dc.skipped } } := by
  have hrest : s.dc.b.mode = .telemetry → { s.dc.b with mode := .telemetry } = s.dc.b := fun h => by rw [← h]
  unfold State.configureB
  by_cases h : s.dc.b.mode = .image
  · rw [h, if_pos rfl]
    rfl
  · have htele : s.dc.b.mode = .telemetry := by cases hb : s.dc.b.mode <;> trivial
    rw [if_neg h, hrest htele, htele]
    rfl

theorem configureB_image {s : State} (hmode : s.dc.b.mode = .telemetry) (hready : s.cp.ready = []) (n : Nat) :
    s.configureB .image n = { s with dc := { s.dc with b := { s.dc.b with mode := .image }, snapshot := none } } := by
  unfold State.configureB
  rw [hmode]
  exact takeHead_of_empty
    (s := s.modDc fun d => { d with b := { d.b with mode := .image }, snapshot := none }) hready .b

theorem configureB_same {s : State} (hmode : s.dc.b.mode = .image) (n : Nat) : s.configureB .image n = s := by
  unfold State.configureB
  rw [hmode]

end Sys2Proof.Machine

namespace Sys2Proof.Proofs.Channels

open Sys2Proof.Machine Sys2Proof.Expect

/-- CONFIGURE_CHANNEL's checks, in their order (R182). -/
def configureRefusal (c : Option ChannelId) (m : Option ChannelMode) (n : Nat) (s : State) : Option Status :=
  firstRefusal
    [(c.isNone || m.isNone || decide (n < 10) || decide (1000 < n), .range),
      (decide (c = some .a) && decide (m = some .telemetry), .range),
      ((s.dc.channel (c.getD .a)).sending.isSome, .busy)]

theorem configureRefusal_eq (c : Option ChannelId) (m : Option ChannelMode) (n : Nat) (s : State) :
    configureRefusal c m n s =
      (let sending : Bool :=
        match c with | some .a => s.dc.a.sending.isSome | some .b => s.dc.b.sending.isSome | none => false
       if c = none ∨ m = none ∨ n < 10 ∨ 1000 < n then some .range
       else if c = some .a ∧ m = some .telemetry then some .range
       else if sending then some .busy
       else none) := by
  simp only [configureRefusal, firstRefusal, Bool.or_eq_true, Bool.and_eq_true, decide_eq_true_eq, Option.isNone_iff_eq_none,
    or_assoc]
  cases c with
  | none => rfl
  | some id => cases id <;> rfl

/-- What the command does to a channel (R182). -/
def configureAction (c : Option ChannelId) (m : Option ChannelMode) (n : Nat) (s : State) : Answer :=
  match c, m with
  | some .b, some m => (s.configureB m n).done
  | _, _ => s.done

theorem exec_configureChannel_taken (tag : Byte) {c : Option ChannelId} {m : Option ChannelMode} {n : Nat} {s t : State}
    (hs : Listening s) (hnone : configureRefusal c m n s = none) (ht : configureAction c m n (placed s) = ⟨t, .ok, []⟩) :
    exec (.configureChannel tag c m n) s = .next (replied t tag 0x40 .ok []) := by
  refine exec_taken (i := .configureChannel tag c m n) rfl hs (show ownConfigureChannel c m n (placed s) = _ from rfl)
    (refusal := configureRefusal c m n s) rfl hnone ?_
  rw [← ht]
  rfl

theorem channelsAreConfigured : ChannelsAreConfigured := by
  intro tag c m n s hs sending refusal toB
  have hrefusal : configureRefusal c m n s = refusal := configureRefusal_eq c m n s
  refine ⟨fun hplace => ⟨fun r hr => ?_, fun hnone hc => ?_, fun hnone hc hm => ?_, fun hnone hc hm htele hready => ?_⟩,
    fun himage => ?_, fun htele => ?_⟩
  · exact exec_refused (i := .configureChannel tag c m n) rfl ⟨hs, hplace⟩
      (show ownConfigureChannel c m n (placed s) = _ from rfl) (refusal := configureRefusal c m n s) rfl r (hrefusal.trans hr)
  · refine exec_configureChannel_taken tag ⟨hs, hplace⟩ (hrefusal.trans hnone) ?_
    rcases hc with rfl | ⟨himage, rfl⟩
    · cases m <;> rfl
    · cases c with
      | none => rfl
      | some id =>
        cases id with
        | a => rfl
        | b =>
          show State.done ((placed s).configureB .image n) = _
          rw [configureB_same (s := placed s) himage]
          rfl
  · subst hc hm
    refine exec_configureChannel_taken tag ⟨hs, hplace⟩ (hrefusal.trans hnone) ?_
    show State.done ((placed s).configureB .telemetry n) = _
    rw [configureB_telemetry]
    rfl
  · subst hc hm
    refine exec_configureChannel_taken tag ⟨hs, hplace⟩ (hrefusal.trans hnone) ?_
    show State.done ((placed s).configureB .image n) = _
    rw [configureB_image (s := placed s) htele hready]
    rfl
  · show execTelemetryIntervalExpiry s = _
    rw [execTelemetryIntervalExpiry, whenRunning_running hs, himage]
  · intro k q
    show execTelemetryIntervalExpiry s = _
    rw [execTelemetryIntervalExpiry, whenRunning_running hs, htele]
    exact congrArg Host.Outcome.next (takeSnapshot_eq s)

theorem headOfTheReadyListIsTaken : HeadOfTheReadyListIsTaken := by
  intro s hs
  have hexec : exec .channelTakeSlot s = .next ((s.takeHead .a).takeHead .b) := by
    show execChannelTakeSlot s = _
    rw [execChannelTakeSlot, whenRunning_running hs]
  refine ⟨fun hready => ?_, fun ha hb => ?_, fun n c hmode hsending hready hc => ?_⟩
  · rw [hexec, takeHead_of_empty hready, takeHead_of_empty hready]
  · rw [hexec, takeHead_of_busy (id := .a) ha, takeHead_of_busy (id := .b) hb]
  · intro count pixels
    rw [hexec, takeHead_of_ready (id := .a) hmode hsending hready, takeSlot_eq hc, takeHead_of_empty (by exact congrArg List.tail hready),
      blockBody_first]
    rw [hready]
    rfl

/-- Settles O54. -/
theorem channelsDeliverAndStream : Obligations.ChannelsDeliverAndStream := ⟨channelsAreConfigured, headOfTheReadyListIsTaken⟩

end Sys2Proof.Proofs.Channels

/-! A fault occurrence (O55). -/

namespace Sys2Proof.Machine

open Expect

/-! ### The active set (R204) -/

/-- The entry of an occurrence e, where the set holds the entry o of its code or none. -/
def joinedEntry (e : FaultEntry) : Option FaultEntry → FaultEntry
  | none => e
  | some x =>
    { e with cls := if e.cls = .major then .major else x.cls, firstSeen := x.firstSeen, count := min (x.count + 1) 65535 }

theorem faultAdd_filter_other (e : FaultEntry) (l : List FaultEntry) :
    ((faultAdd e l).filter fun x => decide (x.code ≠ e.code)) = l.filter fun x => decide (x.code ≠ e.code) := by
  induction l with
  | nil => simp [faultAdd]
  | cons x rest ih =>
    unfold faultAdd
    by_cases hsame : x.code = e.code
    · rw [if_pos hsame, List.filter_cons, List.filter_cons]
      simp [hsame]
    · rw [if_neg hsame]
      by_cases hbefore : e.code.ctorIdx < x.code.ctorIdx
      · rw [if_pos hbefore, List.filter_cons]
        simp
      · rw [if_neg hbefore, List.filter_cons, ih, List.filter_cons]

theorem filter_code_of_above {e : FaultEntry} {l : List FaultEntry} (h : ∀ x ∈ l, e.code.ctorIdx < x.code.ctorIdx) :
    (l.filter fun x => decide (x.code = e.code)) = [] ∧ (l.find? fun x => decide (x.code = e.code)) = none := by
  have hne : ∀ x ∈ l, ¬ decide (x.code = e.code) = true := fun x hx heq => by
    have hlt := h x hx
    rw [of_decide_eq_true heq] at hlt
    exact Nat.lt_irrefl _ hlt
  exact ⟨List.filter_eq_nil_iff.mpr hne, List.find?_eq_none.mpr hne⟩

theorem faultAdd_filter_code {e : FaultEntry} {l : List FaultEntry}
    (h : Ascending (fun x : FaultEntry => x.code.ctorIdx) l) :
    ((faultAdd e l).filter fun x => decide (x.code = e.code)) =
      [joinedEntry e (l.find? fun x => decide (x.code = e.code))] := by
  induction l with
  | nil => simp [faultAdd, joinedEntry]
  | cons x rest ih =>
    obtain ⟨hx, hrest⟩ := List.pairwise_cons.mp h
    unfold faultAdd
    by_cases hsame : x.code = e.code
    · obtain ⟨hnone, -⟩ := filter_code_of_above (e := e) (l := rest) fun y hy => hsame ▸ hx y hy
      rw [if_pos hsame, List.filter_cons, hnone, List.find?_cons, decide_eq_true hsame]
      simp [joinedEntry, saturate, countMax]
    · rw [if_neg hsame, List.find?_cons, decide_eq_false hsame]
      by_cases hbefore : e.code.ctorIdx < x.code.ctorIdx
      · obtain ⟨hnone, hfind⟩ := filter_code_of_above (e := e) (l := rest) fun y hy => Nat.lt_trans hbefore (hx y hy)
        rw [if_pos hbefore, hfind, List.filter_cons, List.filter_cons, hnone]
        simp [hsame, joinedEntry]
      · rw [if_neg hbefore, List.filter_cons, ih hrest]
        simp [hsame]

theorem find?_of_filter {α : Type} {p : α → Bool} {l : List α} {a : α} (h : l.filter p = [a]) : l.find? p = some a := by
  rw [← List.head?_filter, h]
  rfl

/-! ### The log (R209) -/

/-- A record is refused by a full log that keeps its first records. -/
def logRefuses (m : Fm) : Prop := m.logMode = .keepFirst ∧ ¬ m.log.length < 10

theorem offerLog_logMode (s : State) (r : LogRecord) : (s.offerLog r).fm.logMode = s.fm.logMode := by
  unfold State.offerLog
  cases hmode : s.fm.logMode with
  | off => exact hmode
  | keepNewest => exact hmode
  | keepFirst =>
    dsimp only
    split
    · exact hmode
    · split
      · exact hmode
      · obtain ⟨l, hl⟩ := post_eq (s.modFm fun m => { m with overflow := saturate countMax m.overflow, fullReported := true }) .logFull
          (.logFull .keepFirst (saturate countMax s.fm.overflow))
        exact (congrArg (fun t : State => t.fm.logMode) hl).trans hmode

theorem offerLog_off {s : State} (h : s.fm.logMode = .off) (r : LogRecord) : s.offerLog r = s := by
  rw [State.offerLog, h]

theorem offerLog_keepNewest {s : State} (h : s.fm.logMode = .keepNewest) (r : LogRecord) :
    s.offerLog r =
      { s with fm := { s.fm with log := (if s.fm.log.length < 10 then s.fm.log else s.fm.log.drop 1) ++ [r] } } := by
  rw [State.offerLog, h]
  rfl

theorem offerLog_room {s : State} (h : s.fm.logMode = .keepFirst) (hroom : s.fm.log.length < 10) (r : LogRecord) :
    s.offerLog r = { s with fm := { s.fm with log := s.fm.log ++ [r] } } := by
  rw [State.offerLog, h]
  exact if_pos hroom

/-- A full log that keeps its first records counts the record, and says once that it is full (R209). -/
theorem offerLog_full {s : State} (h : s.fm.logMode = .keepFirst) (hfull : ¬ s.fm.log.length < 10) (r : LogRecord) :
    s.offerLog r =
      { s with
        fm := { s.fm with overflow := min (s.fm.overflow + 1) 65535, fullReported := true },
        li :=
          if s.fm.fullReported then s.li
          else (s.post .logFull (.logFull .keepFirst (min (s.fm.overflow + 1) 65535))).li } := by
  have hoffer : s.offerLog r =
      (let t := s.modFm fun m => { m with overflow := saturate countMax m.overflow, fullReported := true }
       if s.fm.fullReported then t else t.post .logFull (.logFull .keepFirst t.fm.overflow)) := by
    rw [State.offerLog, h]
    exact if_neg hfull
  rw [hoffer]
  by_cases hsaid : s.fm.fullReported = true
  · dsimp only
    rw [if_pos hsaid, if_pos hsaid]
    rfl
  · dsimp only
    rw [if_neg hsaid, if_neg hsaid]
    exact post_of_li (s := s) _ _ rfl

/-! ### The notice (R204, R208) -/

/-- The source and the detail of an occurrence's notice. -/
def faultNotice (code : FaultCode) (cls : FaultClass) (d : FaultDetail) (n p : Nat) (slot : Option Nat) : Source × NoticeDetail :=
  match d with
  | .operator c => (.operator, .operator cls c n p slot)
  | _ => (if cls = .major then .faultMajor else .faultMinor, .fault code cls n d p slot)

theorem postFault_notice (s : State) (code : FaultCode) (cls : FaultClass) (d : FaultDetail) :
    s.postFault code cls d =
      s.post (faultNotice code cls d (s.faultCount code) s.tc.position s.faultSlot).1
        (faultNotice code cls d (s.faultCount code) s.tc.position s.faultSlot).2 := by
  unfold State.postFault faultNotice
  cases d <;> cases cls <;> rfl

/-! ### The occurrence -/

/-- The entry and the record of an occurrence, as the part stands. -/
def newEntry (s : State) (code : FaultCode) (cls : FaultClass) (d : FaultDetail) : FaultEntry :=
  { code := code, cls := cls, firstSeen := s.li.uptime, count := 1, detail := d, position := s.tc.position, slot := s.faultSlot }

def newRecord (s : State) (code : FaultCode) (cls : FaultClass) (d : FaultDetail) : LogRecord :=
  { cls := cls, code := code, detail := d, position := s.tc.position, slot := s.faultSlot, uptime := s.li.uptime }

/-- The part with the occurrence in the active set. -/
def entered (s : State) (code : FaultCode) (cls : FaultClass) (d : FaultDetail) : State :=
  s.modFm fun m => { m with active := faultAdd (newEntry s code cls d) m.active }

/-- The part with the occurrence in the active set and in the log, its notice still to come. -/
def occurred (s : State) (code : FaultCode) (cls : FaultClass) (d : FaultDetail) : State :=
  (entered s code cls d).offerLog (newRecord s code cls d)

theorem faultOccur_occurred (s : State) (code : FaultCode) (cls : FaultClass) (d : FaultDetail) :
    s.faultOccur code cls d = (occurred s code cls d).postFault code cls d := rfl

theorem faultOccur_fm (s : State) (code : FaultCode) (cls : FaultClass) (d : FaultDetail) :
    (s.faultOccur code cls d).fm = (occurred s code cls d).fm := postFault_fm _ _ _ _

theorem faultOccur_active (s : State) (code : FaultCode) (cls : FaultClass) (d : FaultDetail) :
    (s.faultOccur code cls d).fm.active = faultAdd (newEntry s code cls d) s.fm.active := by
  rw [faultOccur_fm]
  exact offerLog_active _ _

theorem occurred_count {s : State} (h : Ascending (fun x : FaultEntry => x.code.ctorIdx) s.fm.active) (code : FaultCode)
    (cls : FaultClass) (d : FaultDetail) :
    (occurred s code cls d).faultCount code =
      match s.fm.active.find? (fun e => decide (e.code = code)) with | none => 1 | some e => min (e.count + 1) 65535 := by
  have hactive : (occurred s code cls d).fm.active = faultAdd (newEntry s code cls d) s.fm.active := offerLog_active _ _
  have hfind := find?_of_filter (faultAdd_filter_code (e := newEntry s code cls d) h)
  unfold State.faultCount
  rw [hactive]
  rw [show (newEntry s code cls d).code = code from rfl] at hfind
  rw [hfind]
  cases s.fm.active.find? (fun e => decide (e.code = code)) <;> rfl

end Sys2Proof.Machine

namespace Sys2Proof.Proofs.FaultOccurrence

open Sys2Proof.Machine Sys2Proof.Expect

/-- The log after an occurrence, by its mode and its length (R209). -/
theorem occurred_log (s : State) (code : FaultCode) (cls : FaultClass) (d : FaultDetail) (hlen : s.fm.log.length ≤ 10) :
    let t := occurred s code cls d
    let record := newRecord s code cls d
    (s.fm.logMode = .off → t.fm.log = s.fm.log)
      ∧ (s.fm.logMode ≠ .off → s.fm.log.length < 10 → t.fm.log = s.fm.log ++ [record])
      ∧ (s.fm.logMode = .keepNewest → s.fm.log.length = 10 → t.fm.log = s.fm.log.tail ++ [record])
      ∧ (s.fm.logMode = .keepFirst → s.fm.log.length = 10 →
        t.fm.log = s.fm.log ∧ t.fm.overflow = min (s.fm.overflow + 1) 65535 ∧ t.fm.fullReported = true)
      ∧ (¬ (s.fm.logMode = .keepFirst ∧ s.fm.log.length = 10) →
        t.fm.overflow = s.fm.overflow ∧ t.fm.fullReported = s.fm.fullReported) := by
  intro t record
  cases hmode : s.fm.logMode with
  | off =>
    have ht := offerLog_off (s := entered s code cls d) hmode record
    rw [show t = _ from ht]
    simp [entered]
  | keepNewest =>
    have ht := offerLog_keepNewest (s := entered s code cls d) hmode record
    rw [show t = _ from ht]
    refine ⟨fun h => (nomatch h), fun _ hroom => ?_, fun _ hfull => ?_, fun h => (nomatch h), fun _ => ⟨rfl, rfl⟩⟩
    · exact congrArg (· ++ [record]) (if_pos hroom)
    · exact congrArg (· ++ [record]) ((if_neg (by show ¬ s.fm.log.length < 10; omega)).trans List.drop_one)
  | keepFirst =>
    by_cases hroom : s.fm.log.length < 10
    · have ht := offerLog_room (s := entered s code cls d) hmode hroom record
      rw [show t = _ from ht]
      refine ⟨fun h => (nomatch h), fun _ _ => rfl, fun h => (nomatch h), fun _ hfull => by omega, fun _ => ⟨rfl, rfl⟩⟩
    · have ht := offerLog_full (s := entered s code cls d) hmode hroom record
      rw [show t = _ from ht]
      exact ⟨fun h => (nomatch h), fun _ h => absurd h hroom, fun h => (nomatch h), fun _ _ => ⟨rfl, rfl, rfl⟩,
        fun h => absurd ⟨rfl, by omega⟩ h⟩

/-- LOG_FULL is posted once per filling in KEEP_FIRST (R209). -/
theorem occurred_li (s : State) (code : FaultCode) (cls : FaultClass) (d : FaultDetail) (hlen : s.fm.log.length ≤ 10) :
    (occurred s code cls d).li =
      (if s.fm.logMode = .keepFirst ∧ s.fm.log.length = 10 ∧ s.fm.fullReported = false then
         s.post .logFull (.logFull .keepFirst (min (s.fm.overflow + 1) 65535))
       else s).li := by
  cases hmode : s.fm.logMode with
  | off =>
    have ht := congrArg State.li (offerLog_off (s := entered s code cls d) hmode (newRecord s code cls d))
    refine Eq.trans ?_ (congrArg State.li (if_neg fun h => nomatch h.1)).symm
    exact ht
  | keepNewest =>
    have ht := congrArg State.li (offerLog_keepNewest (s := entered s code cls d) hmode (newRecord s code cls d))
    refine Eq.trans ?_ (congrArg State.li (if_neg fun h => nomatch h.1)).symm
    exact ht
  | keepFirst =>
    by_cases hroom : s.fm.log.length < 10
    · have ht := congrArg State.li (offerLog_room (s := entered s code cls d) hmode hroom (newRecord s code cls d))
      refine Eq.trans ?_ (congrArg State.li (if_neg fun h => by omega)).symm
      exact ht
    · have ht := congrArg State.li (offerLog_full (s := entered s code cls d) hmode hroom (newRecord s code cls d))
      by_cases hsaid : s.fm.fullReported = true
      · refine Eq.trans ?_ (congrArg State.li (if_neg fun h => ?_)).symm
        · exact ht.trans (if_pos hsaid)
        · rw [h.2.2] at hsaid
          cases hsaid
      · refine Eq.trans ?_ (congrArg State.li (if_pos ⟨rfl, by omega, Bool.eq_false_iff.mpr hsaid⟩)).symm
        exact ht.trans ((if_neg hsaid).trans (post_li (s := s) (t := entered s code cls d) rfl _ _))

/-- Settles O55. -/
theorem faultOccurrenceIsEntered : Obligations.FaultOccurrenceIsEntered := by
  intro s code cls d hwf t slot record
  obtain ⟨hcodes, -, -, hlen⟩ := hwf
  have hactive : t.fm.active = faultAdd (newEntry s code cls d) s.fm.active := faultOccur_active s code cls d
  have hfm : t.fm = (occurred s code cls d).fm := faultOccur_fm s code cls d
  obtain ⟨hoff, happend, hnewest, hfirst, hrest⟩ := occurred_log s code cls d hlen
  rw [← hfm] at hoff happend hnewest hfirst hrest
  refine ⟨?_, ?_, hoff, happend, hnewest, hfirst, hrest, ?_, ?_, ?_⟩
  · rw [hactive]
    exact faultAdd_filter_other (newEntry s code cls d) _
  · rw [hactive]
    refine (faultAdd_filter_code (e := newEntry s code cls d) hcodes).trans ?_
    show [joinedEntry _ (s.fm.active.find? fun e => decide (e.code = code))] = _
    cases s.fm.active.find? (fun e => decide (e.code = code)) <;> rfl
  · rw [hfm]
    exact offerLog_logMode _ _
  · intro n logged
    have hcount : (occurred s code cls d).faultCount code = n := occurred_count hcodes code cls d
    have hlogged : (occurred s code cls d).li = logged.li := occurred_li s code cls d hlen
    obtain ⟨m, l, heq⟩ := offerLog_eq (entered s code cls d) (newRecord s code cls d)
    have hplace : (occurred s code cls d).tc.position = s.tc.position ∧ (occurred s code cls d).faultSlot = slot := by
      rw [show occurred s code cls d = _ from heq]
      exact ⟨rfl, rfl⟩
    obtain ⟨hposition, hslot⟩ := hplace
    have ht : t.li = (logged.post (faultNotice code cls d n s.tc.position slot).1 (faultNotice code cls d n s.tc.position slot).2).li := by
      rw [show t = _ from faultOccur_occurred s code cls d, postFault_notice, hcount, hposition, hslot]
      exact post_li hlogged _ _
    rw [ht]
    cases d <;> rfl
  · obtain ⟨m, l, heq⟩ := faultOccur_eq s code cls d
    rw [show t = _ from heq]

end Sys2Proof.Proofs.FaultOccurrence

/-! A request submitted (O50). -/

namespace Sys2Proof.Machine

open Expect

/-! ### The disposition (R145, R149) -/

/-- The only window that holds an image is the one found (R145). -/
theorem windowFor_split {s : State} {before after : List Window} {w : Window} {i : Nat}
    (hsplit : s.ct.windows = before ++ w :: after) (hbase : w.base ≤ i) (hlimit : i ≤ w.limit)
    (hother : ∀ x, x ∈ before ∨ x ∈ after → ¬ (x.base ≤ i ∧ i ≤ x.limit)) : s.windowFor i = some w := by
  rw [State.windowFor, hsplit]
  refine List.find?_eq_some_iff_append.mpr ⟨by simp [hbase, hlimit], before, after, rfl, fun x hx => ?_⟩
  rw [← Bool.decide_and, decide_eq_false (hother x (.inl hx))]
  rfl

theorem windowFor_none {s : State} {i : Nat} (h : ∀ w ∈ s.ct.windows, ¬ (w.base ≤ i ∧ i ≤ w.limit)) :
    s.windowFor i = none :=
  List.find?_eq_none.mpr fun w hw => by simpa using h w hw

theorem originIncluded_eq (mask origin : Nat) : originIncluded mask origin = mask.testBit origin := by
  rw [originIncluded, Nat.testBit_eq_decide_div_mod_eq]
  rfl

theorem disposition_not_held {s : State} {i : Nat} (h : s.windowFor i = none) (origin : Nat) :
    s.disposition i origin = .refused .notHeld := by
  rw [State.disposition, h]

theorem disposition_refused {s : State} {i origin : Nat} {w : Window} {st : Status} (h : s.windowFor i = some w)
    (ha : accessRefusal w origin = some st) : s.disposition i origin = .refused st := by
  unfold State.disposition
  rw [h]
  dsimp only
  rw [ha]

/-- An allowed image of a roll that no entry's label names waits for the roll (R147). -/
theorem disposition_waiting {s : State} {i origin : Nat} {w : Window} (h : s.windowFor i = some w)
    (ha : accessRefusal w origin = none) (hslot : s.slotOfLabel w.label = none) :
    s.disposition i origin = .accepted w (frameOf w i) .waitingRoll := by
  have hplace : s.placement w.label (frameOf w i) = .waitingRoll := by
    unfold State.placement
    rw [hslot]
  unfold State.disposition
  rw [h]
  dsimp only
  rw [ha]
  dsimp only
  rw [hplace]

theorem accessRefusal_withdrawn {w : Window} (h : w.access = .withdrawn) (origin : Nat) :
    accessRefusal w origin = some .withdrawn := by
  rw [accessRefusal, h]

theorem accessRefusal_denied {w : Window} {origin : Nat} (h : w.access = .restricted) (hbit : w.originMask.testBit origin = false) :
    accessRefusal w origin = some .denied := by
  rw [accessRefusal, h]
  dsimp only
  rw [originIncluded_eq, hbit]
  rfl

theorem accessRefusal_none {w : Window} {origin : Nat}
    (h : w.access = .openToAll ∨ (w.access = .restricted ∧ w.originMask.testBit origin = true)) : accessRefusal w origin = none := by
  rcases h with h | ⟨h, hbit⟩
  · rw [accessRefusal, h]
  · rw [accessRefusal, h]
    dsimp only
    rw [originIncluded_eq, hbit]
    rfl

theorem countDenied_other {st : Status} (h : st ≠ .denied) (s : State) (i : Nat) : s.countDenied i st = s := if_neg h

theorem countDenied_split {s : State} {before after : List Window} {w : Window} {i : Nat}
    (hsplit : s.ct.windows = before ++ w :: after) (hbase : w.base ≤ i) (hlimit : i ≤ w.limit)
    (hother : ∀ x, x ∈ before ∨ x ∈ after → ¬ (x.base ≤ i ∧ i ≤ x.limit)) :
    s.countDenied i .denied =
      { s with ct := { s.ct with windows := before ++ { w with denied := min (w.denied + 1) 65535 } :: after } } := by
  have hsame : ∀ l : List Window, (∀ x ∈ l, ¬ (x.base ≤ i ∧ i ≤ x.limit)) →
      (l.map fun x => if x.base ≤ i ∧ i ≤ x.limit then { x with denied := saturate countMax x.denied } else x) = l :=
    fun l hl => (List.map_congr_left fun x hx => if_neg (hl x hx)).trans (List.map_id' l)
  unfold State.countDenied
  rw [if_pos rfl]
  dsimp only [State.modCt]
  rw [hsplit, List.map_append, List.map_cons, hsame before fun x hx => hother x (.inl hx),
    hsame after fun x hx => hother x (.inr hx), if_pos ⟨hbase, hlimit⟩]
  rfl

/-! ### The entry accepted (R158) -/

theorem acceptRequest_waiting {s : State} {r : Request} (h : r.state = .waitingRoll) :
    s.acceptRequest r =
      offered
        ((s.enqueue r).post .rollWanted
          (.rollWanted r.label
            ((s.rs.queue.filter fun x => decide (x.state = .waitingRoll ∧ x.label = r.label)).length + 1))) := by
  have hcount : (s.enqueue r).wantedCount r.label =
      (s.rs.queue.filter fun x => decide (x.state = .waitingRoll ∧ x.label = r.label)).length + 1 := by
    have hqueue : (s.enqueue r).rs.queue = s.rs.queue ++ [r] := rfl
    rw [State.wantedCount, hqueue, List.filter_append, List.length_append]
    simp [h, Bool.decide_and]
  unfold State.acceptRequest State.onlyIf
  rw [decide_eq_true h, if_pos rfl, ← offerPlanning_eq_offered, ← hcount]
  rfl

/-- The reply for an entry that waits for its roll (R158). -/
theorem submitData_waiting {r : Request} (hstate : r.state = .waitingRoll) (hslot : r.slot = none) (hplaced : r.placed = none) :
    submitData r =
      u8 r.id ++ u8 r.windowId ++ u8 r.label.length ++ r.label ++ u16 r.frame ++ u8 0 ++ List.replicate 9 0 := by
  unfold submitData
  rw [hstate, hslot, hplaced]
  simp only [wireLabel, List.append_assoc]
  rfl

end Sys2Proof.Machine

namespace Sys2Proof.Proofs.Submission

open Sys2Proof.Machine Sys2Proof.Expect

/-- Once RS's checks have passed, the answer is that of the disposition (R158). -/
theorem ownSubmitRequest_disposed {i origin : Nat} {p : Option Priority} {s : State} (ho : origin ≤ 15) (hp : p ≠ none)
    (hroom : s.rs.queue.length < 32) :
    (∀ st, s.disposition i origin = .refused st → ownSubmitRequest i origin p s = (s.countDenied i st).refuse st)
      ∧ (∀ w f, s.disposition i origin = .accepted w f .waitingRoll →
        ownSubmitRequest i origin p s =
          (s.acceptRequest (s.entryFor i origin (p.getD .normal) w f .waitingRoll)).acceptedWith
            (submitData (s.entryFor i origin (p.getD .normal) w f .waitingRoll))) := by
  have hown : ownSubmitRequest i origin p s =
      (match s.disposition i origin with
       | .refused st => (s.countDenied i st).refuse st
       | .accepted w f q =>
         (s.acceptRequest (s.entryFor i origin (p.getD .normal) w f q)).acceptedWith
          (submitData (s.entryFor i origin (p.getD .normal) w f q))) := by
    have hrange : (decide (15 < origin) || p.isNone) = false := by
      simp [Nat.not_lt.mpr ho, Option.isSome_iff_ne_none.mpr hp]
    have hfull : decide (32 ≤ s.rs.queue.length) = false := decide_eq_false (Nat.not_le.mpr hroom)
    rw [ownSubmitRequest, checked_cons, checked_cons, checked_nil, hrange, hfull]
    rfl
  refine ⟨fun st h => ?_, fun w f h => ?_⟩
  · rw [hown, h]
  · rw [hown, h]

/-- Settles O50: RS's checks, then the answer of the disposition. -/
theorem requestIsSubmitted : Obligations.RequestIsSubmitted := by
  intro tag i origin p s hs answer
  have hown : ownerOf (.submitRequest tag i origin p) (placed s) = _ :=
    show ownSubmitRequest i origin p (placed s) = _ from rfl
  have hrefused : ∀ r, firstRefusal [(decide (15 < origin) || p.isNone, .range), (decide (32 ≤ s.rs.queue.length), .queueFull)] =
      some r → answer r := exec_refused (i := .submitRequest tag i origin p) rfl hs hown rfl
  have hrange : (decide (15 < origin) || p.isNone) = true ↔ 15 < origin ∨ p = none := by
    rw [Bool.or_eq_true, decide_eq_true_eq, Option.isNone_iff_eq_none]
  refine ⟨fun h => hrefused _ (if_pos (hrange.mpr h)), fun ho hp hfull => hrefused _ ?_, fun ho hp hroom => ?_⟩
  · refine (if_neg (mt hrange.mp (not_or.mpr ⟨Nat.not_lt.mpr ho, hp⟩))).trans (if_pos (decide_eq_true hfull))
  obtain ⟨hrefuse, haccept⟩ := ownSubmitRequest_disposed (i := i) (s := placed s) ho hp hroom
  refine ⟨fun hnone => ?_, fun before after w hsplit hbase hlimit hother => ?_⟩
  · exact exec_of_answer (i := .submitRequest tag i origin p) rfl hs
      (hrefuse .notHeld (disposition_not_held (windowFor_none (s := placed s) hnone) origin))
  have hwindow : (placed s).windowFor i = some w := windowFor_split (s := placed s) hsplit hbase hlimit hother
  refine ⟨fun hw => ?_, fun hw hbit => ?_, fun k hw hk hslot => ?_⟩
  · exact exec_of_answer (i := .submitRequest tag i origin p) rfl hs
      (hrefuse .withdrawn (disposition_refused hwindow (accessRefusal_withdrawn hw origin)))
  · refine exec_of_answer (i := .submitRequest tag i origin p) rfl hs
      ((hrefuse .denied (disposition_refused hwindow (accessRefusal_denied hw hbit))).trans ?_)
    rw [countDenied_split (s := placed s) hsplit hbase hlimit hother]
    rfl
  · intro r queued
    have hentry : (placed s).entryFor i origin (p.getD .normal) w (frameOf w i) .waitingRoll = r := by
      rw [hk]
      rfl
    have hanswer := haccept w (frameOf w i) (disposition_waiting hwindow (accessRefusal_none hw) hslot)
    rw [hentry, acceptRequest_waiting rfl, submitData_waiting rfl rfl rfl] at hanswer
    exact exec_of_answer (i := .submitRequest tag i origin p) rfl hs hanswer

end Sys2Proof.Proofs.Submission

/-! A request cancelled (O51). -/

namespace Sys2Proof.Machine

open Expect

theorem slot_getD {l : List (Option StoreSlot)} {n : Nat} {c : StoreSlot} (h : l[n]? = some (some c)) : l.getD n none = some c := by
  rw [List.getD_eq_getElem?_getD, h]
  rfl

/-- A capture cancelled before its delivery frees its slot; of the job list a job is gone or ABORTED (R136). -/
theorem cancelCapture_frees {s : State} {id n : Nat} {c : StoreSlot} (hslot : s.storeSlotOf id = some n)
    (hc : s.cp.slots[n]? = some (some c)) (hstate : c.state = .reserved ∨ c.state = .filling ∨ c.state = .ready) :
    ∃ jobs, s.cancelCapture id = State.freeSlot { s with cp := { s.cp with jobs := jobs } } n := by
  have hget : (s.cp.slots.getD n none).map StoreSlot.state = some c.state := by rw [slot_getD hc]; rfl
  unfold State.cancelCapture State.withSome
  rw [hslot]
  dsimp only
  rw [hget]
  rcases hstate with h | h | h
  · rw [h]
    exact ⟨_, rfl⟩
  · rw [h]
    exact ⟨_, rfl⟩
  · rw [h]
    exact ⟨s.cp.jobs, rfl⟩

/-- A slot freed with the entry it delivers (R126, R136). -/
theorem freeSlot_eq {s : State} {n : Nat} {c : StoreSlot} (hc : s.cp.slots[n]? = some (some c)) :
    ∃ due, s.freeSlot n =
      { s with
        cp :=
          { s.cp with
            slots := s.cp.slots.set n none,
            ready := if c.state = .ready then s.cp.ready.filter (fun x => decide (x ≠ n)) else s.cp.ready },
        rs :=
          { s.rs with
            queue := s.rs.queue.filter fun r => !(decide (r.state = .delivering) && decide (r.storeSlot = some n)),
            planningDue := due } } := by
  have hready : s.cp.slotIs n .ready = decide (c.state = .ready) := by rw [Cp.slotIs, slot_getD hc]
  unfold State.freeSlot
  rw [offerPlanning_eq]
  dsimp only [State.modCp, State.modRs]
  rw [hready]
  by_cases h : c.state = .ready
  · rw [decide_eq_true h, if_pos h, if_pos rfl]
    exact ⟨_, rfl⟩
  · rw [decide_eq_false h, if_neg h, if_neg (by decide)]
    exact ⟨_, rfl⟩

theorem findRequest_id {s : State} {id : Nat} {r : Request} (h : s.findRequest id = some r) : r.id = id := by
  have hfound := List.find?_some h
  exact of_decide_eq_true hfound

end Sys2Proof.Machine

namespace Sys2Proof.Proofs.Cancellation

open Sys2Proof.Machine Sys2Proof.Expect

/-- Settles O51: by the state of the entry found, and by that of its slot. -/
theorem requestIsCancelled : Obligations.RequestIsCancelled := by
  intro tag id s hs
  refine ⟨fun hnone => ?_, fun r hr => ⟨fun hdelivering => ?_, fun hwaits => ?_, fun n c htaken hslot hc hstate => ?_⟩⟩
  · have hfind : (placed s).findRequest id = none := List.find?_eq_none.mpr fun q hq => by simpa using hnone q hq
    refine exec_of_answer (i := .cancelRequest tag id) rfl hs (show ownCancelRequest id (placed s) = _ from ?_)
    rw [ownCancelRequest, hfind]
    rfl
  all_goals have hid : r.id = id := findRequest_id hr
  all_goals have hfind : (placed s).findRequest id = some r := hr
  · refine exec_of_answer (i := .cancelRequest tag id) rfl hs (show ownCancelRequest id (placed s) = _ from ?_)
    rw [ownCancelRequest, hfind]
    exact if_pos hdelivering
  · have hkept : (placed s).cancelEntry r = ((placed s).removeRequest id).offerPlanning := by
      unfold State.cancelEntry
      rw [hid]
      rcases hwaits with h | h | h <;> rw [h]
    refine exec_of_answer (i := .cancelRequest tag id) rfl hs (show ownCancelRequest id (placed s) = _ from ?_)
    rw [ownCancelRequest, hfind]
    dsimp only
    rw [if_neg (by rcases hwaits with h | h | h <;> simp [h]), hkept, offerPlanning_eq_offered]
    rfl
  · have hcancel : (placed s).cancelEntry r = (((placed s).cancelCapture id).removeRequest id).offerPlanning := by
      unfold State.cancelEntry
      rw [hid]
      rcases htaken with h | h | h <;> rw [h]
    obtain ⟨jobs, hjobs⟩ := cancelCapture_frees (s := placed s) hslot hc hstate
    obtain ⟨due, hfree⟩ := freeSlot_eq (s := { placed s with cp := { (placed s).cp with jobs := jobs } }) hc
    rw [hjobs, hfree, offerPlanning_eq] at hcancel
    refine ⟨_, exec_of_answer (i := .cancelRequest tag id) rfl hs (t := (placed s).cancelEntry r) (st := .cancelled) (data := [])
      (show ownCancelRequest id (placed s) = _ from ?_), ?_⟩
    · rw [ownCancelRequest, hfind]
      exact if_neg (by rcases htaken with h | h | h <;> simp [h])
    · rw [hcancel]
      refine ⟨rfl, rfl, fun q hq => ?_, fun q hq hne hother => ?_, rfl, rfl, rfl, rfl, rfl, rfl, rfl, rfl⟩
      · exact of_decide_eq_true (List.mem_filter.mp hq).2
      · refine List.mem_filter.mpr ⟨List.mem_filter.mpr ⟨hq, ?_⟩, decide_eq_true hne⟩
        rw [← Bool.decide_and, decide_eq_false fun h => hother h.1 h.2]
        rfl

end Sys2Proof.Proofs.Cancellation

/-! The fault commands (O56): what the halt leaves standing, and what clearing the last MAJOR entry sets going. -/

namespace Sys2Proof.Machine

open Expect

/-! ### What the reports at a halt leave (R17, R205) -/

/-- The part without its bookkeeping: the directory's entries, IX, RS, the notices and the faults. -/
def State.still (s : State) : State :=
  { s with
    cu := { s.cu with entries := [] }, ix := State.reset.ix, rs := State.reset.rs, li := State.reset.li, fm := State.reset.fm }

/-- Only the bookkeeping changed, and a latched halt stayed latched. -/
structure HaltKeeps (s t : State) : Prop where
  still : t.still = s.still
  latch : s.latched = true → t.latched = true

theorem HaltKeeps.refl (s : State) : HaltKeeps s s := ⟨rfl, id⟩

theorem HaltKeeps.trans {s t u : State} (h : HaltKeeps s t) (k : HaltKeeps t u) : HaltKeeps s u :=
  ⟨k.still.trans h.still, k.latch ∘ h.latch⟩

theorem HaltKeeps.tc {s t : State} (h : HaltKeeps s t) : t.tc = s.tc := by
  have hstill := congrArg State.tc h.still
  exact hstill

theorem HaltKeeps.cp {s t : State} (h : HaltKeeps s t) : t.cp = s.cp := by
  have hstill := congrArg State.cp h.still
  exact hstill

theorem HaltKeeps.fu {s t : State} (h : HaltKeeps s t) : t.fu = s.fu := by
  have hstill := congrArg State.fu h.still
  exact hstill

theorem HaltKeeps.cu {s t : State} (h : HaltKeeps s t) : { t.cu with entries := [] } = { s.cu with entries := [] } := by
  have hstill := congrArg State.cu h.still
  exact hstill

theorem post_haltKeeps (s : State) (src : Source) (d : NoticeDetail) : HaltKeeps s (s.post src d) := by
  obtain ⟨l, hl⟩ := post_eq s src d
  rw [hl]
  exact ⟨rfl, id⟩

theorem modRs_haltKeeps (s : State) (f : Rs → Rs) : HaltKeeps s (s.modRs f) := ⟨rfl, id⟩

theorem modIx_haltKeeps (s : State) (f : Ix → Ix) : HaltKeeps s (s.modIx f) := ⟨rfl, id⟩

theorem modMounted_haltKeeps (s : State) (f : Entry → Entry) : HaltKeeps s (s.modMounted f) := by
  unfold State.modMounted State.withSome
  split <;> exact ⟨rfl, id⟩

theorem offerPlanning_haltKeeps (s : State) : HaltKeeps s s.offerPlanning := by
  rw [offerPlanning_eq]
  exact ⟨rfl, id⟩

theorem each_haltKeeps {α : Type} {f : State → α → State} (hf : ∀ t a, HaltKeeps t (f t a)) (s : State) (xs : List α) :
    HaltKeeps s (s.each xs f) := by
  unfold State.each
  induction xs generalizing s with
  | nil => exact .refl s
  | cons x rest ih => exact (hf s x).trans (ih _)

theorem withSome_haltKeeps {α : Type} {s : State} {x : Option α} {f : State → α → State} (hf : ∀ a, HaltKeeps s (f s a)) :
    HaltKeeps s (s.withSome x f) := by
  cases x with
  | none => exact .refl s
  | some a => exact hf a

theorem onlyIf_haltKeeps {s : State} {c : Bool} {f : State → State} (hf : HaltKeeps s (f s)) : HaltKeeps s (s.onlyIf c f) := by
  unfold State.onlyIf
  split
  · exact hf
  · exact .refl s

theorem failRequest_haltKeeps (s : State) (r : Request) (w : FailReason) : HaltKeeps s (s.failRequest r w) :=
  (modRs_haltKeeps s _).trans (post_haltKeeps _ _ _)

theorem placeAgain_haltKeeps (s : State) (r : Request) : HaltKeeps s (s.placeAgain r) := by
  unfold State.placeAgain
  split
  · exact failRequest_haltKeeps _ _ _
  · exact modRs_haltKeeps _ _

theorem placeSlotAgain_haltKeeps (s : State) (n : Nat) : HaltKeeps s (s.placeSlotAgain n) :=
  each_haltKeeps placeAgain_haltKeeps _ _

theorem passEnd_haltKeeps (s : State) (o : PassOutcome) : HaltKeeps s (s.passEnd o) := by
  obtain ⟨r, l, h⟩ := passEnd_eq s o
  rw [h]
  exact ⟨rfl, id⟩

theorem rsIndexEnd_haltKeeps (s : State) (rep : IndexReport) : HaltKeeps s (s.rsIndexEnd rep) := by
  refine withSome_haltKeeps fun p => ?_
  split
  · have hplaced := (modRs_haltKeeps s _).trans (placeSlotAgain_haltKeeps s.removeIndexItem p.slot)
    exact (hplaced.trans (onlyIf_haltKeeps (each_haltKeeps (fun t r => failRequest_haltKeeps t r _) _ _))).trans
      (passEnd_haltKeeps _ _)
  · exact .refl s

/-- An occurrence never lifts a halt: an entry that was MAJOR stays MAJOR (R204). -/
theorem faultAdd_major (e : FaultEntry) {l : List FaultEntry} (h : l.any (fun x => decide (x.cls = .major)) = true) :
    (faultAdd e l).any (fun x => decide (x.cls = .major)) = true := by
  induction l with
  | nil => cases h
  | cons x rest ih =>
    rw [List.any_cons, Bool.or_eq_true, decide_eq_true_eq] at h
    unfold faultAdd
    split
    · rw [List.any_cons, Bool.or_eq_true, decide_eq_true_eq]
      refine h.imp (fun hx => ?_) id
      dsimp only
      rw [hx, ite_self]
    · split
      · rw [List.any_cons, List.any_cons, Bool.or_eq_true, Bool.or_eq_true, decide_eq_true_eq, decide_eq_true_eq]
        exact .inr h
      · rw [List.any_cons, Bool.or_eq_true, decide_eq_true_eq]
        exact h.imp id ih

theorem faultOccur_latched {s : State} (h : s.latched = true) (c : FaultCode) (k : FaultClass) (d : FaultDetail) :
    (s.faultOccur c k d).latched = true := by
  rw [State.latched, faultOccur_active]
  exact faultAdd_major _ h

theorem faultOccur_haltKeeps (s : State) (c : FaultCode) (k : FaultClass) (d : FaultDetail) :
    HaltKeeps s (s.faultOccur c k d) := by
  refine ⟨?_, fun h => faultOccur_latched h c k d⟩
  obtain ⟨m, l, h⟩ := faultOccur_eq s c k d
  rw [h]
  rfl

theorem writeIndex_haltKeeps (s : State) (st : IndexState) (n : Option Nat) : HaltKeeps s (s.writeIndex st n) :=
  modMounted_haltKeeps _ _

theorem closeAtTrailer_haltKeeps (s : State) (p : Nat) : HaltKeeps s (s.closeAtTrailer p) := by
  unfold State.closeAtTrailer
  split
  · exact modIx_haltKeeps _ _
  · exact .refl s

theorem settleIndex_haltKeeps (s : State) (p : IndexPass) (how : IndexEnd) : HaltKeeps s (s.settleIndex p how).1 := by
  unfold State.settleIndex
  dsimp only
  split
  · split
    · exact .refl s
    · split <;> exact writeIndex_haltKeeps _ _ _
  · split
    · dsimp only
      exact (writeIndex_haltKeeps s .unindexed none).trans (faultOccur_haltKeeps (s.writeIndex .unindexed none) _ _ _)
    · split
      · split
        · exact (closeAtTrailer_haltKeeps _ _).trans (writeIndex_haltKeeps _ _ _)
        · exact writeIndex_haltKeeps _ _ _
      · exact writeIndex_haltKeeps _ _ _
  · split <;> exact writeIndex_haltKeeps _ _ _

theorem endIndexPass_haltKeeps (s : State) (how : IndexEnd) : HaltKeeps s (s.endIndexPass how) := by
  refine withSome_haltKeeps fun p => ?_
  have hended : HaltKeeps s (((s.settleIndex p how).1.postIndexDone (s.settleIndex p how).2).modIx fun x => { x with pass := none }) :=
    ((settleIndex_haltKeeps s p how).trans (post_haltKeeps _ _ _)).trans (modIx_haltKeeps _ _)
  have hplaced (u : State) : HaltKeeps u (u.withSome u.mountedSlot State.placeSlotAgain).offerPlanning :=
    (withSome_haltKeeps fun n => placeSlotAgain_haltKeeps u n).trans (offerPlanning_haltKeeps _)
  dsimp only
  split
  · exact hended.trans (rsIndexEnd_haltKeeps _ _)
  · exact hended.trans (hplaced _)

theorem ixSeekOutcome_haltKeeps (s : State) : HaltKeeps s (s.ixSeekOutcome .halted) := by
  refine withSome_haltKeeps fun p => ?_
  split
  · exact .refl s
  · exact endIndexPass_haltKeeps _ _

/-- Away from STOPPED the end of an index run begins no other (R78). -/
theorem ixRunEnd_haltKeeps {s : State} (h : s.tc.state ≠ .stopped) (why : RunEnd) : HaltKeeps s (s.ixRunEnd why) := by
  refine withSome_haltKeeps fun p => ?_
  split
  · exact .refl s
  · split
    · exact endIndexPass_haltKeeps _ _
    · exact endIndexPass_haltKeeps _ _
    · split
      · exact endIndexPass_haltKeeps _ _
      · exact endIndexPass_haltKeeps _ _

theorem endList_of_no_jobs {s : State} (h : s.cp.jobs = none) : s.endList = s := by
  rw [State.endList, h]
  rfl

theorem endTracking_of_off {s : State} (h : s.fu.tracking = false) : s.endTracking = s := by
  have hsame : { s.fu with tracking := false } = s.fu := by rw [← h]
  exact congrArg (fun f => { s with fu := f }) hsame

theorem rsSeekOutcome_haltKeeps {s : State} (h : s.cp.jobs = none) : HaltKeeps s (s.rsSeekOutcome .halted) := by
  refine withSome_haltKeeps fun p => ?_
  split
  · exact passEnd_haltKeeps _ _
  · split
    · dsimp only
      rw [endList_of_no_jobs h]
      exact passEnd_haltKeeps _ _
    · exact .refl s

theorem rsRunEnd_haltKeeps (s : State) (why : RunEnd) : HaltKeeps s (s.rsRunEnd why) := by
  unfold State.rsRunEnd
  split
  · exact passEnd_haltKeeps _ _
  · exact .refl s

theorem reportSeek_haltKeeps {s : State} (h : s.cp.jobs = none) (m : Seek) : HaltKeeps s (s.reportSeek m .halted) := by
  unfold State.reportSeek
  split
  · exact rsSeekOutcome_haltKeeps h
  · exact ixSeekOutcome_haltKeeps s
  · exact post_haltKeeps _ _ _

theorem reportRun_haltKeeps {s : State} (hstate : s.tc.state ≠ .stopped) (hjobs : s.cp.jobs = none) (htrack : s.fu.tracking = false)
    (e : EndedRun) : HaltKeeps s (s.reportRun e) := by
  have hsame : (if e.purpose = .capture then s.endTracking.endList else s) = s := by
    rw [endTracking_of_off htrack, endList_of_no_jobs hjobs, ite_self]
  unfold State.reportRun
  dsimp only
  rw [hsame]
  split
  · exact ixRunEnd_haltKeeps hstate _
  · exact rsRunEnd_haltKeeps _ _

/-! ### The MAJOR halt (R17, R205) -/

/-- CP at the halt: no list, the lamp out (R124, R135). -/
theorem haltCapture_eq (s : State) :
    ∃ r c l, s.haltCapture = { s with rs := r, cp := c, li := l } ∧ c.lamp = .off ∧ c.jobs = none := by
  obtain ⟨r, c, l, h, -⟩ := dropJobs_booked s
  refine ⟨r, { c with jobs := none }.lampOut, l, ?_, rfl, rfl⟩
  rw [State.haltCapture, h]
  rfl

/-- A probe aborted, whoever ordered it (R110). -/
theorem abortProbe_eq {s : State} {p : Probe} (hp : s.fu.probe = some p) :
    ∃ r l, s.abortProbe .halted =
      { s with fu := { s.fu with probe := none, target := s.fu.lens }, cp := unlit s.cp, rs := r, li := l } := by
  obtain ⟨l, hl⟩ := post_eq
    ({ s with fu := { s.fu with probe := none, target := s.fu.lens }, cp := unlit s.cp } : State) .focusDone
    (.focusAborted p.requester .halted)
  have hpost : (((s.modFu fun f => { f with probe := none }).stopLens.releaseProbeLamp).post .focusDone
      (.focusAborted p.requester .halted)) =
      { s with fu := { s.fu with probe := none, target := s.fu.lens }, cp := unlit s.cp, li := l } := by
    rw [releaseProbeLamp_eq]
    exact hl
  unfold State.abortProbe State.withSome
  rw [hp]
  dsimp only
  rw [hpost]
  split
  · obtain ⟨r, l', h, -⟩ := rsProbeEnd_queue
      ({ s with fu := { s.fu with probe := none, target := s.fu.lens }, cp := unlit s.cp, li := l } : State) .halted
    exact ⟨r, l', h⟩
  · rw [offerPlanning_eq]
    exact ⟨_, l, rfl⟩

/-- FU at the halt: no probe, no tracking (R110, R114). -/
theorem haltFocus_eq {s : State} (hlamp : s.cp.lamp = .off) :
    ∃ r c l f, s.haltFocus = { s with rs := r, cp := c, li := l, fu := f } ∧ f.probe = none ∧ f.tracking = false
      ∧ c.lamp = .off ∧ c.jobs = s.cp.jobs := by
  have hunlit : (unlit s.cp).lamp = .off := by
    show (if s.cp.listHolds = true then s.cp.lamp else .off) = .off
    rw [hlamp, ite_self]
  unfold State.haltFocus
  cases hp : s.fu.probe with
  | none =>
    have habort : s.abortProbe .halted = s := by rw [State.abortProbe, hp]; rfl
    rw [habort]
    exact ⟨s.rs, s.cp, s.li, _, rfl, hp, rfl, hlamp, rfl⟩
  | some p =>
    obtain ⟨r, l, habort⟩ := abortProbe_eq hp
    rw [habort]
    exact ⟨r, unlit s.cp, l, _, rfl, rfl, rfl, hunlit, rfl⟩

theorem haltScheduler_haltKeeps (s : State) : HaltKeeps s s.haltScheduler := by
  unfold State.haltScheduler
  split
  · split
    · exact passEnd_haltKeeps _ _
    · exact .refl s
  · exact .refl s

theorem haltTransport_halts {s : State} (hjobs : s.cp.jobs = none) (htrack : s.fu.tracking = false) :
    ∃ c u, HaltKeeps { s with tc := c, tu := u } s.haltTransport ∧ (s.tc.state ≠ .unloaded → c.state = .halted)
      ∧ (s.tc.state = .unloaded → c.state = .unloaded) := by
  unfold State.haltTransport
  split
  · rename_i h
    exact ⟨s.tc, s.tu, .refl s, fun hn => absurd h hn, id⟩
  · rename_i h
    exact ⟨s.tc, s.tu, .refl s, fun _ => h, fun hu => by rw [hu] at h; cases h⟩
  · rename_i hun hhalt
    obtain ⟨u, hu⟩ := tensionFollow_eq ((s.modTc fun c => { c.noMotion with endedRun := none }).modTc fun c => { c with state := .halted })
    refine ⟨{ s.tc.noMotion with endedRun := none, state := .halted }, u, ?_, fun _ => rfl, fun h => absurd h hun⟩
    have henter : (s.modTc fun c => { c.noMotion with endedRun := none }).enter .halted =
        { s with tc := { s.tc.noMotion with endedRun := none, state := .halted }, tu := u } := hu
    dsimp only
    rw [henter]
    generalize hv : ({ s with tc := { s.tc.noMotion with endedRun := none, state := .halted }, tu := u } : State) = v
    have hstate : v.tc.state ≠ .stopped := by
      rw [← hv]
      exact fun h => nomatch h
    have hjobs' : v.cp.jobs = none := by
      rw [← hv]
      exact hjobs
    have htrack' : v.fu.tracking = false := by
      rw [← hv]
      exact htrack
    have hend {w : State} (e : EndedRun) (hw : HaltKeeps v w) : HaltKeeps v (w.reportRun e) := by
      have htc : w.tc = v.tc := hw.tc
      have hcp : w.cp = v.cp := hw.cp
      have hfu : w.fu = v.fu := hw.fu
      exact hw.trans (reportRun_haltKeeps (htc ▸ hstate) (hcp ▸ hjobs') (hfu ▸ htrack') e)
    have hmotion : HaltKeeps v
        (match s.tc.motion with
         | some (.seek k) => v.reportSeek k .halted
         | some (.run r) => v.reportRun { requester := r.requester, purpose := r.purpose, reason := .halted }
         | _ => v) := by
      split
      · exact reportSeek_haltKeeps hjobs' _
      · exact hend _ (.refl v)
      · exact .refl v
    cases howed : s.tc.endedRun with
    | none => exact hmotion
    | some e => exact hend e hmotion

/-- The part at the end of the halt (R205). -/
theorem majorHalt_facts (s : State) :
    let t := s.majorHalt
    (s.latched = true → t.latched = true) ∧ t.cp.lamp = .off ∧ t.cp.jobs = none ∧ t.fu.probe = none ∧ t.fu.tracking = false
      ∧ t.cu.rotation = none ∧ t.cu.rotationTimer = false ∧ t.cu.threadingTimer = false ∧ t.cu.threader = s.cu.threader
      ∧ (s.tc.state ≠ .unloaded → t.tc.state = .halted) ∧ (s.tc.state = .unloaded → t.tc.state = .unloaded) := by
  obtain ⟨r, c, l, hcapture, hlamp, hjobs⟩ := haltCapture_eq s
  obtain ⟨r', c', l', f, hfocus, hprobe, htrack, hlamp', hjobs'⟩ := haltFocus_eq (s := { s with rs := r, cp := c, li := l }) hlamp
  obtain ⟨k, u, htransport, hhalted, hunloaded⟩ :=
    haltTransport_halts (s := { s with rs := r', cp := c', li := l', fu := f }) (hjobs'.trans hjobs) htrack
  have hfirst : s.haltCapture.haltFocus = { s with rs := r', cp := c', li := l', fu := f } := by
    rw [hcapture, hfocus]
  intro t
  have hstop : t = ((({ s with rs := r', cp := c', li := l', fu := f } : State).haltTransport).haltCarousel).haltScheduler := by
    show s.majorHalt = _
    rw [State.majorHalt, hfirst]
  generalize ({ s with rs := r', cp := c', li := l', fu := f } : State).haltTransport = v at hstop htransport
  have hscheduler : HaltKeeps v.haltCarousel t := by
    rw [hstop]
    exact haltScheduler_haltKeeps _
  have hcp : t.cp = c' := hscheduler.cp.trans htransport.cp
  have hfu : t.fu = f := hscheduler.fu.trans htransport.fu
  have htc : t.tc = k := hscheduler.tc.trans htransport.tc
  have hthreader : t.cu.threader = s.cu.threader := by
    have hlast := congrArg Cu.threader hscheduler.cu
    have hbefore := congrArg Cu.threader htransport.cu
    exact hlast.trans hbefore
  refine ⟨fun hl => hscheduler.latch (htransport.latch hl), ?_, ?_, ?_, ?_, ?_, ?_, ?_, ?_, ?_, ?_⟩
  · rw [hcp]; exact hlamp'
  · rw [hcp]; exact hjobs'.trans hjobs
  · rw [hfu]; exact hprobe
  · rw [hfu]; exact htrack
  · have hcu := congrArg Cu.rotation hscheduler.cu
    exact hcu
  · have hcu := congrArg Cu.rotationTimer hscheduler.cu
    exact hcu
  · have hcu := congrArg Cu.threadingTimer hscheduler.cu
    exact hcu
  · exact hthreader
  · rw [htc]; exact hhalted
  · rw [htc]; exact hunloaded

/-! ### An operator's fault (R208) -/

theorem faultAdd_minor {e : FaultEntry} (he : e.cls = .minor) (l : List FaultEntry) :
    (faultAdd e l).any (fun x => decide (x.cls = .major)) = l.any fun x => decide (x.cls = .major) := by
  induction l with
  | nil => simp [faultAdd, he]
  | cons x rest ih =>
    unfold faultAdd
    split
    · simp [he]
    · split
      · simp [he]
      · rw [List.any_cons, ih, List.any_cons]

theorem faultAdd_new_major {e : FaultEntry} (he : e.cls = .major) (l : List FaultEntry) :
    (faultAdd e l).any (fun x => decide (x.cls = .major)) = true := by
  induction l with
  | nil => simp [faultAdd, he]
  | cons x rest ih =>
    unfold faultAdd
    split
    · simp
    · split
      · simp [he]
      · rw [List.any_cons, ih, Bool.or_true]

/-- A MINOR fault, and any fault while the halt is latched, is an occurrence alone (R204). -/
theorem raise_occurs {s : State} (cls : FaultClass) (h : cls = .minor ∨ s.latched = true) (code : FaultCode) (d : FaultDetail) :
    s.raise code cls d = s.faultOccur code cls d := by
  refine if_neg fun hc => ?_
  rw [Bool.and_eq_true, Bool.not_eq_true'] at hc
  obtain ⟨hnew, hold⟩ := hc
  rcases h with rfl | h
  · rw [State.latched, faultOccur_active, faultAdd_minor rfl] at hnew
    rw [State.latched] at hold
    rw [hold] at hnew
    cases hnew
  · rw [h] at hold
    cases hold

theorem raise_halts {s : State} (h : s.latched = false) (code : FaultCode) (d : FaultDetail) :
    (s.faultOccur code .major d).latched = true ∧ s.raise code .major d = (s.faultOccur code .major d).majorHalt := by
  have hnew : (s.faultOccur code .major d).latched = true := by
    rw [State.latched, faultOccur_active]
    exact faultAdd_new_major rfl _
  exact ⟨hnew, if_pos (by rw [hnew, h]; rfl)⟩

/-! ### The halt lifted (R207, R53, R57) -/

/-- Only the directory, the scheduler and the notices changed. -/
def SettledFrom (s t : State) : Prop := ∃ c r l, t = { s with cu := c, rs := r, li := l }

theorem SettledFrom.refl (s : State) : SettledFrom s s := ⟨s.cu, s.rs, s.li, rfl⟩

theorem SettledFrom.trans {s t u : State} : SettledFrom s t → SettledFrom t u → SettledFrom s u := by
  rintro ⟨c, r, l, rfl⟩ ⟨c', r', l', rfl⟩
  exact ⟨c', r', l', rfl⟩

theorem modCu_settledFrom (s : State) (f : Cu → Cu) : SettledFrom s (s.modCu f) := ⟨f s.cu, s.rs, s.li, rfl⟩

theorem post_settledFrom (s : State) (src : Source) (d : NoticeDetail) : SettledFrom s (s.post src d) := by
  obtain ⟨l, hl⟩ := post_eq s src d
  exact ⟨s.cu, s.rs, l, hl⟩

theorem offerPlanning_settledFrom (s : State) : SettledFrom s s.offerPlanning := by
  rw [offerPlanning_eq]
  exact ⟨s.cu, _, s.li, rfl⟩

theorem setSlotState_settledFrom (s : State) (n : Nat) (st : SlotState) : SettledFrom s (s.setSlotState n st) := by
  obtain ⟨l, hl⟩ := setSlotState_eq s n st
  exact ⟨_, s.rs, l, hl⟩

theorem mountReport_settledFrom (s : State) (n : Nat) (o : MountOutcome) :
    SettledFrom s ((s.postMountDone n o).rsMountOutcome n o) := by
  obtain ⟨r, l, h⟩ := mountReport_eq s n o
  exact ⟨s.cu, r, l, h⟩

theorem rollGone_settledFrom (s : State) (n : Nat) (l : Label) : SettledFrom s (s.rollGone n l) := by
  have hposted (t : State) (c : Bool) : SettledFrom t (t.onlyIf c fun u => u.postRollWanted l) := by
    unfold State.onlyIf
    split
    · exact post_settledFrom _ _ _
    · exact .refl t
  unfold State.rollGone
  dsimp only
  exact (SettledFrom.trans ⟨s.cu, _, s.li, rfl⟩ (hposted _ _)).trans (offerPlanning_settledFrom _)

theorem presenceCheck_settledFrom (s : State) (n : Nat) : SettledFrom s (s.presenceCheck n) := by
  have hremoved : SettledFrom s (s.removeCartridge n) := by
    have hgone : SettledFrom s ((withEntry s n Entry.empty).post .slotChange (.slotChange n .empty)) :=
      SettledFrom.trans ⟨_, s.rs, s.li, rfl⟩ (post_settledFrom (withEntry s n Entry.empty) _ _)
    rw [removeCartridge_eq]
    split
    · exact hgone
    · exact hgone.trans (rollGone_settledFrom _ _ _)
  unfold State.presenceCheck
  split
  · split
    · exact .refl s
    · exact hremoved
  · split
    · exact .refl s
    · exact hremoved
  · exact .refl s

theorem rsUnmountOutcome_settledFrom (s : State) : SettledFrom s (s.rsUnmountOutcome .halted) := by
  unfold State.rsUnmountOutcome State.withSome
  split
  · split
    · obtain ⟨r, l, h⟩ := passEnd_eq s .halted
      exact ⟨s.cu, r, l, h⟩
    · exact .refl s
  · exact .refl s

/-- CU settles the entry of an interrupted operation (R53). -/
theorem settle_settledFrom (s : State) : SettledFrom s s.settle := by
  have hreported (t : State) (n : Nat) :
      SettledFrom t ((((t.postMountDone n .halted).rsMountOutcome n .halted).clearRequester).presenceCheck n) :=
    ((mountReport_settledFrom t n .halted).trans (modCu_settledFrom _ _)).trans (presenceCheck_settledFrom _ _)
  unfold State.settle State.withSome
  split
  · rename_i n _
    dsimp only
    split
    · split
      · exact ((setSlotState_settledFrom s n _).trans (modCu_settledFrom _ _)).trans (hreported _ n)
      · exact ((setSlotState_settledFrom s n _).trans (modCu_settledFrom _ _)).trans (hreported _ n)
    · unfold State.settleMounted
      exact (((setSlotState_settledFrom s n _).trans (post_settledFrom _ _ _)).trans (rsUnmountOutcome_settledFrom _)).trans
        (modCu_settledFrom _ _)
    · exact .refl s
  · exact .refl s

theorem tensionFollow_inhibit (s : State) : s.tensionFollow.tu.driveInhibit = s.tu.driveInhibit := by
  have hloop (t : State) : t.loopFollow.tu.driveInhibit = t.tu.driveInhibit := by
    unfold State.loopFollow
    split
    · rfl
    · split <;> rfl
  have hslack (t : State) : t.slackFollow.tu.driveInhibit = t.tu.driveInhibit := by
    unfold State.slackFollow
    split <;> rfl
  have hcal (t : State) : t.calibrationFollow.tu.driveInhibit = t.tu.driveInhibit := by
    unfold State.calibrationFollow
    split <;> rfl
  exact (hcal _).trans ((hslack _).trans (hloop _))

/-- TC enters a state at rest: the faults and the drive inhibit stay (R3). -/
theorem enter_parts (s : State) (st : TransportState) :
    (s.enter st).fm = s.fm ∧ (s.enter st).tu.driveInhibit = s.tu.driveInhibit ∧ (s.enter st).tc.state = st := by
  obtain ⟨u, hu⟩ := tensionFollow_eq (s.modTc fun c => { c with state := st })
  have hinhibit := tensionFollow_inhibit (s.modTc fun c => { c with state := st })
  rw [hu] at hinhibit
  unfold State.enter
  dsimp only
  rw [hu]
  split
  · rw [offerPlanning_eq]
    exact ⟨rfl, hinhibit, rfl⟩
  · rw [offerPlanning_eq]
    exact ⟨rfl, hinhibit, rfl⟩
  · exact ⟨rfl, hinhibit, rfl⟩

theorem startRewind_parts (s : State) :
    (s.startRewind true).fm = s.fm ∧ (s.startRewind true).tu.driveInhibit = s.tu.driveInhibit
      ∧ (s.startRewind true).tc.state = .rewinding ∧ (s.startRewind true).tc.phase = .creep := by
  have hinhibit : (s.startRewind true).tu.driveInhibit = s.tu.driveInhibit := by
    have hfollow := tensionFollow_inhibit (s.noteMotion.modTc fun c => { c with state := .rewinding })
    obtain ⟨u, hu⟩ := tensionFollow_eq (s.noteMotion.modTc fun c => { c with state := .rewinding })
    have henter : s.noteMotion.enter .rewinding = (s.noteMotion.modTc fun c => { c with state := .rewinding }).tensionFollow :=
      rfl
    rw [hu] at hfollow
    unfold State.startRewind
    rw [henter, hu]
    exact hfollow
  obtain ⟨u, h⟩ := startRewind_eq s true
  refine ⟨?_, hinhibit, ?_, ?_⟩
  · rw [h]
  · rw [h]
  · rw [h]
    rfl

theorem beginRecovery_parts (s : State) :
    s.beginRecovery.fm = s.fm ∧ s.beginRecovery.tu.driveInhibit = s.tu.driveInhibit
      ∧ s.beginRecovery.tc.state = .rewinding ∧ s.beginRecovery.tc.phase = .creep := by
  have hsaved : SettledFrom s ((s.withSome s.mountedSlot fun t n => (t.saveTables n).setSlotState n .unmounting).modCu
      fun c => { c with opRequester := none }) := by
    refine SettledFrom.trans ?_ (modCu_settledFrom _ _)
    unfold State.withSome
    split
    · exact (modCu_settledFrom _ _).trans (setSlotState_settledFrom _ _ _)
    · exact .refl s
  obtain ⟨c, r, l, hsaved⟩ := hsaved
  unfold State.beginRecovery
  dsimp only
  rw [hsaved, removeIndexItem_eq]
  exact startRewind_parts _

/-- What TC leaving HALTED does (R17, R207). -/
theorem leaveHalted_facts (s : State) (stranded : Bool) :
    let t := s.leaveHalted stranded
    t.fm = s.fm ∧ t.tu.driveInhibit = s.tu.driveInhibit ∧ (s.tc.state ≠ .halted → t.tc = s.tc)
      ∧ (s.tc.state = .halted → stranded = false → t.tc.state = if s.tc.threaded then .stopped else .unloaded)
      ∧ (s.tc.state = .halted → stranded = true → t.tc.state = .rewinding ∧ t.tc.phase = .creep) := by
  intro t
  by_cases hstate : s.tc.state = .halted
  · cases stranded with
    | true =>
      have ht : t = s.beginRecovery := by
        show s.leaveHalted true = _
        rw [State.leaveHalted, if_neg (not_not_intro hstate), if_pos rfl]
      obtain ⟨hfm, hinhibit, hrewinding, hcreep⟩ := beginRecovery_parts s
      rw [ht]
      exact ⟨hfm, hinhibit, fun h => absurd hstate h, fun _ h => (nomatch h), fun _ _ => ⟨hrewinding, hcreep⟩⟩
    | false =>
      have ht : t = (s.enter (if s.tc.threaded then .stopped else .unloaded)).settle := by
        show s.leaveHalted false = _
        rw [State.leaveHalted, if_neg (not_not_intro hstate), if_neg (by decide)]
      obtain ⟨hfm, hinhibit, hentered⟩ := enter_parts s (if s.tc.threaded then .stopped else .unloaded)
      obtain ⟨c, r, l, hsettle⟩ := settle_settledFrom (s.enter (if s.tc.threaded then .stopped else .unloaded))
      rw [ht, hsettle]
      exact ⟨hfm, hinhibit, fun h => absurd hstate h, fun _ _ => hentered, fun _ h => (nomatch h)⟩
  · have ht : t = s := if_pos hstate
    rw [ht]
    exact ⟨rfl, rfl, fun _ => rfl, fun h => absurd h hstate, fun h => absurd h hstate⟩

/-! ### CLEAR_FAULTS (R206) -/

theorem isMajor_eq : isMajor = fun e => decide (e.cls = .major) := rfl

theorem not_isMajor_eq : (fun e => !isMajor e) = fun e : FaultEntry => decide (e.cls = .minor) := by
  funext e
  cases h : e.cls <;> simp [isMajor, h]

theorem length_sub_majors (l : List FaultEntry) :
    l.length - (l.filter isMajor).length = (l.filter fun e => decide (e.cls = .minor)).length := by
  rw [← not_isMajor_eq]
  induction l with
  | nil => rfl
  | cons e rest ih =>
    have hle := List.length_filter_le isMajor rest
    cases hmajor : isMajor e
    · simp only [List.filter_cons, hmajor, List.length_cons, Bool.not_false, if_true, Bool.false_eq_true, if_false]
      omega
    · simp only [List.filter_cons, hmajor, List.length_cons, Bool.not_true, if_true, Bool.false_eq_true, if_false]
      omega

theorem anyPresent_iff (s : State) :
    s.anyPresent = true ↔ ∃ e ∈ s.fm.active, e.cls = .major ∧ s.stillPresent e.code = true := by
  simp [State.anyPresent]

end Sys2Proof.Machine

namespace Sys2Proof.Proofs.FaultCommands

open Sys2Proof.Machine Sys2Proof.Expect

/-- CLEAR_FAULTS with scope ALL and no condition present. -/
theorem exec_clearAll (tag : Byte) {s : State} (hs : Listening s) (h : ¬ s.anyPresent = true) :
    exec (.clearFaults tag (some .all)) s =
      .next
        (replied
          (({ placed s with fm := { s.fm with active := [] } } : State).onlyIf (!(s.fm.active.filter isMajor).isEmpty) fun u =>
            u.liftHalt ((s.fm.active.filter isMajor).any fun e => decide (e.code = .filmStranded)))
          tag 0x50 .ok
          (u8 (s.fm.active.filter fun e => decide (e.cls = .minor)).length ++ u8 (s.fm.active.filter isMajor).length)) := by
  refine exec_of_answer (i := .clearFaults tag (some .all)) rfl hs (show ownClearFaults (some .all) (placed s) = _ from ?_)
  rw [← length_sub_majors]
  exact if_neg (show ¬ (placed s).anyPresent = true from h)

theorem clearFaults_replies (sc : Option ClearScope) (s : State) : (ownClearFaults sc s).state.li.replies = s.li.replies :=
  congrArg (fun talk : Nat × List Reply × Nat => talk.2.1) (ownClearFaults_keeps (Keeps.refl s) sc).talk

/-- The last MAJOR entries cleared (R207). -/
theorem halt_is_lifted (tag : Byte) {s : State} (hs : Listening s) (hmajors : s.fm.active.filter isMajor ≠ [])
    (hpresent : ¬ s.anyPresent = true) :
    let majors := s.fm.active.filter isMajor
    ∃ t : State, exec (.clearFaults tag (some .all)) s = .next t
      ∧ t.fm = { s.fm with active := [] } ∧ t.latched = false ∧ t.tu.driveInhibit = false
      ∧ t.li.replies =
        s.li.replies
          ++ [{ tag := tag, kind := 0x50, status := .ok,
                data := u8 (s.fm.active.filter fun e => decide (e.cls = .minor)).length ++ u8 majors.length }]
      ∧ (s.tc.state ≠ .halted → t.tc = s.tc)
      ∧ (s.tc.state = .halted → (∀ e ∈ majors, e.code ≠ .filmStranded) →
        t.tc.state = if s.tc.threaded then .stopped else .unloaded)
      ∧ (s.tc.state = .halted → (∃ e ∈ majors, e.code = .filmStranded) → t.tc.state = .rewinding ∧ t.tc.phase = .creep) := by
  intro majors
  have hexec := exec_clearAll tag hs hpresent
  have hreplies := clearFaults_replies (some .all) (placed s)
  have hmodel : (ownClearFaults (some .all) (placed s)).state =
      ({ placed s with fm := { s.fm with active := [] } } : State).onlyIf (!(s.fm.active.filter isMajor).isEmpty) fun u =>
        u.liftHalt ((s.fm.active.filter isMajor).any fun e => decide (e.code = .filmStranded)) := by
    have hclear : ownClearFaults (some .all) (placed s) = (placed s).clearAll := if_neg hpresent
    rw [hclear]
    rfl
  rw [hmodel] at hreplies
  have hsome : (!(s.fm.active.filter isMajor).isEmpty) = true := by simpa using hmajors
  generalize hstranded : (s.fm.active.filter isMajor).any (fun e => decide (e.code = .filmStranded)) = stranded at hexec hreplies
  rw [hsome] at hexec hreplies
  obtain ⟨hfm, hinhibit, hother, hplain, hrecovery⟩ :=
    leaveHalted_facts { placed s with fm := { s.fm with active := [] }, tu := { s.tu with driveInhibit := false } } stranded
  have hlift : ({ placed s with fm := { s.fm with active := [] } } : State).onlyIf true (fun u => u.liftHalt stranded) =
      (({ placed s with fm := { s.fm with active := [] }, tu := { s.tu with driveInhibit := false } } : State).leaveHalted
        stranded).offerPlanning := rfl
  generalize ({ placed s with fm := { s.fm with active := [] }, tu := { s.tu with driveInhibit := false } } : State).leaveHalted
    stranded = v at hfm hinhibit hother hplain hrecovery hlift
  rw [hlift, offerPlanning_eq] at hexec hreplies
  refine ⟨_, hexec, hfm, ?_, hinhibit, congrArg (· ++ _) hreplies, hother, fun hhalted hnot => hplain hhalted ?_,
    fun hhalted hall => hrecovery hhalted ?_⟩
  · show v.fm.active.any (fun e => decide (e.cls = .major)) = false
    rw [hfm]
    rfl
  · rw [← hstranded, List.any_eq_false]
    exact fun e he => by simpa using hnot e he
  · rw [← hstranded, List.any_eq_true]
    obtain ⟨e, he, hcode⟩ := hall
    exact ⟨e, he, decide_eq_true hcode⟩

/-- Settles O56. -/
theorem faultCommands : Obligations.FaultCommands := by
  intro tag s hs minors majors
  have hpresent := anyPresent_iff s
  refine ⟨exec_of_answer (i := .clearFaults tag none) rfl hs rfl, ?_, fun h => ?_, fun hnone => ?_, fun hsome hgone => ?_,
    fun c n => ⟨fun h => ?_, fun hlow hhigh => ⟨fun hc => ?_, fun hc hlatch => ?_, fun hc hlatch => ?_⟩⟩⟩
  · refine exec_of_answer (i := .clearFaults tag (some .minor)) rfl hs (show (placed s).clearMinor = _ from ?_)
    rw [State.clearMinor, not_isMajor_eq]
    rfl
  · exact exec_of_answer (i := .clearFaults tag (some .all)) rfl hs (if_pos (hpresent.mpr h))
  · have hclear := exec_clearAll tag hs (mt hpresent.mp fun ⟨e, he, hmajor, _⟩ => ?_)
    · rw [show s.fm.active.filter isMajor = [] from hnone] at hclear
      exact hclear
    · have hmem : e ∈ majors := List.mem_filter.mpr ⟨he, decide_eq_true hmajor⟩
      rw [hnone] at hmem
      exact List.not_mem_nil hmem
  · obtain ⟨t, hexec, hfm, hlatched, hinhibit, hreplies, hother, hplain, hrecovery⟩ := halt_is_lifted tag hs hsome (mt hpresent.mp fun ⟨e, he, hmajor, hp⟩ => by
        rw [hgone e he hmajor] at hp
        cases hp)
    refine ⟨t, hexec, hfm, hlatched, hinhibit, hreplies, hother, fun hh hn ht => ?_, fun hh hn ht => ?_, hrecovery⟩
    · rw [hplain hh hn, if_pos ht]
    · rw [hplain hh hn, if_neg (by simp [ht])]
  · refine exec_of_answer (i := .raiseFault tag c n) rfl hs (show ownRaiseFault c n (placed s) = _ from ?_)
    cases c with
    | none => rfl
    | some k => exact if_pos (h.resolve_left (by simp))
  all_goals have hin : ¬ (n < 1 ∨ 99 < n) := by omega
  · subst hc
    refine exec_of_answer (i := .raiseFault tag (some .minor) n) rfl hs
      (show ownRaiseFault (some .minor) n (placed s) = _ from (if_neg hin).trans ?_)
    rw [raise_occurs .minor (.inl rfl)]
    rfl
  · subst hc
    refine exec_of_answer (i := .raiseFault tag (some .major) n) rfl hs
      (show ownRaiseFault (some .major) n (placed s) = _ from (if_neg hin).trans ?_)
    rw [raise_occurs .major (.inr (by exact hlatch))]
    rfl
  · subst hc
    obtain ⟨hnew, hraise⟩ := raise_halts (s := placed s) hlatch .operatorMajor (.operator n)
    obtain ⟨m, l, hoccur⟩ := faultOccur_eq (placed s) .operatorMajor .major (.operator n)
    have hfacts := majorHalt_facts ((placed s).faultOccur .operatorMajor .major (.operator n))
    have hown : ownRaiseFault (some .major) n (placed s) =
        ((placed s).faultOccur .operatorMajor .major (.operator n)).majorHalt.done := by
      rw [← hraise]
      exact if_neg hin
    obtain ⟨hkept, hlamp, hjobs, hprobe, htrack, hrot, hrott, hthread, hthreader, hhalted, hunloaded⟩ := hfacts
    have hcu : ((placed s).faultOccur .operatorMajor .major (.operator n)).cu = s.cu := by rw [hoccur]; rfl
    have htc : ((placed s).faultOccur .operatorMajor .major (.operator n)).tc = s.tc := by rw [hoccur]; rfl
    rw [hcu] at hthreader
    rw [htc] at hhalted hunloaded
    exact ⟨_, exec_of_answer (i := .raiseFault tag (some .major) n) rfl hs hown, hkept hnew, hlamp, hjobs, hprobe, htrack, hrot, hrott,
      hthread, hthreader, hhalted, hunloaded⟩

end Sys2Proof.Proofs.FaultCommands

/-! A planning round (O52). -/

namespace Sys2Proof.Machine

open Expect

/-! ### A mount as it begins (R49) -/

theorem beginMount_facts {s : State} {n : Nat} (hn : n < s.cu.entries.length) (req : Requester) :
    let t := s.beginMount req n
    t.tc.state = .threading ∧ t.cu.lock = some n ∧ t.cu.opRequester = some req ∧ (t.entry n).state = .mounting
      ∧ t.rs = motionNoted s.rs ∧ (∃ m, t.tc.motion = some (.threading m)) ∧ (t.tc.phase = .idle ∨ t.tc.phase = .creep) := by
  intro t
  have hentry : (s.cu.entries.set n { s.entry n with state := .mounting }).getD n Entry.empty = { s.entry n with state := .mounting } := by
    rw [List.getD_eq_getElem?_getD, List.getElem?_set_self hn]
    rfl
  obtain ⟨u, -, hbegin⟩ := beginMount_eq s req n
  have ht : t = _ := hbegin
  by_cases hstation : s.cu.station = n ∧ s.cu.atPosition = true
  · obtain ⟨v, -, -, hthreader⟩ := startThreader_eq (s := { mounting s req n with tu := u }) rfl
    rw [ht, if_pos hstation, hthreader]
    exact ⟨rfl, rfl, rfl, congrArg Entry.state hentry, rfl, ⟨_, rfl⟩, .inr rfl⟩
  · rw [ht, if_neg hstation]
    exact ⟨rfl, rfl, rfl, congrArg Entry.state hentry, rfl, ⟨_, rfl⟩, .inl rfl⟩

/-- Threading goes on at the end of its event. -/
theorem settleMotion_threading {s : State} {m : Threading} (hm : s.tc.motion = some (.threading m))
    (hp : s.tc.phase = .idle ∨ s.tc.phase = .creep) : s.settleMotion = s := by
  have hrest : s.filmAtRest = s := by rcases hp with h | h <;> rw [State.filmAtRest, h]
  have hzero : s.endZeroDwell = s := by rw [State.endZeroDwell, hm]
  rw [State.settleMotion, State.onlyIf, hrest, ite_self, hzero]

/-! ### The round (R159, R161) -/

theorem exec_planningRound {s : State} (hs : s.resetHeld = false) :
    exec .planningRound s =
      .next
        (if s.rs.planningDue then
          (s.modRs fun r => { r with planningDue := false }).onlyIf (s.modRs fun r => { r with planningDue := false }).mayPlan
            fun u => u.planRound.settleSince u
         else s) := by
  show execPlanningRound s = _
  rw [execPlanningRound, whenRunning_running hs]

theorem mayPlan_iff (s : State) :
    s.mayPlan = true ↔
      s.rs.mode = .auto ∧ s.rs.pass = none ∧ (s.tc.state = .stopped ∨ s.tc.state = .unloaded) ∧ s.fu.probe = none
        ∧ s.ix.pass = none ∧ s.latched = false := by
  simp only [State.mayPlan, Bool.and_eq_true, Bool.or_eq_true, decide_eq_true_eq, Option.isNone_iff_eq_none, Bool.not_eq_true',
    and_assoc]

/-- With no entry that waits for an index or is READY a round decides nothing (R162). -/
theorem planRound_idle {s : State} (h : ∀ r ∈ s.rs.queue, r.state ≠ .waitingIndex ∧ r.state ≠ .ready) : s.planRound = s := by
  have hwaits : ∀ r ∈ s.rs.queue, r.waitsOrReady = false := fun r hr => by
    obtain ⟨hindex, hready⟩ := h r hr
    simp [Request.waitsOrReady, hindex, hready]
  have hrefresh : s.refresh = s := by
    have hnone : s.rs.queue.filter Request.waitsOrReady = [] :=
      List.filter_eq_nil_iff.mpr fun r hr => by simp [hwaits r hr]
    rw [State.refresh, hnone]
    rfl
  have hurgent : s.urgentRoll = none := by
    have hnone : s.rs.queue.find? Request.urgentWaiting = none :=
      List.find?_eq_none.mpr fun r hr => by simp [Request.urgentWaiting, hwaits r hr]
    rw [State.urgentRoll, hnone]
  have hold : s.oldestRoll = none := by
    have hnone : (s.rs.queue.find? fun r => r.waitsOrReady && r.slot.any s.mountable) = none :=
      List.find?_eq_none.mpr fun r hr => by simp [hwaits r hr]
    rw [State.oldestRoll, hnone]
    rfl
  have hwork : s.mountedHasWork = false := by
    unfold State.mountedHasWork
    split
    · exact List.any_eq_false.mpr fun r hr => by simp [hwaits r hr]
    · rfl
  have hchoose : s.chooseRoll = none := by
    rw [State.chooseRoll, hurgent]
    dsimp only
    rw [hwork, hold]
    rfl
  rw [State.planRound, hrefresh, State.decide_, hchoose]

/-! ### The only waiting entry's roll (R162, R163) -/

theorem slotOfLabel_entry {s : State} {l : Label} {n : Nat} (h : s.slotOfLabel l = some n) : (s.entry n).label = l ∧ l ≠ [] := by
  obtain ⟨hn, hfound, -⟩ := List.findIdx?_eq_some_iff_getElem.mp h
  rw [Bool.and_eq_true, decide_eq_true_eq, Bool.not_eq_true', ← Bool.not_eq_true, List.isEmpty_iff] at hfound
  have hentry : s.entry n = s.cu.entries[n] := by
    rw [State.entry, List.getD_eq_getElem?_getD, List.getElem?_eq_getElem hn]
    rfl
  rw [hentry]
  exact hfound

/-- The only entry, waiting for the index of an unindexed roll, stays so in the refresh (R161). -/
theorem refresh_single {s : State} {r : Request} {n : Nat} (hqueue : s.rs.queue = [r]) (hstate : r.state = .waitingIndex)
    (hslot : r.slot = some n) (hlabel : s.slotOfLabel r.label = some n) (hindex : (s.entry n).indexState = .unindexed) :
    s.refresh = { s with rs := { s.rs with queue := [{ r with placed := none }] } } := by
  have hplace : s.placement r.label r.frame = .waitingIndex n := by
    unfold State.placement
    rw [hlabel]
    dsimp only
    rw [hindex]
  have hsame : r.withPlacement (.waitingIndex n) = { r with placed := none } := by
    rw [Request.withPlacement, ← hslot, ← hstate]
  have hwaits : r.waitsOrReady = true := by simp [Request.waitsOrReady, hstate]
  have hlist : s.rs.queue.filter Request.waitsOrReady = [r] := by
    rw [hqueue]
    simp [hwaits]
  rw [State.refresh, hlist]
  show s.placeAgain r = _
  unfold State.placeAgain
  rw [hplace]
  show s.modRequest r.id (fun x => x.withPlacement (.waitingIndex n)) = _
  unfold State.modRequest
  dsimp only [State.modRs]
  rw [hqueue, List.map_cons, List.map_nil, if_pos rfl, hsame]

/-- With no roll in the path the only waiting entry's mountable roll is chosen (R162). -/
theorem chooseRoll_single {s : State} {r : Request} {n : Nat} (hqueue : s.rs.queue = [r]) (hwaits : r.waitsOrReady = true)
    (hslot : r.slot = some n) (hpath : s.mountedSlot = none) (hmount : s.mountable n = true) : s.chooseRoll = some n := by
  have hold : s.oldestRoll = some n := by
    have hfind : (s.rs.queue.find? fun r => r.waitsOrReady && r.slot.any s.mountable) = some r := by
      rw [hqueue]
      simp [hwaits, hslot, hmount]
    rw [State.oldestRoll, hfind]
    exact hslot
  have hwork : s.mountedHasWork = false := by rw [State.mountedHasWork, hpath]
  by_cases hu : r.priority = .urgent
  · have hurgent : s.urgentRoll = some n := by
      have hfind : s.rs.queue.find? Request.urgentWaiting = some r := by
        rw [hqueue]
        simp [Request.urgentWaiting, hwaits, hu]
      have hnone : (s.rs.queue.any fun x => x.urgentWaiting && s.mountedSlot.isSome && decide (x.slot = s.mountedSlot)) = false := by
        rw [hpath]
        simp
      rw [State.urgentRoll, hfind]
      dsimp only
      rw [hnone, hslot]
      simp [Option.filter, hmount]
    rw [State.chooseRoll, hurgent]
  · have hurgent : s.urgentRoll = none := by
      have hfind : s.rs.queue.find? Request.urgentWaiting = none := by
        rw [hqueue]
        simp [Request.urgentWaiting, hu]
      rw [State.urgentRoll, hfind]
    rw [State.chooseRoll, hurgent]
    dsimp only
    rw [hwork, hold]
    rfl

/-- An unloaded machine mounts the roll of a free path (R163). -/
theorem decide_mounts {s : State} {n : Nat} (hchoose : s.chooseRoll = some n) (hpath : s.mountedSlot = none)
    (htc : s.tc.state = .unloaded) (hthreader : s.cu.threader = .retracted) (hlatch : s.latched = false)
    (hstored : (s.entry n).state = .stored) (hdescription : (s.entry n).description ≠ none) :
    s.decide_ =
      ({ s with rs := { s.rs with pass := some (RsPass.begin .mount .mount n (s.entry n).label) } } : State).beginMount .rs n := by
  have hchange : s.decide_ = s.changeRoll n := by
    rw [State.decide_, hchoose]
    dsimp only
    rw [hpath]
    rfl
  have hgoes : s.mountRefused n = false := by
    simp [State.mountRefused, hlatch, htc, hthreader, hstored, Option.isSome_iff_ne_none.mpr hdescription]
  rw [hchange, State.changeRoll, if_pos htc, if_neg (by rw [hthreader]; decide)]
  dsimp only
  unfold State.rsOrderMount
  rw [if_neg (by exact ne_true_of_eq_false hgoes)]
  rfl

end Sys2Proof.Machine

namespace Sys2Proof.Proofs.Planning

open Sys2Proof.Machine Sys2Proof.Expect

/-- Settles O52: no round, a round with nothing to do, and a round that mounts the only waiting entry's roll. -/
theorem planningRoundChoosesTheRoll : Obligations.PlanningRoundChoosesTheRoll := by
  intro s hs may taken
  have hmay : taken.mayPlan = true ↔ may := mayPlan_iff taken
  have hround : s.rs.planningDue = true →
      exec .planningRound s = .next (taken.onlyIf taken.mayPlan fun u => u.planRound.settleSince u) := fun hdue => by
    rw [exec_planningRound hs, if_pos hdue]
    rfl
  refine ⟨fun hdue => ?_, fun hdue hnot => ?_, fun hdue hm hidle => ?_,
    fun r n hdue hm htc hthreader hqueue hstate hslot hn hlen hpath hlabel hstored hindex hdescription hne => ?_⟩
  · rw [exec_planningRound hs, if_neg (by simp [hdue])]
  · rw [hround hdue, Bool.eq_false_iff.mpr (mt hmay.mp hnot)]
    rfl
  · rw [hround hdue, hmay.mpr hm]
    show Host.Outcome.next (taken.planRound.settleSince taken) = _
    rw [planRound_idle (s := taken) hidle, settleSince_same rfl]
  · let refreshed : State := { taken with rs := { taken.rs with queue := [{ r with placed := none }] } }
    have hrefresh : taken.refresh = refreshed := refresh_single (s := taken) hqueue hstate hslot hlabel hindex
    obtain ⟨-, -, -, -, -, hlatch⟩ := id hm
    obtain ⟨hname, hnonempty⟩ := slotOfLabel_entry hlabel
    have hmountable : refreshed.mountable n = true := by
      show (decide ((s.entry n).state = .stored) && !(s.entry n).label.isEmpty) = true
      rw [hstored, hname]
      simpa using hnonempty
    have hchoose : refreshed.chooseRoll = some n :=
      chooseRoll_single (s := refreshed) (r := { r with placed := none }) rfl (by simp [Request.waitsOrReady, hstate]) hslot hpath hmountable
    have hmounts := decide_mounts (s := refreshed) hchoose hpath htc hthreader hlatch hstored hdescription
    let ordered : State :=
      { refreshed with rs := { refreshed.rs with pass := some (RsPass.begin .mount .mount n (s.entry n).label) } }
    obtain ⟨hthreading, hlock, hreq, hentry, hrs, ⟨m, hmotion⟩, hphase⟩ := beginMount_facts (s := ordered) (n := n) (hlen ▸ hn) .rs
    have hplan : taken.planRound = ordered.beginMount .rs n := (congrArg State.decide_ hrefresh).trans hmounts
    refine ⟨_, ?_, hthreading, hlock, hreq, hentry, ?_, ?_, ?_⟩
    · rw [hround hdue, hmay.mpr hm]
      show Host.Outcome.next (taken.planRound.settleSince taken) = _
      rw [hplan, State.settleSince, State.onlyIf, settleMotion_threading hmotion hphase, ite_self]
    · rw [hrs]
      exact ⟨_, rfl, rfl, rfl, rfl, hname⟩
    · rw [hrs]
      rfl
    · rw [hrs]
      rfl

end Sys2Proof.Proofs.Planning

/-! The capture run: its order, and the lines of a bound run (O53). -/

namespace Sys2Proof.Machine

open Expect

/-! ### The order of the run (R167, R114, R129, R130) -/

theorem runDue_iff (p : RsPass) :
    p.runDue = true ↔ p.kind = .capture ∧ p.phase = .seek ∧ p.seekDone = true ∧ p.lampLit = true := by
  simp only [RsPass.runDue, Bool.and_eq_true, decide_eq_true_eq, and_assoc]

theorem exec_captureRunOrder_not_due {s : State} (hs : s.resetHeld = false) (px : List Byte)
    (h : ∀ p, s.rs.pass = some p → p.runDue = false) : exec (.captureRunOrder px) s = .next s := by
  show execCaptureRunOrder px s = _
  rw [execCaptureRunOrder, whenRunning_running hs]
  refine congrArg Host.Outcome.next ?_
  cases hpass : s.rs.pass with
  | none => rfl
  | some p => exact if_neg (ne_true_of_eq_false (h p hpass))

theorem exec_captureRunOrder_due {s : State} {p : RsPass} {plan : RunPlan} (hs : s.resetHeld = false) (px : List Byte)
    (hpass : s.rs.pass = some p) (hdue : p.runDue = true) (hplan : p.plan = some plan) :
    exec (.captureRunOrder px) s =
      .next
        (if s.fu.probe.isSome || p.disturbed || decide (s.tc.state ≠ .stopped) || s.latched then s.abandonRun
         else s.takeCaptureRun plan px) := by
  show execCaptureRunOrder px s = _
  rw [execCaptureRunOrder, whenRunning_running hs, hpass]
  dsimp only [State.withSome]
  rw [if_pos hdue, hplan]

theorem each_same {α : Type} {s : State} {xs : List α} {f : State → α → State} (h : ∀ x ∈ xs, f s x = s) : s.each xs f = s := by
  unfold State.each
  induction xs with
  | nil => rfl
  | cons x rest ih =>
    rw [List.foldl_cons, h x List.mem_cons_self]
    exact ih fun y hy => h y (List.mem_cons_of_mem x hy)

/-- A job that neither starts nor goes on at P takes no line. -/
theorem jobAt_not_due {s : State} {j : Job} {id : Nat} (line : List Byte) (hfind : s.findJob id = some j)
    (hstart : ¬ (j.state = .waiting ∧ j.missed = false ∧ j.windowStart = s.tc.position))
    (hnext : ¬ (j.state = .filling ∧ j.windowStart + j.lineIndex * s.cp.settings.linePitch = s.tc.position)) :
    s.jobAt line id = s := by
  rw [State.jobAt, hfind]
  dsimp only [State.withSome]
  rw [if_neg hstart, if_neg hnext]

theorem captureLine_not_due {s : State} (px : List Byte)
    (h : ∀ j ∈ s.jobList, j.state = .waiting ∧ j.windowStart ≠ s.tc.position) : s.captureLine px = s := by
  have hjob (id : Nat) : s.jobAt (s.activePixels px) id = s := by
    cases hfind : s.findJob id with
    | none => rw [State.jobAt, hfind]; rfl
    | some j =>
      obtain ⟨hwaits, hstart⟩ := h j (List.mem_of_find?_eq_some hfind)
      exact jobAt_not_due _ hfind (fun hc => hstart hc.2.2) (fun hc => by rw [hwaits] at hc; exact (nomatch hc.1))
  rw [State.captureLine, each_same fun id _ => hjob id, ite_self]

/-- The end of a run, not beyond the guard end (R12). -/
def clampedEnd (length : Option Nat) (e : Nat) : Nat :=
  match length with
  | some l => min (l - 2000) e
  | none => e

/-- TC's state as it takes the capture run of a plan. -/
def captureTc (s : State) (plan : RunPlan) : Tc :=
  { s.tc with
    state := .scanning, phase := .travel, travel := .forward,
    motion :=
      some
        (.run
          { requester := .rs, purpose := .capture, speed := plan.speed, accel := s.tc.settings.acceleration,
            endPosition := some (clampedEnd s.mountedEntry.rollLength plan.endPosition) }) }

/-- The job list as it is bound at a position (R129, R130). -/
def boundList (position : Nat) (l : JobList) : JobList :=
  { bound := true, jobs := l.jobs.map fun j => { j with missed := decide (j.windowStart < position) } }

theorem startRun_capture (s : State) (plan : RunPlan) :
    ∃ u, s.startRun .rs .capture plan.speed (some plan.endPosition) =
      { s with tc := captureTc s plan, tu := u, rs := motionNoted s.rs } := by
  obtain ⟨u, hu⟩ := tensionFollow_eq (s.noteMotion.modTc fun c => { c with state := .scanning })
  refine ⟨u, ?_⟩
  have henter : s.noteMotion.enter .scanning =
      { s with tc := { s.tc with state := .scanning }, tu := u, rs := motionNoted s.rs } := hu
  unfold State.startRun
  rw [henter, State.guardEnd, captureTc]
  cases s.mountedEntry.rollLength <;> rfl

theorem startTracking_eq (s : State) :
    ∃ target, s.startTracking = { s with fu := { s.fu with tracking := true, lagReported := false, target := target } } :=
  ⟨_, rfl⟩

/-- The run taken with no window that starts at P: TC moves, tracking is on and the list is bound. -/
theorem takeCaptureRun_eq {s : State} {p : RsPass} (plan : RunPlan) (px : List Byte) (hpass : s.rs.pass = some p)
    (hclear : ∀ l, s.cp.jobs = some l → ∀ j ∈ l.jobs, j.state = .waiting ∧ j.windowStart ≠ s.tc.position) :
    ∃ u target, s.takeCaptureRun plan px =
      { s with
        tc := captureTc s plan, tu := u, rs := { s.rs with pass := some { p with phase := .run } },
        fu := { s.fu with tracking := true, lagReported := false, target := target },
        cp := { s.cp with jobs := s.cp.jobs.map (boundList s.tc.position) } } := by
  obtain ⟨u, hrun⟩ := startRun_capture (s.modPass fun p => { p with phase := .run }) plan
  have hnoted : motionNoted (s.modPass fun p => { p with phase := .run }).rs =
      { s.rs with pass := some { p with phase := .run } } := by
    simp [motionNoted, State.modPass, State.modRs, hpass]
  rw [hnoted] at hrun
  obtain ⟨target, htrack⟩ := startTracking_eq
    { s with tc := captureTc s plan, tu := u, rs := { s.rs with pass := some { p with phase := .run } } }
  refine ⟨u, target, ?_⟩
  unfold State.takeCaptureRun
  rw [hrun]
  show ((State.startTracking { s with
    tc := captureTc s plan, tu := u, rs := { s.rs with pass := some { p with phase := .run } } }).bindList).captureLine px = _
  rw [htrack]
  refine captureLine_not_due px fun j hj => ?_
  cases hjobs : s.cp.jobs with
  | none =>
    simp [State.jobList, State.bindList, State.modCp, hjobs] at hj
  | some l =>
    simp only [State.jobList, State.bindList, State.modCp, hjobs, Option.map_some, List.mem_map] at hj
    obtain ⟨k, hk, rfl⟩ := hj
    exact hclear l hjobs k hk

/-- A pass that ends is over (R160). -/
theorem passEnd_pass (s : State) (o : PassOutcome) : (s.passEnd o).rs.pass = none := by
  cases hpass : s.rs.pass with
  | none => rw [State.passEnd, hpass]; exact hpass
  | some p =>
    obtain ⟨l, hl⟩ := post_eq (s.modRs fun r => { r with pass := none }) .passDone
      (.passDone p.kind o p.slot p.capturedJobs p.misframeJobs p.droppedJobs)
    rw [State.passEnd, hpass]
    dsimp only [State.withSome]
    rw [hl, offerPlanning_eq]
    split <;> rfl

theorem abandonRun_booked (s : State) : Booked s s.abandonRun := (endList_booked s).trans (passEnd_booked _ _)

theorem abandonRun_jobs (s : State) : s.abandonRun.cp.jobs = none := by
  obtain ⟨r, l, h⟩ := passEnd_eq s.endList .abandoned
  rw [State.abandonRun, h]
  exact endList_jobs s

/-- Without a list the pass alone ends (R160). -/
theorem abandonRun_of_no_jobs {s : State} {p : RsPass} (hjobs : s.cp.jobs = none) (hpass : s.rs.pass = some p) :
    s.abandonRun =
      offered
        (State.post { s with rs := { s.rs with pass := none } } .passDone
          (.passDone p.kind .abandoned p.slot p.capturedJobs p.misframeJobs p.droppedJobs)) := by
  rw [State.abandonRun, endList_of_no_jobs hjobs, State.passEnd, hpass]
  exact offerPlanning_eq_offered _

end Sys2Proof.Machine

namespace Sys2Proof.Proofs.CaptureRuns

open Sys2Proof.Machine Sys2Proof.Expect

theorem captureRunIsOrdered : CaptureRunIsOrdered := by
  intro px s hs
  refine ⟨fun hnot => ?_, fun p plan hpass hkind hphase hseek hlamp hplan => ⟨fun hprobe hdisturbed hstop hlatch hclear => ?_,
    fun habandon => ?_⟩⟩
  · refine exec_captureRunOrder_not_due hs px fun p hpass => ?_
    exact Bool.eq_false_iff.mpr (mt (runDue_iff p).mp (hnot p hpass))
  · obtain ⟨u, target, htaken⟩ := takeCaptureRun_eq plan px hpass hclear
    have hdue : p.runDue = true := (runDue_iff p).mpr ⟨hkind, hphase, hseek, hlamp⟩
    refine ⟨s.takeCaptureRun plan px, ?_, ?_⟩
    · rw [exec_captureRunOrder_due hs px hpass hdue hplan, if_neg (by simp [hprobe, hdisturbed, hstop, hlatch])]
    · rw [htaken]
      exact ⟨rfl, rfl, rfl, rfl, rfl, rfl, rfl, rfl, rfl, rfl, rfl, rfl, rfl, rfl⟩
  · obtain ⟨r, c, l, hbooked, -⟩ := abandonRun_booked s
    have hdue : p.runDue = true := (runDue_iff p).mpr ⟨hkind, hphase, hseek, hlamp⟩
    refine ⟨s.abandonRun, ?_, abandonRun_jobs s, passEnd_pass _ _, ?_⟩
    · rw [exec_captureRunOrder_due hs px hpass hdue hplan, if_pos ?_]
      simpa [Option.isSome_iff_ne_none, or_assoc] using habandon
    · refine ⟨?_, ?_, ?_, ?_, ?_, ?_, ?_, fun hnone => ?_⟩
      iterate 7 rw [hbooked]
      rw [abandonRun_of_no_jobs hnone hpass, hkind]

end Sys2Proof.Proofs.CaptureRuns

/-! The lines of a bound run of one job (O53). -/

namespace Sys2Proof.Machine

open Expect

/-! ### A forward tick of the run, without its lines (R1, R12, R114) -/

/-- The lens target after a forward tick that brings the film to p (R114). -/
def runTarget (s : State) (p : Nat) : Nat :=
  if s.fu.tracking = true ∧ s.tc.underrun = 0 then clampNat s.fu.settings.lensMin s.fu.settings.lensMax (s.lensFor p)
  else s.fu.target

/-- P after a forward tick below the highest position (R1). -/
def nextPosition (c : Tc) : Nat := if 0 < c.underrun then c.position else c.position + 1

/-- The part once the film has moved and the lens has its new target. -/
def runTicked (s : State) : State :=
  { s with
    tc :=
      { s.tc with
        position := nextPosition s.tc, underrun := s.tc.underrun - 1, windowTicks := s.tc.windowTicks + 1,
        windowForward := true },
    fu := { s.fu with target := runTarget s (nextPosition s.tc) } }

theorem trackLens_eq (s : State) :
    s.trackLens =
      { s with
        fu :=
          { s.fu with
            target :=
              if s.fu.tracking then clampNat s.fu.settings.lensMin s.fu.settings.lensMax (s.lensFor s.tc.position)
              else s.fu.target } } := by
  unfold State.trackLens
  cases s.fu.tracking <;> rfl

theorem ticked_run {s : State} (hpass : s.ix.pass = none) (htrack : s.ix.tracker.state ≠ .reckoning)
    (hroom : 0 < s.tc.underrun ∨ s.tc.position < 16777215) : ticked s .forward = runTicked s := by
  have hsat : saturates .forward s.tc = false := by
    rcases hroom with h | h
    · simp [saturates, Nat.ne_of_gt h]
    · simp [saturates, maxPosition, Nat.not_le.mpr h]
  have hcount := movePosition_forward_eq (c := countTick .forward s.tc) hroom
  have hmoved : s.modTc (fun c => movePosition .forward (countTick .forward c)) =
      { s with
        tc :=
          { s.tc with
            position := nextPosition s.tc, underrun := s.tc.underrun - 1, windowTicks := s.tc.windowTicks + 1,
            windowForward := true } } :=
    congrArg (fun c => ({ s with tc := c } : State)) hcount
  unfold ticked
  dsimp only
  rw [hsat, hmoved]
  show (State.indexTick { s with tc := _ } _ _).onlyIf (decide (nextPosition s.tc ≠ s.tc.position)) State.trackLens = _
  rw [indexTick_idle (by exact hpass) (by exact htrack)]
  show State.onlyIf { s with tc := _ } _ State.trackLens = _
  by_cases hunder : 0 < s.tc.underrun
  · have hstay : nextPosition s.tc = s.tc.position := if_pos hunder
    have htarget : runTarget s (nextPosition s.tc) = s.fu.target := if_neg fun h => absurd h.2 (Nat.ne_of_gt hunder)
    rw [runTicked, htarget, hstay]
    simp [State.onlyIf]
  · have hmove : nextPosition s.tc = s.tc.position + 1 := if_neg hunder
    have hzero : s.tc.underrun = 0 := by omega
    have hsame : runTarget s (nextPosition s.tc) =
        if s.fu.tracking then clampNat s.fu.settings.lensMin s.fu.settings.lensMax (s.lensFor (nextPosition s.tc)) else s.fu.target := by
      simp only [runTarget, hzero, and_true]
    rw [State.onlyIf, if_pos (by rw [hmove]; simp), trackLens_eq, runTicked, hsame]
    rfl

/-- After its lines a run that moves only tests for its end (R12). -/
theorem motionTests_settle_run {s t : State} {r : Run} (hm : t.tc.motion = some (.run r)) (hrest : resting t.tc = false) :
    ∃ c, t.motionTests.settleSince s = { t with tc := c } := by
  have hsettled (u : State) (hu : resting u.tc = false) (hmotion : ∀ m, u.tc.motion ≠ some (.seek m)) : u.settleSince s = u := by
    have hzero : u.endZeroDwell = u := by
      unfold State.endZeroDwell
      split
      · rename_i m h
        exact absurd h (hmotion m)
      · rfl
    have hsettle : u.settleMotion = u := by
      rw [State.settleMotion, atRest_eq_resting, hu]
      exact hzero
    rw [State.settleSince, State.onlyIf, hsettle, ite_self]
  rw [State.motionTests, hm]
  dsimp only
  split
  · split
    · exact ⟨_, hsettled _ hrest (fun m h => nomatch h)⟩
    · exact ⟨_, hsettled _ hrest (fun m h => by rw [hm] at h; exact (nomatch h))⟩
  · exact ⟨_, hsettled _ hrest (fun m h => by rw [hm] at h; exact (nomatch h))⟩

/-! ### The store and the list of one job -/

theorem modSlot_eq {s : State} {n : Nat} {c : StoreSlot} (hc : s.cp.slots[n]? = some (some c)) (f : StoreSlot → StoreSlot) :
    s.modSlot n f = { s with cp := { s.cp with slots := s.cp.slots.set n (some (f c)) } } := by
  show ({ s with cp := { s.cp with slots := s.cp.slots.set n ((s.cp.slots.getD n none).map f) } } : State) = _
  rw [slot_getD hc]
  rfl

theorem modJob_single {s : State} {b : Bool} {j : Job} (hjobs : s.cp.jobs = some { bound := b, jobs := [j] }) (f : Job → Job) :
    s.modJob j.order.reqId f = { s with cp := { s.cp with jobs := some { bound := b, jobs := [f j] } } } := by
  show ({ s with cp := { s.cp with jobs := s.cp.jobs.map _ } } : State) = _
  rw [hjobs]
  simp

theorem findJob_single {s : State} {b : Bool} {j : Job} (hjobs : s.cp.jobs = some { bound := b, jobs := [j] }) :
    s.findJob j.order.reqId = some j := by
  simp [State.findJob, State.jobList, hjobs]

theorem slot_set_self {l : List (Option StoreSlot)} {n : Nat} {c : StoreSlot} (h : l[n]? = some (some c)) (x : StoreSlot) :
    (l.set n (some x))[n]? = some (some x) :=
  List.getElem?_set_self (List.getElem?_eq_some_iff.mp h).1

/-- The lines due are those of the list's only job. -/
theorem captureLine_single {s : State} {j : Job} (hstate : s.tc.state = .scanning)
    (hjobs : s.cp.jobs = some { bound := true, jobs := [j] }) (px : List Byte) :
    s.captureLine px = s.jobAt (s.activePixels px) j.order.reqId := by
  have hcapturing : s.capturing = true := by simp [State.capturing, hstate, hjobs]
  rw [State.captureLine, hcapturing, State.jobList, hjobs]
  rfl

/-! ### The request's state (R168) -/

theorem findRequest_modRequest {s : State} {id : Nat} {f : Request → Request} (hf : ∀ r, (f r).id = r.id) :
    (s.modRequest id f).findRequest id = (s.findRequest id).map f := by
  show (s.rs.queue.map fun r => if r.id = id then f r else r).find? (fun r => decide (r.id = id)) = _
  have hkey : (fun r => decide (r.id = id)) ∘ (fun r => if r.id = id then f r else r) = fun r : Request => decide (r.id = id) := by
    funext r
    by_cases h : r.id = id <;> simp [h, hf]
  rw [List.find?_map, hkey]
  cases hfound : s.rs.queue.find? fun r => decide (r.id = id) with
  | none => rw [State.findRequest, hfound]; rfl
  | some r =>
    rw [State.findRequest, hfound, Option.map_some, Option.map_some, if_pos (findRequest_id hfound)]

/-- RS's state q has the request id, where s has it, in the state st. -/
def Reported (s : State) (id : Nat) (st : RequestState) (q : Rs) : Prop :=
  ∀ r, s.findRequest id = some r → State.findRequest { s with rs := q } id = some { r with state := st }

theorem reported_modRequest (s : State) (id : Nat) (st : RequestState) :
    Reported s id st (s.modRequest id fun x => { x with state := st }).rs := fun r hr => by
  show (s.modRequest id fun x => { x with state := st }).findRequest id = _
  rw [findRequest_modRequest (f := fun x => { x with state := st }) fun _ => rfl, hr]
  rfl

theorem reported_of_absent {s : State} {id : Nat} (h : s.findRequest id = none) (st : RequestState) (q : Rs) : Reported s id st q :=
  fun r hr => by rw [h] at hr; exact (nomatch hr)

theorem jobReport_capturing (s : State) (id : Nat) :
    ∃ q, s.jobReport id .capturing = { s with rs := q } ∧ Reported s id .capturing q := by
  have hcount : s.modPass (fun p => JobReport.count p .capturing) = s := by
    show ({ s with rs := { s.rs with pass := s.rs.pass.map fun p => p } } : State) = s
    rw [Option.map_id']
  unfold State.jobReport
  dsimp only
  rw [hcount]
  cases hfound : s.findRequest id with
  | none => exact ⟨s.rs, rfl, reported_of_absent hfound _ _⟩
  | some r => exact ⟨_, rfl, reported_modRequest s id .capturing⟩

theorem countCapture_keeps (q : Rs) (slot : Option Nat) :
    (countCapture q slot).queue = q.queue ∧ (countCapture q slot).pass = q.pass := by
  unfold countCapture
  split <;> exact ⟨rfl, rfl⟩

/-- The record of RS's pass with one job more captured (R160). -/
def onePassJobMore (q : Rs) : Option RsPass := q.pass.map fun p => { p with capturedJobs := p.capturedJobs + 1 }

theorem jobReport_captured (s : State) (id : Nat) :
    ∃ q, s.jobReport id .captured = { s with rs := q } ∧ Reported s id .captured q ∧ q.pass = onePassJobMore s.rs := by
  unfold State.jobReport
  cases hfound : s.findRequest id with
  | none =>
    have hnone : (s.modPass fun p => JobReport.count p .captured).findRequest id = none := hfound
    dsimp only
    rw [hnone]
    exact ⟨_, rfl, reported_of_absent hfound _ _, rfl⟩
  | some r =>
    have hsome : (s.modPass fun p => JobReport.count p .captured).findRequest id = some r := hfound
    dsimp only
    rw [hsome]
    obtain ⟨hqueue, hpass⟩ := countCapture_keeps
      ((s.modPass fun p => JobReport.count p .captured).modRequest id fun x => { x with state := .captured }).rs r.slot
    refine ⟨_, rfl, fun x hx => ?_, hpass⟩
    have hreported := reported_modRequest (s.modPass fun p => JobReport.count p .captured) id .captured x hx
    rw [State.findRequest] at hreported ⊢
    rw [← hreported]
    exact congrArg (List.find? _) hqueue

/-! ### What FU learns of a job (R115, R116) -/

theorem reportLag_eq (s : State) (windowStart : Nat) :
    ∃ b m l, s.reportLag windowStart = { s with fu := { s.fu with lagReported := b }, fm := m, li := l } := by
  unfold State.reportLag
  split
  · obtain ⟨m, l, h⟩ := faultOccur_eq (s.modFu fun f => { f with lagReported := true }) .focusLag .minor
      (.focusLag s.rollSlot windowStart s.fu.lens s.fu.target)
    exact ⟨true, m, l, h⟩
  · exact ⟨s.fu.lagReported, s.fm, s.li, rfl⟩

theorem placeItem_eq (s : State) (p : Nat) :
    ∃ q, s.placeItem p = { s with rs := q } ∧ q.queue = s.rs.queue ∧ q.pass = s.rs.pass := by
  unfold State.placeItem
  split
  · exact ⟨s.rs, rfl, rfl, rfl⟩
  · rw [offerPlanning_eq]
    exact ⟨_, rfl, rfl, rfl⟩

theorem frameScored_eq (s : State) (predicted score : Nat) (lagged : Bool) :
    ∃ q f, s.frameScored predicted score lagged = { s with rs := q, fu := f } ∧ q.queue = s.rs.queue ∧ q.pass = s.rs.pass := by
  unfold State.frameScored State.withSome
  split
  · exact ⟨s.rs, s.fu, rfl, rfl, rfl⟩
  split
  · rename_i e _
    dsimp only
    split
    · obtain ⟨q, hplaced, hkept⟩ := placeItem_eq
        (s.modFu fun f => { f with map := f.map.map fun x => if x.position = e.position then { x with stale := true } else x }) e.position
      exact ⟨q, _, hplaced, hkept⟩
    · exact ⟨s.rs, s.fu, rfl, rfl, rfl⟩
  · exact ⟨s.rs, s.fu, rfl, rfl, rfl⟩

/-! ### Windows that start and end, and their lines (R126, R127, R130, R131, R133) -/

/-- The store and the list after a job of slot n: the slot's content, the job and the Ready List. -/
def storing (c : Cp) (n : Nat) (x : StoreSlot) (j : Job) (ready : List Nat) : Cp :=
  { c with slots := c.slots.set n (some x), jobs := some { bound := true, jobs := [j] }, ready := ready }

/-- A job as its window starts (R131). -/
def started (s : State) (j : Job) : Job :=
  { j with
    state := .filling, focusLag := s.lensLags, lens := s.fu.lens, predictedOnly := decide (s.ix.tracker.state ≠ .counting) }

theorem startWindow_eq {s : State} {j : Job} {c : StoreSlot} (hjobs : s.cp.jobs = some { bound := true, jobs := [j] })
    (hslot : s.cp.slots[j.order.slot]? = some (some c)) (hstate : c.state = .reserved) :
    ∃ q f m l, s.startWindow j =
        { s with
          rs := q, fu := f, fm := m, li := l,
          cp := storing s.cp j.order.slot { c with state := .filling, record := (started s j).record s.crop.2 } (started s j) s.cp.ready }
      ∧ Reported s j.order.reqId .capturing q := by
  have hopened : s.modSlot j.order.slot StoreSlot.opened =
      { s with cp := { s.cp with slots := s.cp.slots.set j.order.slot (some { c with state := .filling }) } } := by
    rw [modSlot_eq hslot, StoreSlot.opened, if_pos hstate]
  obtain ⟨q, hreport, hreported⟩ := jobReport_capturing
    { s with cp := { s.cp with slots := s.cp.slots.set j.order.slot (some { c with state := .filling }) } } j.order.reqId
  obtain ⟨b, m, l, hlag⟩ := reportLag_eq
    { s with cp := { s.cp with slots := s.cp.slots.set j.order.slot (some { c with state := .filling }) }, rs := q } j.windowStart
  refine ⟨q, { s.fu with lagReported := b }, m, l, ?_, hreported⟩
  unfold State.startWindow
  dsimp only
  rw [hopened, hreport]
  dsimp only
  rw [hlag, modJob_single (by exact hjobs), modSlot_eq (c := { c with state := .filling }) (by exact slot_set_self hslot _)]
  dsimp only
  rw [List.set_set]
  rfl

/-- A line that is not the job's last (R130). -/
theorem takeLine_goes_on {s : State} {j : Job} {c : StoreSlot} (line : List Byte)
    (hjobs : s.cp.jobs = some { bound := true, jobs := [j] }) (hslot : s.cp.slots[j.order.slot]? = some (some c))
    (hmore : j.lineIndex + 1 ≠ j.lines) :
    s.takeLine j line =
      { s with
        cp := storing s.cp j.order.slot { c with lines := c.lines ++ [line] } { j with lineIndex := j.lineIndex + 1 } s.cp.ready } := by
  unfold State.takeLine
  dsimp only
  rw [modSlot_eq hslot, modJob_single (by exact hjobs), if_neg hmore]
  rfl

/-- The record of a job whose window ends (R133, R134). -/
def endedRecord (s : State) (j : Job) (lines : List (List Byte)) : FrameRecord :=
  { j.record s.crop.2 with
    score := bandScore (scoreBand (j.pitch / 512) s.cp.settings.linePitch j lines),
    flags := { (j.record s.crop.2).flags with markNotSeen := j.observed.isNone } }

theorem makeReady_filling {p : Cp} {n : Nat} {c : StoreSlot} (hslot : p.slots[n]? = some (some c)) (hstate : c.state = .filling)
    (record : FrameRecord) :
    p.makeReady n record =
      { p with slots := p.slots.set n (some { c with state := .ready, record := record }), ready := p.ready ++ [n] } := by
  unfold Cp.makeReady
  rw [slot_getD hslot]
  exact if_pos hstate

theorem endWindow_eq {s : State} {j : Job} {c : StoreSlot} (hjobs : s.cp.jobs = some { bound := true, jobs := [j] })
    (hslot : s.cp.slots[j.order.slot]? = some (some c)) (hstate : c.state = .filling) :
    ∃ q f, s.endWindow j =
        { s with
          rs := q, fu := f,
          cp :=
            storing s.cp j.order.slot { c with state := .ready, record := endedRecord s j c.lines } { j with state := .done }
              (s.cp.ready ++ [j.order.slot]) }
      ∧ Reported s j.order.reqId .captured q ∧ q.pass = onePassJobMore s.rs := by
  have hready : s.modCp (fun p => p.makeReady j.order.slot (endedRecord s j c.lines)) = _ :=
    congrArg (fun p => ({ s with cp := p } : State)) (makeReady_filling hslot hstate (endedRecord s j c.lines))
  obtain ⟨q, hreport, hreported, hpass⟩ := jobReport_captured
    { s with
      cp :=
        storing s.cp j.order.slot { c with state := .ready, record := endedRecord s j c.lines } { j with state := .done }
          (s.cp.ready ++ [j.order.slot]) } j.order.reqId
  obtain ⟨q', f, hscored, hqueue, hpass'⟩ := frameScored_eq
    { s with
      rs := q,
      cp :=
        storing s.cp j.order.slot { c with state := .ready, record := endedRecord s j c.lines } { j with state := .done }
          (s.cp.ready ++ [j.order.slot]) } j.order.predicted (endedRecord s j c.lines).score j.focusLag
  refine ⟨q', f, ?_, fun r hr => ?_, hpass'.trans hpass⟩
  · unfold State.endWindow
    dsimp only
    rw [slot_getD hslot]
    show (((s.modCp fun p => p.makeReady j.order.slot (endedRecord s j c.lines)).modJob j.order.reqId fun x =>
      { x with state := .done }).jobReport j.order.reqId .captured).frameScored j.order.predicted
        (endedRecord s j c.lines).score j.focusLag = _
    rw [hready, modJob_single (by exact hjobs)]
    show ((State.jobReport { s with cp := storing s.cp j.order.slot _ _ _ } j.order.reqId .captured).frameScored _ _ _) = _
    rw [hreport]
    exact hscored
  · rw [← hreported r hr]
    exact congrArg (List.find? _) hqueue

/-- The job's last line ends its window (R133). -/
theorem takeLine_last {s : State} {j : Job} {c : StoreSlot} (line : List Byte)
    (hjobs : s.cp.jobs = some { bound := true, jobs := [j] }) (hslot : s.cp.slots[j.order.slot]? = some (some c))
    (hstate : c.state = .filling) (hlast : j.lineIndex + 1 = j.lines) :
    ∃ q f, s.takeLine j line =
        { s with
          rs := q, fu := f,
          cp :=
            storing s.cp j.order.slot
              { c with
                state := .ready, lines := c.lines ++ [line],
                record := endedRecord s { j with lineIndex := j.lines } (c.lines ++ [line]) }
              { j with state := .done, lineIndex := j.lines } (s.cp.ready ++ [j.order.slot]) }
      ∧ Reported s j.order.reqId .captured q ∧ q.pass = onePassJobMore s.rs := by
  obtain ⟨q, f, hended, hreported, hpass⟩ := endWindow_eq
    (s := { s with
      cp := storing s.cp j.order.slot { c with lines := c.lines ++ [line] } { j with lineIndex := j.lines } s.cp.ready })
    (j := { j with lineIndex := j.lines }) (c := { c with lines := c.lines ++ [line] }) rfl (slot_set_self hslot _) hstate
  refine ⟨q, f, ?_, hreported, hpass⟩
  unfold State.takeLine
  dsimp only
  rw [modSlot_eq hslot, modJob_single (by exact hjobs), if_pos hlast, hlast]
  refine hended.trans ?_
  dsimp only [storing]
  rw [List.set_set]
  rfl

end Sys2Proof.Machine

/-! A forward tick of a bound run, and the settling of O53. -/

namespace Sys2Proof.Machine

open Expect

/-! ### The only job at a position (R130, R131, R133) -/

/-- A job that starts takes its first line, not its last. -/
theorem jobAt_starts {s : State} {j : Job} {c : StoreSlot} (line : List Byte)
    (hjobs : s.cp.jobs = some { bound := true, jobs := [j] }) (hslot : s.cp.slots[j.order.slot]? = some (some c))
    (hstarts : j.state = .waiting ∧ j.missed = false ∧ j.windowStart = s.tc.position) (hstate : c.state = .reserved)
    (hmore : j.lineIndex + 1 ≠ j.lines) :
    ∃ q f m l, s.jobAt line j.order.reqId =
        { s with
          rs := q, fu := f, fm := m, li := l,
          cp :=
            storing s.cp j.order.slot
              { c with state := .filling, lines := c.lines ++ [line], record := (started s j).record s.crop.2 }
              { started s j with lineIndex := j.lineIndex + 1 } s.cp.ready }
      ∧ Reported s j.order.reqId .capturing q := by
  obtain ⟨q, f, m, l, hopened, hreported⟩ := startWindow_eq hjobs hslot hstate
  refine ⟨q, f, m, l, ?_, hreported⟩
  rw [State.jobAt, findJob_single hjobs]
  dsimp only [State.withSome]
  rw [if_pos hstarts, hopened]
  have hfound : State.findJob { s with
      rs := q, fu := f, fm := m, li := l,
      cp := storing s.cp j.order.slot { c with state := .filling, record := (started s j).record s.crop.2 } (started s j) s.cp.ready }
      j.order.reqId = some (started s j) :=
    findJob_single (b := true) (j := started s j) rfl
  rw [hfound]
  dsimp only
  rw [takeLine_goes_on (j := started s j) (c := { c with state := .filling, record := (started s j).record s.crop.2 }) line (by rfl)
    (by exact slot_set_self hslot _) hmore]
  dsimp only [storing]
  rw [show (started s j).order.slot = j.order.slot from rfl, List.set_set]
  rfl

/-- A FILLING job at its next line's position takes it. -/
theorem jobAt_continues {s : State} {j : Job} (line : List Byte) (hjobs : s.cp.jobs = some { bound := true, jobs := [j] })
    (hnext : j.state = .filling ∧ j.windowStart + j.lineIndex * s.cp.settings.linePitch = s.tc.position) :
    s.jobAt line j.order.reqId = s.takeLine j line := by
  rw [State.jobAt, findJob_single hjobs]
  dsimp only [State.withSome]
  rw [if_neg (fun h => by rw [hnext.1] at h; exact (nomatch h.1)), if_pos hnext]

/-- A forward tick of the run is the tick of the film, the line of the job, and the run's own test of its end. -/
theorem tick_run {s : State} {r : Run} {j : Job} (hstate : s.tc.state = .scanning) (hmotion : s.tc.motion = some (.run r))
    (hrest : resting s.tc = false) (hpass : s.ix.pass = none) (htrack : s.ix.tracker.state ≠ .reckoning)
    (hroom : 0 < s.tc.underrun ∨ s.tc.position < 16777215) (hjobs : s.cp.jobs = some { bound := true, jobs := [j] })
    (px : List Byte) :
    ∃ tc, s.tick .forward px = { (runTicked s).jobAt (s.activePixels px) j.order.reqId with tc := tc } := by
  have hline : (runTicked s).captureLine px = (runTicked s).jobAt (s.activePixels px) j.order.reqId :=
    captureLine_single (s := runTicked s) hstate hjobs px
  have htc : ((runTicked s).jobAt (s.activePixels px) j.order.reqId).tc = (runTicked s).tc :=
    (film_eq_iff.mp (jobAt_film _ _ _)).1
  rw [tick_forward, ticked_run hpass htrack hroom, hline]
  exact motionTests_settle_run (r := r) (by rw [htc]; exact hmotion) (by rw [htc]; exact hrest)

end Sys2Proof.Machine

namespace Sys2Proof.Proofs.CaptureRuns

open Sys2Proof.Machine Sys2Proof.Expect

theorem runTakesLines : RunTakesLines := by
  intro px s r j c hs hstate hmotion _ hrest hpass htrack hroom hjobs hslot p lensTarget pitch lines store request starts continues
  obtain ⟨tc, htick⟩ := tick_run hstate hmotion hrest hpass htrack hroom hjobs px
  refine ⟨{ (runTicked s).jobAt (s.activePixels px) j.order.reqId with tc := tc }, ?_, fun hstart hnext => ?_,
    fun hstart hreserved hmore => ?_, fun hnext hfilling hmore => ?_, fun hnext hfilling hlast => ?_⟩
  · show execEncoderTick .forward px s = _
    rw [execEncoderTick, whenRunning_running hs, htick]
  · have hsame : (runTicked s).jobAt (s.activePixels px) j.order.reqId = runTicked s :=
      jobAt_not_due _ (findJob_single (s := runTicked s) hjobs) hstart hnext
    rw [hsame]
    rfl
  · obtain ⟨q, f, m, l, hjob, hreported⟩ := jobAt_starts (s := runTicked s) (s.activePixels px) hjobs hslot hstart hreserved
      (Nat.ne_of_lt hmore)
    rw [hjob]
    exact ⟨hreported, rfl⟩
  · rw [jobAt_continues (s := runTicked s) _ hjobs hnext,
      takeLine_goes_on (s := runTicked s) _ hjobs hslot (Nat.ne_of_lt hmore)]
    rfl
  · obtain ⟨q, f, hjob, hreported, hcounted⟩ := takeLine_last (s := runTicked s) (s.activePixels px) hjobs hslot hfilling hlast
    rw [jobAt_continues (s := runTicked s) _ hjobs hnext, hjob]
    refine ⟨hreported, fun k hk => ?_, rfl⟩
    show q.pass = _
    rw [hcounted, onePassJobMore, show (runTicked s).rs.pass = some k from hk]
    rfl

/-- Settles O53: the order of a CAPTURE pass's run, and what a forward tick of it does to the frame store. -/
theorem captureRunIsOrderedAndTaken : Obligations.CaptureRunIsOrderedAndTaken := ⟨captureRunIsOrdered, runTakesLines⟩

end Sys2Proof.Proofs.CaptureRuns
